-- ==== Sys2Proof/Word.lean ====
section
/-! DEFINITION. Bytes, half words, words and addresses of the BC4, and counters that saturate (00_scope, Conventions). -/

namespace Sys2Proof

/-- One byte. -/
abbrev Byte := BitVec 8

/-- A 16-bit field of a record. -/
abbrev Half := BitVec 16

/-- A word is 32 bits (00_scope, Addresses, words and transactions). -/
abbrev Word := BitVec 32

/-- Byte addresses are 24 bits (00_scope, Addresses, words and transactions). -/
abbrev Addr := BitVec 24

/-- A counter described as saturating stops at its largest value (00_scope, Counters). -/
def satInc {w : Nat} (x : BitVec w) : BitVec w :=
  if x = BitVec.allOnes w then x else x + 1

end Sys2Proof
end

