-- ==== Sys2Proof/Config.lean ====
section
/-! DEFINITION. The names and constants that the spec fixes for the part: result codes, units, attention causes,
records of the service window, and the numbers of 00_scope and the record tables. One result is left open by the spec, the
rounding of a tone period that lies half way between two microseconds: it is a free value (log 22). What unwritten memory
reads as is `Mem.unlisted` (log 1). -/

namespace Sys2Proof

/-- The shared numbering of result and end codes (00_scope, Result and end codes). -/
inductive Code where
  | ok | badArg | refusedClaim | stalled | notDriver | busy | full | locked | driverFull | off
  | noPeer | linkDown | queueFull | preempted | ended | starvedOut | badDesc | restart | peerGone | expired
  deriving DecidableEq, Repr

/-- The six switchable units (section 2.5), in the order the control record lists them. -/
inductive BlockUnit where
  | motor | sense | input | reflex | sound | link
  deriving DecidableEq, Repr

/-- One value for each switchable unit. -/
structure PerUnit (α : Type) where
  motor : α
  sense : α
  input : α
  reflex : α
  sound : α
  link : α
  deriving DecidableEq, Repr

/-- The ten attention causes in priority order (chapter 11). -/
inductive Cause where
  | reflex | stall | claim | peer | mail | event | scan | sound | send | guard
  deriving DecidableEq, Repr

/-- The records of the service window map (section 1.2), without the outbound slot bodies and the buffer pool, which
are no records (R11). -/
inductive RecId where
  | control
  | attention
  | status
  | ringStatus
  | ringEntry (i : Fin 32)
  | motorSlot (m : Fin 4)
  | motorStatus (m : Fin 4)
  | channelSettings (ch : Fin 8)
  | scanProgram
  | scanStatus
  | sampleSlot (ch : Fin 8)
  | inputSettings (n : Fin 11)
  | inputState
  | reflexEntry (i : Fin 8)
  | reflexStatus
  | soundRequest
  | soundStatus
  | linkSettings
  | linkStatus
  | peerImage (p : Fin 8)
  | subImage (k : Fin 4)
  | inboundStatus
  | inboundDesc (d : Fin 16)
  | releaseWord
  | outHeader (k : Fin 4)
  | outStatus (k : Fin 4)
  deriving DecidableEq, Repr

namespace Config

/-- The service window is the top 64 KiB of the 16 MiB address space (section 1.2). -/
abbrev windowBase : Nat := 0xFF0000
/-- One past the last byte address. -/
abbrev addressSpace : Nat := 0x1000000
/-- Family code and revision of the status record (Table 2-2). -/
abbrev familyCode : Half := 0x0B4C
abbrev revision : Half := 1
/-- The offset that the last latch result shows when there is none (Table 2-2). -/
abbrev noLatchOffset : Half := 0xFFFF
/-- The elapsed time of the processor-quiet timer is held here (R19). -/
abbrev quietHeld : Nat := 10000
/-- A peer's silence is held at 255 s (R154), in ms. -/
abbrev silenceHeld : Nat := 255000
/-- A due subscription's lateness is held at 1000 ms (R166). -/
abbrev latenessHeld : Nat := 1000
/-- COOLING lasts 1000 ms (R50). -/
abbrev coolTime : Word := 1000
/-- The starved limit and the reread time of a starved stream, in ms (R138). -/
abbrev starvedLimit : Word := 2000
abbrev rereadTime : Word := 10
/-- The staging buffer holds 256 bytes (00_scope, Sound unit). -/
abbrev stagingSize : Nat := 256
/-- Event ring slots (R102). -/
abbrev ringSize : Nat := 32
/-- The reply queue holds up to eight replies (R170). -/
abbrev replyQueueSize : Nat := 8
/-- Largest payload length of a frame (Table 9-1). -/
abbrev maxPayload : Nat := 1000
/-- Free value: whether a tone period half way between two microseconds is rounded up, by frequency (R134, log 22). -/
opaque halfUp : Nat → Bool
/-- Sync byte of a frame (Table 9-1). -/
abbrev syncByte : Byte := 0x5A

end Config
end Sys2Proof
end

