-- ==== Sys2Proof/Syntax.lean ====
section
/-! DEFINITION. The commands: one constructor of `Instr` for each row of spec/opcode_table.json, with the row's
operands. A row that latches a processor record carries that record's fields (without its spare bytes and without the
command code of its latch word, which the row names); log 5 says what such a row stands for. -/

namespace Sys2Proof

/-- A transaction's kind with what a WRITE carries: for each word its data and its byte enables, bit k for byte k
(00_scope, Addresses, words and transactions). -/
inductive TxKind where
  | read (count : Nat)
  | write (words : List (Word × BitVec 4))
  deriving DecidableEq, Repr

/-- A memory transaction: its start address and its kind. -/
structure Transaction where
  addr : Addr
  kind : TxKind
  deriving DecidableEq, Repr

/-- Control record (Table 2-1). -/
structure ControlRec where
  enables : Vector Byte 6 := Vector.replicate 6 0
  attention : Vector Byte 10 := Vector.replicate 10 0
  quiet : Word := 2000
  deriving DecidableEq, Repr

/-- Motor command slot (Table 4-1). -/
structure MotorSlot where
  duty : Half := 0
  endAction : Byte := 0
  param : Word := 0
  freshness : Word := 0
  pwm : Byte := 16
  stallTime : Byte := 50
  threshold : Half := 300
  deriving DecidableEq, Repr

/-- Scan program record (Table 5-1). -/
structure ScanRec where
  first : Byte := 0
  last : Byte := 7
  mode : Byte := 0
  interval : Half := 0
  deriving DecidableEq, Repr

/-- Channel settings record (Table 5-4). -/
structure ChannelRec where
  consume : Byte := 0
  enable : Byte := 0
  mode : Byte := 0
  event : Byte := 0
  lower : Half := 0
  upper : Half := 4095
  deriving DecidableEq, Repr

/-- Input settings record (Table 6-1). -/
structure InputRec where
  debounce : Byte := 1
  polarity : Byte := 0
  event : Byte := 0
  deriving DecidableEq, Repr

/-- One term of a reflex entry (Table 7-1): kind, index, invert. -/
structure TermRec where
  kind : Byte := 0
  index : Byte := 0
  invert : Byte := 0
  deriving DecidableEq, Repr

/-- Reflex entry (Table 7-1). -/
structure ReflexRec where
  enable : Byte := 0
  rearm : Byte := 0
  combine : Byte := 0
  stopMode : Byte := 0
  term1 : TermRec := {}
  term2 : TermRec := {}
  term3 : TermRec := {}
  pulse : Byte := 0
  hold : Half := 0
  stop : Byte := 0
  tone : Byte := 0
  alarm : Byte := 0
  attention : Byte := 0
  restart : Byte := 0
  motors : Vector Byte 4 := Vector.replicate 4 0
  frequency : Half := 0
  duration : Half := 0
  deriving DecidableEq, Repr

/-- Sound request slot (Table 8-1). -/
structure SoundRec where
  frequency : Half := 0
  volume : Byte := 0
  rate : Byte := 0
  duration : Word := 0
  desc : Word := 0
  deriving DecidableEq, Repr

/-- Link settings record (Table 9-4). -/
structure LinkRec where
  lock : Byte := 0
  driverLimit : Byte := 1
  aging : Byte := 30
  rising : Byte := 40
  falling : Byte := 10
  low : Byte := 8
  high : Byte := 16
  holdTimeout : Half := 500
  deriving DecidableEq, Repr

/-- Outbound slot header (Table 10-5). -/
structure OutRec where
  dest : Word := 0
  length : Half := 0
  deriving DecidableEq, Repr

/-- The commands of the block, one constructor for each row of spec/opcode_table.json, in the table's order. -/
inductive Instr where
  | powerOn
  | resetRelease
  | initWriteDone
  /-- A transaction arrives at the upstream port. -/
  | processorTransaction (t : Transaction)
  | arbiterGrant
  | processorWrite
  | processorRead
  | publicationDone
  | attnGapExpiry
  | procQuietExpiry
  | blockEnables (e : PerUnit Bool)
  | attentionEnables (e : Vector Bool 10)
  | quietPeriod (period : Word)
  | controlNone (r : ControlRec)
  | serviceReset (r : ControlRec)
  | flushEvents (r : ControlRec)
  | pulseTimerExpiry
  | motorNone (m : Fin 4) (r : MotorSlot)
  | coast (m : Fin 4) (r : MotorSlot)
  | brake (m : Fin 4) (r : MotorSlot)
  | drive (m : Fin 4) (r : MotorSlot)
  | pulse (m : Fin 4) (r : MotorSlot)
  | runTo (m : Fin 4) (r : MotorSlot)
  | keep (m : Fin 4) (r : MotorSlot)
  | resetCount (m : Fin 4) (r : MotorSlot)
  | release (m : Fin 4) (r : MotorSlot)
  | claimExpiry (m : Fin 4)
  | pwmPeriodBoundary (m : Fin 4)
  | reversalPassageEnd (m : Fin 4)
  /-- The encoder lines of motor m change to the levels a (first line) and b (second line). -/
  | encoderStep (m : Fin 4) (a b : Bool)
  | pulseExpiry (m : Fin 4)
  | speedWindowEnd
  | stall (m : Fin 4)
  | coolingEnd (m : Fin 4)
  | scanNone (r : ScanRec)
  | start (r : ScanRec)
  | scanStop (r : ScanRec)
  | step (r : ScanRec)
  /-- The running conversion completes with this 12-bit sample. -/
  | conversionComplete (sample : BitVec 12)
  | intervalExpiry
  | sampleConsume (ch : Fin 8)
  | channelSettingsLatch (ch : Fin 8) (r : ChannelRec)
  /-- The line of input n changes to this level (true is high). -/
  | inputEdge (n : Fin 11) (level : Bool)
  | debounceExpiry (n : Fin 11)
  | inputSettingsLatch (n : Fin 11) (r : InputRec)
  | eventPop (i : Fin 32)
  | reflexEntryLatch (i : Fin 8) (r : ReflexRec)
  | holdTimerExpiry (i : Fin 8)
  | soundNone (r : SoundRec)
  | tone (r : SoundRec)
  | stream (r : SoundRec)
  | soundStop (r : SoundRec)
  | toneExpiry
  | descriptorReadDone
  | sampleFetchDone
  | doneWriteDone
  | samplePeriod
  | rereadTime
  | starvedOut
  | linkReadyRise
  | linkReadyFall
  | rxByte (b : Byte)
  | lineGap
  | chunkStoreDone
  | frameJudge
  | peerAged (p : Fin 8)
  | stormWindowEnd
  | holdExpiry (p : Fin 8)
  | linkSettingsLatch (r : LinkRec)
  | subscriptionDue (k : Fin 4)
  /-- A write of the release word with this value. -/
  | releaseWord (v : Word)
  | outboundNone (k : Fin 4) (r : OutRec)
  | send (k : Fin 4) (r : OutRec)
  | transmitBegin
  | bodyFetchDone
  | transmitEnd
  | attentionTake
  | bodyBufferSent
  deriving DecidableEq, Repr

end Sys2Proof
end

