-- ==== Sys2Proof/Machine/Memory.lean ====
section
/-! DEFINITION. Bytes by address: the memory device behind the downstream port, and the shadows of the processor
records, which are kept by window offset. A list of address and byte pairs in one canonical form: addresses strictly
rising, no entry equal to what an unlisted address reads as. -/

namespace Sys2Proof.Machine

abbrev Mem := List Host.Cell

namespace Mem

/-- What an unlisted address reads as. DESIGN CHOICE, log 1: the spec gives memory no contents at power-on (R24: areas
that are not written "keep whatever memory holds"). -/
abbrev unlisted : Byte := 0

/-- The byte at an address. -/
def read : Mem → Nat → Byte
  | [], _ => unlisted
  | (a, v) :: m, k => if k = a then v else read m k

/-- Put a byte at an address, keeping the canonical form. -/
def write : Mem → Nat → Byte → Mem
  | [], k, v => if v = unlisted then [] else [(k, v)]
  | (a, w) :: m, k, v =>
    if k < a then (if v = unlisted then (a, w) :: m else (k, v) :: (a, w) :: m)
    else if k = a then (if v = unlisted then m else (k, v) :: m)
    else (a, w) :: write m k v

/-- Put a list of address and byte pairs, in order. -/
def writeCells (m : Mem) (cells : List Host.Cell) : Mem :=
  cells.foldl (fun m c => write m c.1 c.2) m

/-- Every address of the list lies above a bound. -/
def above (k : Nat) : Mem → Bool
  | [] => true
  | (a, _) :: _ => decide (k < a)

/-- The canonical form. -/
def wf : Mem → Bool
  | [] => true
  | (a, v) :: m => (v != unlisted) && above a m && wf m

end Mem
end Sys2Proof.Machine
end

