-- ==== Sys2Proof/Machine/Window.lean ====
section
/-! DEFINITION. The map of the service window (section 1.2): where each record stands, how long it is, its class and
its owner; which record covers an offset; latch words and consuming words (R3, R7, R12); the areas of window
initialisation (R24). Also the numbers of result codes, causes and units. -/

namespace Sys2Proof

/-- The number of a code in the shared numbering (00_scope). -/
def Code.num : Code → Nat
  | .ok => 0 | .badArg => 1 | .refusedClaim => 2 | .stalled => 3 | .notDriver => 4 | .busy => 5 | .full => 6
  | .locked => 7 | .driverFull => 8 | .off => 9 | .noPeer => 10 | .linkDown => 11 | .queueFull => 12
  | .preempted => 13 | .ended => 14 | .starvedOut => 15 | .badDesc => 16 | .restart => 17 | .peerGone => 18
  | .expired => 19

/-- A code as a byte (event details, REPLY results). -/
def Code.byte (c : Code) : Byte := BitVec.ofNat 8 c.num

/-- A code as a 16-bit record field. -/
def Code.half (c : Code) : Half := BitVec.ofNat 16 c.num

/-- The place of a cause's flags, its code less one (chapter 11). -/
def Cause.idx : Cause → Fin 10
  | .reflex => 0 | .stall => 1 | .claim => 2 | .peer => 3 | .mail => 4
  | .event => 5 | .scan => 6 | .sound => 7 | .send => 8 | .guard => 9

namespace BlockUnit

/-- The order in which enables are applied and units reset (R27, R31). -/
def all : List BlockUnit := [.motor, .sense, .input, .reflex, .sound, .link]

end BlockUnit

namespace PerUnit

variable {α : Type}

/-- The value of one unit. -/
def get (p : PerUnit α) : BlockUnit → α
  | .motor => p.motor | .sense => p.sense | .input => p.input
  | .reflex => p.reflex | .sound => p.sound | .link => p.link

/-- Replace the value of one unit. -/
def set (p : PerUnit α) (u : BlockUnit) (x : α) : PerUnit α :=
  match u with
  | .motor => { p with motor := x }
  | .sense => { p with sense := x }
  | .input => { p with input := x }
  | .reflex => { p with reflex := x }
  | .sound => { p with sound := x }
  | .link => { p with link := x }

/-- The same value for every unit. -/
def const (x : α) : PerUnit α := ⟨x, x, x, x, x, x⟩

end PerUnit

namespace RecId

/-- The offset of a record from the window's base (section 1.2). -/
def offset : RecId → Nat
  | .control => 0x0000
  | .attention => 0x0040
  | .status => 0x0060
  | .ringStatus => 0x0080
  | .ringEntry i => 0x0100 + 8 * i.val
  | .motorSlot m => 0x0200 + 32 * m.val
  | .motorStatus m => 0x0280 + 32 * m.val
  | .channelSettings ch => 0x0300 + 16 * ch.val
  | .scanProgram => 0x0380
  | .scanStatus => 0x0390
  | .sampleSlot ch => 0x0400 + 16 * ch.val
  | .inputSettings n => 0x0480 + 4 * n.val
  | .inputState => 0x04C0
  | .reflexEntry i => 0x0500 + 32 * i.val
  | .reflexStatus => 0x0600
  | .soundRequest => 0x0680
  | .soundStatus => 0x06A0
  | .linkSettings => 0x0700
  | .linkStatus => 0x0720
  | .peerImage p => 0x0780 + 16 * p.val
  | .subImage k => 0x0800 + 16 * k.val
  | .inboundStatus => 0x0880
  | .inboundDesc d => 0x0900 + 32 * d.val
  | .releaseWord => 0x0B00
  | .outHeader k => 0x0B40 + 16 * k.val
  | .outStatus k => 0x0B80 + 16 * k.val

/-- The length of a record in bytes (section 1.2). -/
def size : RecId → Nat
  | .control => 64
  | .attention => 32
  | .status => 32
  | .ringStatus => 16
  | .ringEntry _ => 8
  | .motorSlot _ => 32
  | .motorStatus _ => 32
  | .channelSettings _ => 16
  | .scanProgram => 16
  | .scanStatus => 16
  | .sampleSlot _ => 16
  | .inputSettings _ => 4
  | .inputState => 16
  | .reflexEntry _ => 32
  | .reflexStatus => 16
  | .soundRequest => 32
  | .soundStatus => 32
  | .linkSettings => 32
  | .linkStatus => 64
  | .peerImage _ => 16
  | .subImage _ => 16
  | .inboundStatus => 32
  | .inboundDesc _ => 32
  | .releaseWord => 4
  | .outHeader _ => 16
  | .outStatus _ => 16

/-- The class of a record: part records are written by the part, the others are processor records (section 1.2). -/
def isPart : RecId → Bool
  | .control | .motorSlot _ | .channelSettings _ | .scanProgram | .inputSettings _ | .reflexEntry _
  | .soundRequest | .linkSettings | .releaseWord | .outHeader _ => false
  | .attention | .status | .ringStatus | .ringEntry _ | .motorStatus _ | .scanStatus | .sampleSlot _ | .inputState
  | .reflexStatus | .soundStatus | .linkStatus | .peerImage _ | .subImage _ | .inboundStatus | .inboundDesc _
  | .outStatus _ => true

/-- The switchable unit that owns a record; none for the control unit's records (section 1.2). -/
def unit? : RecId → Option BlockUnit
  | .control | .attention | .status | .ringStatus | .ringEntry _ => none
  | .motorSlot _ | .motorStatus _ => some .motor
  | .channelSettings _ | .scanProgram | .scanStatus | .sampleSlot _ => some .sense
  | .inputSettings _ | .inputState => some .input
  | .reflexEntry _ | .reflexStatus => some .reflex
  | .soundRequest | .soundStatus => some .sound
  | .linkSettings | .linkStatus | .peerImage _ | .subImage _ | .inboundStatus | .inboundDesc _ | .releaseWord
  | .outHeader _ | .outStatus _ => some .link

/-- The address of a record's first byte. -/
def addr (r : RecId) : Nat := Config.windowBase + r.offset

/-- The offset of a record's last word, which is the latch word of a processor record (R3). -/
def lastWord (r : RecId) : Nat := r.offset + r.size - 4

/-- Every record of the map in ascending address order. -/
def all : List RecId :=
  [.control, .attention, .status, .ringStatus]
  ++ (List.finRange 32).map .ringEntry
  ++ (List.finRange 4).map .motorSlot ++ (List.finRange 4).map .motorStatus
  ++ (List.finRange 8).map .channelSettings ++ [.scanProgram, .scanStatus]
  ++ (List.finRange 8).map .sampleSlot
  ++ (List.finRange 11).map .inputSettings ++ [.inputState]
  ++ (List.finRange 8).map .reflexEntry ++ [.reflexStatus]
  ++ [.soundRequest, .soundStatus, .linkSettings, .linkStatus]
  ++ (List.finRange 8).map .peerImage ++ (List.finRange 4).map .subImage ++ [.inboundStatus]
  ++ (List.finRange 16).map .inboundDesc ++ [.releaseWord]
  ++ (List.finRange 4).map .outHeader ++ (List.finRange 4).map .outStatus

/-- The records that a unit must publish when it enters RESETTING (R30). -/
def ofUnit (u : BlockUnit) : List RecId := all.filter (fun r => r.unit? == some u)

/-- The processor records of a unit. -/
def processorOf (u : BlockUnit) : List RecId := (ofUnit u).filter (fun r => !r.isPart)

end RecId

namespace Window

/-- The index of the n-th of k like things that an offset falls in, when areas of the given size start at a base. -/
def nth (k : Nat) [NeZero k] (base size off : Nat) : Fin k := Fin.ofNat k ((off - base) / size)

/-- The record that covers a window offset, if one does (section 1.2). -/
def recordAt (off : Nat) : Option RecId :=
  if off < 0x0040 then some .control
  else if off < 0x0060 then some .attention
  else if off < 0x0080 then some .status
  else if off < 0x0090 then some .ringStatus
  else if off < 0x0100 then none
  else if off < 0x0200 then some (.ringEntry (nth 32 0x0100 8 off))
  else if off < 0x0280 then some (.motorSlot (nth 4 0x0200 32 off))
  else if off < 0x0300 then some (.motorStatus (nth 4 0x0280 32 off))
  else if off < 0x0380 then some (.channelSettings (nth 8 0x0300 16 off))
  else if off < 0x0390 then some .scanProgram
  else if off < 0x03A0 then some .scanStatus
  else if off < 0x0400 then none
  else if off < 0x0480 then some (.sampleSlot (nth 8 0x0400 16 off))
  else if off < 0x04AC then some (.inputSettings (nth 11 0x0480 4 off))
  else if off < 0x04C0 then none
  else if off < 0x04D0 then some .inputState
  else if off < 0x0500 then none
  else if off < 0x0600 then some (.reflexEntry (nth 8 0x0500 32 off))
  else if off < 0x0610 then some .reflexStatus
  else if off < 0x0680 then none
  else if off < 0x06A0 then some .soundRequest
  else if off < 0x06C0 then some .soundStatus
  else if off < 0x0700 then none
  else if off < 0x0720 then some .linkSettings
  else if off < 0x0760 then some .linkStatus
  else if off < 0x0780 then none
  else if off < 0x0800 then some (.peerImage (nth 8 0x0780 16 off))
  else if off < 0x0840 then some (.subImage (nth 4 0x0800 16 off))
  else if off < 0x0880 then none
  else if off < 0x08A0 then some .inboundStatus
  else if off < 0x0900 then none
  else if off < 0x0B00 then some (.inboundDesc (nth 16 0x0900 32 off))
  else if off < 0x0B04 then some .releaseWord
  else if off < 0x0B40 then none
  else if off < 0x0B80 then some (.outHeader (nth 4 0x0B40 16 off))
  else if off < 0x0BC0 then some (.outStatus (nth 4 0x0B80 16 off))
  else none

/-- The outbound slot whose body covers an offset. -/
def bodyAt (off : Nat) : Option (Fin 4) :=
  if 0x1000 ≤ off ∧ off < 0x2000 then some (nth 4 0x1000 1024 off) else none

/-- Whether an offset lies in the buffer pool. -/
def inPool (off : Nat) : Bool := decide (0x4000 ≤ off) && decide (off < 0x5800)

/-- The processor record whose latch word starts at an offset (R7). -/
def latchAt (off : Nat) : Option RecId :=
  match recordAt off with
  | some r => if !r.isPart && r.lastWord == off then some r else none
  | none => none

/-- A consuming word (R12). -/
inductive Consuming where
  | attention
  | ringEntry (i : Fin 32)
  | sampleSlot (ch : Fin 8)
  deriving DecidableEq, Repr

/-- The consuming word that starts at an offset: word 0 of the attention record and of each sample slot, word 1 of each
event ring entry (R12). -/
def consumingAt (off : Nat) : Option Consuming :=
  match recordAt off with
  | some .attention => if off == RecId.attention.offset then some .attention else none
  | some (.ringEntry i) => if off == (RecId.ringEntry i).offset + 4 then some (.ringEntry i) else none
  | some (.sampleSlot ch) => if off == (RecId.sampleSlot ch).offset then some (.sampleSlot ch) else none
  | _ => none

/-- The runs of records with no free window memory between them: offset and length (R24, log 27). -/
def initRuns : List (Nat × Nat) :=
  [(0x0000, 0x90), (0x0100, 0x2A0), (0x0400, 0xAC), (0x04C0, 0x10), (0x0500, 0x110), (0x0680, 0x40),
   (0x0700, 0x60), (0x0780, 0xC0), (0x0880, 0x20), (0x0900, 0x204), (0x0B40, 0x80)]

/-- One run cut into writes of 16 words, the last covering whatever is left. -/
def cutRun (off len : Nat) : List (Nat × Nat) :=
  (List.range ((len + 63) / 64)).map (fun k => (off + 64 * k, min 64 (len - 64 * k)))

/-- The window initialisation writes in order: offset and length in bytes (R24). -/
def initWrites : List (Nat × Nat) := initRuns.flatMap (fun run => cutRun run.1 run.2)

end Window
end Sys2Proof
end

