-- ==== Sys2Proof/Machine/Operands.lean ====
section
/-! DEFINITION. The fields of the processor records: how each record stands in its bytes (little-endian within the word,
00_scope), the content test of each latch (R26, R64, R73, R92, R99, R115, R131, R158, R172), the settings and commands
that valid content means, and the default contents of each record. -/

namespace Sys2Proof

/-! ### Bytes of fields -/

namespace Bytes

/-- The byte at a place of a record. -/
def get (bs : List Byte) (i : Nat) : Byte := bs.getD i 0

/-- The 16-bit field that starts at a place. -/
def half (bs : List Byte) (i : Nat) : Half := get bs (i + 1) ++ get bs i

/-- The word that starts at a place. -/
def word (bs : List Byte) (i : Nat) : Word :=
  (get bs (i + 3) ++ get bs (i + 2)) ++ (get bs (i + 1) ++ get bs i)

/-- The bytes of a 16-bit field. -/
def ofHalf (h : Half) : List Byte := [h.extractLsb' 0 8, h.extractLsb' 8 8]

/-- The bytes of a word. -/
def ofWord (w : Word) : List Byte :=
  [w.extractLsb' 0 8, w.extractLsb' 8 8, w.extractLsb' 16 8, w.extractLsb' 24 8]

/-- A byte from a number. -/
def ofNat (n : Nat) : Byte := BitVec.ofNat 8 n

/-- A byte from a flag. -/
def ofBool (b : Bool) : Byte := if b then 1 else 0

/-- Bytes of zero. -/
def zeros (n : Nat) : List Byte := List.replicate n 0

end Bytes

/-- An 8-bit field that must be 0 or 1. -/
def bit? (b : Byte) : Bool := decide (b.toNat ≤ 1)

/-- A number within a stated range, both ends included. -/
def within (lo hi n : Nat) : Bool := decide (lo ≤ n) && decide (n ≤ hi)

/-! ### Control record (Table 2-1, R26) -/

namespace ControlRec

def toBytes (r : ControlRec) (command : Nat) : List Byte :=
  r.enables.toList ++ Bytes.zeros 2 ++ r.attention.toList ++ Bytes.zeros 2 ++ Bytes.ofWord r.quiet
  ++ Bytes.zeros 36 ++ Bytes.ofWord (BitVec.ofNat 32 command)

def ofBytes (bs : List Byte) : ControlRec where
  enables := #v[Bytes.get bs 0, Bytes.get bs 1, Bytes.get bs 2, Bytes.get bs 3, Bytes.get bs 4, Bytes.get bs 5]
  attention := #v[Bytes.get bs 8, Bytes.get bs 9, Bytes.get bs 10, Bytes.get bs 11, Bytes.get bs 12,
    Bytes.get bs 13, Bytes.get bs 14, Bytes.get bs 15, Bytes.get bs 16, Bytes.get bs 17]
  quiet := Bytes.word bs 0x14

/-- The quiet period lies within 100 to 10000 (Table 2-1). -/
def quietOk (period : Word) : Bool := within 100 10000 period.toNat

/-- The content test of R26, the command aside. -/
def valid (r : ControlRec) : Bool := r.enables.toList.all bit? && r.attention.toList.all bit? && quietOk r.quiet

/-- The block enables as applied. -/
def unitEnables (r : ControlRec) : PerUnit Bool :=
  ⟨r.enables[0] == 1, r.enables[1] == 1, r.enables[2] == 1, r.enables[3] == 1, r.enables[4] == 1, r.enables[5] == 1⟩

/-- The attention enables as applied. -/
def causeEnables (r : ControlRec) : Vector Bool 10 :=
  #v[r.attention[0] == 1, r.attention[1] == 1, r.attention[2] == 1, r.attention[3] == 1, r.attention[4] == 1,
     r.attention[5] == 1, r.attention[6] == 1, r.attention[7] == 1, r.attention[8] == 1, r.attention[9] == 1]

end ControlRec

/-! ### Motor command slot (Table 4-1, R64) -/

/-- What a PULSE or RUN_TO leaves the motor in (section 3.2). -/
inductive EndAction where
  | coast | brake
  deriving DecidableEq, Repr

/-- A motor command with the parameters it uses (R35). -/
inductive MotorCmd where
  | none
  | coast
  | brake
  | drive (duty : Int)
  | pulse (duty : Int) (duration : Word) (endAction : EndAction)
  | runTo (magnitude : Nat) (target : Word) (endAction : EndAction)
  | keep
  | resetCount
  | release
  deriving DecidableEq, Repr

/-- The three settings of a motor channel (R46): kHz, permille, ms. -/
structure MotorSettings where
  pwm : Nat := 16
  threshold : Nat := 300
  stallTime : Nat := 500
  deriving DecidableEq, Repr

namespace MotorSlot

def toBytes (r : MotorSlot) (command : Nat) : List Byte :=
  Bytes.ofHalf r.duty ++ [r.endAction, 0] ++ Bytes.ofWord r.param ++ Bytes.ofWord r.freshness ++ [r.pwm, r.stallTime]
  ++ Bytes.ofHalf r.threshold ++ Bytes.zeros 12 ++ Bytes.ofWord (BitVec.ofNat 32 command)

def ofBytes (bs : List Byte) : MotorSlot where
  duty := Bytes.half bs 0
  endAction := Bytes.get bs 2
  param := Bytes.word bs 4
  freshness := Bytes.word bs 8
  pwm := Bytes.get bs 0x0C
  stallTime := Bytes.get bs 0x0D
  threshold := Bytes.half bs 0x0E

/-- The three settings lie within their ranges. -/
def settingsOk (r : MotorSlot) : Bool :=
  (r.pwm == 4 || r.pwm == 8 || r.pwm == 16 || r.pwm == 20) && within 10 200 r.stallTime.toNat
  && (r.threshold == 0 || within 100 1000 r.threshold.toNat)

/-- The settings that the slot's settings word means; the stall time stands in units of 10 ms. -/
def settings (r : MotorSlot) : MotorSettings where
  pwm := r.pwm.toNat
  threshold := r.threshold.toNat
  stallTime := 10 * r.stallTime.toNat

def freshOk (r : MotorSlot) : Bool := r.freshness == 0 || within 20 10000 r.freshness.toNat
def dutyOk (r : MotorSlot) : Bool := decide (-1000 ≤ r.duty.toInt) && decide (r.duty.toInt ≤ 1000)
def magnitudeOk (r : MotorSlot) : Bool := decide (1 ≤ r.duty.toInt) && decide (r.duty.toInt ≤ 1000)
def durationOk (r : MotorSlot) : Bool := within 1 60000 r.param.toNat
def endOk (r : MotorSlot) : Bool := bit? r.endAction
def action (r : MotorSlot) : EndAction := if r.endAction == 1 then .brake else .coast

/-- The command that a command code and the fields it uses mean; none where the code or a field it uses lies outside its
range (R64 step 1; the settings are judged apart). -/
def command (r : MotorSlot) (code : Nat) : Option MotorCmd :=
  match code with
  | 0 => some .none
  | 1 => if r.freshOk then some .coast else none
  | 2 => if r.freshOk then some .brake else none
  | 3 => if r.dutyOk && r.freshOk then some (.drive r.duty.toInt) else none
  | 4 => if r.dutyOk && r.durationOk && r.endOk && r.freshOk then some (.pulse r.duty.toInt r.param r.action) else none
  | 5 => if r.magnitudeOk && r.endOk && r.freshOk then some (.runTo r.duty.toNat r.param r.action) else none
  | 6 => if r.freshOk then some .keep else none
  | 7 => if r.freshOk then some .resetCount else none
  | 8 => some .release
  | _ => none

end MotorSlot

/-! ### Scan program (Table 5-1, R73) -/

inductive ScanMode where
  | single | continuous | stepped
  deriving DecidableEq, Repr

/-- A scan program (section 5.2). -/
structure Program where
  first : Fin 8 := 0
  last : Fin 8 := 7
  mode : ScanMode := .single
  interval : Nat := 0
  deriving DecidableEq, Repr

namespace ScanRec

def toBytes (r : ScanRec) (command : Nat) : List Byte :=
  [r.first, r.last, r.mode, 0] ++ Bytes.ofHalf r.interval ++ Bytes.zeros 6 ++ Bytes.ofWord (BitVec.ofNat 32 command)

def ofBytes (bs : List Byte) : ScanRec where
  first := Bytes.get bs 0
  last := Bytes.get bs 1
  mode := Bytes.get bs 2
  interval := Bytes.half bs 4

/-- The content test of a NONE latch (R73 step 1). -/
def valid (r : ScanRec) : Bool :=
  decide (r.first.toNat ≤ 7) && decide (r.last.toNat ≤ 7) && decide (r.first.toNat ≤ r.last.toNat)
  && decide (r.mode.toNat ≤ 2) && (r.mode != 1 || decide (r.interval.toNat ≤ 1000))

/-- The program stored by a valid NONE latch (R74): the interval is kept for CONTINUOUS alone. -/
def program (r : ScanRec) : Program where
  first := Fin.ofNat 8 r.first.toNat
  last := Fin.ofNat 8 r.last.toNat
  mode := if r.mode == 1 then .continuous else if r.mode == 2 then .stepped else .single
  interval := if r.mode == 1 then r.interval.toNat else 0

end ScanRec

/-! ### Channel settings (Table 5-4, R92) -/

/-- The settings of a sensor channel (section 5.7). -/
structure ChannelSettings where
  protect : Bool := false
  enabled : Bool := false
  inside : Bool := false
  event : Bool := false
  lower : Nat := 0
  upper : Nat := 4095
  deriving DecidableEq, Repr

namespace ChannelRec

def toBytes (r : ChannelRec) : List Byte :=
  [r.consume, r.enable, r.mode, r.event] ++ Bytes.ofHalf r.lower ++ Bytes.ofHalf r.upper ++ Bytes.zeros 8

def ofBytes (bs : List Byte) : ChannelRec where
  consume := Bytes.get bs 0
  enable := Bytes.get bs 1
  mode := Bytes.get bs 2
  event := Bytes.get bs 3
  lower := Bytes.half bs 4
  upper := Bytes.half bs 6

/-- The content test of R92 step 1. -/
def valid (r : ChannelRec) : Bool :=
  bit? r.consume && bit? r.enable && bit? r.mode && bit? r.event && decide (r.lower.toNat ≤ 4095)
  && decide (r.upper.toNat ≤ 4095) && decide (r.lower.toNat ≤ r.upper.toNat)

def settings (r : ChannelRec) : ChannelSettings where
  protect := r.consume == 1
  enabled := r.enable == 1
  inside := r.mode == 1
  event := r.event == 1
  lower := r.lower.toNat
  upper := r.upper.toNat

end ChannelRec

/-! ### Input settings (Table 6-1, R99) -/

inductive EventMode where
  | none | press | release | both
  deriving DecidableEq, Repr

/-- The settings of an input: debounce time in ms, 0 for off; whether the high level is the active one; event mode. -/
structure InputSettings where
  debounce : Nat := 5
  activeHigh : Bool := false
  event : EventMode := .none
  deriving DecidableEq, Repr

namespace InputRec

def toBytes (r : InputRec) : List Byte := [r.debounce, r.polarity, r.event, 0]

def ofBytes (bs : List Byte) : InputRec where
  debounce := Bytes.get bs 0
  polarity := Bytes.get bs 1
  event := Bytes.get bs 2

/-- The content test of R99 step 1. -/
def valid (r : InputRec) : Bool := decide (r.debounce.toNat ≤ 3) && bit? r.polarity && decide (r.event.toNat ≤ 3)

def settings (r : InputRec) : InputSettings where
  debounce := if r.debounce == 0 then 0 else if r.debounce == 1 then 5 else if r.debounce == 2 then 10 else 20
  activeHigh := r.polarity == 1
  event := if r.event == 1 then .press else if r.event == 2 then .release else if r.event == 3 then .both else .none

end InputRec

/-! ### Reflex entry (Table 7-1, R115) -/

namespace TermRec

def toBytes (t : TermRec) : List Byte := [t.kind, t.index, t.invert]

def ofBytes (bs : List Byte) (i : Nat) : TermRec where
  kind := Bytes.get bs i
  index := Bytes.get bs (i + 1)
  invert := Bytes.get bs (i + 2)

/-- A term that takes part in the condition. -/
def used (t : TermRec) : Bool := t.kind != 0

/-- The part of the content test of R115 about one term. -/
def valid (t : TermRec) : Bool :=
  decide (t.kind.toNat ≤ 6)
  && (t.kind != 1 || decide (t.index.toNat ≤ 10))
  && (t.kind != 2 || decide (t.index.toNat ≤ 7))
  && (t.kind != 3 || decide (t.index.toNat ≤ 3))
  && (t.kind == 0 || bit? t.invert)

end TermRec

namespace ReflexRec

def toBytes (r : ReflexRec) : List Byte :=
  [r.enable, r.rearm, r.combine, r.stopMode] ++ r.term1.toBytes ++ r.term2.toBytes ++ r.term3.toBytes ++ [r.pulse]
  ++ Bytes.ofHalf r.hold ++ [r.stop, r.tone, r.alarm, r.attention, r.restart] ++ r.motors.toList ++ [0]
  ++ Bytes.ofHalf r.frequency ++ Bytes.ofHalf r.duration ++ Bytes.zeros 2

def ofBytes (bs : List Byte) : ReflexRec where
  enable := Bytes.get bs 0
  rearm := Bytes.get bs 1
  combine := Bytes.get bs 2
  stopMode := Bytes.get bs 3
  term1 := TermRec.ofBytes bs 4
  term2 := TermRec.ofBytes bs 7
  term3 := TermRec.ofBytes bs 0x0A
  pulse := Bytes.get bs 0x0D
  hold := Bytes.half bs 0x0E
  stop := Bytes.get bs 0x10
  tone := Bytes.get bs 0x11
  alarm := Bytes.get bs 0x12
  attention := Bytes.get bs 0x13
  restart := Bytes.get bs 0x14
  motors := #v[Bytes.get bs 0x15, Bytes.get bs 0x16, Bytes.get bs 0x17, Bytes.get bs 0x18]
  frequency := Bytes.half bs 0x1A
  duration := Bytes.half bs 0x1C

/-- The terms of the entry in order. -/
def terms (r : ReflexRec) : List TermRec := [r.term1, r.term2, r.term3]

/-- The content test of R115 step 1. -/
def valid (r : ReflexRec) : Bool :=
  bit? r.enable && bit? r.rearm && bit? r.combine
  && bit? r.stop && bit? r.tone && bit? r.alarm && bit? r.attention && bit? r.restart
  && r.terms.all TermRec.valid && r.terms.any TermRec.used
  && (r.stop == 1 || r.tone == 1 || r.alarm == 1 || r.attention == 1 || r.restart == 1)
  && decide (r.hold.toNat ≤ 10000)
  && (r.stop != 1 || (bit? r.stopMode && r.motors.toList.all bit? && r.motors.toList.any (· == 1)))
  && (r.tone != 1 || (within 50 8000 r.frequency.toNat && within 1 60000 r.duration.toNat))
  && (r.restart != 1 || within 1 100 r.pulse.toNat)

end ReflexRec

/-! ### Sound request (Table 8-1, R131) -/

/-- What a valid latch of the sound request slot asks for; the rate is true for 16000 Hz. -/
inductive SoundCmd where
  | none
  | tone (frequency volume duration : Nat)
  | stream (volume : Nat) (fast : Bool) (desc : Word)
  | stop
  deriving DecidableEq, Repr

/-- The range test of a tone (R131 step 1, R133 step 1). -/
def toneOk (frequency volume duration : Nat) : Bool :=
  within 50 8000 frequency && decide (volume ≤ 100) && within 1 60000 duration

/-- A word address within the address space. -/
def wordAddrOk (a : Word) : Bool := decide (a.toNat % 4 = 0) && decide (a.toNat < Config.addressSpace)

namespace SoundRec

def toBytes (r : SoundRec) (command : Nat) : List Byte :=
  Bytes.ofHalf r.frequency ++ [r.volume, r.rate] ++ Bytes.ofWord r.duration ++ Bytes.ofWord r.desc ++ Bytes.zeros 16
  ++ Bytes.ofWord (BitVec.ofNat 32 command)

def ofBytes (bs : List Byte) : SoundRec where
  frequency := Bytes.half bs 0
  volume := Bytes.get bs 2
  rate := Bytes.get bs 3
  duration := Bytes.word bs 4
  desc := Bytes.word bs 8

/-- The request that a command code and the fields it uses mean (R131 step 1). -/
def command (r : SoundRec) (code : Nat) : Option SoundCmd :=
  match code with
  | 0 => some .none
  | 1 => if toneOk r.frequency.toNat r.volume.toNat r.duration.toNat
         then some (.tone r.frequency.toNat r.volume.toNat r.duration.toNat) else none
  | 2 => if decide (r.volume.toNat ≤ 100) && bit? r.rate && wordAddrOk r.desc && r.desc != 0
         then some (.stream r.volume.toNat (r.rate == 1) r.desc) else none
  | 3 => some .stop
  | _ => none

end SoundRec

/-! ### Link settings (Table 9-4, R158) -/

/-- The link settings in force (Table 9-4). -/
structure LinkSettings where
  lock : Bool := false
  driverLimit : Nat := 1
  aging : Nat := 30
  rising : Nat := 40
  falling : Nat := 10
  low : Nat := 8
  high : Nat := 16
  holdTimeout : Nat := 500
  deriving DecidableEq, Repr

namespace LinkRec

def toBytes (r : LinkRec) : List Byte :=
  [r.lock, r.driverLimit, r.aging, r.rising, r.falling, r.low, r.high, 0] ++ Bytes.ofHalf r.holdTimeout
  ++ Bytes.zeros 22

def ofBytes (bs : List Byte) : LinkRec where
  lock := Bytes.get bs 0
  driverLimit := Bytes.get bs 1
  aging := Bytes.get bs 2
  rising := Bytes.get bs 3
  falling := Bytes.get bs 4
  low := Bytes.get bs 5
  high := Bytes.get bs 6
  holdTimeout := Bytes.half bs 8

/-- The content test of R158 step 1, the two combinations of Table 9-4 included. -/
def valid (r : LinkRec) : Bool :=
  bit? r.lock && decide (r.driverLimit.toNat ≤ 8) && decide (1 ≤ r.rising.toNat)
  && decide (r.falling.toNat < r.rising.toNat) && within 1 47 r.low.toNat && within 2 48 r.high.toNat
  && decide (r.low.toNat < r.high.toNat) && within 100 2000 r.holdTimeout.toNat

def settings (r : LinkRec) : LinkSettings where
  lock := r.lock == 1
  driverLimit := r.driverLimit.toNat
  aging := r.aging.toNat
  rising := r.rising.toNat
  falling := r.falling.toNat
  low := r.low.toNat
  high := r.high.toNat
  holdTimeout := r.holdTimeout.toNat

end LinkRec

/-! ### Outbound slot header (Table 10-5, R172) -/

namespace OutRec

def toBytes (r : OutRec) (command : Nat) : List Byte :=
  Bytes.ofWord r.dest ++ Bytes.ofHalf r.length ++ Bytes.zeros 6 ++ Bytes.ofWord (BitVec.ofNat 32 command)

def ofBytes (bs : List Byte) : OutRec where
  dest := Bytes.word bs 0
  length := Bytes.half bs 4

end OutRec

/-! ### Default contents (R6) -/

/-- The default contents of each processor record, from the Default column of its table; the bytes of a part record's
default are those of its unit's reset values (Machine/Records.lean). -/
def RecId.defaultBytes : RecId → List Byte
  | .control => ControlRec.toBytes {} 0
  | .motorSlot _ => MotorSlot.toBytes {} 0
  | .channelSettings _ => ChannelRec.toBytes {}
  | .scanProgram => ScanRec.toBytes {} 0
  | .inputSettings _ => InputRec.toBytes {}
  | .reflexEntry _ => ReflexRec.toBytes {}
  | .soundRequest => SoundRec.toBytes {} 0
  | .linkSettings => LinkRec.toBytes {}
  | .releaseWord => Bytes.ofWord 0
  | .outHeader _ => OutRec.toBytes {} 0
  | .attention | .status | .ringStatus | .ringEntry _ | .motorStatus _ | .scanStatus | .sampleSlot _ | .inputState
  | .reflexStatus | .soundStatus | .linkStatus | .peerImage _ | .subImage _ | .inboundStatus | .inboundDesc _
  | .outStatus _ => []

/-- The cells of a byte list put at an offset. -/
def cellsAt (base : Nat) (bs : List Byte) : List Host.Cell :=
  (List.range bs.length).map (fun i => (base + i, Bytes.get bs i))

end Sys2Proof
end

