-- ==== Sys2Proof/Machine/State.lean ====
section
/-! DEFINITION. Everything the spec gives the part to hold, unit by unit, as plain data; the queue of waiting commands;
the state after power-on (R20, R24, R102 and the reset paragraphs of each chapter). -/

namespace Sys2Proof.Machine

/-- Why the machine stops with a fault. -/
inductive Fault where
  /-- Raised by PROCESSOR_TRANSACTION for a term that is no transaction by the definition of 00_scope (its start is not
  on a word boundary, or its word count is not 1 to 16). The spec gives such a term no effect. Safe (log 11). -/
  | notATransaction
  deriving DecidableEq, Repr

/-- Why the machine refuses a command. -/
inductive Refusal where
  /-- Raised by exec for a command that has no meaning yet. Safe. -/
  | notModelled (mnemonic : String)
  deriving DecidableEq, Repr

/-! ### Pins -/

/-- The lines that the world outside drives (00_scope, Signals). -/
structure Pins where
  /-- The RESET pin is asserted (R24). -/
  resetAsserted : Bool
  /-- Levels of the first and second encoder line of each motor port (R42). -/
  encoder : Vector (Bool × Bool) 4
  /-- Level of each input line, true for high (section 6.1). -/
  input : Vector Bool 11
  /-- LINK_READY (R142). -/
  linkReady : Bool
  deriving DecidableEq, Repr

/-! ### Control unit (chapter 2) -/

/-- Block states (section 2.5). -/
inductive BlockState where
  | off | resetting | on
  deriving DecidableEq, Repr

/-- The restart generator (R22); PRST is asserted unless it is IDLE. -/
inductive RestartGen where
  | holding
  | idle
  | pulsing (endTime : Word)
  deriving DecidableEq, Repr

structure Control where
  /-- The millisecond counter (R25). -/
  ms : Word
  gen : RestartGen
  block : PerUnit BlockState
  /-- The enable of each unit as last applied (R28, R30). -/
  enable : PerUnit Bool
  /-- Records of RESETTING units that are still outstanding (R29, R30). -/
  outstanding : List RecId
  /-- The quiet period in force, ms (R19, R27). -/
  quietPeriod : Nat
  latchOffset : Half
  latchCode : Code
  guardRefusals : Half
  badTransactions : Half
  restarts : Half
  mergedRestarts : Half
  lastRestart : Word
  deriving DecidableEq, Repr

/-! ### Event ring (chapter 6) -/

/-- One event ring entry (Table 6-3). -/
structure RingEntry where
  kind : Byte
  source : Byte
  detail : Byte
  seq : Byte
  time : Word
  deriving DecidableEq, Repr

structure Ring where
  slots : Vector RingEntry 32
  /-- PUBLISHED (true) or PENDING (false), for the entry held in each slot (R102). -/
  published : Vector Bool 32
  head : Fin 32
  held : Nat
  nextSeq : Byte
  overflow : Bool
  lostPending : Byte
  lostTotal : Half
  deriving DecidableEq, Repr

/-! ### Attention (chapter 11) -/

structure Attention where
  pending : Vector Bool 10
  enabled : Vector Bool 10
  /-- The selected cause of the image most recently published, by its place (code less one); none for NONE (R177). -/
  published : Option (Fin 10)
  /-- The ATTN line is high (R179). -/
  line : Bool
  /-- The counter's value at the last fall, absent before the first (R179). -/
  lastFall : Option Word
  /-- Fewer than 20 us have passed since the last fall (R179, log 3). -/
  gap : Bool
  /-- A rise waits for the 20 us to complete (R179). -/
  riseWaiting : Bool
  deriving DecidableEq, Repr

/-! ### Memory path unit (chapter 1) -/

/-- The requests of the part request queues, publications aside (R14). -/
inductive PartReq where
  | chunkStore (buf : Fin 2) (addr : Nat) (data : List Byte)
  | sampleFetch (addr : Nat)
  | descRead (addr : Nat)
  | doneWrite (addr : Nat)
  | bodyFetch (addr : Nat) (words : Nat)
  deriving DecidableEq, Repr

/-- What is in flight on the downstream port (R1, R9, R14, R24). -/
inductive InFlight where
  /-- A processor transaction; its response is discarded when a restart pulse began meanwhile (R21). -/
  | processor (t : Transaction) (discarded : Bool)
  /-- A publication with the value at its grant; stale when it no longer counts for the owner, because the unit entered
  RESETTING (R30), the ring slot was written (R107) or the descriptor became OCCUPIED (R169) after the grant. -/
  | publication (r : RecId) (data : List Byte) (stale : Bool)
  /-- A part request; withdrawn after its grant, its result is ignored (R16). -/
  | part (q : PartReq) (withdrawn : Bool)
  /-- The k-th window initialisation write (R24). -/
  | init (k : Nat)
  deriving DecidableEq, Repr

/-- The response given on the upstream port (00_scope). -/
inductive Response where
  | done (data : List Word)
  | fault
  deriving DecidableEq, Repr

structure Path where
  /-- The processor transaction that waits for the grant (R1). -/
  upstream : Option Transaction
  port : Option InFlight
  /-- Waiting part requests of classes 1 and 2, longest waiting first (R14, R17). -/
  parts : List PartReq
  /-- The publication list (R8). -/
  pubs : List RecId
  /-- Processor grants in a row while a part request waited (R17). -/
  count : Nat
  /-- The last-transaction time (R19). -/
  lastTime : Word
  /-- The elapsed time since then, held at 10000 (R19). -/
  quietElapsed : Nat
  procQuiet : Bool
  /-- The last response given to the processor. -/
  response : Option Response
  deriving DecidableEq, Repr

/-! ### Motor unit (chapters 3 and 4) -/

inductive Dir where
  | forward | reverse
  deriving DecidableEq, Repr

/-- The output stage (section 3.1). -/
inductive Stage where
  | coast
  | brake
  | forward (duty : Nat)
  | reverse (duty : Nat)
  deriving DecidableEq, Repr

/-- The mode with its parameters (section 3.2). -/
inductive Mode where
  | coast
  | brake
  | drive (duty : Int)
  | pulse (duty : Int) (endTime : Word) (endAction : EndAction)
  | runTo (magnitude : Nat) (target : Word) (endAction : EndAction) (dir : Dir)
  deriving DecidableEq, Repr

/-- The stall state; COOLING has its cool end time (R48 to R50). -/
inductive StallState where
  | normal
  | stalled
  | cooling (endTime : Word)
  deriving DecidableEq, Repr

/-- The owner of a claim, and the requester of a command (section 4.1). -/
inductive Owner where
  | none
  | link (slot : Fin 8)
  | proc
  | reflex (entry : Fin 8)
  deriving DecidableEq, Repr

structure Channel where
  stall : StallState
  mode : Mode
  stage : Stage
  /-- The direction in which the stage last drove (R34). -/
  lastDir : Option Dir
  /-- Fewer than 50 us have passed since the stage last stopped driving (R34, log 3). -/
  gap : Bool
  /-- The stage is kept at rest until those 50 us are complete: a reversal passage, or a wait at rest (R34). -/
  reversing : Bool
  settings : MotorSettings
  /-- The frequency of the PWM period in progress, kHz (R33). -/
  periodPwm : Nat
  count : Word
  /-- The last decoded encoder levels, or cleared (R42, R43). -/
  levels : Option (Bool × Bool)
  /-- The tally of the speed window in progress (R45). -/
  tally : Int
  speed : Half
  /-- The stall watch: its start time while it runs (R47). -/
  watch : Option Word
  owner : Owner
  deadline : Option Word
  latchResult : Code
  deriving DecidableEq, Repr

structure Motor where
  ch : Vector Channel 4
  /-- The end of the speed window in progress (R45). -/
  windowEnd : Word
  deriving DecidableEq, Repr

/-! ### Sense unit (chapter 5) -/

/-- The converter (R72). -/
inductive Converter where
  | free
  | running (ch : Fin 8)
  /-- A conversion whose result will be discarded, and the conversion asked for meanwhile. -/
  | discarding (next : Option (Fin 8))
  deriving DecidableEq, Repr

/-- The scan state; the hold register is what HELD carries, and WAITING has the end of its interval (section 5.3). -/
inductive ScanState where
  | stopped
  | converting
  | held (sample : BitVec 12) (time : Word)
  | waiting (expiry : Word)
  | stepWait
  deriving DecidableEq, Repr

inductive SlotState where
  | empty | fresh | consumed
  deriving DecidableEq, Repr

/-- A sample slot (Table 5-3). -/
structure SampleSlot where
  seq : Half
  state : SlotState
  condition : Bool
  value : Half
  entered : Bool
  side : Bool
  lost : Half
  scanCount : Half
  time : Word
  deriving DecidableEq, Repr

structure Sense where
  conv : Converter
  stored : Program
  active : Program
  scan : ScanState
  position : Fin 8
  scanCount : Half
  lastEnd : Word
  latchResult : Code
  slots : Vector SampleSlot 8
  settings : Vector ChannelSettings 8
  deriving DecidableEq, Repr

/-! ### Input unit (chapter 6) -/

structure InputLine where
  /-- The stable state, true for ACTIVE (R96). -/
  stable : Bool
  /-- The debounce timer: its start time while it runs (R96). -/
  timer : Option Word
  settings : InputSettings
  deriving DecidableEq, Repr

structure Inputs where
  line : Vector InputLine 11
  lastChange : Word
  deriving DecidableEq, Repr

/-! ### Reflex unit (chapter 7) -/

/-- Entry states; TIMING has its hold end time (section 7.3). -/
inductive EntryState where
  | disabled
  | armed
  | timing (endTime : Word)
  | fired
  | spent
  deriving DecidableEq, Repr

structure ReflexEntry where
  record : ReflexRec
  state : EntryState
  fires : Byte
  deriving DecidableEq, Repr

structure Reflex where
  entry : Vector ReflexEntry 8
  deriving DecidableEq, Repr

/-! ### Sound unit (chapter 8) -/

/-- The current block of a stream: sample address, length and next descriptor address (R135). -/
structure SoundBlock where
  sample : Word
  length : Nat
  next : Word
  deriving DecidableEq, Repr

/-- STARVED: the starved limit, and the reread time until its read is placed (R138). -/
structure Starved where
  limit : Word
  reread : Option Word
  deriving DecidableEq, Repr

/-- A stream in progress, STREAM or STARVED (R128, R135 to R138). -/
structure Stream where
  fast : Bool
  volume : Nat
  /-- The current descriptor address. -/
  addr : Word
  block : Option SoundBlock
  /-- Bytes of the current block already fetched. -/
  fetched : Nat
  staging : List Byte
  /-- The last block of the chain has been reached. -/
  lastBlock : Bool
  /-- The last block has been fully fetched and its done-write has completed. -/
  chainDone : Bool
  starved : Option Starved
  /-- The voice took a sample at the previous sample period. -/
  tookSample : Bool
  deriving DecidableEq, Repr

/-- The voice with its source (R128); a stream's source is PROC. -/
inductive Voice where
  | silent
  /-- A tone; its wave starts with a first half at the moment of acceptance, which is kept for it (R134, log 22). -/
  | tone (source : Owner) (frequency volume : Nat) (start endTime : Word)
  | stream (st : Stream)
  deriving DecidableEq, Repr

structure Sound where
  voice : Voice
  /-- The output value on SND (section 8.1; of a tone, its level at the present millisecond, log 22). -/
  output : Byte
  underruns : Half
  lastEnd : Code
  latchResult : Code
  deriving DecidableEq, Repr

/-! ### Link unit (chapters 9 and 10) -/

/-- A JOINED slot of the peer table (section 9.5). -/
structure Peer where
  tag : Word
  driver : Bool
  lastHeard : Word
  /-- Time since the last-heard time, held at 255 s, ms (R154). -/
  silence : Nat
  /-- Frames counted in the current storm window (R156). -/
  window : Nat
  throttled : Bool
  held : Option Word
  accepted : Half
  deriving DecidableEq, Repr

/-- An ACTIVE subscription (section 10.2). -/
structure Subscription where
  slot : Fin 8
  tag : Word
  mask : Byte
  period : Nat
  due : Bool
  dueTime : Word
  /-- Time since the due time, held at 1000 ms (R166). -/
  lateness : Nat
  begun : Half
  deriving DecidableEq, Repr

/-- An OCCUPIED inbound descriptor (section 10.3). -/
structure Descriptor where
  slot : Fin 8
  tag : Word
  seq : Byte
  length : Half
  time : Word
  blocks : List (Fin 48)
  /-- A publication granted after it became OCCUPIED has been reported complete (R169). -/
  shown : Bool
  deriving DecidableEq, Repr

inductive OutState where
  | free | queued | sending | done
  deriving DecidableEq, Repr

/-- An outbound slot (section 10.4); the destination and length are those taken at its SEND. -/
structure OutSlot where
  state : OutState
  frameSeq : Byte
  latchResult : Code
  doneResult : Code
  doneTime : Word
  dest : Word
  length : Nat
  deriving DecidableEq, Repr

/-- A pending reply (R170). -/
structure Reply where
  tag : Word
  payload : List Byte
  deriving DecidableEq, Repr

/-- A frame under reception (section 9.3). -/
structure RxFrame where
  /-- Header bytes taken so far, of 8: length, tag, sequence, kind. -/
  header : List Byte
  /-- Payload bytes taken so far. -/
  received : Nat
  /-- The first 16 payload bytes. -/
  first : List Byte
  /-- The block list, in payload order. -/
  blocks : List (Fin 48)
  /-- The CRC computed over the bytes taken. -/
  crc : Half
  /-- Bytes of the CRC field taken so far. -/
  crcField : List Byte
  deriving DecidableEq, Repr

/-- The receiver's states (R144). -/
inductive Receiver where
  | hunt
  | header (f : RxFrame)
  | payload (f : RxFrame)
  | crc (f : RxFrame)
  | skip (count : Option Nat)
  deriving DecidableEq, Repr

/-- Which of the two frames under reception a chunk store belongs to (section 9.3). -/
inductive FrameSide where
  | receiving | finishing
  deriving DecidableEq, Repr

/-- A chunk buffer: the bytes gathered, or the store it waits for (R145). -/
structure ChunkBuf where
  bytes : List Byte
  store : Option FrameSide
  deriving DecidableEq, Repr

inductive PoolFrame where
  | none | hold | resume
  deriving DecidableEq, Repr

/-- A MAIL frame from an outbound slot (R173): its slot, whether it has begun on the line, how many 64-byte body chunks
have been fetched and how many sent, and whether a fetch is waiting or in flight. -/
structure MailTx where
  slot : Fin 4
  length : Nat
  begun : Bool
  fetched : Nat
  sent : Nat
  fetching : Bool
  deriving DecidableEq, Repr

/-- The frame the transmitter is sending (R174). -/
structure Sending where
  dest : Word
  kind : Byte
  seq : Byte
  payload : List Byte
  mail : Option MailTx
  deriving DecidableEq, Repr

structure Link where
  settings : LinkSettings
  peer : Vector (Option Peer) 8
  sub : Vector (Option Subscription) 4
  desc : Vector (Option Descriptor) 16
  /-- The inbound order list, oldest first. -/
  order : List (Fin 16)
  releaseIndex : Byte
  releaseResult : Code
  free : List (Fin 48)
  poolLow : Bool
  poolFrame : PoolFrame
  receiver : Receiver
  finishing : Option RxFrame
  buf : Vector ChunkBuf 2
  /-- The current chunk buffer. -/
  cur : Fin 2
  replies : List Reply
  alarms : List (Fin 8)
  out : Vector OutSlot 4
  outOrder : List (Fin 4)
  /-- The frame being sent; none while the transmitter is IDLE. -/
  tx : Option Sending
  txSeq : Byte
  /-- The twelve counters of Table 9-5 in its order. -/
  counters : Vector Half 12
  /-- The end of the storm window in progress (R156). -/
  stormEnd : Word
  /-- The bytes of the frame sent last (model's own, log 23). -/
  lastFrame : List Byte
  deriving DecidableEq, Repr

/-! ### The part -/

structure Chip where
  pins : Pins
  control : Control
  ring : Ring
  attention : Attention
  path : Path
  motor : Motor
  sense : Sense
  input : Inputs
  reflex : Reflex
  sound : Sound
  link : Link
  /-- The memory device. -/
  mem : Mem
  /-- The shadows of the processor records, by window offset (R6). -/
  shadow : Mem
  deriving DecidableEq, Repr

/-- The machine: the part, and the commands that wait, first in first out. -/
structure State where
  hw : Chip
  pending : List Instr
  deriving DecidableEq, Repr

/-! ### Reset values -/

def RingEntry.reset : RingEntry := ⟨0, 0, 0, 0, 0⟩

def Ring.reset : Ring where
  slots := Vector.replicate 32 RingEntry.reset
  published := Vector.replicate 32 false
  head := 0
  held := 0
  nextSeq := 0
  overflow := false
  lostPending := 0
  lostTotal := 0

def Attention.reset : Attention where
  pending := Vector.replicate 10 false
  enabled := Vector.replicate 10 false
  published := none
  line := false
  lastFall := none
  gap := false
  riseWaiting := false

def Control.reset : Control where
  ms := 0
  gen := .holding
  block := PerUnit.const .off
  enable := PerUnit.const false
  outstanding := []
  quietPeriod := 2000
  latchOffset := Config.noLatchOffset
  latchCode := .ok
  guardRefusals := 0
  badTransactions := 0
  restarts := 0
  mergedRestarts := 0
  lastRestart := 0

def Path.reset : Path where
  upstream := none
  port := none
  parts := []
  pubs := []
  count := 0
  lastTime := 0
  quietElapsed := 0
  procQuiet := false
  response := none

/-- A channel's reset values (R53, R54). -/
def Channel.reset : Channel where
  stall := .normal
  mode := .coast
  stage := .coast
  lastDir := none
  gap := false
  reversing := false
  settings := {}
  periodPwm := 16
  count := 0
  levels := none
  tally := 0
  speed := 0
  watch := none
  owner := .none
  deadline := none
  latchResult := .ok

def Motor.reset : Motor where
  ch := Vector.replicate 4 Channel.reset
  windowEnd := 0

def SampleSlot.reset : SampleSlot := ⟨0, .empty, false, 0, false, false, 0, 0, 0⟩

/-- The sense unit's reset values (R94). -/
def Sense.reset : Sense where
  conv := .free
  stored := {}
  active := {}
  scan := .stopped
  position := 0
  scanCount := 0
  lastEnd := 0
  latchResult := .ok
  slots := Vector.replicate 8 SampleSlot.reset
  settings := Vector.replicate 8 {}

def InputLine.reset : InputLine := ⟨false, none, {}⟩

def Inputs.reset : Inputs where
  line := Vector.replicate 11 InputLine.reset
  lastChange := 0

def ReflexEntry.reset : ReflexEntry := ⟨{}, .disabled, 0⟩

def Reflex.reset : Reflex where
  entry := Vector.replicate 8 ReflexEntry.reset

/-- The sound unit's reset values (R128). -/
def Sound.reset : Sound where
  voice := .silent
  output := 128
  underruns := 0
  lastEnd := .ok
  latchResult := .ok

def OutSlot.reset : OutSlot := ⟨.free, 0, .ok, .ok, 0, 0, 0⟩

def ChunkBuf.reset : ChunkBuf := ⟨[], none⟩

/-- The link unit's reset values (R160). -/
def Link.reset : Link where
  settings := {}
  peer := Vector.replicate 8 none
  sub := Vector.replicate 4 none
  desc := Vector.replicate 16 none
  order := []
  releaseIndex := 0
  releaseResult := .ok
  free := List.finRange 48
  poolLow := false
  poolFrame := .none
  receiver := .hunt
  finishing := none
  buf := Vector.replicate 2 ChunkBuf.reset
  cur := 0
  replies := []
  alarms := []
  out := Vector.replicate 4 OutSlot.reset
  outOrder := []
  tx := none
  txSeq := 0
  counters := Vector.replicate 12 0
  stormEnd := 0
  lastFrame := []

/-- The lines at reset: RESET asserted; the others as log 10 says (DESIGN CHOICE). -/
def Pins.reset : Pins where
  resetAsserted := true
  encoder := Vector.replicate 4 (false, false)
  input := Vector.replicate 11 true
  linkReady := false

/-- Every shadow at its record's default contents (R6, R20). -/
def defaultShadow : Mem :=
  (RecId.all.filter (fun r => !r.isPart)).foldl (fun m r => m.writeCells (cellsAt r.offset r.defaultBytes)) []

/-- The part while RESET is asserted, given the lines and what memory holds (R20, R24). -/
def Chip.poweredOn (pins : Pins) (mem : Mem) : Chip where
  pins := { pins with resetAsserted := true }
  control := Control.reset
  ring := Ring.reset
  attention := Attention.reset
  path := Path.reset
  motor := Motor.reset
  sense := Sense.reset
  input := Inputs.reset
  reflex := Reflex.reset
  sound := Sound.reset
  link := Link.reset
  mem := mem
  shadow := defaultShadow

/-- The machine right after power-on: RESET asserted, memory with nothing listed, no command waiting (log 9). -/
def State.reset : State where
  hw := Chip.poweredOn Pins.reset []
  pending := []

end Sys2Proof.Machine
end

