-- ==== Sys2Proof/Machine/Ops.lean ====
section
/-! DEFINITION. The named operations over the part that every unit uses: time, the publication list (R8), bytes of memory
and of shadows (R6, R15), the part request queues (R14, R16), the last latch result (R7), and how a meaning answers. -/

namespace Sys2Proof.Machine

/-- How every command that the part takes answers: the part changed, the queue of waiting commands as it was. -/
def act (f : Chip → Chip) (s : State) : Host.Outcome State Fault Refusal := .next { s with hw := f s.hw }

/-! ### Time -/

/-- The counter has reached a time that was set at most 255 s ahead of it (R25, log 25). -/
def reached (now t : Word) : Bool := decide ((now - t).toNat < 2147483648)

/-- The time from a start to now, modulo the counter's range (R25). -/
def since (now start : Word) : Nat := (now - start).toNat

/-- The counter's value at the end of the window in progress, for windows aligned to multiples of k (R45, R156); the
window in progress at the counter's wrap ends at 0 (log 28). -/
def nextMultiple (k : Nat) (now : Word) : Word :=
  let n := (now.toNat / k + 1) * k
  if n < 4294967296 then BitVec.ofNat 32 n else 0

namespace Chip

/-- The unit is ON (section 2.5). -/
def on (c : Chip) (u : BlockUnit) : Bool := c.control.block.get u == .on

/-- The unit is RESETTING. -/
def resetting (c : Chip) (u : BlockUnit) : Bool := c.control.block.get u == .resetting

/-- The link state is UP (R142). -/
def linkUp (c : Chip) : Bool := c.on .link && c.pins.linkReady

/-- The part holds PRST through power-on and window initialisation: no unit is ON and the processor does not run
(R22, R24). -/
def holding (c : Chip) : Bool := c.control.gen == .holding

/-- PRST is asserted (R22). -/
def prst (c : Chip) : Bool := c.control.gen != .idle

/-! ### Publication list -/

/-- A record joins the publication list, or keeps its place (R8). -/
def publish (r : RecId) (c : Chip) : Chip :=
  if r ∈ c.path.pubs then c else { c with path := { c.path with pubs := c.path.pubs ++ [r] } }

/-- Publish when a field has changed. -/
def publishIf (changed : Bool) (r : RecId) (c : Chip) : Chip := if changed then c.publish r else c

/-- A publication of the record that is in flight carries the value before this moment and does not count for the owner
(R30, R107, R169). -/
def markStale (r : RecId) (c : Chip) : Chip :=
  match c.path.port with
  | some (.publication q data _) =>
    if q = r then { c with path := { c.path with port := some (.publication q data true) } } else c
  | _ => c

/-- A latch whose result reports to the status record (R7, R32). -/
def reportLatch (offset : Nat) (code : Code) (c : Chip) : Chip :=
  publish .status
    { c with control := { c.control with latchOffset := BitVec.ofNat 16 offset, latchCode := code } }

end Chip

/-! ### Bytes -/

/-- The cells of bytes put at an address, carried past the top of the address space to 0 (R15). -/
def cells : List Byte → Nat → List Host.Cell
  | [], _ => []
  | b :: bs, a => (a % Config.addressSpace, b) :: cells bs (a + 1)

/-- The bytes at an address, read past the top of the address space from 0 (R15). -/
def Mem.bytes (m : Mem) : Nat → Nat → List Byte
  | 0, _ => []
  | n + 1, a => m.read (a % Config.addressSpace) :: Mem.bytes m n (a + 1)

namespace Chip

/-- Write bytes to the memory device. -/
def writeMem (a : Nat) (bs : List Byte) (c : Chip) : Chip := { c with mem := c.mem.writeCells (cells bs a) }

/-- The shadow of a processor record (R6). -/
def shadowBytes (c : Chip) (r : RecId) : List Byte := c.shadow.bytes r.size r.offset

/-- Set the shadow of a processor record. -/
def setShadow (r : RecId) (bs : List Byte) (c : Chip) : Chip :=
  { c with shadow := c.shadow.writeCells (cellsAt r.offset bs) }

end Chip

/-! ### Part requests -/

/-- The class of a part request (R14). -/
def PartReq.cls : PartReq → Nat
  | .chunkStore _ _ _ | .sampleFetch _ => 1
  | .descRead _ | .doneWrite _ | .bodyFetch _ _ => 2

def PartReq.isChunk (b : Fin 2) : PartReq → Bool
  | .chunkStore b' _ _ => b == b'
  | _ => false

def PartReq.isSound : PartReq → Bool
  | .sampleFetch _ | .descRead _ | .doneWrite _ => true
  | _ => false

def PartReq.isFetch : PartReq → Bool
  | .sampleFetch _ => true
  | _ => false

def PartReq.isBody : PartReq → Bool
  | .bodyFetch _ _ => true
  | _ => false

namespace Path

/-- A part request waits: of the queues, or the head of the publication list (R14). -/
def partWaiting (p : Path) : Bool := !p.parts.isEmpty || !p.pubs.isEmpty

/-- "Whenever no part request is waiting, the count is 0" (R17). -/
def settleCount (p : Path) : Path := if p.partWaiting then p else { p with count := 0 }

/-- A request of the kind waits, or is in flight and not withdrawn (R14, R16). -/
def placed (p : Path) (kind : PartReq → Bool) : Bool :=
  p.parts.any kind || (match p.port with
    | some (.part q withdrawn) => kind q && !withdrawn
    | _ => false)

end Path

namespace Chip

/-- A requester places a part request (R14). -/
def place (q : PartReq) (c : Chip) : Chip := { c with path := { c.path with parts := c.path.parts ++ [q] } }

/-- A requester withdraws its requests of a kind: a waiting one leaves its queue, and the result of a granted one is
ignored (R16). -/
def withdraw (kind : PartReq → Bool) (c : Chip) : Chip :=
  let port := match c.path.port with
    | some (.part q w) => some (.part q (w || kind q))
    | p => p
  let path : Path := { c.path with parts := c.path.parts.filter (fun q => !kind q), port := port }
  { c with path := path.settleCount }

/-! ### Access to channels, inputs, entries, slots -/

def modCh (m : Fin 4) (f : Channel → Channel) (c : Chip) : Chip :=
  { c with motor := { c.motor with ch := c.motor.ch.set m (f c.motor.ch[m]) } }

def modSlot (ch : Fin 8) (f : SampleSlot → SampleSlot) (c : Chip) : Chip :=
  { c with sense := { c.sense with slots := c.sense.slots.set ch (f c.sense.slots[ch]) } }

def modInput (n : Fin 11) (f : InputLine → InputLine) (c : Chip) : Chip :=
  { c with input := { c.input with line := c.input.line.set n (f c.input.line[n]) } }

def modEntry (i : Fin 8) (f : ReflexEntry → ReflexEntry) (c : Chip) : Chip :=
  { c with reflex := { c.reflex with entry := c.reflex.entry.set i (f c.reflex.entry[i]) } }

def modPeer (p : Fin 8) (f : Peer → Peer) (c : Chip) : Chip :=
  { c with link := { c.link with peer := c.link.peer.set p (c.link.peer[p].map f) } }

def setSub (k : Fin 4) (x : Option Subscription) (c : Chip) : Chip :=
  { c with link := { c.link with sub := c.link.sub.set k x } }

def modOut (k : Fin 4) (f : OutSlot → OutSlot) (c : Chip) : Chip :=
  { c with link := { c.link with out := c.link.out.set k (f c.link.out[k]) } }

/-- Apply an operation for each index in order. -/
def forEach {α : Type} (xs : List α) (f : α → Chip → Chip) (c : Chip) : Chip := xs.foldl (fun c x => f x c) c

end Chip
end Sys2Proof.Machine
end

