-- ==== Sys2Proof/Machine/Flags.lean ====
section
/-! DEFINITION. The attention flags of the control unit: pending flags and enables, selection, the published cause and the
ATTN line (R176 to R179). -/

namespace Sys2Proof.Machine

namespace Attention

/-- Pending and enabled. -/
def eligible (a : Attention) (k : Fin 10) : Bool := a.pending[k] && a.enabled[k]

/-- The selected cause: the eligible cause of lowest code (R177). -/
def selected (a : Attention) : Option (Fin 10) := (List.finRange 10).find? a.eligible

/-- The published cause is pending and enabled. -/
def publishedEligible (a : Attention) : Bool :=
  match a.published with
  | none => false
  | some k => a.eligible k

/-- ATTN falls at once, and the fall is recorded, when the published cause is no longer pending and enabled
(R179, first row). -/
def review (now : Word) (a : Attention) : Attention :=
  if a.line && !a.publishedEligible
  then { a with line := false, lastFall := some now, gap := true, riseWaiting := false } else a

/-- A publication of the attention record completes with this cause (R179, second and third row; the fall at an
ineligible cause is log 21). -/
def completePublication (now : Word) (cause : Option (Fin 10)) (a : Attention) : Attention :=
  let a := { a with published := cause }
  if a.publishedEligible then
    if a.line then a else if a.gap then { a with riseWaiting := true } else { a with line := true }
  else a.review now

/-- 20 us have passed since the last fall (R179, last row). -/
def gapExpiry (a : Attention) : Attention :=
  if a.gap then
    { a with gap := false, riseWaiting := false, line := a.line || (a.riseWaiting && a.publishedEligible) }
  else a

end Attention

/-- The code of a selected cause, 0 for NONE. -/
def causeCode : Option (Fin 10) → Nat
  | none => 0
  | some k => k.val + 1

/-- The cause that a code names. -/
def causeOf (code : Nat) : Option (Fin 10) :=
  match code with
  | 0 => none
  | n + 1 => if n < 10 then some (Fin.ofNat 10 n) else none

namespace Chip

/-- The flags or the enables change: selection is judged again, the record joins the publication list when the selected
cause or a flag has changed, and the line is judged (R176, R177, R179). -/
def changeAttention (f : Attention → Attention) (c : Chip) : Chip :=
  let old := c.attention
  let new := f old
  publishIf (new.pending != old.pending || new.selected != old.selected) .attention
    { c with attention := new.review c.control.ms }

/-- A raise of a cause (R176). -/
def raiseCause (k : Cause) (c : Chip) : Chip :=
  if c.attention.pending[k.idx] then c
  else c.changeAttention (fun a => { a with pending := a.pending.set k.idx true })

/-- The take of the returned cause (R178). -/
def takeCause (returned : Option (Fin 10)) (c : Chip) : Chip :=
  match returned with
  | none => c
  | some k =>
    if c.attention.pending[k] then c.changeAttention (fun a => { a with pending := a.pending.set k false }) else c

/-- Every pending flag is cleared (R31 step 3). -/
def clearCauses (c : Chip) : Chip := c.changeAttention (fun a => { a with pending := Vector.replicate 10 false })

/-- The attention enables are replaced (R27 step 2). -/
def setCauseEnables (e : Vector Bool 10) (c : Chip) : Chip := c.changeAttention (fun a => { a with enabled := e })

end Chip
end Sys2Proof.Machine
end

