-- ==== Sys2Proof/Machine/Ring.lean ====
section
/-! DEFINITION. The event ring (R102 to R111). -/

namespace Sys2Proof.Machine

/-- Event kinds (Table 6-4). -/
inductive EventKind where
  | input | compare | runDone | stall | claimLost | reflex | peerJoin | peerLeave | soundEnd | lost
  deriving DecidableEq, Repr

def EventKind.byte : EventKind → Byte
  | .input => 1 | .compare => 2 | .runDone => 3 | .stall => 4 | .claimLost => 5
  | .reflex => 6 | .peerJoin => 7 | .peerLeave => 8 | .soundEnd => 9 | .lost => 10

namespace Ring

/-- A slot counted from the head. -/
def slot (r : Ring) (k : Nat) : Fin 32 := Fin.ofNat 32 (r.head.val + k)

/-- "the slot whose index is the head plus the held count, modulo 32" (R102). -/
def tail (r : Ring) : Fin 32 := r.slot r.held

/-- The slot holds an entry. -/
def holds (r : Ring) (i : Fin 32) : Bool := decide ((i.val + 32 - r.head.val) % 32 < r.held)

/-- "the number of consecutive PUBLISHED entries starting at the head" (R102). -/
def publishedCount (r : Ring) : Nat :=
  ((List.range r.held).takeWhile (fun k => r.published[r.slot k])).length

/-- Steps 1 and 2 of an append that finds room (R104). -/
def push (r : Ring) (now : Word) (kind : EventKind) (source detail : Byte) : Ring :=
  { r with
    slots := r.slots.set r.tail ⟨kind.byte, source, detail, r.nextSeq, now⟩
    published := r.published.set r.tail false
    nextSeq := r.nextSeq + 1
    held := r.held + 1 }

/-- The counting of a dropped append (R105). -/
def drop (r : Ring) : Ring :=
  { r with lostPending := satInc r.lostPending, lostTotal := satInc r.lostTotal, overflow := true }

/-- Steps 1 and 2 of a flush (R109). -/
def flush (r : Ring) : Ring := { r with head := 0, held := 0, lostPending := 0, overflow := false }

/-- Step 1 of a pop (R108). -/
def pop (r : Ring) : Ring := { r with head := r.slot 1, held := r.held - 1 }

end Ring

namespace Chip

/-- An append that finds room (R104). -/
def appendRoom (kind : EventKind) (source detail : Byte) (c : Chip) : Chip :=
  let i := c.ring.tail
  let wasEmpty := c.ring.held == 0
  let c := markStale (.ringEntry i) (publish (.ringEntry i) { c with ring := c.ring.push c.control.ms kind source detail })
  if wasEmpty then c.raiseCause .event else c

/-- An append that finds no room (R105). -/
def appendDropped (c : Chip) : Chip := publish .ringStatus { c with ring := c.ring.drop }

/-- An append to the event ring (R103 to R106). -/
def append (kind : EventKind) (source detail : Byte) (c : Chip) : Chip :=
  if Config.ringSize ≤ c.ring.held then c.appendDropped
  else if c.ring.lostPending = 0 then c.appendRoom kind source detail
  else
    let c := c.appendRoom .lost 0 c.ring.lostPending
    let c := publish .ringStatus { c with ring := { c.ring with lostPending := 0 } }
    if c.ring.held < Config.ringSize then c.appendRoom kind source detail else c.appendDropped

/-- A flush (R109). -/
def flushRing (c : Chip) : Chip := publish .ringStatus { c with ring := c.ring.flush }

/-- A publication of a slot granted after its entry was written is reported (R107). -/
def entryPublished (i : Fin 32) (c : Chip) : Chip :=
  if c.ring.holds i then
    let ring := { c.ring with published := c.ring.published.set i true }
    publishIf (ring.publishedCount != c.ring.publishedCount) .ringStatus { c with ring := ring }
  else c

/-- The report of a consuming read of word 1 of an entry (R108). -/
def popEvent (i : Fin 32) (c : Chip) : Chip :=
  if c.ring.head = i ∧ 0 < c.ring.held ∧ c.ring.published[i] = true
  then publish .ringStatus { c with ring := c.ring.pop } else c

end Chip
end Sys2Proof.Machine
end

