-- ==== Sys2Proof/Machine/Records.lean ====
section
/-! DEFINITION. The value of every record of the service window as bytes: part records by their tables (2-2, 3-1, 5-2,
5-3, 6-2, 6-3, 6-5, 7-2, 8-3, 9-3, 9-5, 10-2, 10-3, 10-4, 10-5, 11-1), processor records as their shadows (R11). -/

namespace Sys2Proof

def EndAction.num : EndAction → Nat
  | .coast => 0 | .brake => 1

def ScanMode.num : ScanMode → Nat
  | .single => 0 | .continuous => 1 | .stepped => 2

namespace Machine

open Bytes

/-! ### Numbers of named values -/

def BlockState.num : BlockState → Nat
  | .off => 0 | .resetting => 1 | .on => 2

def StallState.num : StallState → Nat
  | .normal => 0 | .stalled => 1 | .cooling _ => 2

def Mode.num : Mode → Nat
  | .coast => 0 | .brake => 1 | .drive _ => 2 | .pulse _ _ _ => 3 | .runTo _ _ _ _ => 4

/-- The end action of the running operation, COAST when none runs (Table 3-1). -/
def Mode.endAction : Mode → EndAction
  | .pulse _ _ a => a
  | .runTo _ _ a _ => a
  | .coast | .brake | .drive _ => .coast

/-- The mode parameter (Table 3-1). -/
def Mode.param : Mode → Word
  | .pulse _ endTime _ => endTime
  | .runTo _ target _ _ => target
  | .coast | .brake | .drive _ => 0

def Owner.kind : Owner → Nat
  | .none => 0 | .link _ => 1 | .proc => 2 | .reflex _ => 3

def Owner.index : Owner → Nat
  | .link s => s.val
  | .reflex i => i.val
  | .none | .proc => 0

/-- The level of a source: LINK 1, PROC 2, REFLEX 3 (00_scope, Requests and their sources). -/
def Owner.level : Owner → Nat
  | .none => 0 | .link _ => 1 | .proc => 2 | .reflex _ => 3

def Stage.num : Stage → Nat
  | .coast => 0 | .brake => 1 | .forward _ => 2 | .reverse _ => 3

/-- The applied duty (section 3.1). -/
def Stage.applied : Stage → Int
  | .coast => 0
  | .brake => 0
  | .forward d => d
  | .reverse d => -(d : Int)

def ScanState.num : ScanState → Nat
  | .stopped => 0 | .converting => 1 | .held _ _ => 2 | .waiting _ => 3 | .stepWait => 4

def SlotState.num : SlotState → Nat
  | .empty => 0 | .fresh => 1 | .consumed => 2

def EntryState.num : EntryState → Nat
  | .disabled => 0 | .armed => 1 | .timing _ => 2 | .fired => 3 | .spent => 4

def OutState.num : OutState → Nat
  | .free => 0 | .queued => 1 | .sending => 2 | .done => 3

/-- The source of the sound in progress (R128). -/
def Voice.source : Voice → Owner
  | .silent => .none
  | .tone source _ _ _ _ => source
  | .stream _ => .proc

def Voice.num : Voice → Nat
  | .silent => 0
  | .tone _ _ _ _ _ => 1
  | .stream st => if st.starved.isSome then 3 else 2

/-! ### Counts of the link -/

/-- The number of JOINED slots (section 9.5). -/
def Link.peerCount (l : Link) : Nat := (l.peer.toList.filter Option.isSome).length

/-- The number of JOINED slots with role DRIVER (section 9.5). -/
def Link.driverCount (l : Link) : Nat :=
  (l.peer.toList.filter (fun p => match p with | some p => p.driver | none => false)).length

/-- The descriptors shown in the published order list (R169). -/
def Link.shownOrder (l : Link) : List (Fin 16) :=
  l.order.filter (fun d => match l.desc[d] with | some x => x.shown | none => false)

/-- A list cut or filled up with a byte to a length. -/
def padTo (n : Nat) (fill : Byte) (bs : List Byte) : List Byte :=
  bs.take n ++ List.replicate (n - bs.length) fill

/-! ### Part records -/

def Attention.bytes (a : Attention) : List Byte :=
  [ofNat (causeCode a.selected)] ++ zeros 3 ++ (List.finRange 10).map (fun k => ofBool a.pending[k]) ++ zeros 18

def Control.statusBytes (k : Control) : List Byte :=
  ofHalf Config.familyCode ++ ofHalf Config.revision ++ BlockUnit.all.map (fun u => ofNat (k.block.get u).num)
  ++ zeros 2 ++ ofHalf k.latchOffset ++ ofHalf k.latchCode.half ++ ofHalf k.guardRefusals
  ++ ofHalf k.badTransactions ++ ofHalf k.restarts ++ ofHalf k.mergedRestarts ++ ofWord k.lastRestart ++ zeros 4

def Ring.statusBytes (r : Ring) : List Byte :=
  [ofNat r.publishedCount, ofNat r.head.val, ofBool r.overflow, r.lostPending] ++ ofHalf r.lostTotal ++ zeros 10

def RingEntry.bytes (e : RingEntry) : List Byte := [e.kind, e.source, e.detail, e.seq] ++ ofWord e.time

def Channel.bytes (ch : Channel) : List Byte :=
  [ofNat ch.stall.num, ofNat ch.mode.num, ofNat ch.owner.kind, ofNat ch.owner.index, ofNat ch.stage.num,
   ofNat ch.settings.pwm]
  ++ ofHalf (BitVec.ofInt 16 ch.stage.applied) ++ ofWord ch.count ++ ofHalf ch.speed ++ ofHalf ch.latchResult.half
  ++ ofWord (ch.deadline.getD 0) ++ ofHalf (BitVec.ofNat 16 ch.settings.threshold)
  ++ ofHalf (BitVec.ofNat 16 ch.settings.stallTime) ++ [ofNat ch.mode.endAction.num] ++ zeros 3 ++ ofWord ch.mode.param

def Sense.statusBytes (s : Sense) : List Byte :=
  [ofNat s.scan.num, ofNat s.active.mode.num, ofNat s.active.first.val, ofNat s.active.last.val,
   ofNat s.position.val, 0]
  ++ ofHalf s.latchResult.half ++ ofHalf s.scanCount ++ ofHalf (BitVec.ofNat 16 s.active.interval) ++ ofWord s.lastEnd

def SampleSlot.bytes (s : SampleSlot) : List Byte :=
  ofHalf s.seq ++ [ofNat s.state.num, ofBool s.condition] ++ ofHalf s.value ++ [ofBool s.entered, ofBool s.side]
  ++ ofHalf s.lost ++ ofHalf s.scanCount ++ ofWord s.time

def Inputs.bytes (x : Inputs) : List Byte :=
  (List.finRange 11).map (fun n => ofBool x.line[n].stable) ++ [0] ++ ofWord x.lastChange

def Reflex.bytes (x : Reflex) : List Byte :=
  (List.finRange 8).map (fun i => ofNat x.entry[i].state.num) ++ (List.finRange 8).map (fun i => x.entry[i].fires)

def Sound.bytes (x : Sound) : List Byte :=
  [ofNat x.voice.num, ofNat x.voice.source.kind, ofNat x.voice.source.index, ofNat x.voice.source.level]
  ++ ofHalf x.latchResult.half ++ ofHalf x.lastEnd.half ++ ofHalf x.underruns ++ zeros 2
  ++ ofWord (match x.voice with | .stream st => st.addr | _ => 0)
  ++ ofWord (match x.voice with | .tone _ _ _ _ endTime => endTime | _ => 0) ++ zeros 12

/-- Table 9-5; the link state is UP or DOWN. -/
def Link.statusBytes (l : Link) (up : Bool) : List Byte :=
  [ofBool up, ofNat l.peerCount, ofNat l.driverCount, 0] ++ l.counters.toList.flatMap ofHalf ++ zeros 36

def peerBytes : Option Peer → List Byte
  | none => zeros 16
  | some p => [1, ofBool p.driver, ofBool p.throttled, ofBool p.held.isSome] ++ ofWord p.tag ++ ofWord p.lastHeard
      ++ ofHalf p.accepted ++ zeros 2

def subBytes : Option Subscription → List Byte
  | none => zeros 16
  | some x => [1, ofNat x.slot.val, x.mask, 0] ++ ofWord x.tag ++ ofHalf (BitVec.ofNat 16 x.period) ++ ofHalf x.begun
      ++ ofWord x.dueTime

def Link.inboundBytes (l : Link) : List Byte :=
  [ofNat l.shownOrder.length, ofNat l.free.length, ofBool l.poolLow, 0]
  ++ padTo 16 0xFF (l.shownOrder.map (fun d => ofNat d.val)) ++ [l.releaseIndex, 0] ++ ofHalf l.releaseResult.half
  ++ zeros 8

def descBytes : Option Descriptor → List Byte
  | none => zeros 16 ++ List.replicate 8 0xFF ++ zeros 8
  | some d => [1, ofNat d.slot.val, d.seq, ofNat d.blocks.length] ++ ofWord d.tag ++ ofHalf d.length ++ zeros 2
      ++ ofWord d.time ++ padTo 8 0xFF (d.blocks.map (fun b => ofNat b.val)) ++ zeros 8

def OutSlot.bytes (o : OutSlot) : List Byte :=
  [ofNat o.state.num, o.frameSeq] ++ ofHalf o.latchResult.half ++ ofHalf o.doneResult.half ++ zeros 2
  ++ ofWord o.doneTime ++ zeros 4

/-- The current value of a record. -/
def recordBytes (c : Chip) : RecId → List Byte
  | .attention => c.attention.bytes
  | .status => c.control.statusBytes
  | .ringStatus => c.ring.statusBytes
  | .ringEntry i => c.ring.slots[i].bytes
  | .motorStatus m => c.motor.ch[m].bytes
  | .scanStatus => c.sense.statusBytes
  | .sampleSlot ch => c.sense.slots[ch].bytes
  | .inputState => c.input.bytes
  | .reflexStatus => c.reflex.bytes
  | .soundStatus => c.sound.bytes
  | .linkStatus => c.link.statusBytes c.linkUp
  | .peerImage p => peerBytes c.link.peer[p]
  | .subImage k => subBytes c.link.sub[k]
  | .inboundStatus => c.link.inboundBytes
  | .inboundDesc d => descBytes c.link.desc[d]
  | .outStatus k => c.link.out[k].bytes
  | .control => c.shadowBytes .control
  | .motorSlot m => c.shadowBytes (.motorSlot m)
  | .channelSettings ch => c.shadowBytes (.channelSettings ch)
  | .scanProgram => c.shadowBytes .scanProgram
  | .inputSettings n => c.shadowBytes (.inputSettings n)
  | .reflexEntry i => c.shadowBytes (.reflexEntry i)
  | .soundRequest => c.shadowBytes .soundRequest
  | .linkSettings => c.shadowBytes .linkSettings
  | .releaseWord => c.shadowBytes .releaseWord
  | .outHeader k => c.shadowBytes (.outHeader k)

/-- The byte of the default image at a window offset: of the record that covers it (R24). -/
def imageByte (c : Chip) (off : Nat) : Byte :=
  match Window.recordAt off with
  | some r => get (recordBytes c r) (off - r.offset)
  | none => 0

end Machine
end Sys2Proof
end

