-- ==== Sys2Proof/Machine/MotorChannel.lean ====
section
/-! DEFINITION. A motor channel and its claim: the output stage and reversals (R33, R34), targets of the modes (section
3.2), the stall watch (R46, R47), the judgement of a command (R49, R55, R56), its acceptance (R57, R60), the end of an
operation (R40, R41) and of a claim (R51, R58, R59). None of these hands a change to the reflex unit; their callers do
(log 14). -/

namespace Sys2Proof

/-- The mode that an end action leaves (section 3.2). -/
def EndAction.mode : EndAction → Machine.Mode
  | .coast => .coast | .brake => .brake

namespace Machine

/-! ### Stage -/

/-- The direction in which a stage drives. -/
def Stage.dir? : Stage → Option Dir
  | .forward _ => some .forward
  | .reverse _ => some .reverse
  | .coast | .brake => none

def Stage.driving (st : Stage) : Bool := st.dir?.isSome

/-- The stage that a signed duty calls for (section 3.2, DRIVE). -/
def dutyStage (d : Int) : Stage :=
  if 0 < d then .forward d.toNat else if d < 0 then .reverse (-d).toNat else .coast

/-- The stage target of a mode while the stall state is NORMAL (section 3.2). -/
def Mode.target : Mode → Stage
  | .coast => .coast
  | .brake => .brake
  | .drive d => dutyStage d
  | .pulse d _ _ => dutyStage d
  | .runTo magnitude _ _ .forward => .forward magnitude
  | .runTo magnitude _ _ .reverse => .reverse magnitude

/-- The mode is an operation with an end of its own (R41). -/
def Mode.running : Mode → Bool
  | .pulse _ _ _ => true
  | .runTo _ _ _ _ => true
  | .coast | .brake | .drive _ => false

namespace Channel

/-- The stage target: as the mode calls for in NORMAL, at rest otherwise (R33, R49). -/
def target (ch : Channel) : Stage :=
  if ch.stall = .normal then ch.mode.target else if ch.mode = .brake then .brake else .coast

/-- The conditions under which the stall watch runs (R47). -/
def watchRuns (ch : Channel) : Bool :=
  ch.stall == .normal && ch.settings.threshold != 0 && decide (ch.settings.threshold ≤ ch.stage.applied.natAbs)

/-- The watch starts when its conditions become true and stops when they become false (R47). -/
def reviewWatch (now : Word) (ch : Channel) : Channel :=
  { ch with watch := if ch.watchRuns then some (ch.watch.getD now) else none }

/-- The stage takes a state; the last direction, and the 50 us since driving stopped, follow (R34). -/
def setStage (now : Word) (st : Stage) (ch : Channel) : Channel :=
  reviewWatch now { ch with
    stage := st
    lastDir := if st.driving then st.dir? else ch.lastDir
    gap := !st.driving && (ch.gap || ch.stage.driving) }

/-- The direction is opposite to the one in which the stage last drove. -/
def opposes (ch : Channel) (d : Dir) : Bool :=
  match ch.lastDir with
  | some e => e != d
  | none => false

/-- A stage at rest meets a target in the direction opposite to its last one within the 50 us since it stopped driving
(R34). -/
def meetsOpposite (ch : Channel) : Bool :=
  match ch.target.dir? with
  | some d => ch.opposes d && !ch.stage.driving && ch.gap
  | none => false

/-- A target of COAST or BRAKE takes effect at once and ends a passage; a driving target waits for the period boundary
(R33), and one that a stage at rest meets opposite to its last direction waits for the end of the 50 us (R34). -/
def retarget (now : Word) (ch : Channel) : Channel :=
  if ch.target.driving then { ch with reversing := ch.reversing || ch.meetsOpposite }
  else setStage now ch.target { ch with reversing := false }

/-- The mode changes, and the stage target with it (R35). -/
def setMode (now : Word) (mode : Mode) (ch : Channel) : Channel := retarget now { ch with mode := mode }

/-- The start of a PWM period, at the frequency of the settings in every stage state, since the period timing runs on at
rest: the standing driving target is taken, or a reversal passage begins, or a stage at rest waits for its 50 us (R33,
R34). A stage that is kept at rest stays so (log 17). -/
def periodBoundary (now : Word) (ch : Channel) : Channel :=
  let ch := { ch with periodPwm := ch.settings.pwm }
  if ch.reversing then ch
  else
    match ch.target.dir? with
    | none => ch
    | some d =>
      if ch.opposes d && ch.stage.driving then setStage now .coast { ch with reversing := true }
      else if ch.meetsOpposite then { ch with reversing := true }
      else setStage now ch.target ch

/-- 50 us have passed since the stage stopped driving: a passage, or a wait at rest, ends with the target that stands
(R34). -/
def passageEnd (now : Word) (ch : Channel) : Channel :=
  if !ch.gap then ch
  else if ch.reversing then
    setStage now ch.target { ch with gap := false, reversing := false, periodPwm := ch.settings.pwm }
  else { ch with gap := false }

/-- STALLED becomes COOLING, with a cool time of 1000 ms (R50). -/
def cool (now : Word) (ch : Channel) : Channel :=
  if ch.stall = .stalled then { ch with stall := .cooling (now + Config.coolTime) } else ch

/-- New settings; a change of the threshold or the stall time begins the watch again from 0 (R46). -/
def takeSettings (now : Word) (x : MotorSettings) (ch : Channel) : Channel :=
  let judged := x.threshold != ch.settings.threshold || x.stallTime != ch.settings.stallTime
  let ch := { ch with settings := x }
  if judged then reviewWatch now { ch with watch := none } else ch

end Channel

/-- The direction of a RUN_TO that is accepted with this difference of target and count; none when it completes at once
(R38). -/
def runDir (target count : Word) : Option Dir :=
  let diff := (target - count).toInt
  if diff = 0 then none else if 0 < diff then some .forward else some .reverse

/-- The completion test of a RUN_TO at an encoder step (R39). -/
def runReached (dir : Dir) (target count : Word) : Bool :=
  let diff := (target - count).toInt
  match dir with
  | .forward => decide (diff ≤ 0)
  | .reverse => decide (0 ≤ diff)

/-- The step that a change of the two encoder lines makes, by the table of R42; none when both or neither changed. -/
def quadStep : Bool × Bool → Bool × Bool → Option Int
  | (false, false), (true, false) => some 1
  | (true, false), (true, true) => some 1
  | (true, true), (false, true) => some 1
  | (false, true), (false, false) => some 1
  | (false, false), (false, true) => some (-1)
  | (true, false), (false, false) => some (-1)
  | (true, true), (true, false) => some (-1)
  | (false, true), (true, true) => some (-1)
  | _, _ => none

/-- A signed 16-bit value that saturates (R45). -/
def satSpeed (tally : Int) : Half := BitVec.ofInt 16 (max (-32768) (min 32767 tally))

/-! ### Judging a command against the channel and its claim -/

/-- The claim accepts a command by R55. -/
def claimAccepts (owner requester : Owner) : Bool :=
  match owner, requester with
  | .none, _ => true
  | .reflex _, .reflex _ => true
  | owner, requester => owner == requester || decide (owner.level < requester.level)

/-- Steps 5 and 6 of R64, which are steps 4 and 5 of R66: the stall state, then the claim (R49, R55, R56). -/
def motorVerdict (requester : Owner) (cmd : MotorCmd) (ch : Channel) : Code :=
  let claim := if claimAccepts ch.owner requester then Code.ok else Code.refusedClaim
  match cmd with
  | .none => .ok
  | .drive _ | .pulse _ _ _ | .runTo _ _ _ => if ch.stall = .normal then claim else .stalled
  | .coast | .brake | .resetCount => claim
  | .keep => if ch.owner = requester then .ok else .refusedClaim
  | .release => if requester = .proc ∨ ch.owner = requester then .ok else .refusedClaim

/-- The deadline that an accepted command sets (R60); a REFLEX claim has none. -/
def newDeadline (requester : Owner) (freshness now : Word) : Option Word :=
  match requester with
  | .reflex _ => none
  | _ => if freshness = 0 then none else some (now + freshness)

/-- The reasons for which the loss of a PROC claim raises the CLAIM cause (R58). -/
def raisesClaim : Code → Bool
  | .preempted | .expired | .restart => true
  | _ => false

/-! ### The channel in the part -/

namespace Chip

def motorIndex (m : Fin 4) : Byte := Bytes.ofNat m.val

/-- A RUN_DONE event (R41). -/
def runDone (m : Fin 4) (code : Code) (c : Chip) : Chip := c.append .runDone (motorIndex m) code.byte

/-- A PULSE or RUN_TO that runs ends early (R40). -/
def endOperation (m : Fin 4) (code : Code) (c : Chip) : Chip :=
  if c.motor.ch[m].mode.running then c.runDone m code else c

/-- The mode of a channel changes. -/
def setMode (m : Fin 4) (mode : Mode) (c : Chip) : Chip := c.modCh m (Channel.setMode c.control.ms mode)

/-- The effect of an accepted command on the channel (R35 to R38, R44, R49). -/
def channelTakes (m : Fin 4) (cmd : MotorCmd) (c : Chip) : Chip :=
  let now := c.control.ms
  match cmd with
  | .none | .keep | .release => c
  | .coast => ((c.endOperation m .preempted).setMode m .coast).modCh m (Channel.cool now)
  | .brake => ((c.endOperation m .preempted).setMode m .brake).modCh m (Channel.cool now)
  | .drive d => (c.endOperation m .preempted).setMode m (.drive d)
  | .pulse d duration a => (c.endOperation m .preempted).setMode m (.pulse d (now + duration) a)
  | .runTo magnitude target a =>
    match runDir target c.motor.ch[m].count with
    | some dir => (c.endOperation m .preempted).setMode m (.runTo magnitude target a dir)
    | none => ((c.endOperation m .preempted).setMode m a.mode).runDone m .ok
  | .resetCount =>
    let mode := c.motor.ch[m].mode
    let c := c.modCh m (fun ch => { ch with count := 0 })
    match mode with
    | .runTo _ _ a _ => (c.endOperation m .ended).setMode m a.mode
    | _ => c

/-- The CLAIM_LOST event of an end of a claim, and the CLAIM cause where R58 says so. -/
def claimLost (m : Fin 4) (old : Owner) (code : Code) (c : Chip) : Chip :=
  let c := c.append .claimLost (motorIndex m) code.byte
  if old = .proc ∧ raisesClaim code = true then c.raiseCause .claim else c

/-- The claim of a motor, if it has an owner, is released for a reason (R51, R58, R59, R61, R67, R70). -/
def releaseClaim (m : Fin 4) (code : Code) (c : Chip) : Chip :=
  let old := c.motor.ch[m].owner
  if old = .none then c
  else
    let c := c.modCh m (fun ch => { ch with owner := .none, deadline := none })
    let c := (c.endOperation m code).setMode m .coast
    let c := publish (.motorStatus m) (c.modCh m (Channel.cool c.control.ms))
    publish (.motorStatus m) (c.claimLost m old code)

/-- Every claim of an owner is released, in the order of motors A to D (R67, R70). -/
def releaseClaimsOf (owner : Owner) (code : Code) (c : Chip) : Chip :=
  c.forEach (List.finRange 4) (fun m c => if c.motor.ch[m].owner = owner then c.releaseClaim m code else c)

/-- An accepted command acts (R57, R59; an accepted NONE changes nothing). -/
def motorAct (requester : Owner) (freshness : Word) (cmd : MotorCmd) (m : Fin 4) (c : Chip) : Chip :=
  match cmd with
  | .none => c
  | .release => c.releaseClaim m .ended
  | cmd =>
    let old := c.motor.ch[m].owner
    let c := c.modCh m (fun ch =>
      { ch with owner := requester, deadline := newDeadline requester freshness c.control.ms })
    let c := c.channelTakes m cmd
    let c := if old = .none ∨ old = requester then c else c.claimLost m old .preempted
    publish (.motorStatus m) c

end Chip
end Machine
end Sys2Proof
end

