-- ==== Sys2Proof/Machine/Voice.lean ====
section
/-! DEFINITION. The voice: its acceptance of requests by level (R129), the end of a sound (R130), and the start of a tone
(R134) and of a stream (R135). None of these hands a change to the reflex unit: no term reads the voice. -/

namespace Sys2Proof.Machine

/-- The source index of a SOUND_END event (R130). -/
def soundIndex : Owner → Byte
  | .none => 0
  | .link s => Bytes.ofNat s.val
  | .proc => 8
  | .reflex i => Bytes.ofNat (16 + i.val)

/-- The offset of a tone's two levels from rest (R134). -/
def toneOffset (volume : Nat) : Nat := 127 * volume / 100

/-- The period of a tone in us: 1,000,000 divided by the frequency, rounded to the nearest microsecond (R134). For a
period half way between two microseconds, as at 128, 640 and 3200 Hz, the spec does not say which is nearest: a free
value (log 22). -/
def tonePeriod (frequency : Nat) : Nat :=
  let down := 1000000 / frequency
  let rest := 1000000 % frequency
  if 2 * rest < frequency then down
  else if frequency < 2 * rest then down + 1
  else if Config.halfUp frequency then down + 1 else down

/-- The level of a tone's first half (R134). -/
def toneHigh (volume : Nat) : Byte := Bytes.ofNat (128 + toneOffset volume)

/-- The output value of a tone at a time in us after its acceptance (R134). -/
def toneOutputAt (frequency volume us : Nat) : Byte :=
  if us % tonePeriod frequency < tonePeriod frequency / 2 then toneHigh volume
  else Bytes.ofNat (128 - toneOffset volume)

/-- The output value at a value of the counter: a tone's wave goes on, and everything else holds its level between its own
events (R134, R136, log 22). -/
def Sound.waveAt (now : Word) (x : Sound) : Byte :=
  match x.voice with
  | .tone _ frequency volume start _ => toneOutputAt frequency volume (1000 * since now start)
  | .silent | .stream _ => x.output

/-- The output value of a staged byte: "128 plus the byte's difference from 128 multiplied by the volume and divided by
100, rounded toward 128" (R136). -/
def sampleOutput (volume : Nat) (b : Byte) : Byte :=
  if 128 ≤ b.toNat then Bytes.ofNat (128 + (b.toNat - 128) * volume / 100)
  else Bytes.ofNat (128 - (128 - b.toNat) * volume / 100)

namespace Chip

def setVoice (v : Voice) (c : Chip) : Chip := { c with sound := { c.sound with voice := v } }

/-- A sound in progress ends (R130). -/
def endSound (code : Code) (c : Chip) : Chip :=
  if c.sound.voice = .silent then c
  else
    let source := c.sound.voice.source
    let c := c.withdraw PartReq.isSound
    let c := publish .soundStatus
      { c with sound := { c.sound with voice := .silent, output := 128, lastEnd := code } }
    (c.append .soundEnd (soundIndex source) code.byte).raiseCause .sound

/-- The voice accepts a request of a level (R129). -/
def voiceAccepts (level : Nat) (c : Chip) : Bool := decide (c.sound.voice.source.level ≤ level)

/-- An accepted tone, after the sound it pre-empts has ended (R129, R134). -/
def startTone (source : Owner) (frequency volume duration : Nat) (c : Chip) : Chip :=
  let c := c.endSound .preempted
  let voice := Voice.tone source frequency volume c.control.ms (c.control.ms + BitVec.ofNat 32 duration)
  publish .soundStatus
    { c with sound := { c.sound with voice := voice, output := toneHigh volume } }

/-- The walker places a read of a descriptor (R135). -/
def placeDescRead (addr : Word) (c : Chip) : Chip := c.place (.descRead addr.toNat)

/-- An accepted stream, after the sound it pre-empts has ended (R129, R135). -/
def startStream (volume : Nat) (fast : Bool) (desc : Word) (c : Chip) : Chip :=
  let c := c.endSound .preempted
  let st : Stream :=
    { fast := fast, volume := volume, addr := desc, block := none, fetched := 0, staging := [], lastBlock := false,
      chainDone := false, starved := none, tookSample := false }
  placeDescRead desc
    (publish .soundStatus { c with sound := { c.sound with voice := .stream st, output := 128 } })

end Chip
end Sys2Proof.Machine
end

