-- ==== Sys2Proof/Machine/Restart.lean ====
section
/-! DEFINITION. The restart generator's answer to a request (R22), the effects of a pulse start (R21, R23, R70, R139), and
the placing of an alarm (R123). -/

namespace Sys2Proof.Machine.Chip

/-- The path unit at a pulse start: a waiting transaction is dropped; the response of one in flight will be discarded
(R21). -/
def restartPath (c : Chip) : Chip :=
  let port := match c.path.port with
    | some (.processor t _) => some (.processor t true)
    | p => p
  { c with path := { c.path with upstream := none, port := port } }

/-- The motor unit at a pulse start (R70). -/
def restartClaims (c : Chip) : Chip := if c.on .motor then c.releaseClaimsOf .proc .restart else c

/-- The sound unit at a pulse start (R139). -/
def restartSound (c : Chip) : Chip :=
  if c.on .sound && c.sound.voice.source == .proc then c.endSound .restart else c

/-- The effects of a pulse start in order (R23). -/
def pulseStart (c : Chip) : Chip := restartSound (restartClaims (restartPath c))

/-- A restart request with a pulse width in ms (R22); the status record joins the publication list also for a merged
restart count that stands at 65535 (log 42). -/
def restartRequest (width : Nat) (c : Chip) : Chip :=
  match c.control.gen with
  | .holding => c
  | .idle =>
    pulseStart (publish .status { c with control := { c.control with
      gen := .pulsing (c.control.ms + BitVec.ofNat 32 width)
      restarts := satInc c.control.restarts
      lastRestart := c.control.ms } })
  | .pulsing _ =>
    publish .status { c with control := { c.control with mergedRestarts := satInc c.control.mergedRestarts } }

/-- The result of placing an alarm (R123). -/
def alarmResult (c : Chip) : Code := if !c.on .link then .off else if c.linkUp then .ok else .linkDown

/-- An alarm for an entry joins the alarm set, or keeps its place, while the link is UP (R123). -/
def placeAlarm (i : Fin 8) (c : Chip) : Chip :=
  if c.linkUp && !(c.link.alarms.contains i)
  then { c with link := { c.link with alarms := c.link.alarms ++ [i] } } else c

end Sys2Proof.Machine.Chip
end

