-- ==== Sys2Proof/Machine/Reflex.lean ====
section
/-! DEFINITION. Reflex entries: terms and conditions (R112, R113), firing (R120 to R125), and the judgement of the watching
entries when a change is handed to the reflex unit (R114, R117, R119; log 14 says when and in what order). -/

namespace Sys2Proof.Machine

/-- The first result other than OK, or OK (R124). -/
def firstNotOk : List Code → Code
  | [] => .ok
  | x :: xs => if x = .ok then firstNotOk xs else x

namespace Chip

/-- What a term reads, before inversion: its state, false while its unit is not ON (R112, section 7.1). -/
def termReads (c : Chip) (t : TermRec) : Bool :=
  match t.kind.toNat with
  | 1 => c.on .input && c.input.line[Fin.ofNat 11 t.index.toNat].stable
  | 2 => c.on .sense && c.sense.slots[Fin.ofNat 8 t.index.toNat].condition
  | 3 => c.on .motor && c.motor.ch[Fin.ofNat 4 t.index.toNat].stall == .stalled
  | 4 => c.on .link && c.link.peerCount == 0
  | 5 => c.on .link && !c.linkUp
  | 6 => c.path.procQuiet
  | _ => false

/-- The value of a term (R112). -/
def termValue (c : Chip) (t : TermRec) : Bool := c.termReads t != (t.invert == 1)

/-- The condition of an entry: ALL or ANY of its terms that are not NONE (R113). -/
def condition (c : Chip) (r : ReflexRec) : Bool :=
  let terms := r.terms.filter TermRec.used
  if r.combine = 1 then terms.any c.termValue else terms.all c.termValue

/-- The motors of a STOP action in order (R121). -/
def stopMotors (r : ReflexRec) : List (Fin 4) := (List.finRange 4).filter (fun m => r.motors[m] == 1)

/-- The STOP action (R68, R121). -/
def fireStop (i : Fin 8) (r : ReflexRec) (c : Chip) : Chip :=
  if r.stop = 1 ∧ c.on .motor = true then
    c.forEach (stopMotors r) (motorAct (.reflex i) 0 (if r.stopMode = 1 then .brake else .coast))
  else c

/-- The TONE action (R122). -/
def fireTone (i : Fin 8) (r : ReflexRec) (c : Chip) : Chip :=
  if r.tone = 1 ∧ c.on .sound = true then c.startTone (.reflex i) r.frequency.toNat 100 r.duration.toNat else c

/-- The ALARM action (R123). -/
def fireAlarm (i : Fin 8) (r : ReflexRec) (c : Chip) : Chip := if r.alarm = 1 then c.placeAlarm i else c

/-- The results of steps 2 to 4 of a firing; what decides them, the block states and the link state, those steps do not
change (R121 to R124). -/
def fireResults (r : ReflexRec) (c : Chip) : List Code :=
  [if r.stop = 1 ∧ c.on .motor = false then .off else .ok,
   if r.tone = 1 ∧ c.on .sound = false then .off else .ok,
   if r.alarm = 1 then c.alarmResult else .ok]

/-- An entry fires (R120). -/
def fire (i : Fin 8) (c : Chip) : Chip :=
  let r := c.reflex.entry[i].record
  let detail := firstNotOk (fireResults r c)
  let c := publish .reflexStatus (c.modEntry i (fun e =>
    { e with state := if r.rearm = 1 then .spent else .fired, fires := satInc e.fires }))
  let c := fireAlarm i r (fireTone i r (fireStop i r c))
  let c := c.append .reflex (Bytes.ofNat i.val) detail.byte
  let c := if r.attention = 1 then c.raiseCause .reflex else c
  if r.restart = 1 then c.restartRequest r.pulse.toNat else c

/-- An armed entry whose condition is true and whose hold time is 0 fires (R117). -/
def firesNow (c : Chip) (i : Fin 8) : Bool :=
  let e := c.reflex.entry[i]
  e.state == .armed && c.condition e.record && e.record.hold == 0

/-- The moves of R117 other than firing. -/
def rejudge (i : Fin 8) (c : Chip) : Chip :=
  let e := c.reflex.entry[i]
  match e.state with
  | .armed =>
    if c.condition e.record && e.record.hold != 0 then
      publish .reflexStatus
        (c.modEntry i (fun e => { e with state := .timing (c.control.ms + e.record.hold.setWidth 32) }))
    else c
  | .timing _ | .fired =>
    if c.condition e.record then c
    else publish .reflexStatus (c.modEntry i (fun e => { e with state := .armed }))
  | .disabled | .spent => c

/-- One change is judged by every watching entry on the states as they stand; the entries that fire on it then fire in
index order, and the changes their firings made are judged in the next round (R114, R120). Only a motor's leaving
STALLED can come of a firing, so there are at most five rounds. -/
def settle : Nat → Chip → Chip
  | 0, c => c
  | n + 1, c =>
    let firing := (List.finRange 8).filter c.firesNow
    let c := c.forEach (List.finRange 8) rejudge
    match firing with
    | [] => c
    | _ :: _ => settle n (c.forEach firing fire)

/-- A change is handed to the reflex unit (R114). -/
def handChange (c : Chip) : Chip := if c.on .reflex then settle 6 c else c

/-- PROC_QUIET turns, and the change is handed to the reflex unit (R19). -/
def setProcQuiet (b : Bool) (c : Chip) : Chip :=
  if c.path.procQuiet = b then c else handChange { c with path := { c.path with procQuiet := b } }

end Chip
end Sys2Proof.Machine
end

