-- ==== Sys2Proof/Machine/Completion.lean ====
section
/-! DEFINITION. What the completion of a processor transaction does around the owners' latches and reports: the answer
(R1, R21), the processor-quiet timer (R19), and the storing of a whole record whose latch a command row stands for
(R6, R7, log 5). -/

namespace Sys2Proof.Machine.Chip

/-- The answer given on the upstream port; a restart pulse discards it (R1, R21). -/
def answer (discarded : Bool) (r : Response) (c : Chip) : Chip :=
  if discarded then c else { c with path := { c.path with response := some r } }

/-- A processor transaction has completed (R19). -/
def touch (c : Chip) : Chip :=
  setProcQuiet false { c with path := { c.path with lastTime := c.control.ms, quietElapsed := 0 } }

/-- A completed WRITE of a whole processor record reaches memory and the shadow (R6). -/
def storeRecord (r : RecId) (bs : List Byte) (c : Chip) : Chip := setShadow r bs (writeMem r.addr bs c)

/-- A command row that stands for the latch of a processor record: a completed processor WRITE of the whole record with
its latch word last, taken by its owner (R1, R6, R7, log 5). While PRST is held from power-on there is no processor
transaction, and the row has no effect (log 8). -/
def latchRow (r : RecId) (bs : List Byte) (take : Chip → Chip) (c : Chip) : Chip :=
  if c.holding then c else touch (take (answer c.prst (.done []) (storeRecord r bs c)))

/-- The words of bytes. -/
def wordsOf (bs : List Byte) : List Word := (List.range (bs.length / 4)).map (fun k => Bytes.word bs (4 * k))

/-- A command row that stands for a consuming read: a completed processor READ of a whole record, reported with the image
it returned unless a restart pulse discards it (R12, R21, log 7). -/
def readRow (r : RecId) (report : List Byte → Chip → Chip) (c : Chip) : Chip :=
  if c.holding then c
  else
    let image := c.mem.bytes r.size r.addr
    let c' := answer c.prst (.done (wordsOf image)) c
    touch (if c.prst then c' else report image c')

end Sys2Proof.Machine.Chip
end

