-- ==== Sys2Proof/Machine/Input.lean ====
section
/-! DEFINITION. The input unit: edges and debouncing (R96, R97), stable-state changes (R98), settings (R99), leaving and
entering ON (R101), and the meanings of its events and of its latch. -/

namespace Sys2Proof.Machine

/-- Whether an event mode calls for an event at a change to this state (R98). -/
def wantsEvent (mode : EventMode) (active : Bool) : Bool :=
  match mode with
  | .none => false
  | .press => active
  | .release => !active
  | .both => true

namespace Chip

/-- The state that the raw level of an input means under its polarity (section 6.1). -/
def rawState (c : Chip) (n : Fin 11) : Bool := c.pins.input[n] == c.input.line[n].settings.activeHigh

/-- The raw level disagrees with the stable state. -/
def disagrees (c : Chip) (n : Fin 11) : Bool := c.rawState n != c.input.line[n].stable

/-- The stable state of an input changes to what the raw level means; its timer becomes idle (R97, R98). -/
def changeStable (n : Fin 11) (c : Chip) : Chip :=
  let new := c.rawState n
  let c := c.modInput n (fun x => { x with stable := new, timer := none })
  let c := publish .inputState { c with input := { c.input with lastChange := c.control.ms } }
  let c := if wantsEvent c.input.line[n].settings.event new
    then c.append .input (Bytes.ofNat n.val) (Bytes.ofBool new) else c
  c.handChange

/-- An edge of an input's line is judged (R97). -/
def judgeEdge (n : Fin 11) (c : Chip) : Chip :=
  if c.disagrees n then
    if c.input.line[n].settings.debounce = 0 then c.changeStable n
    else c.modInput n (fun x => { x with timer := some c.control.ms })
  else c.modInput n (fun x => { x with timer := none })

/-- The line of an input takes a level (section 6.1, R96). -/
def inputLine (n : Fin 11) (level : Bool) (c : Chip) : Chip :=
  if c.pins.input[n] = level then c
  else
    let c := { c with pins := { c.pins with input := c.pins.input.set n level } }
    if c.on .input then c.judgeEdge n else c

/-- The debounce timer has run for the debounce time (R97). -/
def debounceDue (c : Chip) (n : Fin 11) : Bool :=
  match c.input.line[n].timer with
  | some start => c.on .input && decide (c.input.line[n].settings.debounce ≤ since c.control.ms start)
  | none => false

/-- The debounce timer expires (R97). -/
def debounceExpiry (n : Fin 11) (c : Chip) : Chip := if c.debounceDue n then c.changeStable n else c

/-- New settings take effect: event mode, then polarity with the raw level judged again, then debounce time (R99). -/
def takeInputSettings (n : Fin 11) (x : InputSettings) (c : Chip) : Chip :=
  let c := c.modInput n (fun l => { l with settings := x })
  if !c.disagrees n then c.modInput n (fun l => { l with timer := none })
  else
    let c := c.modInput n (fun l => { l with timer := some (l.timer.getD c.control.ms) })
    match c.input.line[n].timer with
    | none => c
    | some start => if x.debounce ≤ since c.control.ms start then c.changeStable n else c

/-- A latch of an input settings record (R99); the result is reported after what the new settings do, and R99 names no
order (log 32). -/
def inputLatch (n : Fin 11) (r : InputRec) (c : Chip) : Chip :=
  let off := (RecId.inputSettings n).offset
  if !r.valid then c.reportLatch off .badArg
  else if !c.on .input then c.reportLatch off .off
  else
    let c := if r.settings = c.input.line[n].settings then c else c.takeInputSettings n r.settings
    c.reportLatch off .ok

/-- The input unit leaves ON (R101); the changes of stable states are handed before its records join the publication list
(log 16). -/
def inputLeaveOn (c : Chip) : Chip := { c with input := Inputs.reset }

/-- The settings that an input takes when the unit turns ON (R101). -/
def inputFromShadow (c : Chip) (n : Fin 11) : InputSettings :=
  let r := InputRec.ofBytes (c.shadowBytes (.inputSettings n))
  if r.valid then r.settings else {}

/-- The input unit turns ON with its settings, every stable state INACTIVE (R101). -/
def inputTurnOn (c : Chip) : Chip :=
  { c with input := Inputs.reset }.forEach (List.finRange 11) (fun n c =>
    c.modInput n (fun l => { l with settings := c.inputFromShadow n }))

/-- Each raw level is judged at that moment as if an edge had just arrived (R101), in the order of the inputs' indices
(log 34). -/
def judgeAllLevels (c : Chip) : Chip := c.forEach (List.finRange 11) judgeEdge

end Chip

/-! ### Meanings -/

/-- INPUT_EDGE (R97). -/
def execInputEdge (n : Fin 11) (level : Bool) (s : State) : Host.Outcome State Fault Refusal :=
  act (Chip.inputLine n level) s
/-- DEBOUNCE_EXPIRY (R97). -/
def execDebounceExpiry (n : Fin 11) (s : State) : Host.Outcome State Fault Refusal := act (Chip.debounceExpiry n) s
/-- INPUT_SETTINGS_LATCH (R99). -/
def execInputSettingsLatch (n : Fin 11) (r : InputRec) (s : State) : Host.Outcome State Fault Refusal :=
  act (Chip.latchRow (.inputSettings n) r.toBytes (Chip.inputLatch n r)) s

end Sys2Proof.Machine
end

