-- ==== Sys2Proof/Machine/Motor.lean ====
section
/-! DEFINITION. The motor unit: the latch of a command slot (R64, R65), MOTOR messages (R66), a peer's claims (R67), leaving
and entering ON (R43, R46, R53, R71), and the meanings of the motor commands and events. -/

namespace Sys2Proof.Machine

/-- The outcome of a slot latch that passed the content test and meets an ON unit: the command is judged and, when
accepted, acts; changes are handed to the reflex unit when the whole request is done (R64 steps 3 to 6, R46, log 14). -/
def Chip.motorRequest (requester : Owner) (freshness : Word) (cmd : MotorCmd) (m : Fin 4) (c : Chip) : Chip × Code :=
  let code := motorVerdict requester cmd c.motor.ch[m]
  (if code = .ok then (c.motorAct requester freshness cmd m).handChange else c, code)

namespace Chip

/-- The last processor latch result of a motor (R65); a RESETTING unit's part records keep their defaults (R29,
log 15). At REFUSED_CLAIM the CLAIM cause is raised before the motor status record joins the publication list: R65 names
no order (log 39). -/
def motorResult (m : Fin 4) (code : Code) (c : Chip) : Chip :=
  if c.resetting .motor then c
  else
    let c := c.modCh m (fun ch => { ch with latchResult := code })
    let c := if code = .refusedClaim then c.raiseCause .claim else c
    publish (.motorStatus m) c

/-- A latch of a motor command slot (R64). For settings changed at step 3 the motor status record joins the publication
list with the joins of steps 5 and 6 and of the result, so after the RUN_DONE and CLAIM_LOST entries of the command: R52
says that a change of settings joins and no step says when (log 39). -/
def motorLatch (m : Fin 4) (r : MotorSlot) (code : Nat) (c : Chip) : Chip :=
  match r.command code with
  | none => c.motorResult m .badArg
  | some cmd =>
    if !r.settingsOk then c.motorResult m .badArg
    else if !c.on .motor then c.motorResult m .off
    else
      let c := c.modCh m (Channel.takeSettings c.control.ms r.settings)
      let out := motorRequest .proc r.freshness cmd m c
      out.1.motorResult m out.2

/-- A MOTOR message of the peer in slot s, whose role is given; the payload is 13 bytes or more (R66, Table 10-1). -/
def motorMessage (s : Fin 8) (driver : Bool) (payload : List Byte) (c : Chip) : Chip × Code :=
  let m := (Bytes.get payload 0).toNat
  let code := (Bytes.get payload 1).toNat
  let r : MotorSlot :=
    { duty := Bytes.half payload 2, param := Bytes.word payload 4, freshness := Bytes.word payload 8,
      endAction := Bytes.get payload 12 }
  match if m ≤ 3 then r.command code else none with
  | none | some .none => (c, .badArg)
  | some cmd =>
    if !c.on .motor then (c, .off)
    else if !driver then (c, .notDriver)
    else motorRequest (.link s) r.freshness cmd (Fin.ofNat 4 m) c

/-- A peer stops being a DRIVER in slot s (R67); each release hands its change to the reflex unit. -/
def releasePeerClaims (s : Fin 8) (code : Code) (c : Chip) : Chip :=
  if c.on .motor then
    c.forEach (List.finRange 4) (fun m c =>
      if c.motor.ch[m].owner = .link s then (c.releaseClaim m code).handChange else c)
  else c

/-- The motor unit leaves ON, step by step over the channels (R53, R71, log 26); its records are set to defaults and
published by the block reset. -/
def motorLeaveOn (c : Chip) : Chip :=
  let all := List.finRange 4
  let c := c.forEach all (fun m => endOperation m .off)
  let c := c.forEach all (fun m c => c.modCh m (fun ch => { ch with mode := .coast, stage := .coast, lastDir := none }))
  let c := c.forEach all (fun m c =>
    let old := c.motor.ch[m].owner
    if old = .none then c
    else (c.modCh m (fun ch => { ch with owner := .none, deadline := none })).claimLost m old .off)
  { c with motor := Motor.reset }

/-- A channel starts from its reset values: settings from its slot's shadow when they lie within their ranges, and the
present levels of its encoder lines (R43, R46, R53). Its record joins the publication list when a field has changed: the
settings, or a latch result that the unit got while OFF (R52, log 36). -/
def channelTurnOn (m : Fin 4) (c : Chip) : Chip :=
  let r := MotorSlot.ofBytes (c.shadowBytes (.motorSlot m))
  let settings := if r.settingsOk then r.settings else {}
  publishIf (settings != ({} : MotorSettings) || c.motor.ch[m].latchResult != .ok) (.motorStatus m)
    (c.modCh m (fun _ => { Channel.reset with settings := settings, levels := some c.pins.encoder[m] }))

/-- The motor unit turns ON from its reset values; its first speed window begins (R45, R53). The channels are taken in the
order A to D (log 41). -/
def motorTurnOn (c : Chip) : Chip :=
  { c with motor := { c.motor with windowEnd := nextMultiple 100 c.control.ms } }.forEach (List.finRange 4)
    channelTurnOn

/-! ### Events -/

/-- A claim's deadline is reached (R61). -/
def claimExpiry (m : Fin 4) (c : Chip) : Chip :=
  match c.motor.ch[m].deadline with
  | some t =>
    if c.on .motor && reached c.control.ms t then (c.releaseClaim m .expired).handChange else c
  | none => c

/-- A channel changes by an event of its stage; the record joins the publication list when the stage has changed
(R52). -/
def stageEvent (m : Fin 4) (f : Word → Channel → Channel) (c : Chip) : Chip :=
  let old := c.motor.ch[m].stage
  let c := c.modCh m (f c.control.ms)
  publishIf (c.motor.ch[m].stage != old) (.motorStatus m) c

/-- A PWM period of the channel begins (R33). -/
def pwmBoundary (m : Fin 4) (c : Chip) : Chip := if c.on .motor then c.stageEvent m Channel.periodBoundary else c

/-- 50 us have passed since the stage stopped driving (R34). -/
def passageEnd (m : Fin 4) (c : Chip) : Chip := if c.on .motor then c.stageEvent m Channel.passageEnd else c

/-- A counted step: count, tally, stall watch, RUN_TO, publication, in this order (R42, R39). -/
def countStep (m : Fin 4) (d : Int) (c : Chip) : Chip :=
  let c := c.modCh m (fun ch => { ch with
    count := ch.count + BitVec.ofInt 32 d
    tally := ch.tally + d
    watch := ch.watch.map (fun _ => c.control.ms) })
  let ch := c.motor.ch[m]
  let c := match ch.mode with
    | .runTo _ target a dir =>
      if runReached dir target ch.count then (c.setMode m a.mode).runDone m .ok else c
    | _ => c
  publish (.motorStatus m) c

/-- The encoder lines of a motor take levels; an ON unit decodes the change (R42, R43). -/
def encoderLines (m : Fin 4) (a b : Bool) (c : Chip) : Chip :=
  let c := { c with pins := { c.pins with encoder := c.pins.encoder.set m (a, b) } }
  if !c.on .motor then c
  else
    let before := c.motor.ch[m].levels
    let c := c.modCh m (fun ch => { ch with levels := some (a, b) })
    match before with
    | none => c
    | some old =>
      match quadStep old (a, b) with
      | none => c
      | some d => c.countStep m d

/-- The pulse end time is reached (R37). -/
def pulseExpiry (m : Fin 4) (c : Chip) : Chip :=
  match c.motor.ch[m].mode with
  | .pulse _ endTime a =>
    if c.on .motor && reached c.control.ms endTime
    then (publish (.motorStatus m) (c.setMode m a.mode)).runDone m .ok else c
  | _ => c

/-- A speed window ends for one channel (R45). -/
def speedOf (m : Fin 4) (c : Chip) : Chip :=
  let old := c.motor.ch[m].speed
  let c := c.modCh m (fun ch => { ch with speed := satSpeed ch.tally, tally := 0 })
  publishIf (c.motor.ch[m].speed != old) (.motorStatus m) c

/-- A speed window ends, and the next begins (R45); the channels are taken in the order A to D (log 41). -/
def speedWindow (c : Chip) : Chip :=
  if c.on .motor && reached c.control.ms c.motor.windowEnd then
    let c := c.forEach (List.finRange 4) speedOf
    { c with motor := { c.motor with windowEnd := nextMultiple 100 c.control.ms } }
  else c

/-- The stall watch has reached the stall time (R48). -/
def stallDue (c : Chip) (m : Fin 4) : Bool :=
  match c.motor.ch[m].watch with
  | some start => c.on .motor && decide (c.motor.ch[m].settings.stallTime ≤ since c.control.ms start)
  | none => false

/-- A channel enters STALLED (R48). -/
def enterStalled (m : Fin 4) (c : Chip) : Chip :=
  let now := c.control.ms
  let c := c.modCh m (fun ch => Channel.setStage now .coast { ch with reversing := false })
  let c := (c.endOperation m .stalled).modCh m (fun ch => { ch with mode := .coast })
  let c := c.modCh m (fun ch => { ch with stall := .stalled, watch := none })
  let c := (c.append .stall (motorIndex m) Code.stalled.byte).raiseCause .stall
  publish (.motorStatus m) c

/-- The watch's expiry (R48). -/
def stallExpiry (m : Fin 4) (c : Chip) : Chip := if c.stallDue m then (c.enterStalled m).handChange else c

/-- The cool end time is reached (R50). -/
def coolingEnd (m : Fin 4) (c : Chip) : Chip :=
  match c.motor.ch[m].stall with
  | .cooling t =>
    if c.on .motor && reached c.control.ms t then
      publish (.motorStatus m) (c.modCh m (fun ch => Channel.reviewWatch c.control.ms { ch with stall := .normal }))
    else c
  | _ => c

/-- A command row of a motor slot (log 5). -/
def motorRow (m : Fin 4) (r : MotorSlot) (code : Nat) : Chip → Chip :=
  latchRow (.motorSlot m) (r.toBytes code) (motorLatch m r code)

end Chip

/-! ### Meanings -/

/-- MOTOR_NONE (R64 step 4). -/
def execMotorNone (m : Fin 4) (r : MotorSlot) (s : State) : Host.Outcome State Fault Refusal := act (Chip.motorRow m r 0) s
/-- COAST (R35). -/
def execCoast (m : Fin 4) (r : MotorSlot) (s : State) : Host.Outcome State Fault Refusal := act (Chip.motorRow m r 1) s
/-- BRAKE (R35). -/
def execBrake (m : Fin 4) (r : MotorSlot) (s : State) : Host.Outcome State Fault Refusal := act (Chip.motorRow m r 2) s
/-- DRIVE (R36). -/
def execDrive (m : Fin 4) (r : MotorSlot) (s : State) : Host.Outcome State Fault Refusal := act (Chip.motorRow m r 3) s
/-- PULSE (R37). -/
def execPulse (m : Fin 4) (r : MotorSlot) (s : State) : Host.Outcome State Fault Refusal := act (Chip.motorRow m r 4) s
/-- RUN_TO (R38). -/
def execRunTo (m : Fin 4) (r : MotorSlot) (s : State) : Host.Outcome State Fault Refusal := act (Chip.motorRow m r 5) s
/-- KEEP (R56). -/
def execKeep (m : Fin 4) (r : MotorSlot) (s : State) : Host.Outcome State Fault Refusal := act (Chip.motorRow m r 6) s
/-- RESET_COUNT (R44). -/
def execResetCount (m : Fin 4) (r : MotorSlot) (s : State) : Host.Outcome State Fault Refusal :=
  act (Chip.motorRow m r 7) s
/-- RELEASE (R59). -/
def execRelease (m : Fin 4) (r : MotorSlot) (s : State) : Host.Outcome State Fault Refusal := act (Chip.motorRow m r 8) s
/-- CLAIM_EXPIRY (R61). -/
def execClaimExpiry (m : Fin 4) (s : State) : Host.Outcome State Fault Refusal := act (Chip.claimExpiry m) s
/-- PWM_PERIOD_BOUNDARY (R33). -/
def execPwmPeriodBoundary (m : Fin 4) (s : State) : Host.Outcome State Fault Refusal := act (Chip.pwmBoundary m) s
/-- REVERSAL_PASSAGE_END (R34). -/
def execReversalPassageEnd (m : Fin 4) (s : State) : Host.Outcome State Fault Refusal := act (Chip.passageEnd m) s
/-- ENCODER_STEP (R42). -/
def execEncoderStep (m : Fin 4) (a b : Bool) (s : State) : Host.Outcome State Fault Refusal :=
  act (Chip.encoderLines m a b) s
/-- PULSE_EXPIRY (R37). -/
def execPulseExpiry (m : Fin 4) (s : State) : Host.Outcome State Fault Refusal := act (Chip.pulseExpiry m) s
/-- SPEED_WINDOW_END (R45). -/
def execSpeedWindowEnd (s : State) : Host.Outcome State Fault Refusal := act Chip.speedWindow s
/-- STALL (R48). -/
def execStall (m : Fin 4) (s : State) : Host.Outcome State Fault Refusal := act (Chip.stallExpiry m) s
/-- COOLING_END (R50). -/
def execCoolingEnd (m : Fin 4) (s : State) : Host.Outcome State Fault Refusal := act (Chip.coolingEnd m) s

end Sys2Proof.Machine
end

