-- ==== Sys2Proof/Machine/Sense.lean ====
section
/-! DEFINITION. The sense unit: converter (R72), scan program latches (R73 to R77), completion and the going on of the scan
(R78 to R80), storing and comparators (R83, R89 to R91), consuming (R84, R85), channel settings (R92, R93), leaving and
entering ON (R94, R95), and the meanings of its commands and events. -/

namespace Sys2Proof.Machine

/-- A conversion is asked for: it begins at once, or when a discarded one ends (R72). -/
def Converter.ask (ch : Fin 8) : Converter → Converter
  | .free => .running ch
  | .running _ => .running ch
  | .discarding _ => .discarding (some ch)

/-- The conversion in progress is marked to be discarded, and one asked for after a discarded one is not made (R75,
R76). -/
def Converter.cut : Converter → Converter
  | .free => .free
  | .running _ => .discarding none
  | .discarding _ => .discarding none

/-- The comparator's condition and side for a value (R89). -/
def compare (x : ChannelSettings) (v : Nat) : Bool × Bool :=
  if !x.enabled then (false, false)
  else if x.inside then (decide (x.lower ≤ v) && decide (v ≤ x.upper), false)
  else (decide (x.upper < v) || decide (v < x.lower), decide (x.upper < v))

/-- The fields of a slot after a store (R83 steps 1 to 6). -/
def SampleSlot.store (x : ChannelSettings) (scanCount : Half) (sample : BitVec 12) (time : Word) (s : SampleSlot) :
    SampleSlot :=
  let judged := compare x sample.toNat
  { s with
    value := sample.setWidth 16
    seq := s.seq + 1
    time := time
    state := .fresh
    scanCount := scanCount
    condition := judged.1
    side := judged.2
    entered := judged.1 && !s.condition }

/-- The six bytes of a channel in a SENSE reply or a REPORT (R164, R166). -/
def sampleData (s : Sense) (ch : Fin 8) : List Byte :=
  [Bytes.ofNat ch.val, Bytes.ofBool s.slots[ch].condition] ++ Bytes.ofHalf s.slots[ch].value
  ++ Bytes.ofHalf s.slots[ch].seq

/-- The channels of a mask in ascending order. -/
def maskChannels (mask : Byte) : List (Fin 8) := (List.finRange 8).filter (fun ch => mask.getLsbD ch.val)

/-- The data of the masked channels. -/
def maskData (s : Sense) (mask : Byte) : List Byte := (maskChannels mask).flatMap (sampleData s)

namespace Chip

def setScan (scan : ScanState) (position : Fin 8) (c : Chip) : Chip :=
  publish .scanStatus { c with sense := { c.sense with scan := scan, position := position } }

/-- The scan converts a channel (R72, R75, R77, R79). -/
def convert (ch : Fin 8) (c : Chip) : Chip :=
  setScan .converting ch { c with sense := { c.sense with conv := c.sense.conv.ask ch } }

/-- A sample is stored into a slot (R83); a COMPARE event and the handing of a changed condition come before the slot
joins the publication list (R90, R91). -/
def storeSample (ch : Fin 8) (sample : BitVec 12) (time : Word) (c : Chip) : Chip :=
  let x := c.sense.settings[ch]
  let old := c.sense.slots[ch].condition
  let c := c.modSlot ch (SampleSlot.store x c.sense.scanCount sample time)
  let slot := c.sense.slots[ch]
  let c := if slot.entered && x.event
    then c.append .compare (Bytes.ofNat ch.val) (Bytes.ofBool slot.side) else c
  let c := if slot.condition != old then c.handChange else c
  publish (.sampleSlot ch) c

/-- The end of a scan (R80). -/
def scanEnd (c : Chip) : Chip :=
  let p := c.sense.active
  let c := { c with sense := { c.sense with scanCount := c.sense.scanCount + 1, lastEnd := c.control.ms } }
  let c := c.raiseCause .scan
  match p.mode with
  | .single => c.setScan .stopped p.first
  | .stepped => c.setScan .stepWait p.first
  | .continuous =>
    if p.interval = 0 then c.convert p.first
    else c.setScan (.waiting (c.control.ms + BitVec.ofNat 32 p.interval)) p.first

/-- The scan goes on after a sample of a channel has been stored (R79). -/
def scanOn (ch : Fin 8) (c : Chip) : Chip :=
  let p := c.sense.active
  if p.last ≤ ch then c.scanEnd
  else if p.mode = .stepped then c.setScan .stepWait (ch + 1)
  else c.convert (ch + 1)

/-- A FRESH sample is about to be replaced: the loss is counted (R78, R87). -/
def countLoss (ch : Fin 8) (c : Chip) : Chip :=
  c.modSlot ch (fun s => if s.state = .fresh then { s with lost := satInc s.lost } else s)

/-- A conversion whose result is to be used completes (R78). -/
def completed (ch : Fin 8) (sample : BitVec 12) (c : Chip) : Chip :=
  if c.sense.settings[ch].protect && c.sense.slots[ch].state == .fresh
  then c.setScan (.held sample c.control.ms) ch
  else (((c.countLoss ch).storeSample ch sample c.control.ms)).scanOn ch

/-- A conversion completes (R72, R78). -/
def conversion (sample : BitVec 12) (c : Chip) : Chip :=
  match c.sense.conv with
  | .free => c
  | .running ch => completed ch sample { c with sense := { c.sense with conv := .free } }
  | .discarding none => { c with sense := { c.sense with conv := .free } }
  | .discarding (some ch) => { c with sense := { c.sense with conv := .running ch } }

/-- A hold on a channel is released: the held sample is stored and the scan goes on (R85, R93). -/
def releaseHold (ch : Fin 8) (c : Chip) : Chip :=
  match c.sense.scan with
  | .held sample time => if c.sense.position = ch then (c.storeSample ch sample time).scanOn ch else c
  | _ => c

/-- The report of a consuming read of a slot's word 0, with that word (R84, R85). -/
def consumeSample (ch : Fin 8) (word : List Byte) (c : Chip) : Chip :=
  let slot := c.sense.slots[ch]
  if c.on .sense && Bytes.get word 2 == 1 && slot.state == .fresh && slot.seq == Bytes.half word 0 then
    releaseHold ch (publish (.sampleSlot ch) (c.modSlot ch (fun s => { s with state := .consumed })))
  else c

/-! ### Latches -/

/-- The last latch result of the scan program (R73, log 15). -/
def scanResult (code : Code) (c : Chip) : Chip :=
  if c.resetting .sense then c
  else publish .scanStatus { c with sense := { c.sense with latchResult := code } }

/-- Work in progress is cut off (R75 step 1, R76). -/
def cutScan (c : Chip) : Chip :=
  if c.sense.scan = .converting then { c with sense := { c.sense with conv := c.sense.conv.cut } } else c

/-- START (R75). -/
def scanStart (c : Chip) : Chip :=
  let c := c.cutScan
  let c := { c with sense := { c.sense with active := c.sense.stored } }
  c.convert c.sense.active.first

/-- STOP (R76). -/
def scanHalt (c : Chip) : Chip :=
  if c.sense.scan = .stopped then c else c.cutScan.setScan .stopped c.sense.active.first

/-- A latch of the scan program record (R73 to R77). -/
def scanLatch (r : ScanRec) (code : Nat) (c : Chip) : Chip :=
  if decide (3 < code) || (code == 0 && !r.valid) then c.scanResult .badArg
  else if !c.on .sense then c.scanResult .off
  else match code with
    | 0 => scanResult .ok { c with sense := { c.sense with stored := r.program } }
    | 1 => c.scanStart.scanResult .ok
    | 2 => c.scanHalt.scanResult .ok
    | _ => if c.sense.scan = .stepWait then (c.convert c.sense.position).scanResult .ok else c.scanResult .busy

/-- A latch of a channel settings record (R92, R93); the result is reported after the store of a released hold, and R93
names no order (log 32). -/
def channelLatch (ch : Fin 8) (r : ChannelRec) (c : Chip) : Chip :=
  let off := (RecId.channelSettings ch).offset
  if !r.valid then c.reportLatch off .badArg
  else if !c.on .sense then c.reportLatch off .off
  else
    let c := { c with sense := { c.sense with settings := c.sense.settings.set ch r.settings } }
    let held := match c.sense.scan with
      | .held _ _ => c.sense.position == ch
      | _ => false
    let c := if held && !r.settings.protect then (c.countLoss ch).releaseHold ch else c
    c.reportLatch off .ok

/-- The interval timer expires (R80). -/
def intervalExpiry (c : Chip) : Chip :=
  match c.sense.scan with
  | .waiting t => if c.on .sense && reached c.control.ms t then c.convert c.sense.active.first else c
  | _ => c

/-- The sense unit leaves ON (R94); the changes of conditions are handed before its records join the publication list
(log 16). -/
def senseLeaveOn (c : Chip) : Chip := { c with sense := Sense.reset }

/-- The settings that a channel takes when the unit turns ON (R95). -/
def channelFromShadow (c : Chip) (ch : Fin 8) : ChannelSettings :=
  let r := ChannelRec.ofBytes (c.shadowBytes (.channelSettings ch))
  if r.valid then r.settings else {}

/-- The sense unit turns ON (R95). The stored interval is 0 for SINGLE and STEPPED, as a NONE latch stores it (R74,
log 33). Its status record joins the publication list when the last latch result changes with it (R82, log 36). -/
def senseTurnOn (c : Chip) : Chip :=
  let r := ScanRec.ofBytes (c.shadowBytes .scanProgram)
  let settings := (List.finRange 8).foldl (fun v ch => v.set ch (c.channelFromShadow ch)) Sense.reset.settings
  publishIf (c.sense.latchResult != .ok) .scanStatus
    { c with sense := { Sense.reset with stored := if r.valid then r.program else {}, settings := settings } }

/-- A command row of the scan program (log 5). -/
def scanRow (r : ScanRec) (code : Nat) : Chip → Chip := latchRow .scanProgram (r.toBytes code) (scanLatch r code)

end Chip

/-! ### Meanings -/

/-- SCAN_NONE (R74). -/
def execScanNone (r : ScanRec) (s : State) : Host.Outcome State Fault Refusal := act (Chip.scanRow r 0) s
/-- START (R75). -/
def execStart (r : ScanRec) (s : State) : Host.Outcome State Fault Refusal := act (Chip.scanRow r 1) s
/-- SCAN_STOP (R76). -/
def execScanStop (r : ScanRec) (s : State) : Host.Outcome State Fault Refusal := act (Chip.scanRow r 2) s
/-- STEP (R77). -/
def execStep (r : ScanRec) (s : State) : Host.Outcome State Fault Refusal := act (Chip.scanRow r 3) s
/-- CONVERSION_COMPLETE (R78). -/
def execConversionComplete (sample : BitVec 12) (s : State) : Host.Outcome State Fault Refusal :=
  act (Chip.conversion sample) s
/-- INTERVAL_EXPIRY (R80). -/
def execIntervalExpiry (s : State) : Host.Outcome State Fault Refusal := act Chip.intervalExpiry s
/-- SAMPLE_CONSUME (R84). -/
def execSampleConsume (ch : Fin 8) (s : State) : Host.Outcome State Fault Refusal :=
  act (Chip.readRow (.sampleSlot ch) (Chip.consumeSample ch)) s
/-- CHANNEL_SETTINGS_LATCH (R92). -/
def execChannelSettingsLatch (ch : Fin 8) (r : ChannelRec) (s : State) : Host.Outcome State Fault Refusal :=
  act (Chip.latchRow (.channelSettings ch) r.toBytes (Chip.channelLatch ch r)) s

end Sys2Proof.Machine
end

