-- ==== Sys2Proof/Machine/Sound.lean ====
section
/-! DEFINITION. The sound unit: latches of the sound request slot (R131, R132), TONE messages (R133), the stream walker
(R135 to R138), the sample period (R136), leaving ON (R141), and the meanings of its commands and events. -/

namespace Sys2Proof.Machine

/-- A sound descriptor as its read returned it (Table 8-2). -/
structure DescWords where
  sample : Word
  length : Word
  next : Word
  ready : Word
  deriving DecidableEq, Repr

def descWords (bs : List Byte) : DescWords :=
  ⟨Bytes.word bs 0, Bytes.word bs 4, Bytes.word bs 8, Bytes.word bs 12⟩

/-- The test of R135 step 2. -/
def DescWords.valid (d : DescWords) : Bool :=
  wordAddrOk d.sample && within 1 4096 d.length.toNat && (d.next == 0 || wordAddrOk d.next)

namespace Chip

/-- The downstream port falls free. -/
def freePort (c : Chip) : Chip := { c with path := { c.path with port := none } }

def setStream (st : Stream) (c : Chip) : Chip := c.setVoice (.stream st)

/-- The walker places a sample fetch when R136 calls for one. -/
def placeFetch (c : Chip) : Chip :=
  match c.sound.voice with
  | .stream st =>
    match st.block with
    | some b =>
      if st.fetched < b.length ∧ c.path.placed PartReq.isFetch = false ∧ st.staging.length + 64 ≤ Config.stagingSize
      then c.place (.sampleFetch (b.sample.toNat + st.fetched)) else c
    | none => c
  | _ => c

/-- A descriptor read that returned a ready word of 0 (R138). A voice that enters STARVED with its buffer already empty
gives out 128 from its next sample period on (log 35). -/
def notReady (st : Stream) (c : Chip) : Chip :=
  let now := c.control.ms
  match st.starved with
  | some x => c.setStream { st with starved := some { x with reread := some (now + Config.rereadTime) } }
  | none =>
    let c := c.setStream { st with starved := some ⟨now + Config.starvedLimit, some (now + Config.rereadTime)⟩ }
    (publish .soundStatus c).raiseCause .sound

/-- The walker judges a descriptor (R135). -/
def judgeDesc (d : DescWords) (st : Stream) (c : Chip) : Chip :=
  if d.ready = 0 then c.notReady st
  else if !d.valid then c.endSound .badDesc
  else
    let block : SoundBlock := ⟨d.sample, d.length.toNat, d.next⟩
    let c := c.setStream { st with
      block := some block, fetched := 0, lastBlock := d.next == 0, chainDone := false, starved := none }
    placeFetch (publishIf st.starved.isSome .soundStatus c)

/-- A descriptor read completes (R135; a withdrawn one is not judged, R130). -/
def descReadDone (c : Chip) : Chip :=
  match c.path.port with
  | some (.part (.descRead addr) withdrawn) =>
    let bs := c.mem.bytes 16 addr
    let c := c.freePort
    if withdrawn then c
    else match c.sound.voice with
      | .stream st => c.judgeDesc (descWords bs) st
      | _ => c
  | _ => c

/-- The bytes of a fetch join the staging buffer; a fully fetched block gets its done-write (R136, R137). -/
def stage (bs : List Byte) (st : Stream) (b : SoundBlock) (c : Chip) : Chip :=
  let kept := bs.take (b.length - st.fetched)
  let st := { st with staging := st.staging ++ kept, fetched := st.fetched + kept.length }
  let c := c.setStream st
  if st.fetched = b.length then c.place (.doneWrite (st.addr.toNat + 12)) else c.placeFetch

/-- A sample fetch completes (R136; a withdrawn one brings nothing into the buffer, R130). -/
def fetchDone (c : Chip) : Chip :=
  match c.path.port with
  | some (.part (.sampleFetch addr) withdrawn) =>
    let bs := c.mem.bytes 64 addr
    let c := c.freePort
    if withdrawn then c
    else match c.sound.voice with
      | .stream st =>
        match st.block with
        | some b => c.stage bs st b
        | none => c
      | _ => c
  | _ => c

/-- The walker goes on after the done-write of a block (R137). -/
def blockDone (st : Stream) (c : Chip) : Chip :=
  match st.block with
  | none => c
  | some b =>
    if st.lastBlock then c.setStream { st with chainDone := true }
    else placeDescRead b.next (publish .soundStatus (c.setStream { st with addr := b.next, block := none }))

/-- A done-write completes; one granted before its withdrawal has written its 0 all the same (R130, R137). -/
def doneWriteDone (c : Chip) : Chip :=
  match c.path.port with
  | some (.part (.doneWrite addr) withdrawn) =>
    let c := (c.writeMem addr (Bytes.zeros 4)).freePort
    if withdrawn then c
    else match c.sound.voice with
      | .stream st => c.blockDone st
      | _ => c
  | _ => c

/-- A sample period that finds the staging buffer empty (R136, R138). An underrun joins the sound status record to the
publication list also when the count stands at 65535 already (log 42). -/
def emptyPeriod (st : Stream) (c : Chip) : Chip :=
  if st.starved.isSome then
    { c with sound := { c.sound with voice := .stream { st with tookSample := false }, output := 128 } }
  else if st.chainDone then c.endSound .ended
  else if st.tookSample then
    publish .soundStatus { c with sound := { c.sound with
      voice := .stream { st with tookSample := false }, underruns := satInc c.sound.underruns } }
  else c

/-- A sample period of a stream (R136). -/
def period (c : Chip) : Chip :=
  match c.sound.voice with
  | .stream st =>
    match st.staging with
    | b :: rest =>
      placeFetch { c with sound := { c.sound with
        voice := .stream { st with staging := rest, tookSample := true }, output := sampleOutput st.volume b } }
    | [] => c.emptyPeriod st
  | _ => c

/-- The reread time is reached (R138). -/
def rereadDue (c : Chip) : Chip :=
  match c.sound.voice with
  | .stream st =>
    match st.starved with
    | some ⟨limit, some t⟩ =>
      if reached c.control.ms t then placeDescRead st.addr (c.setStream { st with starved := some ⟨limit, none⟩ })
      else c
    | _ => c
  | _ => c

/-- The starved limit is reached (R138). -/
def starvedLimit (c : Chip) : Chip :=
  match c.sound.voice with
  | .stream st =>
    match st.starved with
    | some x => if reached c.control.ms x.limit then c.endSound .starvedOut else c
    | none => c
  | _ => c

/-- The end time of a tone is reached (R134). -/
def toneEnd (c : Chip) : Chip :=
  match c.sound.voice with
  | .tone _ _ _ _ endTime => if reached c.control.ms endTime then c.endSound .ended else c
  | _ => c

/-! ### Requests -/

/-- The last latch result of the sound request slot (R131, log 15). -/
def soundResult (code : Code) (c : Chip) : Chip :=
  if c.resetting .sound then c
  else publish .soundStatus { c with sound := { c.sound with latchResult := code } }

/-- A STOP of the processor (R132). -/
def voiceStop (c : Chip) : Chip × Code :=
  match c.sound.voice.source with
  | .reflex _ => (c, .busy)
  | _ => (c.endSound .ended, .ok)

/-- A valid request of the sound request slot that meets an ON unit (R131 steps 3 to 5). -/
def soundRequest (cmd : SoundCmd) (c : Chip) : Chip × Code :=
  match cmd with
  | .none => (c, .ok)
  | .tone f v d => if c.voiceAccepts 2 then (c.startTone .proc f v d, .ok) else (c, .busy)
  | .stream v fast desc => if c.voiceAccepts 2 then (c.startStream v fast desc, .ok) else (c, .busy)
  | .stop => c.voiceStop

/-- A latch of the sound request slot (R131). -/
def soundLatch (r : SoundRec) (code : Nat) (c : Chip) : Chip :=
  match r.command code with
  | none => c.soundResult .badArg
  | some cmd =>
    if !c.on .sound then c.soundResult .off
    else
      let out := c.soundRequest cmd
      out.1.soundResult out.2

/-- A TONE message of the peer in slot s, whose role is given; the payload is 7 bytes or more (R133, Table 10-1). -/
def toneMessage (s : Fin 8) (driver : Bool) (payload : List Byte) (c : Chip) : Chip × Code :=
  let f := (Bytes.half payload 0).toNat
  let d := (Bytes.word payload 2).toNat
  let v := (Bytes.get payload 6).toNat
  if !toneOk f v d then (c, .badArg)
  else if !c.on .sound then (c, .off)
  else if !driver then (c, .notDriver)
  else if c.voiceAccepts 1 then (c.startTone (.link s) f v d, .ok) else (c, .busy)

/-- The sound unit leaves ON (R141). -/
def soundLeaveOn (c : Chip) : Chip :=
  let c := c.endSound .off
  { c with sound := Sound.reset }

/-- The sound unit turns ON from its reset values (R141); a last latch result that it got while OFF goes back to 0 with
them, and its status record then joins the publication list (R140, log 36). -/
def soundTurnOn (c : Chip) : Chip :=
  publishIf (c.sound.latchResult != .ok) .soundStatus { c with sound := Sound.reset }

/-- A command row of the sound request slot (log 5). -/
def soundRow (r : SoundRec) (code : Nat) : Chip → Chip := latchRow .soundRequest (r.toBytes code) (soundLatch r code)

end Chip

/-! ### Meanings -/

/-- SOUND_NONE (R131). -/
def execSoundNone (r : SoundRec) (s : State) : Host.Outcome State Fault Refusal := act (Chip.soundRow r 0) s
/-- TONE (R134). -/
def execTone (r : SoundRec) (s : State) : Host.Outcome State Fault Refusal := act (Chip.soundRow r 1) s
/-- STREAM (R135). -/
def execStream (r : SoundRec) (s : State) : Host.Outcome State Fault Refusal := act (Chip.soundRow r 2) s
/-- SOUND_STOP (R132). -/
def execSoundStop (r : SoundRec) (s : State) : Host.Outcome State Fault Refusal := act (Chip.soundRow r 3) s
/-- TONE_EXPIRY (R134). -/
def execToneExpiry (s : State) : Host.Outcome State Fault Refusal := act Chip.toneEnd s
/-- DESCRIPTOR_READ_DONE (R135). -/
def execDescriptorReadDone (s : State) : Host.Outcome State Fault Refusal := act Chip.descReadDone s
/-- SAMPLE_FETCH_DONE (R136). -/
def execSampleFetchDone (s : State) : Host.Outcome State Fault Refusal := act Chip.fetchDone s
/-- DONE_WRITE_DONE (R137). -/
def execDoneWriteDone (s : State) : Host.Outcome State Fault Refusal := act Chip.doneWriteDone s
/-- SAMPLE_PERIOD (R136). -/
def execSamplePeriod (s : State) : Host.Outcome State Fault Refusal := act Chip.period s
/-- REREAD_TIME (R138). -/
def execRereadTime (s : State) : Host.Outcome State Fault Refusal := act Chip.rereadDue s
/-- STARVED_OUT (R138). -/
def execStarvedOut (s : State) : Host.Outcome State Fault Refusal := act Chip.starvedLimit s

end Sys2Proof.Machine
end

