-- ==== Sys2Proof/Machine/LinkPool.lean ====
section
/-! DEFINITION. What the link unit keeps for its frames: CRC and frame layout (Table 9-1, R143), counters (Table 9-5), the
free list and the pool state (R146, R149, R150), frames given up (R148), peers (R151, R155, R156), the reply queue
(R170), outbound slots entering DONE (R172). -/

namespace Sys2Proof.Machine

/-! ### Frames -/

/-- One bit of the CRC, most significant first, generator 0x1021 (R143). -/
def crcShift (crc : Half) : Half := if crc.msb then (crc <<< 1) ^^^ 0x1021 else crc <<< 1

/-- One byte of the CRC (R143). -/
def crcByte (crc : Half) (b : Byte) : Half :=
  let x := crc ^^^ (b ++ (0 : Byte))
  crcShift (crcShift (crcShift (crcShift (crcShift (crcShift (crcShift (crcShift x)))))))

/-- The CRC of bytes, from 0xFFFF (R143). -/
def crc16 (bs : List Byte) : Half := bs.foldl crcByte 0xFFFF

/-- Message kinds (Table 9-2). -/
inductive FrameKind where
  | hello | bye | motor | sense | subscribe | tone | mail | hold | resume | reply | report | alarm
  deriving DecidableEq, Repr

def FrameKind.byte : FrameKind → Byte
  | .hello => 0x01 | .bye => 0x02 | .motor => 0x10 | .sense => 0x11 | .subscribe => 0x12 | .tone => 0x13
  | .mail => 0x20 | .hold => 0x30 | .resume => 0x31 | .reply => 0x40 | .report => 0x41 | .alarm => 0x42

/-- The kind that a byte names (Table 9-2). -/
def frameKind (b : Byte) : Option FrameKind :=
  [FrameKind.hello, .bye, .motor, .sense, .subscribe, .tone, .mail, .hold, .resume, .reply, .report, .alarm].find?
    (fun k => k.byte == b)

/-- The bytes of a frame (Table 9-1, R143). -/
def frameBytes (dest : Word) (seq kind : Byte) (payload : List Byte) : List Byte :=
  let body := Bytes.ofHalf (BitVec.ofNat 16 payload.length) ++ Bytes.ofWord dest ++ [seq, kind] ++ payload
  Config.syncByte :: body ++ Bytes.ofHalf (crc16 body)

namespace RxFrame

/-- A frame from its sync byte. -/
def new : RxFrame := ⟨[], 0, [], [], 0xFFFF, []⟩
def length (f : RxFrame) : Nat := (Bytes.half f.header 0).toNat
def tag (f : RxFrame) : Word := Bytes.word f.header 2
def seq (f : RxFrame) : Byte := Bytes.get f.header 6
def kind (f : RxFrame) : Byte := Bytes.get f.header 7
/-- "CRC-good when the computed value equals the value in its CRC field" (R143). -/
def good (f : RxFrame) : Bool := Bytes.half f.crcField 0 == f.crc

end RxFrame

/-- The counters of the link status record (Table 9-5). -/
inductive Counter where
  | runt | oversize | badCrc | badKind | overrun | noBuffer | unknownPeer | locked | throttled | queueFull | replyDrops
  | badReleases
  deriving DecidableEq, Repr

def Counter.idx : Counter → Fin 12
  | .runt => 0 | .oversize => 1 | .badCrc => 2 | .badKind => 3 | .overrun => 4 | .noBuffer => 5 | .unknownPeer => 6
  | .locked => 7 | .throttled => 8 | .queueFull => 9 | .replyDrops => 10 | .badReleases => 11

/-- The address of a pool block (R145). -/
def blockAddr (b : Fin 48) : Nat := 0xFF4000 + 128 * b.val

/-! ### Pool -/

namespace Link

/-- The pool state judged against the water marks, with the pending pool frame that a change leaves (R150). -/
def judgePool (up : Bool) (l : Link) : Link :=
  let low := if l.free.length < l.settings.low then true
    else if l.settings.high ≤ l.free.length then false else l.poolLow
  let frame := match l.poolLow, low, l.poolFrame with
    | false, true, .resume => PoolFrame.none
    | false, true, .none => if up then .hold else .none
    | true, false, .hold => .none
    | true, false, .none => if up then .resume else .none
    | _, _, frame => frame
  { l with poolLow := low, poolFrame := frame }

end Link

namespace Chip

def modLink (f : Link → Link) (c : Chip) : Chip := { c with link := f c.link }

/-- A counter increases, and the link status record joins the publication list, for a counter that stands at 65535 too
(R161, log 42). -/
def count (k : Counter) (c : Chip) : Chip :=
  publish .linkStatus (c.modLink (fun l => { l with counters := l.counters.set k.idx (satInc l.counters[k.idx]) }))

/-- The free list changes and the pool state is judged (R149, R150). -/
def setFree (free : List (Fin 48)) (c : Chip) : Chip :=
  let old := c.link
  let c := c.modLink (fun l => Link.judgePool c.linkUp { l with free := free })
  publishIf (c.link.free.length != old.free.length || c.link.poolLow != old.poolLow) .inboundStatus c

/-- Blocks return to the tail of the free list (R149). -/
def returnBlocks (bs : List (Fin 48)) (c : Chip) : Chip := c.setFree (c.link.free ++ bs)

/-- Steps 2 and 3 of R148 for one of the frames under reception. -/
def dropFrame (side : FrameSide) (f : RxFrame) (c : Chip) : Chip :=
  let clear := fun (b : Fin 2) (c : Chip) =>
    let buf := c.link.buf[b]
    if buf.store = some side then
      (c.withdraw (PartReq.isChunk b)).modLink (fun l => { l with buf := l.buf.set b ChunkBuf.reset })
    else if buf.store = none ∧ side = .receiving then
      c.modLink (fun l => { l with buf := l.buf.set b ChunkBuf.reset })
    else c
  (c.forEach (List.finRange 2) clear).returnBlocks f.blocks

/-- A frame under reception is discarded for a reason (R148). -/
def discard (k : Counter) (side : FrameSide) (f : RxFrame) (c : Chip) : Chip := (c.count k).dropFrame side f

/-! ### Peers and replies -/

/-- The JOINED slot that holds a tag (R147). -/
def findPeer (c : Chip) (tag : Word) : Option (Fin 8) :=
  if tag = 0 then none
  else (List.finRange 8).find? (fun p => match c.link.peer[p] with | some x => x.tag == tag | none => false)

/-- The lowest-numbered EMPTY slot (R152). -/
def emptySlot (c : Chip) : Option (Fin 8) := (List.finRange 8).find? (fun p => c.link.peer[p].isNone)

/-- A tag belongs to a peer that is held (R157, R175). -/
def tagHeld (c : Chip) (tag : Word) : Bool :=
  c.link.peer.toList.any (fun p => match p with | some x => x.tag == tag && x.held.isSome | none => false)

/-- Any peer is held (R157, R175). -/
def anyHeld (c : Chip) : Bool :=
  c.link.peer.toList.any (fun p => match p with | some x => x.held.isSome | none => false)

/-- The peer in a slot holds role DRIVER. -/
def isDriver (c : Chip) (p : Fin 8) : Bool :=
  match c.link.peer[p] with
  | some x => x.driver
  | none => false

/-- A reply is queued, or dropped and counted when eight are held (R170). -/
def queueReply (tag : Word) (seq : Byte) (kind : FrameKind) (code : Code) (data : List Byte) (c : Chip) : Chip :=
  if Config.replyQueueSize ≤ c.link.replies.length then c.count .replyDrops
  else c.modLink (fun l => { l with replies := l.replies ++ [⟨tag, [seq, kind.byte, code.byte] ++ data⟩] })

/-- The ACTIVE subscription of a peer slot (section 10.2). -/
def findSub (c : Chip) (p : Fin 8) : Option (Fin 4) :=
  (List.finRange 4).find? (fun k => match c.link.sub[k] with | some x => x.slot == p | none => false)

/-- A subscription becomes EMPTY (R165, R155 step 2). -/
def cancelSub (p : Fin 8) (c : Chip) : Chip :=
  match c.findSub p with
  | some k => publish (.subImage k) (c.setSub k none)
  | none => c

/-- A peer is removed (R155). Its image joins the publication list before the link status record, whose peer count
changes too: no rule names their order (R151, log 40). -/
def removePeer (p : Fin 8) (code : Code) (c : Chip) : Chip :=
  match c.link.peer[p] with
  | none => c
  | some x =>
    let c := c.releasePeerClaims p .peerGone
    let c := c.cancelSub p
    let c := c.modLink (fun l => { l with replies := l.replies.filter (fun r => r.tag != x.tag) })
    let c := (c.append .peerLeave (Bytes.ofNat p.val) code.byte).raiseCause .peer
    let c := c.modLink (fun l => { l with peer := l.peer.set p none })
    (publish .linkStatus (publish (.peerImage p) c)).handChange

/-- Every JOINED peer is removed, in slot order (R159 step 2, R160). -/
def removeAllPeers (code : Code) (c : Chip) : Chip := c.forEach (List.finRange 8) (fun p => removePeer p code)

/-! ### Outbound slots -/

/-- A slot enters DONE (R172). -/
def slotDone (k : Fin 4) (code : Code) (c : Chip) : Chip :=
  (publish (.outStatus k) (c.modOut k (fun o =>
    { o with state := .done, doneResult := code, doneTime := c.control.ms }))).raiseCause .send

end Chip
end Sys2Proof.Machine
end

