-- ==== Sys2Proof/Machine/Services.lean ====
section
/-! DEFINITION. The judgement of a finished frame (R147, R156) and what each kind of message does: HELLO (R152, R153), BYE
(R154), HOLD and RESUME (R157), the services (R162 to R165) and MAIL (R167). -/

namespace Sys2Proof.Machine

namespace Chip

/-- The content test of a HELLO (R152 step 1). -/
def helloOk (f : RxFrame) : Bool := within 1 16 f.length && bit? (Bytes.get f.first 0)

/-- The role asked for is DRIVER. -/
def asksDriver (f : RxFrame) : Bool := Bytes.get f.first 0 == 1

/-- A peer joins a slot (R152 step 5); its image joins the publication list before the link status record (R151,
log 40). The change of the table from empty is handed to the reflex unit. -/
def join (p : Fin 8) (tag : Word) (driver : Bool) (c : Chip) : Chip :=
  let x : Peer :=
    { tag := tag, driver := driver, lastHeard := c.control.ms, silence := 0, window := 0, throttled := false,
      held := none, accepted := 1 }
  let c := c.modLink (fun l => { l with peer := l.peer.set p (some x) })
  let c := publish .linkStatus (publish (.peerImage p) c)
  ((c.append .peerJoin (Bytes.ofNat p.val) (Bytes.ofBool driver)).raiseCause .peer).handChange

/-- A HELLO whose tag no JOINED entry holds (R152). -/
def helloUnknown (f : RxFrame) (c : Chip) : Chip :=
  let reply := queueReply f.tag f.seq .hello
  if !helloOk f then reply .badArg [] c
  else if c.link.settings.lock then reply .locked [] (c.count .locked)
  else match c.emptySlot with
    | none => reply .full [] c
    | some p =>
      if asksDriver f && decide (c.link.settings.driverLimit ≤ c.link.driverCount) then reply .driverFull [] c
      else reply .ok [Bytes.ofNat p.val] (c.join p f.tag (asksDriver f))

/-- The role of a joined peer changes (R153); its image joins the publication list before the link status record, whose
driver count changes too (R151, log 40). -/
def setRole (p : Fin 8) (driver : Bool) (c : Chip) : Chip :=
  publish .linkStatus (publish (.peerImage p) (c.modPeer p (fun x => { x with driver := driver })))

/-- A HELLO from a joined peer (R153); "The REPLY is queued as in R152", so an OK carries the slot (log 38). -/
def helloJoined (p : Fin 8) (f : RxFrame) (c : Chip) : Chip :=
  let reply := queueReply f.tag f.seq .hello
  let slot := [Bytes.ofNat p.val]
  if !helloOk f then reply .badArg [] c
  else match asksDriver f, c.isDriver p with
    | false, true => reply .ok slot ((c.setRole p false).releasePeerClaims p .notDriver)
    | true, false =>
      if c.link.driverCount < c.link.settings.driverLimit then reply .ok slot (c.setRole p true)
      else reply .driverFull [] c
    | false, false | true, true => reply .ok slot c

/-- An accepted HOLD (R157). -/
def holdPeer (p : Fin 8) (c : Chip) : Chip :=
  publish (.peerImage p)
    (c.modPeer p (fun x => { x with held := some (c.control.ms + BitVec.ofNat 32 c.link.settings.holdTimeout) }))

/-- A hold ends (R157). -/
def endHold (p : Fin 8) (c : Chip) : Chip :=
  match c.link.peer[p] with
  | some x => if x.held.isSome then publish (.peerImage p) (c.modPeer p (fun x => { x with held := none })) else c
  | none => c

/-! ### Services -/

/-- The shortest payload of a service (Table 10-1). -/
def shortest (kind : FrameKind) (f : RxFrame) : Nat :=
  match kind with
  | .motor => 13
  | .sense => 1
  | .subscribe => if Bytes.get f.first 0 = 0 then 1 else 3
  | .tone => 7
  | _ => 0

/-- A SENSE message: result and data (R164). -/
def senseService (f : RxFrame) (c : Chip) : Code × List Byte :=
  let mask := Bytes.get f.first 0
  if mask = 0 then (.badArg, []) else if !c.on .sense then (.off, []) else (.ok, maskData c.sense mask)

/-- A SUBSCRIBE message (R165). -/
def subscribe (p : Fin 8) (f : RxFrame) (c : Chip) : Chip × Code :=
  let mask := Bytes.get f.first 0
  let period := (Bytes.half f.first 1).toNat
  let entry : Subscription :=
    { slot := p, tag := f.tag, mask := mask, period := period, due := true, dueTime := c.control.ms, lateness := 0,
      begun := 0 }
  if mask = 0 then (c.cancelSub p, .ok)
  else if !within 20 1000 period then (c, .badArg)
  else
    let place := match c.findSub p with
      | some k => some k
      | none => (List.finRange 4).find? (fun k => c.link.sub[k].isNone)
    match place with
    | some k => (publish (.subImage k) (c.setSub k (some entry)), .ok)
    | none => (c, .full)

/-- A service frame of the peer in slot p (R162): the effect with its result and data. -/
def service (kind : FrameKind) (p : Fin 8) (f : RxFrame) (c : Chip) : Chip × Code × List Byte :=
  if 16 < f.length ∨ f.length < shortest kind f then (c, .badArg, [])
  else match kind with
    | .motor => let out := c.motorMessage p (c.isDriver p) f.first; (out.1, out.2, [])
    | .tone => let out := c.toneMessage p (c.isDriver p) f.first; (out.1, out.2, [])
    | .sense => let out := c.senseService f; (c, out.1, out.2)
    | .subscribe => let out := c.subscribe p f; (out.1, out.2, [])
    | _ => (c, .ok, [])

/-- The lowest-numbered EMPTY descriptor (R167). -/
def emptyDesc (c : Chip) : Option (Fin 16) := (List.finRange 16).find? (fun d => c.link.desc[d].isNone)

/-- A MAIL message (R167). -/
def mail (p : Fin 8) (f : RxFrame) (c : Chip) : Chip × Code :=
  match c.emptyDesc with
  | none => ((c.count .queueFull).returnBlocks f.blocks, .queueFull)
  | some d =>
    let x : Descriptor :=
      { slot := p, tag := f.tag, seq := f.seq, length := BitVec.ofNat 16 f.length, time := c.control.ms,
        blocks := f.blocks, shown := false }
    let wasEmpty := c.link.order.isEmpty
    let c := c.modLink (fun l => { l with desc := l.desc.set d (some x), order := l.order ++ [d] })
    let c := markStale (.inboundDesc d) (publish (.inboundDesc d) c)
    (if wasEmpty then c.raiseCause .mail else c, .ok)

/-! ### Judgement -/

/-- A frame counts in its peer's storm window (R156). -/
def countStorm (p : Fin 8) (c : Chip) : Chip :=
  match c.link.peer[p] with
  | none => c
  | some x =>
    let window := min 255 (x.window + 1)
    let throttles := !x.throttled && decide (c.link.settings.rising < window)
    publishIf throttles (.peerImage p)
      (c.modPeer p (fun x => { x with window := window, throttled := x.throttled || throttles }))

/-- An accepted frame refreshes its peer (R154). -/
def hear (p : Fin 8) (c : Chip) : Chip :=
  publish (.peerImage p) (c.modPeer p (fun x =>
    { x with lastHeard := c.control.ms, silence := 0, accepted := x.accepted + 1 }))

/-- An accepted frame is handled by kind (R147 step 6). -/
def handle (kind : FrameKind) (p : Fin 8) (f : RxFrame) (c : Chip) : Chip :=
  match kind with
  | .hello => (c.helloJoined p f).returnBlocks f.blocks
  | .bye => (c.removePeer p .ended).returnBlocks f.blocks
  | .hold => (c.holdPeer p).returnBlocks f.blocks
  | .resume => (c.endHold p).returnBlocks f.blocks
  | .mail =>
    let out := c.mail p f
    out.1.queueReply f.tag f.seq .mail out.2 []
  | kind =>
    let out := c.service kind p f
    (out.1.queueReply f.tag f.seq kind out.2.1 out.2.2).returnBlocks f.blocks

/-- A kind that a tablet may send (R147 step 3). -/
def fromTablet : FrameKind → Bool
  | .reply | .report | .alarm => false
  | _ => true

/-- A throttled peer's frame of this kind is discarded (R147 step 5). -/
def throttledKind : FrameKind → Bool
  | .bye | .hold | .resume => false
  | _ => true

/-- The peer in a slot is throttled. -/
def isThrottled (c : Chip) (p : Fin 8) : Bool :=
  match c.link.peer[p] with
  | some x => x.throttled
  | none => false

/-- The judgement of a finished frame whose chunk stores have completed (R147). -/
def judgeFrame (f : RxFrame) (c : Chip) : Chip :=
  if !f.good then c.discard .badCrc .finishing f
  else
    let peer := c.findPeer f.tag
    let c := match peer with
      | some p => c.countStorm p
      | none => c
    match frameKind f.kind with
    | none => c.discard .badKind .finishing f
    | some kind =>
      if !fromTablet kind then c.discard .badKind .finishing f
      else match peer with
        | none =>
          if f.tag ≠ 0 ∧ kind = .hello then (c.helloUnknown f).returnBlocks f.blocks
          else c.discard .unknownPeer .finishing f
        | some p =>
          if c.isThrottled p && throttledKind kind then c.discard .throttled .finishing f
          else (c.hear p).handle kind p f

/-- The finishing frame, when all its chunk stores have completed (R147). -/
def readyFrame (c : Chip) : Option RxFrame :=
  if c.link.buf.toList.any (fun b => b.store == some .finishing) then none else c.link.finishing

/-- A finished frame is judged as soon as its stores have completed (R147). -/
def frameJudge (c : Chip) : Chip :=
  match c.readyFrame with
  | some f => judgeFrame f (c.modLink (fun l => { l with finishing := none }))
  | none => c

end Chip
end Sys2Proof.Machine
end

