-- ==== Sys2Proof/Machine/Receive.lean ====
section
/-! DEFINITION. The receiver: bytes, line gaps and chunk stores (R144 to R147), and the meanings of those events and of the
judgement of a frame. -/

namespace Sys2Proof.Machine

namespace Chip

def setReceiver (r : Receiver) (c : Chip) : Chip := c.modLink (fun l => { l with receiver := r })

/-- A byte in HEADER (R144). -/
def headerByte (f : RxFrame) (b : Byte) (c : Chip) : Chip :=
  let f := { f with header := f.header ++ [b], crc := crcByte f.crc b }
  if f.header.length = 2 ∧ Config.maxPayload < f.length then
    (c.discard .oversize .receiving f).setReceiver (.skip none)
  else if f.header.length = 8 then c.setReceiver (if 0 < f.length then .payload f else .crc f)
  else c.setReceiver (.header f)

/-- The bytes of a frame still to come after this payload byte: the remaining payload bytes plus 2 (R144). -/
def toCome (f : RxFrame) : Nat := f.length - (f.received + 1) + 2

/-- A frame is discarded at a payload byte, and what is left of it skipped (R144 to R146). -/
def discardInPayload (k : Counter) (f : RxFrame) (c : Chip) : Chip :=
  (c.discard k .receiving f).setReceiver (.skip (some (toCome f)))

/-- The block at the head of the free list is taken by the frame (R146). -/
def takeBlock (f : RxFrame) (c : Chip) : RxFrame × Chip :=
  match c.link.free with
  | b :: rest => ({ f with blocks := f.blocks ++ [b] }, c.setFree rest)
  | [] => (f, c)

/-- The current chunk buffer is filled: its store is placed, for the stretch of the payload that ends with the byte just
taken, and the other buffer becomes the current one (R145). -/
def storeChunk (f : RxFrame) (c : Chip) : Chip :=
  let k := (f.received - 1) / 64
  let cur := c.link.cur
  let addr := match f.blocks[k / 2]? with
    | some b => blockAddr b + 64 * (k % 2)
    | none => 0
  let data := padTo 64 0 c.link.buf[cur].bytes
  let c := c.place (.chunkStore cur addr data)
  c.modLink (fun l => { l with buf := l.buf.set cur ⟨[], some .receiving⟩, cur := cur + 1 })

/-- A payload byte is placed in the current chunk buffer (R145). -/
def keepByte (f : RxFrame) (b : Byte) (c : Chip) : Chip :=
  let f := { f with
    received := f.received + 1, crc := crcByte f.crc b,
    first := if f.first.length < 16 then f.first ++ [b] else f.first }
  let cur := c.link.cur
  let c := c.modLink (fun l => { l with buf := l.buf.set cur ⟨l.buf[cur].bytes ++ [b], none⟩ })
  let last := f.received == f.length
  let c := if last || c.link.buf[cur].bytes.length == 64 then c.storeChunk f else c
  c.setReceiver (if last then .crc f else .payload f)

/-- A byte in PAYLOAD: OVERRUN is judged before NO_BUFFER (R145, R146, log 18), and by the byte's own buffer alone, the
first byte of a frame's payload too (log 37). -/
def payloadByte (f : RxFrame) (b : Byte) (c : Chip) : Chip :=
  if c.link.buf[c.link.cur].store.isSome then c.discardInPayload .overrun f
  else if f.received % 128 ≠ 0 then c.keepByte f b
  else if c.link.free.isEmpty then c.discardInPayload .noBuffer f
  else
    let out := c.takeBlock f
    out.2.keepByte out.1 b

/-- A chunk buffer's store passes from the frame being received to the finishing one. -/
def finishBuf (b : ChunkBuf) : ChunkBuf := if b.store = some .receiving then { b with store := some .finishing } else b

/-- A byte in CRC: after the second the frame is finished (R144, R147). -/
def crcFieldByte (f : RxFrame) (b : Byte) (c : Chip) : Chip :=
  let f := { f with crcField := f.crcField ++ [b] }
  if f.crcField.length < 2 then c.setReceiver (.crc f)
  else
    let c := c.setReceiver .hunt
    if c.link.finishing.isSome then c.discard .overrun .receiving f
    else c.modLink (fun l => { l with
      finishing := some f, buf := #v[finishBuf l.buf[0], finishBuf l.buf[1]] })

/-- A byte arrives on RXD (R144); while the link state is DOWN the receiver takes none (R142). -/
def rxByte (b : Byte) (c : Chip) : Chip :=
  if !c.linkUp then c
  else match c.link.receiver with
    | .hunt => if b = Config.syncByte then c.setReceiver (.header RxFrame.new) else c
    | .header f => c.headerByte f b
    | .payload f => c.payloadByte f b
    | .crc f => c.crcFieldByte f b
    | .skip (some n) => c.setReceiver (if n ≤ 1 then .hunt else .skip (some (n - 1)))
    | .skip none => c

/-- A line gap reaches 100 us (R144). -/
def lineGap (c : Chip) : Chip :=
  if !c.linkUp then c
  else match c.link.receiver with
    | .hunt => c
    | .header f | .payload f | .crc f => (c.discard .runt .receiving f).setReceiver .hunt
    | .skip _ => c.setReceiver .hunt

/-- A chunk store completes: its bytes stand in memory, and its buffer is free unless it was withdrawn and so is free
already (R145, R148). -/
def chunkStoreDone (c : Chip) : Chip :=
  match c.path.port with
  | some (.part (.chunkStore b addr data) withdrawn) =>
    let c := (c.writeMem addr data).freePort
    if withdrawn then c else c.modLink (fun l => { l with buf := l.buf.set b ChunkBuf.reset })
  | _ => c

end Chip

/-! ### Meanings -/

/-- RX_BYTE (R144). -/
def execRxByte (b : Byte) (s : State) : Host.Outcome State Fault Refusal := act (Chip.rxByte b) s
/-- LINE_GAP (R144). -/
def execLineGap (s : State) : Host.Outcome State Fault Refusal := act Chip.lineGap s
/-- CHUNK_STORE_DONE (R145). -/
def execChunkStoreDone (s : State) : Host.Outcome State Fault Refusal := act Chip.chunkStoreDone s
/-- FRAME_JUDGE (R147). -/
def execFrameJudge (s : State) : Host.Outcome State Fault Refusal := act Chip.frameJudge s

end Sys2Proof.Machine
end

