-- ==== Sys2Proof/Machine/Transmit.lean ====
section
/-! DEFINITION. The transmitter: the choice of a frame (R175), its beginning (R166, R170, R171, R173, R174), body fetches
(R173), its end, and the meanings of those events. -/

namespace Sys2Proof.Machine

/-- What the transmitter may begin (R175). -/
inductive TxSource where
  | pool (frame : PoolFrame)
  | reply (index : Nat)
  | alarm (entry : Fin 8)
  | slot (k : Fin 4)
  | report (k : Fin 4)
  deriving DecidableEq, Repr

/-- The address of an outbound slot's body (section 10.4). -/
def outBodyAddr (k : Fin 4) : Nat := 0xFF1000 + 1024 * k.val

/-- The number of 64-byte stretches of a body (R173). -/
def chunkCount (length : Nat) : Nat := (length + 63) / 64

namespace Chip

/-- A pending reply may be begun: its destination is not a held peer's tag (R175). -/
def replyIndex (c : Chip) : Option Nat := c.link.replies.findIdx? (fun r => !c.tagHeld r.tag)

/-- A slot's destination is not held (R175). -/
def slotFree (c : Chip) (k : Fin 4) : Bool :=
  let dest := c.link.out[k].dest
  if dest = 0 then !c.anyHeld else !c.tagHeld dest

/-- An ACTIVE subscription that is due and whose subscriber is not held (R175). -/
def reportDue (c : Chip) (k : Fin 4) : Bool :=
  match c.link.sub[k] with
  | some x => x.due && (match c.link.peer[x.slot] with | some p => p.held.isNone | none => true)
  | none => false

/-- The lateness of a subscription (R166). -/
def latenessOf (c : Chip) (k : Fin 4) : Nat :=
  match c.link.sub[k] with
  | some x => x.lateness
  | none => 0

/-- The due subscription of greatest lateness, the lowest entry among equals (R175). -/
def latest (c : Chip) : Option (Fin 4) :=
  ((List.finRange 4).filter c.reportDue).foldl (fun best k =>
    match best with
    | none => some k
    | some j => if c.latenessOf j < c.latenessOf k then some k else some j) none

/-- The first frame available in the order of R175; the first two arguments of the match are the two first sources. -/
def choose (c : Chip) : Option TxSource :=
  if c.link.poolFrame ≠ .none then some (.pool c.link.poolFrame)
  else match c.replyIndex with
    | some i => some (.reply i)
    | none =>
      match (if c.anyHeld then none else c.link.alarms.head?) with
      | some e => some (.alarm e)
      | none =>
        match c.link.outOrder.find? c.slotFree with
        | some k => some (.slot k)
        | none => c.latest.map TxSource.report

/-- A frame begins on the line with the part sequence (R174). -/
def beginFrame (dest : Word) (kind : FrameKind) (payload : List Byte) (c : Chip) : Chip :=
  c.modLink (fun l => { l with
    tx := some { dest := dest, kind := kind.byte, seq := l.txSeq, payload := payload, mail := none }
    txSeq := l.txSeq + 1 })

/-- The REPORT of a subscription is built and begun, and its due time moves on (R166). -/
def beginReport (k : Fin 4) (c : Chip) : Chip :=
  match c.link.sub[k] with
  | none => c
  | some x =>
    let payload := if c.on .sense then [Code.ok.byte, x.mask] ++ maskData c.sense x.mask else [Code.off.byte, x.mask]
    let period := BitVec.ofNat 32 x.period
    let dueTime := if x.lateness < x.period then x.dueTime + period else c.control.ms + period
    let c := c.beginFrame x.tag .report payload
    publish (.subImage k)
      (c.setSub k (some { x with begun := x.begun + 1, due := false, dueTime := dueTime, lateness := 0 }))

/-- A MAIL frame from an outbound slot begins on the line: the slot's frame sequence is the part's (R173, R174). -/
def beginMail (k : Fin 4) (c : Chip) : Chip :=
  match c.link.tx with
  | none => c
  | some t =>
    match t.mail with
    | none => c
    | some x =>
      let seq := c.link.txSeq
      let c := c.modLink (fun l => { l with
        tx := some { t with seq := seq, mail := some { x with begun := true } }, txSeq := seq + 1 })
      publish (.outStatus k) (c.modOut k (fun o => { o with frameSeq := seq }))

/-- The next body fetch is placed when none waits or is in flight, body bytes remain and a buffer is free (R173,
log 19). -/
def placeBody (c : Chip) : Chip :=
  match c.link.tx with
  | none => c
  | some t =>
    match t.mail with
    | none => c
    | some x =>
      if !x.fetching && decide (x.fetched < chunkCount x.length) && decide (x.fetched < x.sent + 2) then
        let bytes := min 64 (x.length - 64 * x.fetched)
        let c := c.modLink (fun l => { l with tx := some { t with mail := some { x with fetching := true } } })
        c.place (.bodyFetch (outBodyAddr x.slot + 64 * x.fetched) ((bytes + 3) / 4))
      else c

/-- A slot becomes SENDING, and its frame begins at once when it is empty, else when its first fetch completes (R173
step 3). -/
def sendSlot (k : Fin 4) (c : Chip) : Chip :=
  let o := c.link.out[k]
  let mail : MailTx := { slot := k, length := o.length, begun := false, fetched := 0, sent := 0, fetching := false }
  let c := publish (.outStatus k) (c.modOut k (fun o => { o with state := .sending }))
  let c := c.modLink (fun l => { l with
    tx := some { dest := o.dest, kind := FrameKind.mail.byte, seq := 0, payload := [], mail := some mail } })
  if o.length = 0 then c.beginMail k else c.placeBody

/-- The destination of a slot is gone (R173 step 2). -/
def destGone (c : Chip) (k : Fin 4) : Bool :=
  let dest := c.link.out[k].dest
  dest != 0 && (c.findPeer dest).isNone

/-- The transmitter chooses and begins; a slot whose destination is gone becomes DONE with NO_PEER, and the transmitter
chooses again, which it can do for each of the four slots (R173, R175). -/
def transmitFrom : Nat → Chip → Chip
  | 0, c => c
  | n + 1, c =>
    match c.choose with
    | none => c
    | some (.pool frame) =>
      (c.modLink (fun l => { l with poolFrame := .none })).beginFrame 0
        (if frame = .hold then .hold else .resume) []
    | some (.reply i) =>
      match c.link.replies[i]? with
      | some r => (c.modLink (fun l => { l with replies := l.replies.eraseIdx i })).beginFrame r.tag .reply r.payload
      | none => c
    | some (.alarm e) =>
      (c.modLink (fun l => { l with alarms := l.alarms.tail })).beginFrame 0 .alarm [Bytes.ofNat e.val]
    | some (.slot k) =>
      let c := c.modLink (fun l => { l with outOrder := l.outOrder.filter (fun j => j != k) })
      if c.destGone k then transmitFrom n (c.slotDone k .noPeer) else c.sendSlot k
    | some (.report k) => c.beginReport k

/-- The transmitter is IDLE and the link state is UP (R175). -/
def mayTransmit (c : Chip) : Bool := c.linkUp && c.link.tx.isNone

/-- The transmitter begins the first frame available (R175). -/
def transmitBegin (c : Chip) : Chip := if c.mayTransmit then transmitFrom 5 c else c

/-- A body fetch completes: its bytes fill a buffer, and a frame that waited for its first begins (R173). -/
def bodyFetchDone (c : Chip) : Chip :=
  match c.path.port with
  | some (.part (.bodyFetch addr words) withdrawn) =>
    let bs := c.mem.bytes (4 * words) addr
    let c := c.freePort
    if withdrawn then c
    else match c.link.tx with
      | none => c
      | some t =>
        match t.mail with
        | none => c
        | some x =>
          let kept := bs.take (min 64 (x.length - 64 * x.fetched))
          let x := { x with fetched := x.fetched + 1, fetching := false }
          let begun := x.begun
          let c := c.modLink (fun l => { l with tx := some { t with payload := t.payload ++ kept, mail := some x } })
          (if begun then c else c.beginMail x.slot).placeBody
  | _ => c

/-- The line has sent the bytes of one body buffer (R173). -/
def bodyBufferSent (c : Chip) : Chip :=
  match c.link.tx with
  | none => c
  | some t =>
    match t.mail with
    | none => c
    | some x =>
      if x.begun && decide (x.sent < x.fetched) then
        (c.modLink (fun l => { l with tx := some { t with mail := some { x with sent := x.sent + 1 } } })).placeBody
      else c

/-- The whole of a frame has been sent: not before the body buffers of a MAIL frame (R173). -/
def allSent (t : Sending) : Bool :=
  match t.mail with
  | none => true
  | some x => x.begun && x.sent == chunkCount x.length

/-- The last CRC byte of the frame has been sent (R173, R174). -/
def transmitEnd (c : Chip) : Chip :=
  match c.link.tx with
  | none => c
  | some t =>
    if !allSent t then c
    else
      let c := c.modLink (fun l => { l with tx := none, lastFrame := frameBytes t.dest t.seq t.kind t.payload })
      match t.mail with
      | none => c
      | some x => c.slotDone x.slot .ok

end Chip

/-! ### Meanings -/

/-- TRANSMIT_BEGIN (R175). -/
def execTransmitBegin (s : State) : Host.Outcome State Fault Refusal := act Chip.transmitBegin s
/-- BODY_FETCH_DONE (R173). -/
def execBodyFetchDone (s : State) : Host.Outcome State Fault Refusal := act Chip.bodyFetchDone s
/-- TRANSMIT_END (R174). -/
def execTransmitEnd (s : State) : Host.Outcome State Fault Refusal := act Chip.transmitEnd s
/-- BODY_BUFFER_SENT (R173). -/
def execBodyBufferSent (s : State) : Host.Outcome State Fault Refusal := act Chip.bodyBufferSent s

end Sys2Proof.Machine
end

