-- ==== Sys2Proof/Machine/Link.lean ====
section
/-! DEFINITION. The link unit's state (R142, R159), its settings (R158), aging, storm windows, holds and due subscriptions
(R154, R156, R157, R166), the release word (R168), outbound slot latches (R172), leaving and entering ON (R160), and the
meanings of those events and latches. -/

namespace Sys2Proof.Machine

namespace Chip

/-! ### LINK_READY -/

/-- LINK_READY rises (R142). -/
def linkRise (c : Chip) : Chip :=
  let was := c.linkUp
  let c := { c with pins := { c.pins with linkReady := true } }
  if was || !c.linkUp then c
  else
    let c := publish .linkStatus (c.setReceiver .hunt)
    (c.modLink (fun l => { l with poolFrame := if l.poolLow then .hold else l.poolFrame })).handChange

/-- Every frame under reception is given up, without a count; the finishing one is the older (R159 step 3). -/
def giveUpFrames (c : Chip) : Chip :=
  let c := match c.link.finishing with
    | some f => (c.modLink (fun l => { l with finishing := none })).dropFrame .finishing f
    | none => c
  let c := match c.link.receiver with
    | .header f | .payload f | .crc f => c.dropFrame .receiving f
    | .hunt | .skip _ => c
  c.setReceiver .hunt

/-- The frame being sent is abandoned, its body fetch withdrawn (R159 step 4, R174). -/
def abandonFrame (c : Chip) : Chip :=
  (c.withdraw PartReq.isBody).modLink (fun l => { l with tx := none })

/-- Every slot that is QUEUED or SENDING becomes DONE, and the order list is emptied (R159 step 5); the slots are taken
in index order, which the step does not name (log 41). -/
def endSlots (code : Code) (c : Chip) : Chip :=
  (c.forEach (List.finRange 4) (fun k c =>
    if c.link.out[k].state = .queued ∨ c.link.out[k].state = .sending then c.slotDone k code else c)).modLink
    (fun l => { l with outOrder := [] })

/-- Step 1 of R159 where the link state was UP: it is DOWN now, so the link status record joins the publication list and
the change is handed to the reflex unit (R142). -/
def linkStateDown (c : Chip) : Chip := (publish .linkStatus c).handChange

/-- Steps 2 to 6 of R159, with the code of the removals and of the slots (R160 step 1). -/
def linkLost (code : Code) (c : Chip) : Chip :=
  let c := ((c.removeAllPeers code).giveUpFrames.abandonFrame).endSlots code
  c.modLink (fun l => { l with replies := [], alarms := [], poolFrame := .none })

/-- LINK_READY falls (R159). -/
def linkFall (c : Chip) : Chip :=
  let was := c.linkUp
  let c := { c with pins := { c.pins with linkReady := false } }
  if was then c.linkStateDown.linkLost .linkDown else c

/-! ### Timers -/

/-- The silence of a peer has reached the aging time (R154). -/
def aged (c : Chip) (p : Fin 8) : Bool :=
  match c.link.peer[p] with
  | some x => c.link.settings.aging != 0 && decide (1000 * c.link.settings.aging ≤ x.silence)
  | none => false

/-- A peer ages (R154). -/
def ageOut (p : Fin 8) (c : Chip) : Chip := if c.on .link && c.aged p then c.removePeer p .expired else c

/-- The storm window's end for one peer (R156). -/
def stormOf (p : Fin 8) (c : Chip) : Chip :=
  match c.link.peer[p] with
  | none => c
  | some x =>
    let calms := x.throttled && decide (x.window ≤ c.link.settings.falling)
    publishIf calms (.peerImage p)
      (c.modPeer p (fun x => { x with window := 0, throttled := x.throttled && !calms }))

/-- A storm window ends, and the next begins (R156); the peers are taken in slot order, which the rule does not name
(log 41). -/
def stormWindow (c : Chip) : Chip :=
  if c.on .link && reached c.control.ms c.link.stormEnd then
    (c.forEach (List.finRange 8) stormOf).modLink (fun l => { l with stormEnd := nextMultiple 50 c.control.ms })
  else c

/-- A peer's held-until time is reached (R157). -/
def holdOver (p : Fin 8) (c : Chip) : Chip :=
  match c.link.peer[p] with
  | some x =>
    match x.held with
    | some t => if c.on .link && reached c.control.ms t then c.endHold p else c
    | none => c
  | none => c

/-- The due time of a subscription is reached (R166). -/
def subDue (k : Fin 4) (c : Chip) : Chip :=
  match c.link.sub[k] with
  | some x =>
    if c.on .link && !x.due && reached c.control.ms x.dueTime then
      c.setSub k (some { x with due := true, lateness := min Config.latenessHeld (since c.control.ms x.dueTime) })
    else c
  | none => c

/-! ### Latches -/

/-- A latch of the link settings (R158); the result is reported after the removals and the pool's judgement, and R158
names no order (log 32). -/
def linkLatch (r : LinkRec) (c : Chip) : Chip :=
  let off := RecId.linkSettings.offset
  if !r.valid then c.reportLatch off .badArg
  else if !c.on .link then c.reportLatch off .off
  else if r.settings.driverLimit < c.link.driverCount then c.reportLatch off .badArg
  else
    let c := if r.settings = c.link.settings then c
      else
        let c := c.modLink (fun l => { l with settings := r.settings })
        let c := c.forEach (List.finRange 8) ageOut
        c.setFree c.link.free
    c.reportLatch off .ok

/-- The last release fields (R168). -/
def releaseResult (v : Word) (code : Code) (c : Chip) : Chip :=
  publish .inboundStatus (c.modLink (fun l => { l with releaseIndex := v.setWidth 8, releaseResult := code }))

/-- A latch of the release word (R168); at BAD_ARG the link status record joins the publication list before the inbound
queue status record (log 40). -/
def releaseLatch (v : Word) (c : Chip) : Chip :=
  if !c.on .link then c.reportLatch RecId.releaseWord.offset .off
  else
    let d := Fin.ofNat 16 v.toNat
    match if v.toNat ≤ 15 then c.link.desc[d] else none with
    | none => (c.count .badReleases).releaseResult v .badArg
    | some x =>
      let c := c.returnBlocks x.blocks
      let c := c.modLink (fun l => { l with
        desc := l.desc.set d none, order := l.order.filter (fun e => e != d) })
      (publish (.inboundDesc d) c).releaseResult v .ok

/-- The last latch result of an outbound slot (R172, log 15). -/
def outResult (k : Fin 4) (code : Code) (c : Chip) : Chip :=
  if c.resetting .link then c
  else publish (.outStatus k) (c.modOut k (fun o => { o with latchResult := code }))

/-- A latch of an outbound slot header (R172). -/
def outLatch (k : Fin 4) (r : OutRec) (code : Nat) (c : Chip) : Chip :=
  if 1 < code then c.outResult k .badArg
  else if !c.on .link then c.outResult k .off
  else if code = 0 then c.outResult k .ok
  else if c.link.out[k].state = .queued ∨ c.link.out[k].state = .sending then c.outResult k .busy
  else if 1000 < r.length.toNat then (c.slotDone k .badArg).outResult k .badArg
  else if !c.linkUp then (c.slotDone k .linkDown).outResult k .ok
  else
    let c := c.modOut k (fun o =>
      { o with state := .queued, doneResult := .ok, dest := r.dest, length := r.length.toNat })
    (c.modLink (fun l => { l with outOrder := l.outOrder ++ [k] })).outResult k .ok

/-! ### Leaving and entering ON -/

/-- The link unit leaves ON (R160); the unit is RESETTING by now, so its link state was UP exactly when LINK_READY is high
(R142). -/
def linkLeaveOn (c : Chip) : Chip :=
  let c := (if c.pins.linkReady then c.linkStateDown else c).linkLost .off
  { c with link := { Link.reset with lastFrame := c.link.lastFrame } }

/-- The link unit turns ON: its settings from the shadow, the link state judged from LINK_READY (R142, R160). A slot's
last latch result that the unit got while OFF goes back to 0, and its status record then joins the publication list
(R172, log 36); the slots are taken in index order (log 41). -/
def linkTurnOn (c : Chip) : Chip :=
  let r := LinkRec.ofBytes (c.shadowBytes .linkSettings)
  let settings := if r.valid then r.settings else {}
  let changed := (List.finRange 4).filter (fun k => c.link.out[k].latchResult != .ok)
  let c := publishIf c.linkUp .linkStatus
    (c.modLink (fun l => { Link.reset with
      settings := settings, stormEnd := nextMultiple 50 c.control.ms, lastFrame := l.lastFrame }))
  c.forEach changed (fun k => publish (.outStatus k))

/-- A command row of an outbound slot header (log 5). -/
def outRow (k : Fin 4) (r : OutRec) (code : Nat) : Chip → Chip :=
  latchRow (.outHeader k) (r.toBytes code) (outLatch k r code)

end Chip

/-! ### Meanings -/

/-- LINK_READY_RISE (R142). -/
def execLinkReadyRise (s : State) : Host.Outcome State Fault Refusal := act Chip.linkRise s
/-- LINK_READY_FALL (R159). -/
def execLinkReadyFall (s : State) : Host.Outcome State Fault Refusal := act Chip.linkFall s
/-- PEER_AGED (R154). -/
def execPeerAged (p : Fin 8) (s : State) : Host.Outcome State Fault Refusal := act (Chip.ageOut p) s
/-- STORM_WINDOW_END (R156). -/
def execStormWindowEnd (s : State) : Host.Outcome State Fault Refusal := act Chip.stormWindow s
/-- HOLD_EXPIRY (R157). -/
def execHoldExpiry (p : Fin 8) (s : State) : Host.Outcome State Fault Refusal := act (Chip.holdOver p) s
/-- LINK_SETTINGS_LATCH (R158). -/
def execLinkSettingsLatch (r : LinkRec) (s : State) : Host.Outcome State Fault Refusal :=
  act (Chip.latchRow .linkSettings r.toBytes (Chip.linkLatch r)) s
/-- SUBSCRIPTION_DUE (R166). -/
def execSubscriptionDue (k : Fin 4) (s : State) : Host.Outcome State Fault Refusal := act (Chip.subDue k) s
/-- RELEASE_WORD (R168). -/
def execReleaseWord (v : Word) (s : State) : Host.Outcome State Fault Refusal :=
  act (Chip.latchRow .releaseWord (Bytes.ofWord v) (Chip.releaseLatch v)) s
/-- OUTBOUND_NONE (R172). -/
def execOutboundNone (k : Fin 4) (r : OutRec) (s : State) : Host.Outcome State Fault Refusal :=
  act (Chip.outRow k r 0) s
/-- SEND (R172). -/
def execSend (k : Fin 4) (r : OutRec) (s : State) : Host.Outcome State Fault Refusal := act (Chip.outRow k r 1) s

end Sys2Proof.Machine
end

