-- ==== Sys2Proof/Machine/ReflexUnit.lean ====
section
/-! DEFINITION. The reflex unit: the latch of an entry (R115, R116), the expiry of a hold timer (R117), leaving and entering
ON (R127), and the meanings of its latch and event. -/

namespace Sys2Proof.Machine

namespace Chip

/-- An accepted latch of an entry: the entry is replaced and restarted, and an enabled one is judged at once (R116). -/
def takeEntry (i : Fin 8) (r : ReflexRec) (c : Chip) : Chip :=
  let c := c.modEntry i (fun _ => ⟨r, if r.enable = 1 then .armed else .disabled, 0⟩)
  let c := if r.enable = 1 then c.handChange else c
  publish .reflexStatus c

/-- A latch of a reflex entry (R115); the result of an accepted one is reported after the steps of R116 and a firing they
cause, and R115 and R116 name no order (log 32). -/
def reflexLatch (i : Fin 8) (r : ReflexRec) (c : Chip) : Chip :=
  let off := (RecId.reflexEntry i).offset
  if !r.valid then c.reportLatch off .badArg
  else if !c.on .reflex then c.reportLatch off .off
  else (c.takeEntry i r).reportLatch off .ok

/-- An entry's hold timer expires in TIMING: the entry fires, and the changes its firing made are handed after it
(R117, R120). -/
def holdExpiryOf (i : Fin 8) (c : Chip) : Chip :=
  match c.reflex.entry[i].state with
  | .timing t => if c.on .reflex && reached c.control.ms t then (c.fire i).handChange else c
  | _ => c

/-- The reflex unit leaves ON (R127). -/
def reflexLeaveOn (c : Chip) : Chip := { c with reflex := Reflex.reset }

/-- The entry that a shadow gives when the unit turns ON: ARMED when it is valid and enabled (R127). -/
def entryFromShadow (c : Chip) (i : Fin 8) : ReflexEntry :=
  let r := ReflexRec.ofBytes (c.shadowBytes (.reflexEntry i))
  if r.valid then ⟨r, if r.enable = 1 then .armed else .disabled, 0⟩ else ReflexEntry.reset

/-- The reflex unit turns ON; its entries are judged when the block state change is handed (R127, R114). -/
def reflexTurnOn (c : Chip) : Chip :=
  let c := c.forEach (List.finRange 8) (fun i c => c.modEntry i (fun _ => c.entryFromShadow i))
  publishIf (c.reflex.bytes != Reflex.reset.bytes) .reflexStatus c

end Chip

/-! ### Meanings -/

/-- REFLEX_ENTRY_LATCH (R116). -/
def execReflexEntryLatch (i : Fin 8) (r : ReflexRec) (s : State) : Host.Outcome State Fault Refusal :=
  act (Chip.latchRow (.reflexEntry i) r.toBytes (Chip.reflexLatch i r)) s
/-- HOLD_TIMER_EXPIRY (R117). -/
def execHoldTimerExpiry (i : Fin 8) (s : State) : Host.Outcome State Fault Refusal := act (Chip.holdExpiryOf i) s

end Sys2Proof.Machine
end

