-- ==== Sys2Proof/Machine/Control.lean ====
section
/-! DEFINITION. The control unit: block states (R28 to R30), the control record latch (R26, R27), SERVICE_RESET (R31),
FLUSH_EVENTS (R109), the restart pulse's end (R22), the quiet period (R19), and the meanings of those commands and
events. -/

namespace Sys2Proof.Machine

namespace Chip

/-- A block state changes, and the status record joins the publication list (R28, R32). -/
def setBlock (u : BlockUnit) (b : BlockState) (c : Chip) : Chip :=
  publish .status { c with control := { c.control with block := c.control.block.set u b } }

/-! ### Turning ON and leaving ON -/

/-- The unit starts from its reset values and reads its shadows (R28; R53, R95, R101, R127, R141, R160). -/
def startUnit (u : BlockUnit) (c : Chip) : Chip :=
  match u with
  | .motor => c.motorTurnOn
  | .sense => c.senseTurnOn
  | .input => c.inputTurnOn
  | .reflex => c.reflexTurnOn
  | .sound => c.soundTurnOn
  | .link => c.linkTurnOn

/-- A unit turns ON; the change is handed to the reflex unit, and the input unit then judges its lines (R28, R101,
R114). -/
def turnOn (u : BlockUnit) (c : Chip) : Chip :=
  let c := ((c.setBlock u .on).startUnit u).handChange
  match u with
  | .input => c.judgeAllLevels
  | _ => c

/-- What a unit does as it leaves ON, its work stopped and its state back at its reset values (R29 steps 1 and 2; R53,
R94, R101, R127, R141, R160). -/
def stopUnit (u : BlockUnit) (c : Chip) : Chip :=
  match u with
  | .motor => c.motorLeaveOn
  | .sense => c.senseLeaveOn
  | .input => c.inputLeaveOn
  | .reflex => c.reflexLeaveOn
  | .sound => c.soundLeaveOn
  | .link => c.linkLeaveOn

/-- One record of a unit that enters RESETTING: it joins the publication list, and a publication of it that is in flight
does not count (R29 step 4, R30). -/
def joinReset (r : RecId) (c : Chip) : Chip := markStale r (publish r c)

/-- A unit enters RESETTING (R29): the block state, steps 1 and 2, the hand-over of their changes to the reflex unit, and
then the shadows and the records (R94, R101, R114, log 16). The records join the publication list in ascending order of
their addresses (log 31). -/
def enterResetting (u : BlockUnit) (c : Chip) : Chip :=
  let records := RecId.ofUnit u
  let c := ((c.setBlock u .resetting).stopUnit u).handChange
  let c := c.forEach (RecId.processorOf u) (fun r => setShadow r r.defaultBytes)
  let c := c.forEach records joinReset
  { c with control := { c.control with outstanding := c.control.outstanding ++ records } }

/-- An enable is applied to a unit (R28). -/
def applyEnable (u : BlockUnit) (e : Bool) (c : Chip) : Chip :=
  let c := { c with control := { c.control with enable := c.control.enable.set u e } }
  match c.control.block.get u, e with
  | .off, true => c.turnOn u
  | .on, false => c.enterResetting u
  | .off, false | .on, true | .resetting, true | .resetting, false => c

/-- The block enables are applied in order (R27 step 1). -/
def applyEnables (e : PerUnit Bool) (c : Chip) : Chip := c.forEach BlockUnit.all (fun u => applyEnable u (e.get u))

/-- A publication that counts has been reported for a record; when it was the last outstanding one of its unit, RESETTING
ends (R30). -/
def recordReported (r : RecId) (c : Chip) : Chip :=
  if r ∈ c.control.outstanding then
    let left := c.control.outstanding.filter (fun q => q != r)
    let c := { c with control := { c.control with outstanding := left } }
    match r.unit? with
    | some u =>
      if left.any (fun q => q.unit? == some u) then c
      else if c.control.enable.get u then c.turnOn u else c.setBlock u .off
    | none => c
  else c

/-! ### Control record -/

/-- PROC_QUIET judged from the elapsed time as it stands (R19). -/
def judgeQuiet (c : Chip) : Chip := c.setProcQuiet (decide (c.control.quietPeriod ≤ c.path.quietElapsed))

/-- The quiet period is replaced (R27 step 3, R19). -/
def setQuietPeriod (period : Nat) (c : Chip) : Chip :=
  judgeQuiet { c with control := { c.control with quietPeriod := period } }

/-- SERVICE_RESET (R31). -/
def serviceReset (c : Chip) : Chip :=
  let c := c.forEach BlockUnit.all (fun u c => if c.on u then c.enterResetting u else c)
  c.flushRing.clearCauses

/-- The command of a valid latch (R27 step 4). -/
def controlCommand (code : Nat) (c : Chip) : Chip :=
  match code with
  | 1 => c.serviceReset
  | 2 => c.flushRing
  | _ => c

/-- A latch of the control record (R26, R27); the result of a valid one is reported after its four steps (log 32). -/
def controlLatch (r : ControlRec) (code : Nat) (c : Chip) : Chip :=
  if r.valid && decide (code ≤ 2) then
    let c := (c.applyEnables r.unitEnables).setCauseEnables r.causeEnables
    ((c.setQuietPeriod r.quiet.toNat).controlCommand code).reportLatch 0x0000 .ok
  else c.reportLatch 0x0000 .badArg

/-- The bytes of a part of the control record reach its shadow and memory (log 6). -/
def storeControl (place : Nat) (bs : List Byte) (c : Chip) : Chip :=
  { c.writeMem (RecId.control.addr + place) bs with
    shadow := c.shadow.writeCells (cellsAt (RecId.control.offset + place) bs) }

/-- A row that stands for one step of a control record latch; no latch comes while PRST is held from power-on (log 6,
log 8). -/
def controlPart (f : Chip → Chip) (c : Chip) : Chip := if c.holding then c else f c

/-- Step 1 of R27 alone (log 6). -/
def enablesPart (e : PerUnit Bool) : Chip → Chip :=
  controlPart (fun c => (c.storeControl 0 (BlockUnit.all.map (fun u => Bytes.ofBool (e.get u)))).applyEnables e)

/-- Step 2 of R27 alone (log 6). -/
def causesPart (e : Vector Bool 10) : Chip → Chip :=
  controlPart (fun c => (c.storeControl 8 (e.toList.map Bytes.ofBool)).setCauseEnables e)

/-- Step 3 of R27 alone, for a period in its range; one outside it is what R26 calls BAD_ARG (log 6). -/
def quietPart (period : Word) : Chip → Chip :=
  controlPart (fun c =>
    let c := c.storeControl 0x14 (Bytes.ofWord period)
    if ControlRec.quietOk period then c.setQuietPeriod period.toNat else c.reportLatch 0x0000 .badArg)

/-- A command row of the control record (log 5). -/
def controlRow (r : ControlRec) (code : Nat) : Chip → Chip := latchRow .control (r.toBytes code) (controlLatch r code)

/-! ### Timers -/

/-- The restart pulse's timer expires (R22). -/
def pulseTimer (c : Chip) : Chip :=
  match c.control.gen with
  | .pulsing t => if reached c.control.ms t then { c with control := { c.control with gen := .idle } } else c
  | .idle | .holding => c

/-- The time since the last completed transaction has reached the quiet period (R19). -/
def quietDue (c : Chip) : Bool :=
  !c.holding && !c.path.procQuiet && decide (c.control.quietPeriod ≤ c.path.quietElapsed)

/-- PROC_QUIET turns true (R19). -/
def quietExpiry (c : Chip) : Chip := if c.quietDue then c.setProcQuiet true else c

/-- 20 us after the last fall of ATTN (R179). -/
def attnGap (c : Chip) : Chip := { c with attention := c.attention.gapExpiry }

end Chip

/-! ### Meanings -/

/-- BLOCK_ENABLES (R28). -/
def execBlockEnables (e : PerUnit Bool) (s : State) : Host.Outcome State Fault Refusal := act (Chip.enablesPart e) s
/-- ATTENTION_ENABLES (R176). -/
def execAttentionEnables (e : Vector Bool 10) (s : State) : Host.Outcome State Fault Refusal :=
  act (Chip.causesPart e) s
/-- QUIET_PERIOD (R19). -/
def execQuietPeriod (period : Word) (s : State) : Host.Outcome State Fault Refusal := act (Chip.quietPart period) s
/-- CONTROL_NONE (R27). -/
def execControlNone (r : ControlRec) (s : State) : Host.Outcome State Fault Refusal := act (Chip.controlRow r 0) s
/-- SERVICE_RESET (R31). -/
def execServiceReset (r : ControlRec) (s : State) : Host.Outcome State Fault Refusal := act (Chip.controlRow r 1) s
/-- FLUSH_EVENTS (R109). -/
def execFlushEvents (r : ControlRec) (s : State) : Host.Outcome State Fault Refusal := act (Chip.controlRow r 2) s
/-- PULSE_TIMER_EXPIRY (R22). -/
def execPulseTimerExpiry (s : State) : Host.Outcome State Fault Refusal := act Chip.pulseTimer s
/-- PROC_QUIET_EXPIRY (R19). -/
def execProcQuietExpiry (s : State) : Host.Outcome State Fault Refusal := act Chip.quietExpiry s
/-- ATTN_GAP_EXPIRY (R179). -/
def execAttnGapExpiry (s : State) : Host.Outcome State Fault Refusal := act Chip.attnGap s
/-- ATTENTION_TAKE (R178). -/
def execAttentionTake (s : State) : Host.Outcome State Fault Refusal :=
  act (Chip.readRow .attention (fun image => Chip.takeCause (causeOf (Bytes.get image 0).toNat))) s
/-- EVENT_POP (R108). -/
def execEventPop (i : Fin 32) (s : State) : Host.Outcome State Fault Refusal :=
  act (Chip.readRow (.ringEntry i) (fun _ => Chip.popEvent i)) s

end Sys2Proof.Machine
end

