-- ==== Sys2Proof/WellFormed.lean ====
section
/-! DEFINITION. Which command terms are commands: a transaction starts on a word boundary and has from 1 to 16 words
(00_scope, Addresses, words and transactions). Every other operand's type already holds exactly the values its row can
carry. -/

namespace Sys2Proof

namespace Transaction

/-- The word count of a transaction. -/
def count (t : Transaction) : Nat :=
  match t.kind with
  | .read n => n
  | .write ws => ws.length

/-- "a start address on a word boundary" -/
def aligned (t : Transaction) : Bool := t.addr.toNat % 4 == 0

/-- "a word count from 1 to 16" -/
def countOk (t : Transaction) : Bool := decide (1 ≤ t.count) && decide (t.count ≤ 16)

/-- A transaction by the definition of 00_scope. -/
def wellFormed (t : Transaction) : Bool := t.aligned && t.countOk

end Transaction

/-- The well-formed commands. -/
def Instr.wellFormed : Instr → Bool
  | .processorTransaction t => t.wellFormed
  | .powerOn | .resetRelease | .initWriteDone | .arbiterGrant | .processorWrite | .processorRead
  | .publicationDone | .attnGapExpiry | .procQuietExpiry | .blockEnables _ | .attentionEnables _
  | .quietPeriod _ | .controlNone _ | .serviceReset _ | .flushEvents _ | .pulseTimerExpiry | .motorNone _ _
  | .coast _ _ | .brake _ _ | .drive _ _ | .pulse _ _ | .runTo _ _ | .keep _ _ | .resetCount _ _
  | .release _ _ | .claimExpiry _ | .pwmPeriodBoundary _ | .reversalPassageEnd _ | .encoderStep _ _ _
  | .pulseExpiry _ | .speedWindowEnd | .stall _ | .coolingEnd _ | .scanNone _ | .start _ | .scanStop _
  | .step _ | .conversionComplete _ | .intervalExpiry | .sampleConsume _ | .channelSettingsLatch _ _
  | .inputEdge _ _ | .debounceExpiry _ | .inputSettingsLatch _ _ | .eventPop _ | .reflexEntryLatch _ _
  | .holdTimerExpiry _ | .soundNone _ | .tone _ | .stream _ | .soundStop _ | .toneExpiry
  | .descriptorReadDone | .sampleFetchDone | .doneWriteDone | .samplePeriod | .rereadTime | .starvedOut
  | .linkReadyRise | .linkReadyFall | .rxByte _ | .lineGap | .chunkStoreDone | .frameJudge | .peerAged _
  | .stormWindowEnd | .holdExpiry _ | .linkSettingsLatch _ | .subscriptionDue _ | .releaseWord _
  | .outboundNone _ _ | .send _ _ | .transmitBegin | .bodyFetchDone | .transmitEnd | .attentionTake
  | .bodyBufferSent => true

end Sys2Proof
end

