-- ==== Sys2Proof/Machine/Path.lean ====
section
/-! DEFINITION. The memory path unit: arrivals (R1, R2), guards (R4, R5), the arbiter (R17, R18), completions of processor
transactions (R1, R6, R7, R12, R21) and of publications (R9, R30, R107, R169, R179), power-on and window initialisation
(R20, R24), and the meanings of those events. -/

namespace Sys2Proof.Machine

namespace Chip

/-! ### Guards -/

/-- An outbound slot's header and body are guarded (R4). -/
def slotGuarded (c : Chip) (k : Fin 4) : Bool := c.link.out[k].state == .queued || c.link.out[k].state == .sending

/-- A record is guarded: every part record; a processor record of a unit that is RESETTING; an outbound header while its
slot is QUEUED or SENDING (R4). -/
def recordGuarded (c : Chip) (r : RecId) : Bool :=
  r.isPart || (match r.unit? with | some u => c.resetting u | none => false)
  || (match r with | .outHeader k => c.slotGuarded k | _ => false)

/-- The guard map at a window offset (R4). -/
def offsetGuarded (c : Chip) (off : Nat) : Bool :=
  Window.inPool off
  || (match Window.bodyAt off with | some k => c.slotGuarded k | none => false)
  || (match Window.recordAt off with | some r => c.recordGuarded r | none => false)

/-- A word that starts at an address is guarded. -/
def wordGuarded (c : Chip) (a : Nat) : Bool :=
  decide (Config.windowBase ≤ a) && c.offsetGuarded (a - Config.windowBase)

/-- A processor WRITE touches a guarded area (R5); a READ is never judged. -/
def refused (c : Chip) (t : Transaction) : Bool :=
  match t.kind with
  | .read _ => false
  | .write words => (List.range words.length).any (fun k => c.wordGuarded (t.addr.toNat + 4 * k))

/-! ### Arrival and arbitration -/

/-- The last word would lie beyond 0xFFFFFF (R2). -/
def beyondEnd (t : Transaction) : Bool := decide (Config.addressSpace ≤ t.addr.toNat + 4 * t.count - 4)

/-- The path unit holds a processor transaction, which waits or is in flight (section 1.1); one whose response a restart
pulse discards is held no longer, because the processor waits for no answer to it (R21, R22). -/
def heldTransaction (c : Chip) : Bool :=
  c.path.upstream.isSome || (match c.path.port with | some (.processor _ discarded) => !discarded | _ => false)

/-- A processor transaction arrives at the upstream port (R1, R2); the processor issues none while PRST is asserted or
while it waits for a response (log 8). One that arrives after a pulse waits for the grant like any other, the discarded
one still in flight or not (R21). -/
def arrive (t : Transaction) (c : Chip) : Chip :=
  if c.prst || c.heldTransaction then c
  else if beyondEnd t then
    touch (answer false .fault (publish .status
      { c with control := { c.control with badTransactions := satInc c.control.badTransactions } }))
  else { c with path := { c.path with upstream := some t } }

/-- The waiting part request of the highest class, the longest waiting of its class; none of classes 1 and 2 leaves the
publication list's head (R14, R17). -/
def nextPart (p : Path) : Option PartReq :=
  match p.parts.find? (fun q => q.cls == 1) with
  | some q => some q
  | none => p.parts.head?

/-- The arbiter grants a part request, if one waits (R17 step 2, R9). -/
def grantPart (c : Chip) : Chip :=
  match nextPart c.path with
  | some q =>
    { c with path := { c.path with parts := c.path.parts.erase q, port := some (.part q false), count := 0 } }
  | none =>
    match c.path.pubs with
    | r :: rest =>
      { c with path := { c.path with pubs := rest, port := some (.publication r (recordBytes c r) false), count := 0 } }
    | [] => { c with path := { c.path with count := 0 } }

/-- The arbiter grants the processor transaction (R17 step 1). -/
def grantProcessor (t : Transaction) (c : Chip) : Chip :=
  { c with path := { c.path with
    upstream := none
    port := some (.processor t false)
    count := if c.path.partWaiting then c.path.count + 1 else 0 } }

/-- A WRITE refused by the guard at its grant is answered FAULT (R2, R5); the status record joins the publication list
before the GUARD cause is raised (log 40). -/
def refuse (c : Chip) : Chip :=
  let c := { c with
    path := { c.path with upstream := none }
    control := { c.control with guardRefusals := satInc c.control.guardRefusals } }
  touch (answer false .fault ((publish .status c).raiseCause .guard))

/-- The arbiter chooses when the port is free (R17, R18). -/
def arbitrate (c : Chip) : Chip :=
  if c.path.port.isSome then c
  else match c.path.upstream with
    | none => c.grantPart
    | some t =>
      if c.path.partWaiting && decide (4 ≤ c.path.count) then c.grantPart
      else if c.refused t then c.refuse.grantPart
      else c.grantProcessor t

/-! ### Completion of a processor WRITE -/

/-- One enabled byte of a WRITE: to memory, and to the shadow of the processor record that covers it (R1, R6). -/
def storeByte (a : Nat) (b : Byte) (c : Chip) : Chip :=
  let c := { c with mem := c.mem.write a b }
  if a < Config.windowBase then c
  else match Window.recordAt (a - Config.windowBase) with
    | some r => if r.isPart then c else { c with shadow := c.shadow.write (a - Config.windowBase) b }
    | none => c

/-- The enabled bytes of a word (00_scope, Addresses, words and transactions). -/
def storeWord (a : Nat) (w : Word × BitVec 4) (c : Chip) : Chip :=
  c.forEach (List.range 4) (fun j c =>
    if w.2.getLsbD j then c.storeByte (a + j) (w.1.extractLsb' (8 * j) 8) else c)

/-- The words of a WRITE, from its start address. -/
def storeWords : List (Word × BitVec 4) → Nat → Chip → Chip
  | [], _, c => c
  | w :: ws, a, c => storeWords ws (a + 4) (c.storeWord a w)

/-- The owner of a processor record takes its whole shadow (R7). -/
def takeLatch (r : RecId) (c : Chip) : Chip :=
  let bs := c.shadowBytes r
  let code := (Bytes.word bs (r.size - 4)).toNat
  match r with
  | .control => c.controlLatch (ControlRec.ofBytes bs) code
  | .motorSlot m => c.motorLatch m (MotorSlot.ofBytes bs) code
  | .channelSettings ch => c.channelLatch ch (ChannelRec.ofBytes bs)
  | .scanProgram => c.scanLatch (ScanRec.ofBytes bs) code
  | .inputSettings n => c.inputLatch n (InputRec.ofBytes bs)
  | .reflexEntry i => c.reflexLatch i (ReflexRec.ofBytes bs)
  | .soundRequest => c.soundLatch (SoundRec.ofBytes bs) code
  | .linkSettings => c.linkLatch (LinkRec.ofBytes bs)
  | .releaseWord => c.releaseLatch (Bytes.word bs 0)
  | .outHeader k => c.outLatch k (OutRec.ofBytes bs) code
  | .attention | .status | .ringStatus | .ringEntry _ | .motorStatus _ | .scanStatus | .sampleSlot _ | .inputState
  | .reflexStatus | .soundStatus | .linkStatus | .peerImage _ | .subImage _ | .inboundStatus | .inboundDesc _
  | .outStatus _ => c

/-- The window offsets of the words of a transaction, in ascending order. -/
def windowWords (t : Transaction) : List Nat :=
  ((List.range t.count).map (fun k => t.addr.toNat + 4 * k)).filterMap
    (fun a => if Config.windowBase ≤ a then some (a - Config.windowBase) else none)

/-- A processor WRITE completes (R1, R6, R7, R19, R21). -/
def writeDone (c : Chip) : Chip :=
  match c.path.port with
  | some (.processor t discarded) =>
    match t.kind with
    | .write words =>
      let c := storeWords words t.addr.toNat c.freePort
      let c := answer discarded (.done []) c
      touch (c.forEach ((windowWords t).filterMap Window.latchAt) takeLatch)
    | .read _ => c
  | _ => c

/-! ### Completion of a processor READ -/

/-- A consuming word is reported to its owner, with the word as the READ returned it (R12, R13). -/
def reportConsuming (x : Window.Consuming) (word : List Byte) (c : Chip) : Chip :=
  match x with
  | .attention => c.takeCause (causeOf (Bytes.get word 0).toNat)
  | .ringEntry i => c.popEvent i
  | .sampleSlot ch => c.consumeSample ch word

/-- The report of one word of a READ, if it is a consuming word; the bytes are those that memory held at the
completion. -/
def reportWord (image : Mem) (off : Nat) (c : Chip) : Chip :=
  match Window.consumingAt off with
  | some x => c.reportConsuming x (image.bytes 4 (Config.windowBase + off))
  | none => c

/-- A processor READ completes (R1, R12, R19, R21). -/
def readDone (c : Chip) : Chip :=
  match c.path.port with
  | some (.processor t discarded) =>
    match t.kind with
    | .read n =>
      let image := c.mem
      let c := answer discarded (.done (wordsOf (image.bytes (4 * n) t.addr.toNat))) c.freePort
      touch (if discarded then c else c.forEach (windowWords t) (reportWord image))
    | .write _ => c
  | _ => c

/-! ### Completion of a publication -/

/-- The owner of a record that has been published with a value that counts (R107, R169). -/
def ownerReport (r : RecId) (c : Chip) : Chip :=
  match r with
  | .ringEntry i => c.entryPublished i
  | .inboundDesc d =>
    match c.link.desc[d] with
    | some x => publish .inboundStatus (c.modLink (fun l => { l with desc := l.desc.set d (some { x with shown := true }) }))
    | none => c
  | _ => c

/-- The attention record has been published with this cause (R177, R179). -/
def attentionPublished (data : List Byte) (c : Chip) : Chip :=
  { c with attention := c.attention.completePublication c.control.ms (causeOf (Bytes.get data 0).toNat) }

/-- A publication write completes (R9). -/
def publicationDone (c : Chip) : Chip :=
  match c.path.port with
  | some (.publication r data stale) =>
    let c := c.freePort.writeMem r.addr data
    let c := if r = .attention then c.attentionPublished data else c
    if stale then c else (c.ownerReport r).recordReported r
  | _ => c

/-! ### Power-on and window initialisation -/

/-- RESET is asserted: all work is abandoned, every unit is in its power-on state; the lines and memory stay (R20, R22,
R24, log 13). -/
def powerOn (c : Chip) : Chip := Chip.poweredOn c.pins c.mem

/-- RESET is released: the counter starts from 0, and the first initialisation write is in flight (R24). -/
def resetRelease (c : Chip) : Chip :=
  if !c.pins.resetAsserted then c
  else { c with
    pins := { c.pins with resetAsserted := false }
    control := { c.control with ms := 0 }
    path := { c.path with port := some (.init 0) } }

/-- The bytes of an initialisation write (R24). -/
def initBytes (c : Chip) (w : Nat × Nat) : List Byte := (List.range w.2).map (fun i => imageByte c (w.1 + i))

/-- PRST is released at the end of window initialisation (R22, R19). -/
def initEnd (c : Chip) : Chip :=
  { c with
    control := { c.control with gen := .idle }
    path := { c.path with port := none, lastTime := c.control.ms, quietElapsed := 0 } }

/-- A window initialisation write completes (R24). -/
def initWriteDone (c : Chip) : Chip :=
  match c.path.port with
  | some (.init k) =>
    let c := match Window.initWrites[k]? with
      | some w => c.writeMem (Config.windowBase + w.1) (initBytes c w)
      | none => c
    if k + 1 < Window.initWrites.length then { c with path := { c.path with port := some (.init (k + 1)) } }
    else c.initEnd
  | _ => c

end Chip

/-! ### Meanings -/

/-- POWER_ON (R20). -/
def execPowerOn (s : State) : Host.Outcome State Fault Refusal := act Chip.powerOn s
/-- RESET_RELEASE (R24). -/
def execResetRelease (s : State) : Host.Outcome State Fault Refusal := act Chip.resetRelease s
/-- INIT_WRITE_DONE (R24). -/
def execInitWriteDone (s : State) : Host.Outcome State Fault Refusal := act Chip.initWriteDone s
/-- PROCESSOR_TRANSACTION (R1); a term that is no transaction faults (log 11). -/
def execProcessorTransaction (t : Transaction) (s : State) : Host.Outcome State Fault Refusal :=
  if t.wellFormed then act (Chip.arrive t) s else .fault .notATransaction
/-- ARBITER_GRANT (R17). -/
def execArbiterGrant (s : State) : Host.Outcome State Fault Refusal := act Chip.arbitrate s
/-- PROCESSOR_WRITE (R6). -/
def execProcessorWrite (s : State) : Host.Outcome State Fault Refusal := act Chip.writeDone s
/-- PROCESSOR_READ (R1). -/
def execProcessorRead (s : State) : Host.Outcome State Fault Refusal := act Chip.readDone s
/-- PUBLICATION_DONE (R9). -/
def execPublicationDone (s : State) : Host.Outcome State Fault Refusal := act Chip.publicationDone s

end Sys2Proof.Machine
end

