-- ==== Sys2Proof/Machine/Time.lean ====
section
/-! DEFINITION. What the part does while no command waits: the first of its own events that is due, in the order listed
here, or one millisecond of time (R25; log 2, log 4). -/

namespace Sys2Proof.Machine

namespace Chip

/-- A time that stands in the state has been reached. -/
def timeDue (c : Chip) (t : Option Word) : Bool :=
  match t with
  | some t => reached c.control.ms t
  | none => false

def pulseTime (c : Chip) : Option Word :=
  match c.control.gen with
  | .pulsing t => some t
  | .idle | .holding => none

def runEnd (c : Chip) (m : Fin 4) : Option Word :=
  match c.motor.ch[m].mode with
  | .pulse _ t _ => some t
  | _ => none

def coolTime (c : Chip) (m : Fin 4) : Option Word :=
  match c.motor.ch[m].stall with
  | .cooling t => some t
  | _ => none

def intervalTime (c : Chip) : Option Word :=
  match c.sense.scan with
  | .waiting t => some t
  | _ => none

def holdTime (c : Chip) (i : Fin 8) : Option Word :=
  match c.reflex.entry[i].state with
  | .timing t => some t
  | _ => none

def toneTime (c : Chip) : Option Word :=
  match c.sound.voice with
  | .tone _ _ _ _ t => some t
  | _ => none

def starvedTimes (c : Chip) : Option Word × Option Word :=
  match c.sound.voice with
  | .stream st =>
    match st.starved with
    | some x => (some x.limit, x.reread)
    | none => (none, none)
  | _ => (none, none)

def heldUntil (c : Chip) (p : Fin 8) : Option Word :=
  match c.link.peer[p] with
  | some x => x.held
  | none => none

def dueAt (c : Chip) (k : Fin 4) : Option Word :=
  match c.link.sub[k] with
  | some x => if x.due then none else some x.dueTime
  | none => none

/-- An event for each index for which it is due. -/
def dueEach (n : Nat) (due : Fin n → Bool) (event : Fin n → Instr) : List Instr :=
  ((List.finRange n).filter due).map event

/-- The event if it is due. -/
def dueOne (due : Bool) (event : Instr) : List Instr := if due then [event] else []

/-- The part's own events that are due, in the order in which an idle step takes them (log 4). The 50 us of a stage at
rest and the 20 us of ATTN come last: both end before a millisecond passes (R34, R179, log 3). -/
def dueEvents (c : Chip) : List Instr :=
  dueOne (c.linkUp && c.readyFrame.isSome) .frameJudge
  ++ dueOne (c.timeDue c.pulseTime) .pulseTimerExpiry
  ++ dueOne c.quietDue .procQuietExpiry
  ++ (if c.on .motor then
        dueEach 4 (fun m => c.timeDue c.motor.ch[m].deadline) .claimExpiry
        ++ dueEach 4 (fun m => c.timeDue (c.runEnd m)) .pulseExpiry
        ++ dueOne (reached c.control.ms c.motor.windowEnd) .speedWindowEnd
        ++ dueEach 4 c.stallDue .stall
        ++ dueEach 4 (fun m => c.timeDue (c.coolTime m)) .coolingEnd
      else [])
  ++ dueOne (c.on .sense && c.timeDue c.intervalTime) .intervalExpiry
  ++ dueEach 11 c.debounceDue .debounceExpiry
  ++ dueEach 8 (fun i => c.on .reflex && c.timeDue (c.holdTime i)) .holdTimerExpiry
  ++ dueOne (c.timeDue c.toneTime) .toneExpiry
  ++ dueOne (c.timeDue c.starvedTimes.1) .starvedOut
  ++ dueOne (c.timeDue c.starvedTimes.2) .rereadTime
  ++ (if c.on .link then
        dueEach 8 c.aged .peerAged
        ++ dueOne (reached c.control.ms c.link.stormEnd) .stormWindowEnd
        ++ dueEach 8 (fun p => c.timeDue (c.heldUntil p)) .holdExpiry
        ++ dueEach 4 (fun k => c.timeDue (c.dueAt k)) .subscriptionDue
      else [])
  ++ dueOne (c.path.port.isNone && (c.path.upstream.isSome || c.path.partWaiting)) .arbiterGrant
  ++ dueOne (c.mayTransmit && c.choose.isSome) .transmitBegin
  ++ dueEach 4 (fun m => c.on .motor && c.motor.ch[m].gap) .reversalPassageEnd
  ++ dueOne c.attention.gap .attnGapExpiry

/-- One ms of a subscription: the lateness of a due one (R166). -/
def tickSub : Option Subscription → Option Subscription
  | some x => some (if x.due then { x with lateness := min Config.latenessHeld (x.lateness + 1) } else x)
  | none => none

/-- One ms of a peer: its silence (R154). -/
def tickPeer : Option Peer → Option Peer
  | some x => some { x with silence := min Config.silenceHeld (x.silence + 1) }
  | none => none

/-- One millisecond passes (R25): the counter, the elapsed time of the processor-quiet timer (R19), silences (R154),
latenesses (R166) and the wave of a tone (R134). Nothing runs while RESET is asserted (R24). -/
def tick (c : Chip) : Chip :=
  if c.pins.resetAsserted then c
  else
    let elapsed := if c.holding then c.path.quietElapsed else min Config.quietHeld (c.path.quietElapsed + 1)
    let peer := (List.finRange 8).foldl (fun v p => v.set p (tickPeer c.link.peer[p])) c.link.peer
    let sub := (List.finRange 4).foldl (fun v k => v.set k (tickSub c.link.sub[k])) c.link.sub
    { c with
      control := { c.control with ms := c.control.ms + 1 }
      path := { c.path with quietElapsed := elapsed }
      sound := { c.sound with output := c.sound.waveAt (c.control.ms + 1) }
      link := { c.link with peer := peer, sub := sub } }

end Chip
end Sys2Proof.Machine
end

