-- ==== Sys2Proof/Machine/Dispatch.lean ====
section
/-! DEFINITION. One arm for each command: a direct call of its meaning. -/

namespace Sys2Proof.Machine

def exec (i : Instr) (s : State) : Host.Outcome State Fault Refusal :=
  match i with
  | .powerOn => Sys2Proof.Machine.execPowerOn s
  | .resetRelease => Sys2Proof.Machine.execResetRelease s
  | .initWriteDone => Sys2Proof.Machine.execInitWriteDone s
  | .processorTransaction x => Sys2Proof.Machine.execProcessorTransaction x s
  | .arbiterGrant => Sys2Proof.Machine.execArbiterGrant s
  | .processorWrite => Sys2Proof.Machine.execProcessorWrite s
  | .processorRead => Sys2Proof.Machine.execProcessorRead s
  | .publicationDone => Sys2Proof.Machine.execPublicationDone s
  | .attnGapExpiry => Sys2Proof.Machine.execAttnGapExpiry s
  | .procQuietExpiry => Sys2Proof.Machine.execProcQuietExpiry s
  | .blockEnables x => Sys2Proof.Machine.execBlockEnables x s
  | .attentionEnables x => Sys2Proof.Machine.execAttentionEnables x s
  | .quietPeriod x => Sys2Proof.Machine.execQuietPeriod x s
  | .controlNone x => Sys2Proof.Machine.execControlNone x s
  | .serviceReset x => Sys2Proof.Machine.execServiceReset x s
  | .flushEvents x => Sys2Proof.Machine.execFlushEvents x s
  | .pulseTimerExpiry => Sys2Proof.Machine.execPulseTimerExpiry s
  | .motorNone x y => Sys2Proof.Machine.execMotorNone x y s
  | .coast x y => Sys2Proof.Machine.execCoast x y s
  | .brake x y => Sys2Proof.Machine.execBrake x y s
  | .drive x y => Sys2Proof.Machine.execDrive x y s
  | .pulse x y => Sys2Proof.Machine.execPulse x y s
  | .runTo x y => Sys2Proof.Machine.execRunTo x y s
  | .keep x y => Sys2Proof.Machine.execKeep x y s
  | .resetCount x y => Sys2Proof.Machine.execResetCount x y s
  | .release x y => Sys2Proof.Machine.execRelease x y s
  | .claimExpiry x => Sys2Proof.Machine.execClaimExpiry x s
  | .pwmPeriodBoundary x => Sys2Proof.Machine.execPwmPeriodBoundary x s
  | .reversalPassageEnd x => Sys2Proof.Machine.execReversalPassageEnd x s
  | .encoderStep x y z => Sys2Proof.Machine.execEncoderStep x y z s
  | .pulseExpiry x => Sys2Proof.Machine.execPulseExpiry x s
  | .speedWindowEnd => Sys2Proof.Machine.execSpeedWindowEnd s
  | .stall x => Sys2Proof.Machine.execStall x s
  | .coolingEnd x => Sys2Proof.Machine.execCoolingEnd x s
  | .scanNone x => Sys2Proof.Machine.execScanNone x s
  | .start x => Sys2Proof.Machine.execStart x s
  | .scanStop x => Sys2Proof.Machine.execScanStop x s
  | .step x => Sys2Proof.Machine.execStep x s
  | .conversionComplete x => Sys2Proof.Machine.execConversionComplete x s
  | .intervalExpiry => Sys2Proof.Machine.execIntervalExpiry s
  | .sampleConsume x => Sys2Proof.Machine.execSampleConsume x s
  | .channelSettingsLatch x y => Sys2Proof.Machine.execChannelSettingsLatch x y s
  | .inputEdge x y => Sys2Proof.Machine.execInputEdge x y s
  | .debounceExpiry x => Sys2Proof.Machine.execDebounceExpiry x s
  | .inputSettingsLatch x y => Sys2Proof.Machine.execInputSettingsLatch x y s
  | .eventPop x => Sys2Proof.Machine.execEventPop x s
  | .reflexEntryLatch x y => Sys2Proof.Machine.execReflexEntryLatch x y s
  | .holdTimerExpiry x => Sys2Proof.Machine.execHoldTimerExpiry x s
  | .soundNone x => Sys2Proof.Machine.execSoundNone x s
  | .tone x => Sys2Proof.Machine.execTone x s
  | .stream x => Sys2Proof.Machine.execStream x s
  | .soundStop x => Sys2Proof.Machine.execSoundStop x s
  | .toneExpiry => Sys2Proof.Machine.execToneExpiry s
  | .descriptorReadDone => Sys2Proof.Machine.execDescriptorReadDone s
  | .sampleFetchDone => Sys2Proof.Machine.execSampleFetchDone s
  | .doneWriteDone => Sys2Proof.Machine.execDoneWriteDone s
  | .samplePeriod => Sys2Proof.Machine.execSamplePeriod s
  | .rereadTime => Sys2Proof.Machine.execRereadTime s
  | .starvedOut => Sys2Proof.Machine.execStarvedOut s
  | .linkReadyRise => Sys2Proof.Machine.execLinkReadyRise s
  | .linkReadyFall => Sys2Proof.Machine.execLinkReadyFall s
  | .rxByte x => Sys2Proof.Machine.execRxByte x s
  | .lineGap => Sys2Proof.Machine.execLineGap s
  | .chunkStoreDone => Sys2Proof.Machine.execChunkStoreDone s
  | .frameJudge => Sys2Proof.Machine.execFrameJudge s
  | .peerAged x => Sys2Proof.Machine.execPeerAged x s
  | .stormWindowEnd => Sys2Proof.Machine.execStormWindowEnd s
  | .holdExpiry x => Sys2Proof.Machine.execHoldExpiry x s
  | .linkSettingsLatch x => Sys2Proof.Machine.execLinkSettingsLatch x s
  | .subscriptionDue x => Sys2Proof.Machine.execSubscriptionDue x s
  | .releaseWord x => Sys2Proof.Machine.execReleaseWord x s
  | .outboundNone x y => Sys2Proof.Machine.execOutboundNone x y s
  | .send x y => Sys2Proof.Machine.execSend x y s
  | .transmitBegin => Sys2Proof.Machine.execTransmitBegin s
  | .bodyFetchDone => Sys2Proof.Machine.execBodyFetchDone s
  | .transmitEnd => Sys2Proof.Machine.execTransmitEnd s
  | .attentionTake => Sys2Proof.Machine.execAttentionTake s
  | .bodyBufferSent => Sys2Proof.Machine.execBodyBufferSent s

end Sys2Proof.Machine
end

