-- ==== Sys2Proof/Machine/Step.lean ====
section
/-! DEFINITION. One step of the machine: the command at the front of the queue, or, when none waits, the first of the part's
own events that is due, or one millisecond (log 2). -/

namespace Sys2Proof.Machine

/-- A step with no command waiting (log 2). -/
def idle (s : State) : Host.Outcome State Fault Refusal :=
  match s.hw.dueEvents with
  | i :: _ => exec i s
  | [] => .next { s with hw := s.hw.tick }

/-- One step. -/
def step (s : State) : Host.Outcome State Fault Refusal :=
  match s.pending with
  | i :: rest => exec i { s with pending := rest }
  | [] => idle s

/-- The command that a word spells, put at the front of the queue; no word spells one (log 9). -/
def State.withFetchWord (s : State) (nbits w : Nat) : State :=
  match decodeTableWord nbits w with
  | some i => { s with pending := i :: s.pending }
  | none => s

end Sys2Proof.Machine
end

