-- ==== Sys2Proof/Safety.lean ====
section
/-! DEFINITION. What every step keeps (`Chip.inv`, `Chip.Structured`), and the words in which the statements about commands say what a command
changes and what it leaves: the parts of the chip, the publication list after a join, the path after a completed processor
transaction, bytes stored at an address, and the records and commands of the latch rows. -/

namespace Sys2Proof.Machine

/-! ### The invariant -/

/-- ATTN is high only while the published cause is pending and enabled (R179). -/
def Attention.lineOk (a : Attention) : Bool := !a.line || a.publishedEligible

/-- What holds in every state the part can reach and is kept by every step: memory and shadows are in canonical form; the
publication list holds no record twice (R8); the arbiter's count is 0 to 4 (R17); the elapsed time of the quiet timer is
held at 10000 (R19); the ring holds at most 32 entries (R102); at most eight replies wait (R170); the ATTN line is low
unless its cause is pending and enabled (R179). -/
def Chip.inv (c : Chip) : Bool :=
  c.mem.wf && c.shadow.wf && decide c.path.pubs.Nodup && decide (c.path.count ≤ 4)
  && decide (c.path.quietElapsed ≤ Config.quietHeld) && decide (c.ring.held ≤ Config.ringSize)
  && decide (c.link.replies.length ≤ Config.replyQueueSize) && c.attention.lineOk

/-! ### The structure of the link and of block resets -/

/-- The pool blocks that the frame being received holds (R146). -/
def Receiver.blocks : Receiver → List (Fin 48)
  | .header f | .payload f | .crc f => f.blocks
  | .hunt | .skip _ => []

/-- The pool blocks with each of their holders: the free list, the frame being received, the finished frame and the
OCCUPIED descriptors (R149). -/
def Link.blocks (l : Link) : List (Fin 48) :=
  l.free ++ l.receiver.blocks ++ (match l.finishing with | some f => f.blocks | none => [])
  ++ (List.finRange 16).flatMap (fun k => match l.desc[k] with | some x => x.blocks | none => [])

/-- What every step keeps of the link's tables, of the claims that rest on them, and of block resets. -/
structure Chip.Structured (c : Chip) : Prop where
  /-- Every pool block has exactly one holder (R149). -/
  pool : ∀ b : Fin 48, c.link.blocks.count b = 1
  /-- While the link state is not UP the receiver is in HUNT, no finished frame waits and no peer is JOINED (R142, R159,
  R160). -/
  down : c.linkUp = false → c.link.receiver = .hunt ∧ c.link.finishing = none ∧ ∀ p : Fin 8, c.link.peer[p] = none
  /-- A JOINED peer's tag is not 0 and is no other peer's (R152). -/
  tags : ∀ (p : Fin 8) (x : Peer), c.link.peer[p] = some x → x.tag ≠ 0
    ∧ ∀ (q : Fin 8) (y : Peer), c.link.peer[q] = some y → y.tag = x.tag → q = p
  /-- A subscription belongs to a JOINED peer, by slot and tag, and to a peer belongs at most one (R155, R165). -/
  subs : ∀ (k : Fin 4) (x : Subscription), c.link.sub[k] = some x →
    (∃ y : Peer, c.link.peer[x.slot] = some y ∧ y.tag = x.tag)
    ∧ ∀ (j : Fin 4) (y : Subscription), c.link.sub[j] = some y → y.slot = x.slot → j = k
  /-- There are no more drivers than the driver limit (R151, R158). -/
  drivers : c.link.driverCount ≤ c.link.settings.driverLimit
  /-- A motor that a tablet owns: the motor unit is ON and the tablet is JOINED as DRIVER (R54, R67). -/
  owners : ∀ (m : Fin 4) (p : Fin 8), c.motor.ch[m].owner = .link p →
    c.on .motor = true ∧ ∃ x : Peer, c.link.peer[p] = some x ∧ x.driver = true
  /-- A record that is outstanding belongs to a unit that is RESETTING (R29, R30). -/
  resets : ∀ r ∈ c.control.outstanding, ∀ u, r.unit? = some u → c.control.block.get u = .resetting

/-! ### Conditions that statements share -/

/-- No entry of the reflex table watches: a change handed to the reflex unit then does nothing (R114). -/
def Chip.unwatched (c : Chip) : Bool :=
  !c.on .reflex || (List.finRange 8).all (fun i =>
    c.reflex.entry[i].state == .disabled || c.reflex.entry[i].state == .spent)

/-- No ARMED entry fires on a change handed now: its condition is false, or it has a hold time (R117). -/
def Chip.noneFires (c : Chip) : Prop :=
  ∀ k : Fin 8, let e := c.reflex.entry[k]
    e.state = .armed → c.condition e.record = true → e.record.hold ≠ 0

/-- PRST is released and no restart pulse runs, the invariant holds, and no reflex entry watches. -/
def Chip.ready (c : Chip) : Bool := c.inv && c.unwatched && c.control.gen == .idle

/-- Applying enables leaves the block state of a unit as it is (R28). -/
def Chip.settled (c : Chip) (e : PerUnit Bool) (u : BlockUnit) : Bool :=
  c.control.block.get u == .resetting || (c.control.block.get u == .on) == e.get u

/-! ### Answers and frames -/

/-- exec of the command answers a next state, whose queue is as it was and whose chip satisfies P. -/
def Answers (i : Instr) (s : State) (P : Chip → Prop) : Prop :=
  ∃ t, exec i s = .next t ∧ t.pending = s.pending ∧ P t.hw

/-- The parts of the chip. -/
inductive Part where
  | pins | control | ring | attention | path | motor | sense | input | reflex | sound | link | mem | shadow
  deriving DecidableEq, Repr

/-- A part is the same in two chips; memory and shadows are compared as data. -/
def Part.same (c d : Chip) : Part → Prop
  | .pins => d.pins = c.pins
  | .control => d.control = c.control
  | .ring => d.ring = c.ring
  | .attention => d.attention = c.attention
  | .path => d.path = c.path
  | .motor => d.motor = c.motor
  | .sense => d.sense = c.sense
  | .input => d.input = c.input
  | .reflex => d.reflex = c.reflex
  | .sound => d.sound = c.sound
  | .link => d.link = c.link
  | .mem => d.mem = c.mem
  | .shadow => d.shadow = c.shadow

/-- Every part but the listed ones is as it was in c. -/
def KeptBut (changed : List Part) (c d : Chip) : Prop := ∀ p, p ∉ changed → p.same c d

/-- The ring, the attention flags and the path of d are those of c'. -/
def Reports (c' d : Chip) : Prop := d.ring = c'.ring ∧ d.attention = c'.attention ∧ d.path = c'.path

/-! ### Values after an effect -/

/-- The publication list after a record has joined it (R8). -/
def joins (r : RecId) (l : List RecId) : List RecId := if r ∈ l then l else l ++ [r]

/-- The publication list after records have joined it in order. -/
def joinsAll (rs : List RecId) (l : List RecId) : List RecId := rs.foldl (fun l r => joins r l) l

namespace Path

/-- The path after a record has joined the publication list. -/
def join (r : RecId) (p : Path) : Path := { p with pubs := joins r p.pubs }

/-- The path after a processor transaction has completed with a response (R1, R19). -/
def served (x : Response) (now : Word) (p : Path) : Path :=
  { p with response := some x, lastTime := now, quietElapsed := 0, procQuiet := false }

end Path

/-- The flags after a raise (R176). -/
def Attention.raised (k : Cause) (a : Attention) : Attention := { a with pending := a.pending.set k.idx true }

/-- The control state after a latch result has been reported to the status record (R7). -/
def Control.reported (offset : Nat) (code : Code) (k : Control) : Control :=
  { k with latchOffset := BitVec.ofNat 16 offset, latchCode := code }

/-- Bytes have been stored at an address, and every other byte reads as before. -/
def Stored (a : Nat) (bs : List Byte) (m m' : Mem) : Prop :=
  ∀ k, m'.read k = if a ≤ k ∧ k < a + bs.length then Bytes.get bs (k - a) else m.read k

/-- The byte that a WRITE of these words from a start address puts at an address, where it enables one. -/
def writtenByte (words : List (Word × BitVec 4)) (start k : Nat) : Option Byte :=
  if start ≤ k then
    match words[(k - start) / 4]? with
    | some w => if w.2.getLsbD ((k - start) % 4) then some (w.1.extractLsb' (8 * ((k - start) % 4)) 8) else none
    | none => none
  else none

/-- A window offset lies in a processor record. -/
def inProcessorRecord (off : Nat) : Bool :=
  match Window.recordAt off with
  | some r => !r.isPart
  | none => false

/-- A whole processor record has been written to memory and to its shadow (R6). -/
def RecordStored (r : RecId) (bs : List Byte) (c d : Chip) : Prop :=
  Stored r.addr bs c.mem d.mem ∧ Stored r.offset bs c.shadow d.shadow

/-- Every byte of memory and of the shadows reads as before. -/
def MemoryKept (c d : Chip) : Prop := (∀ k, d.mem.read k = c.mem.read k) ∧ (∀ k, d.shadow.read k = c.shadow.read k)

/-! ### Claims -/

/-- The chip after a requester has taken the claim of a motor, in its ring and attention flags alone: CLAIM_LOST with
PREEMPTED where another owner has lost the claim, and the CLAIM cause where that was PROC (R57, R58). -/
def Chip.claimTaken (q : Owner) (m : Fin 4) (c : Chip) : Chip :=
  let old := c.motor.ch[m].owner
  if old = .none ∨ old = q then c
  else
    let lost := c.append .claimLost (Bytes.ofNat m.val) Code.preempted.byte
    if old = .proc then { lost with attention := lost.attention.raised .claim } else lost

/-! ### Reflex entries -/

/-- The state of an entry after it has been judged and has not fired (R117). -/
def Chip.judgedState (c : Chip) (e : ReflexEntry) : EntryState :=
  match e.state, c.condition e.record with
  | .armed, true => .timing (c.control.ms + e.record.hold.setWidth 32)
  | .timing _, false => .armed
  | .fired, false => .armed
  | x, _ => x

/-- Every entry has been judged on the states as they stand in c, and none has fired (R114); the reflex status record has
joined the publication list when a state has changed (R126). -/
def Chip.Rejudged (c d : Chip) : Prop :=
  (∀ k : Fin 8, d.reflex.entry[k] = { c.reflex.entry[k] with state := c.judgedState c.reflex.entry[k] })
  ∧ d.path = (if d.reflex = c.reflex then c.path else c.path.join .reflexStatus) ∧ KeptBut [.reflex, .path] c d

/-- Entry i with this record has fired once on c, and the changes of its firing have been judged: its state with this fire
count, STOP, TONE, ALARM, ATTENTION, RESTART, and the ring where neither TONE nor RESTART was selected (R117, R119 to
R125). -/
def Fired (i : Fin 8) (r : ReflexRec) (fires : Byte) (c d : Chip) : Prop :=
  let stops := r.stop = 1 ∧ c.on .motor = true
  let state : EntryState := if r.rearm = 1 then .spent else if d.condition r then .fired else .armed
  let result : Code := if r.stop = 1 ∧ c.on .motor = false then .off else if r.alarm = 1 then c.alarmResult else .ok
  let told : Chip := if stops
    then ((List.finRange 4).filter (fun m => r.motors[m] = 1)).foldl (fun x m =>
      (x.endOperation m .preempted).claimTaken (.reflex i) m) c
    else c
  d.reflex = ⟨c.reflex.entry.set i ⟨r, state, fires⟩⟩ ∧ .reflexStatus ∈ d.path.pubs
  ∧ (stops → ∀ m : Fin 4, r.motors[m] = 1 →
      d.motor.ch[m].owner = .reflex i ∧ d.motor.ch[m].deadline = none
      ∧ d.motor.ch[m].mode = (if r.stopMode = 1 then .brake else .coast)
      ∧ d.motor.ch[m].stage = (if r.stopMode = 1 then .brake else .coast)
      ∧ d.motor.ch[m].stall = (if c.motor.ch[m].stall = .stalled then .cooling (c.control.ms + 1000)
          else c.motor.ch[m].stall))
  ∧ (∀ m : Fin 4, r.stop ≠ 1 ∨ r.motors[m] ≠ 1 → r.restart ≠ 1 ∨ c.motor.ch[m].owner ≠ .proc →
      d.motor.ch[m] = c.motor.ch[m])
  ∧ (r.tone = 1 → c.on .sound = true → d.sound.voice = .tone (.reflex i) r.frequency.toNat 100 c.control.ms
      (c.control.ms + BitVec.ofNat 32 r.duration.toNat))
  ∧ (r.alarm = 1 → c.linkUp = true → i ∈ d.link.alarms)
  ∧ (r.attention = 1 → d.attention.pending[Cause.reflex.idx] = true)
  ∧ (r.restart = 1 → c.control.gen = .idle →
      d.control.gen = .pulsing (c.control.ms + BitVec.ofNat 32 r.pulse.toNat)
      ∧ d.control.restarts = satInc c.control.restarts)
  ∧ (r.tone ≠ 1 → r.restart ≠ 1 → d.ring = (told.append .reflex (Bytes.ofNat i.val) result.byte).ring)
  ∧ d.link = { c.link with alarms := d.link.alarms }

/-! ### Sample slots -/

/-- A held sample has been stored into its slot under settings x, and the scan has gone on from the hold (R79, R80, R83,
R90). -/
def HeldStored (ch : Fin 8) (v : BitVec 12) (time : Word) (lost : Half) (x : ChannelSettings) (c d : Chip) : Prop :=
  let old := c.sense.slots[ch]
  let p := c.sense.active
  let judged := compare x v.toNat
  let entered := judged.1 && !old.condition
  let asked := fun (k : Fin 8) => match c.sense.conv with
    | .discarding _ => Converter.discarding (some k)
    | _ => .running k
  d.sense.slots = c.sense.slots.set ch {
    seq := old.seq + 1, state := .fresh, condition := judged.1, value := v.setWidth 16, entered := entered,
    side := judged.2, lost := lost, scanCount := c.sense.scanCount, time := time }
  ∧ d.sense.active = p ∧ d.sense.stored = c.sense.stored ∧ d.sense.latchResult = c.sense.latchResult
  ∧ .sampleSlot ch ∈ d.path.pubs ∧ .scanStatus ∈ d.path.pubs
  ∧ d.ring = (if entered && x.event then (c.append .compare (Bytes.ofNat ch.val) (Bytes.ofBool judged.2)).ring
      else c.ring)
  ∧ (ch < p.last → d.sense.position = ch + 1 ∧ d.sense.scanCount = c.sense.scanCount ∧ d.sense.lastEnd = c.sense.lastEnd
    ∧ (p.mode = .stepped → d.sense.scan = .stepWait ∧ d.sense.conv = c.sense.conv)
    ∧ (p.mode ≠ .stepped → d.sense.scan = .converting ∧ d.sense.conv = asked (ch + 1))
    ∧ ((entered && x.event) = false → d.attention = c.attention))
  ∧ (p.last ≤ ch → d.sense.position = p.first ∧ d.sense.scanCount = c.sense.scanCount + 1
    ∧ d.sense.lastEnd = c.control.ms ∧ d.attention.pending[Cause.scan.idx] = true
    ∧ (p.mode = .single → d.sense.scan = .stopped ∧ d.sense.conv = c.sense.conv)
    ∧ (p.mode = .stepped → d.sense.scan = .stepWait ∧ d.sense.conv = c.sense.conv)
    ∧ (p.mode = .continuous → p.interval = 0 → d.sense.scan = .converting ∧ d.sense.conv = asked p.first)
    ∧ (p.mode = .continuous → p.interval ≠ 0 →
        d.sense.scan = .waiting (c.control.ms + BitVec.ofNat 32 p.interval) ∧ d.sense.conv = c.sense.conv))

/-! ### Latch rows -/

/-- The record that a row latches, with the bytes that its WRITE carries (log 5). -/
def rowRecord : Instr → Option (RecId × List Byte)
  | .controlNone r => some (.control, r.toBytes 0)
  | .serviceReset r => some (.control, r.toBytes 1)
  | .flushEvents r => some (.control, r.toBytes 2)
  | .motorNone m r => some (.motorSlot m, r.toBytes 0)
  | .coast m r => some (.motorSlot m, r.toBytes 1)
  | .brake m r => some (.motorSlot m, r.toBytes 2)
  | .drive m r => some (.motorSlot m, r.toBytes 3)
  | .pulse m r => some (.motorSlot m, r.toBytes 4)
  | .runTo m r => some (.motorSlot m, r.toBytes 5)
  | .keep m r => some (.motorSlot m, r.toBytes 6)
  | .resetCount m r => some (.motorSlot m, r.toBytes 7)
  | .release m r => some (.motorSlot m, r.toBytes 8)
  | .scanNone r => some (.scanProgram, r.toBytes 0)
  | .start r => some (.scanProgram, r.toBytes 1)
  | .scanStop r => some (.scanProgram, r.toBytes 2)
  | .step r => some (.scanProgram, r.toBytes 3)
  | .channelSettingsLatch ch r => some (.channelSettings ch, r.toBytes)
  | .inputSettingsLatch n r => some (.inputSettings n, r.toBytes)
  | .reflexEntryLatch i r => some (.reflexEntry i, r.toBytes)
  | .soundNone r => some (.soundRequest, r.toBytes 0)
  | .tone r => some (.soundRequest, r.toBytes 1)
  | .stream r => some (.soundRequest, r.toBytes 2)
  | .soundStop r => some (.soundRequest, r.toBytes 3)
  | .linkSettingsLatch r => some (.linkSettings, r.toBytes)
  | .releaseWord v => some (.releaseWord, Bytes.ofWord v)
  | .outboundNone k r => some (.outHeader k, r.toBytes 0)
  | .send k r => some (.outHeader k, r.toBytes 1)
  | _ => none

/-- The rows of a motor's command slot by command code (Table 4-1). -/
def motorInstr (m : Fin 4) (r : MotorSlot) : Fin 9 → Instr
  | 0 => .motorNone m r
  | 1 => .coast m r
  | 2 => .brake m r
  | 3 => .drive m r
  | 4 => .pulse m r
  | 5 => .runTo m r
  | 6 => .keep m r
  | 7 => .resetCount m r
  | 8 => .release m r

/-! ### Motor channels -/

/-- What no command and no end of a claim touches: the encoder's levels and tally, the speed, the period in progress, every
other channel and the speed window. -/
def ChannelKept (m : Fin 4) (c d : Chip) : Prop :=
  d.motor.ch[m].levels = c.motor.ch[m].levels ∧ d.motor.ch[m].tally = c.motor.ch[m].tally
  ∧ d.motor.ch[m].speed = c.motor.ch[m].speed ∧ d.motor.ch[m].periodPwm = c.motor.ch[m].periodPwm
  ∧ (∀ k : Fin 4, k ≠ m → d.motor.ch[k] = c.motor.ch[k]) ∧ d.motor.windowEnd = c.motor.windowEnd

/-- The processor owns the channel from now, with the deadline that its freshness sets and its settings in force, and its
latch had the result OK (R57, R60, R46, R65). -/
def TakenByProc (m : Fin 4) (r : MotorSlot) (c d : Chip) : Prop :=
  d.motor.ch[m].owner = .proc
  ∧ d.motor.ch[m].deadline = (if r.freshness = 0 then none else some (c.control.ms + r.freshness))
  ∧ d.motor.ch[m].settings = r.settings ∧ d.motor.ch[m].latchResult = .ok ∧ ChannelKept m c d

/-- The claim is free and the channel coasts; STALLED has become COOLING (R51). -/
def Released (m : Fin 4) (c d : Chip) : Prop :=
  d.motor.ch[m].owner = .none ∧ d.motor.ch[m].deadline = none ∧ d.motor.ch[m].mode = .coast
  ∧ d.motor.ch[m].stage = .coast ∧ d.motor.ch[m].count = c.motor.ch[m].count
  ∧ d.motor.ch[m].stall = (if c.motor.ch[m].stall = .stalled then .cooling (c.control.ms + 1000)
      else c.motor.ch[m].stall) ∧ ChannelKept m c d

/-- What an accepted latch of a motor slot leaves outside its channel: the ring and the attention flags are those of told,
the motor status record has joined the publication list, the WRITE is answered DONE, and nothing else has changed; where
no operation ran and no other owner lost the claim, ring and attention are as before and the path is as after any latch
(R57). -/
def PreemptedByProc (m : Fin 4) (told c d : Chip) : Prop :=
  d.ring = told.ring ∧ d.attention = told.attention ∧ .motorStatus m ∈ d.path.pubs
  ∧ d.path.response = some (.done []) ∧ KeptBut [.motor, .ring, .attention, .path, .mem, .shadow] c d
  ∧ (told = c → d.path = (c.path.join (.motorStatus m)).served (.done []) c.control.ms)

/-- The stall watch after its conditions have been judged: it runs while the stall state is NORMAL, the threshold is not 0
and the magnitude of the applied duty has reached it, from when it began before, or else from now (R47). -/
def Channel.watchJudged (now : Word) (before : Option Word) (ch : Channel) : Option Word :=
  if ch.stall = .normal ∧ ch.settings.threshold ≠ 0 ∧ ch.settings.threshold ≤ ch.stage.applied.natAbs
  then some (before.getD now) else none

/-! ### Sound -/

/-- The source index of a SOUND_END event (R130). -/
def Owner.endIndex : Owner → Byte
  | .none => 0
  | .link p => Bytes.ofNat p.val
  | .proc => 8
  | .reflex i => Bytes.ofNat (16 + i.val)

/-- A sound of this source has ended with this code: its requests are withdrawn, the last end code, the SOUND_END event,
the SOUND cause and the publication of the status record (R130); the voice itself is said apart. -/
def SoundEnded (source : Owner) (code : Code) (c d : Chip) : Prop :=
  d.sound.lastEnd = code ∧ d.ring = (c.append .soundEnd source.endIndex code.byte).ring
  ∧ d.attention.pending[Cause.sound.idx] = true ∧ .soundStatus ∈ d.path.pubs
  ∧ ∀ q w, c.path.port = some (.part q w) → d.path.port = some (.part q (w || q.isSound))

/-- The part requests without those of the sound unit. -/
def Path.soundless (p : Path) : List PartReq := p.parts.filter (fun q => !q.isSound)

/-- A sample fetch may be placed for a block of which so many bytes are fetched and so many staged (R136). -/
def Path.mayFetch (p : Path) (length fetched staged : Nat) : Bool :=
  decide (fetched < length) && decide (staged ≤ 192) && !p.placed PartReq.isFetch

/-! ### Link -/

/-- The pool state that a free count means under water marks, from the state before (R150). -/
def poolLowAt (x : LinkSettings) (free : Nat) (before : Bool) : Bool :=
  if free < x.low then true else if x.high ≤ free then false else before

/-- The pending pool frame after the pool state has moved, by the table of R150; a frame waits only while the link is
UP. -/
def poolFrameAt (up before after : Bool) (frame : PoolFrame) : PoolFrame :=
  if before = after then frame
  else if after then (if frame = .resume then .none else if frame = .none ∧ up = true then .hold else frame)
  else if frame = .hold then .none else if frame = .none ∧ up = true then .resume else frame

namespace Link

/-- The link after blocks have returned to the free list and the pool state is judged (R149, R150). -/
def returned (up : Bool) (blocks : List (Fin 48)) (l : Link) : Link :=
  let low := poolLowAt l.settings (l.free.length + blocks.length) l.poolLow
  { l with free := l.free ++ blocks, poolLow := low, poolFrame := poolFrameAt up l.poolLow low l.poolFrame }

/-- The link after a counter has increased (R161). -/
def counted (k : Fin 12) (l : Link) : Link := { l with counters := l.counters.set k (satInc l.counters[k]) }

/-- The link after a frame being received has been discarded, with the receiver's next state (R148): its blocks are back,
its chunk buffers free. -/
def discarded (up : Bool) (k : Fin 12) (f : RxFrame) (next : Receiver) (l : Link) : Link :=
  returned up f.blocks { counted k l with
    receiver := next, buf := l.buf.map (fun x => if x.store = some .finishing then x else ⟨[], none⟩) }

/-- The link after a peer's slot has been given this content. -/
def withPeer (p : Fin 8) (x : Option Peer) (l : Link) : Link := { l with peer := l.peer.set p x }

/-- The link after a reply with this payload has been queued behind fewer than eight (R170). -/
def replied (tag : Word) (payload : List Byte) (l : Link) : Link := { l with replies := l.replies ++ [⟨tag, payload⟩] }

end Link

/-- The frame is finished, and none of its chunk stores is outstanding (R147). -/
def Chip.judging (c : Chip) (f : RxFrame) : Prop :=
  c.link.finishing = some f ∧ ∀ b : Fin 2, c.link.buf[b].store ≠ some .finishing

/-- The value of the frame's CRC field is the one computed (R143). -/
def RxFrame.crcOk (f : RxFrame) : Prop := Bytes.half f.crcField 0 = f.crc

/-- The peer in slot p holds the tag, and no lower slot does. -/
def Chip.joinedAs (c : Chip) (p : Fin 8) (tag : Word) (x : Peer) : Prop :=
  tag ≠ 0 ∧ c.link.peer[p] = some x ∧ x.tag = tag ∧ ∀ q < p, ∀ y, c.link.peer[q] = some y → y.tag ≠ tag

/-- No JOINED entry holds the tag, or it is 0 (R147 step 4). -/
def Chip.stranger (c : Chip) (tag : Word) : Prop := tag = 0 ∨ ∀ p : Fin 8, ∀ x, c.link.peer[p] = some x → x.tag ≠ tag

namespace Peer

/-- The peer after a frame has counted in its storm window (R156). -/
def stormed (rising : Nat) (x : Peer) : Peer :=
  { x with window := min 255 (x.window + 1), throttled := x.throttled || decide (rising < min 255 (x.window + 1)) }

/-- The peer after an accepted frame (R154). -/
def heard (now : Word) (x : Peer) : Peer := { x with lastHeard := now, silence := 0, accepted := x.accepted + 1 }

end Peer

/-! ### Turning ON and leaving ON -/

/-- The entry that a reflex entry's shadow gives when the unit turns ON (R127). -/
def Chip.entryRead (c : Chip) (i : Fin 8) : ReflexEntry :=
  let r := ReflexRec.ofBytes (c.shadowBytes (.reflexEntry i))
  if r.valid then ⟨r, if r.enable = 1 then .armed else .disabled, 0⟩ else ReflexEntry.reset

/-- The chip with the reflex unit ON and the entries of its shadows, before they are judged (R127). -/
def Chip.woken (c : Chip) : Chip :=
  { c with
    control := { c.control with block := c.control.block.set .reflex .on }, reflex := ⟨Vector.ofFn c.entryRead⟩ }

/-- The reflex unit has turned ON: its entries are those of the shadows and have been judged at once; the last clause is
the case in which one entry fires and no other is enabled (R127, R114, R117). -/
def EntriesWoken (c d : Chip) : Prop :=
  KeptBut [.control, .ring, .attention, .path, .motor, .reflex, .sound, .link, .mem, .shadow] c d
  ∧ (∀ i : Fin 8, d.reflex.entry[i].record = (c.entryRead i).record)
  ∧ (∀ i : Fin 8, (c.entryRead i).state = .armed → c.woken.condition (c.entryRead i).record = true →
      (c.entryRead i).record.hold = 0 → d.reflex.entry[i].fires ≠ 0)
  ∧ (c.woken.noneFires → KeptBut [.control, .path, .reflex, .mem, .shadow] c d
      ∧ ∀ i : Fin 8, d.reflex.entry[i] = { c.entryRead i with state := c.woken.judgedState (c.entryRead i) })
  ∧ ∀ i : Fin 8, (c.entryRead i).state = .armed → c.woken.condition (c.entryRead i).record = true →
      (c.entryRead i).record.hold = 0 → (∀ k, k ≠ i → (c.entryRead k).state = .disabled) →
      Fired i (c.entryRead i).record 1 c.woken d

/-- Unit u has turned ON from c: its reset values, with the settings of its shadows and the levels of its lines (R28;
R43, R45, R46, R53, R95, R101, R127, R141, R142, R160); a last latch result that it got while OFF is 0 again and its
record has joined the publication list (log 36). -/
def TurnedOn (u : BlockUnit) (c d : Chip) : Prop :=
  d.control.block.get u = .on ∧ .status ∈ d.path.pubs
  ∧ match u with
    | .motor => KeptBut [.control, .path, .motor, .mem, .shadow] c d
        ∧ d.motor.windowEnd = nextMultiple 100 c.control.ms
        ∧ ∀ m : Fin 4, let r := MotorSlot.ofBytes (c.shadowBytes (.motorSlot m));
            d.motor.ch[m] = { Channel.reset with
              settings := if r.settingsOk then r.settings else {}, levels := some c.pins.encoder[m] }
            ∧ (c.motor.ch[m].latchResult ≠ .ok → .motorStatus m ∈ d.path.pubs)
    | .sense => KeptBut [.control, .path, .sense, .mem, .shadow] c d
        ∧ (c.sense.latchResult ≠ .ok → .scanStatus ∈ d.path.pubs)
        ∧ (let r := ScanRec.ofBytes (c.shadowBytes .scanProgram);
            d.sense = { Sense.reset with stored := if r.valid then r.program else {}, settings := d.sense.settings })
        ∧ ∀ ch : Fin 8, let r := ChannelRec.ofBytes (c.shadowBytes (.channelSettings ch));
            d.sense.settings[ch] = if r.valid then r.settings else {}
    | .input => KeptBut [.control, .path, .input, .ring, .attention, .mem, .shadow] c d
        ∧ ∀ n : Fin 11, let r := InputRec.ofBytes (c.shadowBytes (.inputSettings n));
            let x : InputSettings := if r.valid then r.settings else {};
            d.input.line[n] = (if (c.pins.input[n] == x.activeHigh) = false then ⟨false, none, x⟩
              else if x.debounce = 0 then ⟨true, none, x⟩ else ⟨false, some c.control.ms, x⟩)
    | .sound => KeptBut [.control, .path, .sound, .mem, .shadow] c d ∧ d.sound = Sound.reset
        ∧ (c.sound.latchResult ≠ .ok → .soundStatus ∈ d.path.pubs)
    | .link => KeptBut [.control, .path, .link, .mem, .shadow] c d
        ∧ (c.pins.linkReady = true → .linkStatus ∈ d.path.pubs)
        ∧ (∀ k : Fin 4, c.link.out[k].latchResult ≠ .ok → .outStatus k ∈ d.path.pubs)
        ∧ let r := LinkRec.ofBytes (c.shadowBytes .linkSettings);
          d.link = { Link.reset with
            settings := if r.valid then r.settings else {}, stormEnd := nextMultiple 50 c.control.ms,
            lastFrame := c.link.lastFrame }
    | .reflex => EntriesWoken c d

/-- An append for each index that a test picks, in order. -/
def appendEach {n : Nat} (picks : Fin n → Bool) (kind : EventKind) (code : Code) (c : Chip) : Chip :=
  ((List.finRange n).filter picks).foldl (fun x k => x.append kind (Bytes.ofNat k.val) code.byte) c

/-- A peer's motors are released in order, with PEER_GONE, and then its PEER_LEAVE is appended, in ring and attention flags
alone (R155, R160); motors and claims are those of c. -/
def Chip.peerGoneOff (c : Chip) (x : Chip) (p : Fin 8) : Chip :=
  let mine := (List.finRange 4).filter (fun m => c.on .motor && c.motor.ch[m].owner == .link p)
  (mine.foldl (fun x m =>
    (if c.motor.ch[m].mode.running then x.append .runDone (Bytes.ofNat m.val) Code.peerGone.byte else x).append
      .claimLost (Bytes.ofNat m.val) Code.peerGone.byte) x).append .peerLeave (Bytes.ofNat p.val) Code.off.byte

/-- The events and causes of unit u's leaving ON, and the motors that the link's leaving frees (R53, R71, R141, R160). -/
def LeftOn (u : BlockUnit) (c d : Chip) : Prop :=
  match u with
  | .motor =>
    let told := appendEach (fun m : Fin 4 => c.motor.ch[m].owner != .none) .claimLost .off
      (appendEach (fun m : Fin 4 => c.motor.ch[m].mode.running) .runDone .off c)
    d.ring = told.ring ∧ d.attention = told.attention
  | .sound =>
    (c.sound.voice = .silent → d.ring = c.ring ∧ d.attention = c.attention)
    ∧ (c.sound.voice ≠ .silent →
        d.ring = (c.append .soundEnd c.sound.voice.source.endIndex Code.off.byte).ring
        ∧ d.attention.pending[Cause.sound.idx] = true)
  | .link =>
    d.ring = (((List.finRange 8).filter (fun p => c.link.peer[p].isSome)).foldl c.peerGoneOff c).ring
    ∧ (∀ p : Fin 8, c.link.peer[p] ≠ none → d.attention.pending[Cause.peer.idx] = true)
    ∧ (∀ k : Fin 4, c.link.out[k].state = .queued ∨ c.link.out[k].state = .sending →
        d.attention.pending[Cause.send.idx] = true)
    ∧ (∀ k : Cause, k ∉ [Cause.peer, .send, .event] → d.attention.pending[k.idx] = c.attention.pending[k.idx])
    ∧ (∀ (m : Fin 4) (p : Fin 8), c.on .motor = true → c.motor.ch[m].owner = .link p → c.link.peer[p] ≠ none →
        d.motor.ch[m].owner = .none ∧ d.motor.ch[m].deadline = none ∧ d.motor.ch[m].mode = .coast
        ∧ d.motor.ch[m].stage = .coast)
    ∧ (∀ m : Fin 4, (∀ p : Fin 8, c.motor.ch[m].owner = .link p → c.on .motor = false ∨ c.link.peer[p] = none) →
        d.motor.ch[m] = c.motor.ch[m])
  | .sense | .input | .reflex => d.ring = c.ring ∧ d.attention = c.attention

/-- The words of a WRITE of these bytes, every byte enabled. -/
def fullWords (bs : List Byte) : List (Word × BitVec 4) := (Chip.wordsOf bs).map (fun w => (w, BitVec.allOnes 4))

end Sys2Proof.Machine
end

