-- ==== Sys2Proof/Certificates/Slice0/Obligations.lean ====
section
/-! DEFINITION. The statements for the provers, chapter by chapter. Premises `Chip.inv`, `Chip.unwatched` and `Chip.ready`,
the frames and the words for what an effect leaves stand in Sys2Proof/Safety.lean. -/

section
open Sys2Proof Sys2Proof.Machine

/-- A step runs the command at the front of the queue. For every command i and every state, a step of the state with i put
at the front of its queue is exec of i on the state with the rest of the queue. The queue is the model's own (log 2). -/
def Obligations.StepRunsFrontCommand : Prop :=
  ∀ (i : Instr) (s : State), step { s with pending := i :: s.pending } = exec i s

/-- A step with an empty queue runs the first event that is due, or lets one millisecond pass. With no command waiting
(the model's choice, logs 2 to 4): when the list of the part's own due events is not empty, the step is exec of its
first; when it is empty and RESET is not asserted, the millisecond counter increases by 1, the elapsed time of the
quiet timer by 1 up to 10000 unless PRST is held from power-on, each peer's silence by 1 up to 255000 ms, each due
subscription's lateness by 1 up to 1000, the output of a tone of 50 to 8000 Hz is its square wave's level at the new
time, and nothing else changes; while RESET is asserted nothing changes. The wave is 128 plus 127 v / 100 in the first
half of its period and 128 minus it in the second, from the tone's acceptance, for a period that is the nearest number
of microseconds (either neighbour half way between two, log 22). So that no millisecond passes within them, the 50 us
of a stage that stopped driving and the 20 us of ATTN end first (log 3): they do not run when no event is due. -/
def Obligations.IdleStep : Prop :=
  ∀ s : State, s.pending = [] →
    (∀ i rest, s.hw.dueEvents = i :: rest → step s = exec i s)
    ∧ (s.hw.dueEvents = [] → s.hw.pins.resetAsserted = true → step s = .next s)
    ∧ (s.hw.dueEvents = [] → s.hw.pins.resetAsserted = false → ∃ t, step s = .next t ∧ t.pending = []
        ∧ t.hw.control = { s.hw.control with ms := s.hw.control.ms + 1 }
        ∧ t.hw.path = { s.hw.path with quietElapsed :=
            if s.hw.control.gen = .holding then s.hw.path.quietElapsed else min 10000 (s.hw.path.quietElapsed + 1) }
        ∧ (∀ p : Fin 8, t.hw.link.peer[p]
            = s.hw.link.peer[p].map (fun x => { x with silence := min 255000 (x.silence + 1) }))
        ∧ (∀ k : Fin 4, t.hw.link.sub[k]
            = s.hw.link.sub[k].map (fun x => if x.due then { x with lateness := min 1000 (x.lateness + 1) } else x))
        ∧ t.hw.link = { s.hw.link with peer := t.hw.link.peer, sub := t.hw.link.sub }
        ∧ t.hw.sound = { s.hw.sound with output := t.hw.sound.output }
        ∧ ((∀ q f v x y, s.hw.sound.voice ≠ .tone q f v x y) → t.hw.sound = s.hw.sound)
        ∧ (∀ q f v x y, s.hw.sound.voice = .tone q f v x y → 50 ≤ f → f ≤ 8000 →
            ∃ period : Nat, 2 * period * f ≤ 2000000 + f ∧ 2000000 ≤ 2 * period * f + f
              ∧ t.hw.sound.output = BitVec.ofNat 8
                (if 1000 * (s.hw.control.ms + 1 - x).toNat % period < period / 2 then 128 + 127 * v / 100
                  else 128 - 127 * v / 100))
        ∧ KeptBut [.control, .path, .sound, .link] s.hw t.hw)
    ∧ (s.hw.dueEvents = [] → s.hw.attention.gap = false
        ∧ (s.hw.on .motor = true → ∀ m : Fin 4, s.hw.motor.ch[m].gap = false))

/-- The invariant and the structure of the link and of block resets hold right after reset. In State.reset memory and
shadows are in canonical form, the publication list holds no record twice, the arbiter count is at most 4, the elapsed
quiet time at most 10000, the ring holds at most 32 entries, at most eight replies wait, and the ATTN line is low or
its published cause is pending and enabled. Every pool block has exactly one holder; the link state is not UP, the
receiver is in HUNT, no finished frame waits and no peer is JOINED; no subscription is ACTIVE without its peer; the
drivers are within the driver limit; no motor is owned by a tablet that is not a JOINED driver; no record is
outstanding of a unit that is not RESETTING. -/
def Obligations.InvariantHoldsAtReset : Prop :=
  State.reset.hw.inv = true ∧ State.reset.hw.Structured ∧ State.reset.hw.linkUp = false

/-- Every step keeps the invariant of memory, path, ring, replies and ATTN, and the structure of pool, peers,
subscriptions, claims and resets. For every state that has the invariant (canonical memory and shadows, no record
twice on the publication list, arbiter count at most 4, elapsed quiet time at most 10000, at most 32 ring entries, at
most eight waiting replies, ATTN high only while its published cause is pending and enabled): if a step answers a next
state, that state has it too. And for every state that has the structure, so does that next state: every pool block
has exactly one holder among the free list, the frame being received, the finished frame and the descriptors; while
the link state is not UP the receiver is in HUNT, no finished frame waits and no peer is JOINED; the tags of JOINED
peers are not 0 and differ; a subscription belongs to a JOINED peer by slot and tag, and a peer has at most one; there
are no more drivers than the driver limit; a motor that a tablet owns is of a motor unit that is ON, and the tablet is
JOINED as DRIVER; an outstanding record belongs to a unit that is RESETTING. A step here is a command from the queue,
an event of the part, or a millisecond. -/
def Obligations.InvariantKeptByEveryStep : Prop :=
  ∀ s t : State, step s = .next t →
    (s.hw.inv = true → t.hw.inv = true) ∧ (s.hw.Structured → t.hw.Structured)

/-- POWER_ON puts every unit in its power-on state and asserts PRST. POWER_ON answers a next state in which: RESET is
asserted and the other lines are as before (the model's choice, log 10); memory is unchanged, also with a WRITE in
flight (the model's reading, log 13); the restart generator is HOLDING (PRST asserted), every unit is OFF with its
enable 0, nothing is outstanding, the quiet period is 2000, the last latch result is 0xFFFF with OK and the counts and
the last restart time of the status record are 0; no transaction waits or is in flight, the part request queues and
the publication list are empty, the arbiter count is 0 and PROC_QUIET is false; the event ring is empty with head 0,
next sequence 0, no overflow and no event lost; no attention cause is pending or enabled and ATTN is low; every motor
has no owner, no deadline, mode and stage COAST, count, speed and last direction cleared, stall state NORMAL and the
default settings; the scan is STOPPED at position 0 with scan count 0 and the default programs, every slot is EMPTY
and every channel has the default settings; every input is INACTIVE with its timer idle, the default settings and last
change time 0; every reflex entry is DISABLED with no fire; the voice is silent at output 128 with underrun count and
end code 0; no peer, no subscription and no descriptor is held, the inbound order, the reply queue, the alarm set and
the outbound order are empty, every outbound slot is FREE, the free list holds the blocks 0 to 47 in order, the pool
is NORMAL with no frame pending, the receiver is in HUNT, nothing is sent and the counters are 0; every processor
record's shadow holds its default contents. It gives a millisecond counter of 0 (model's choice, log 9). -/
def Obligations.PowerOnState : Prop :=
  ∀ s : State, Answers .powerOn s fun d =>
    d.pins = { s.hw.pins with resetAsserted := true } ∧ d.mem = s.hw.mem
    ∧ d.control = {
        ms := 0, gen := .holding, block := PerUnit.const .off, enable := PerUnit.const false,
        outstanding := [], quietPeriod := 2000, latchOffset := 0xFFFF, latchCode := .ok, guardRefusals := 0,
        badTransactions := 0, restarts := 0, mergedRestarts := 0, lastRestart := 0 }
    ∧ d.path.upstream = none ∧ d.path.port = none ∧ d.path.parts = [] ∧ d.path.pubs = [] ∧ d.path.count = 0
    ∧ d.path.procQuiet = false
    ∧ d.ring.held = 0 ∧ d.ring.head = 0 ∧ d.ring.nextSeq = 0 ∧ d.ring.overflow = false ∧ d.ring.lostPending = 0
    ∧ d.ring.lostTotal = 0
    ∧ (∀ k : Fin 10, d.attention.pending[k] = false ∧ d.attention.enabled[k] = false) ∧ d.attention.line = false
    ∧ d.attention.lastFall = none
    ∧ (∀ m : Fin 4, d.motor.ch[m].owner = .none ∧ d.motor.ch[m].deadline = none ∧ d.motor.ch[m].mode = .coast
        ∧ d.motor.ch[m].stage = .coast ∧ d.motor.ch[m].count = 0 ∧ d.motor.ch[m].stall = .normal
        ∧ d.motor.ch[m].speed = 0 ∧ d.motor.ch[m].lastDir = none ∧ d.motor.ch[m].settings = ⟨16, 300, 500⟩
        ∧ d.motor.ch[m].latchResult = .ok)
    ∧ d.sense.scan = .stopped ∧ d.sense.position = 0 ∧ d.sense.scanCount = 0 ∧ d.sense.lastEnd = 0
    ∧ d.sense.stored = ⟨0, 7, .single, 0⟩ ∧ d.sense.active = ⟨0, 7, .single, 0⟩ ∧ d.sense.latchResult = .ok
    ∧ (∀ ch : Fin 8, d.sense.slots[ch] = ⟨0, .empty, false, 0, false, false, 0, 0, 0⟩
        ∧ d.sense.settings[ch] = ⟨false, false, false, false, 0, 4095⟩)
    ∧ (∀ n : Fin 11, d.input.line[n] = ⟨false, none, ⟨5, false, .none⟩⟩) ∧ d.input.lastChange = 0
    ∧ (∀ i : Fin 8, d.reflex.entry[i].state = .disabled ∧ d.reflex.entry[i].fires = 0)
    ∧ d.sound = { voice := .silent, output := 128, underruns := 0, lastEnd := .ok, latchResult := .ok }
    ∧ (∀ p : Fin 8, d.link.peer[p] = none) ∧ (∀ k : Fin 4, d.link.sub[k] = none) ∧ (∀ k : Fin 16, d.link.desc[k] = none)
    ∧ (∀ k : Fin 4, d.link.out[k].state = .free) ∧ d.link.order = [] ∧ d.link.replies = [] ∧ d.link.alarms = []
    ∧ d.link.outOrder = [] ∧ d.link.free = List.finRange 48 ∧ d.link.poolLow = false ∧ d.link.poolFrame = .none
    ∧ d.link.receiver = .hunt ∧ d.link.finishing = none ∧ d.link.tx = none ∧ d.link.txSeq = 0
    ∧ (∀ k : Fin 12, d.link.counters[k] = 0)
    ∧ (∀ r : RecId, r.isPart = false → d.shadowBytes r = r.defaultBytes)

/-- RESET_RELEASE puts the first write on the port; each INIT_WRITE_DONE stores its images, and the last releases PRST.
When RESET is asserted, RESET_RELEASE releases it, sets the millisecond counter to 0 and puts the first window
initialisation write in flight on the downstream port; nothing else changes. When RESET is not asserted, nothing
changes (the model's choice, log 8). With the k-th window initialisation write in flight and memory in canonical form,
INIT_WRITE_DONE stores the bytes of the window's image at the write's offset and leaves every other byte of memory as
it was. Unless it is the last write, the next one is then in flight and nothing else changes. After the last one the
port is free, the restart generator is IDLE (PRST released), the last-transaction time is the counter's value and the
elapsed quiet time is 0, and nothing else changes. A byte of the window's image is the byte of the record that covers
it. -/
def Obligations.InitialisationRuns : Prop :=
  (∀ s : State,
    (s.hw.pins.resetAsserted = true → Answers .resetRelease s fun d =>
      d.pins = { s.hw.pins with resetAsserted := false } ∧ d.control = { s.hw.control with ms := 0 }
      ∧ d.path = { s.hw.path with port := some (.init 0) } ∧ KeptBut [.pins, .control, .path] s.hw d)
    ∧ (s.hw.pins.resetAsserted = false → exec .resetRelease s = .next s))
  ∧ ((∀ (s : State) (k : Nat) (w : Nat × Nat), s.hw.mem.wf = true → s.hw.path.port = some (.init k) →
    Window.initWrites[k]? = some w → Answers .initWriteDone s fun d =>
      Stored (0xFF0000 + w.1) ((List.range w.2).map (fun i => imageByte s.hw (w.1 + i))) s.hw.mem d.mem
      ∧ (if k + 1 < Window.initWrites.length then
          d.path = { s.hw.path with port := some (.init (k + 1)) } ∧ KeptBut [.path, .mem] s.hw d
        else d.path = { s.hw.path with port := none, lastTime := s.hw.control.ms, quietElapsed := 0 }
          ∧ d.control = { s.hw.control with gen := .idle } ∧ KeptBut [.path, .mem, .control] s.hw d))
  ∧ (∀ (c : Chip) (r : RecId) (i : Nat), i < r.size →
      imageByte c (r.offset + i) = Bytes.get (recordBytes c r) i))

/-- The 41 initialisation writes give every record of the window its image and leave all other memory alone. From any
state with canonical memory in which the first initialisation write is in flight and which has 41 INIT_WRITE_DONE
commands waiting, 41 steps end in a next state in which PRST is released, the port is free, every byte of every record
of the service window map reads in memory as the record's value read at the start, and every byte that no record
covers, in the window or below it, reads as before. That the runs of records take 41 writes is read from the map of
section 1.2 (log 27); which record covers an offset is the model's window map. -/
def Obligations.InitialisationWritesEveryImage : Prop :=
  ∀ s : State, s.hw.mem.wf = true → s.hw.path.port = some (.init 0) →
    s.pending = List.replicate 41 .initWriteDone → ∃ t, Host.Core.run core 41 s = .next t
      ∧ t.hw.control.gen = .idle ∧ t.hw.path.port = none
      ∧ (∀ (r : RecId) (i : Nat), i < r.size →
          t.hw.mem.read (r.addr + i) = Bytes.get (recordBytes s.hw r) i)
      ∧ (∀ a, (∀ r : RecId, a < r.addr ∨ r.addr + r.size ≤ a) → t.hw.mem.read a = s.hw.mem.read a)

/-- PROCESSOR_TRANSACTION waits for the grant, or is answered FAULT at once when it would run past the end of the space.
For a well-formed transaction, with PRST released and no processor transaction held: when its last word lies within
0xFFFFFF it waits at the upstream port and nothing else changes. Otherwise, with no reflex entry watching, the
response is FAULT, the bad-transaction count increases (saturating), the status record joins the publication list, the
last-transaction time is the counter's value, the elapsed time is 0, PROC_QUIET is false, and nothing else changes. A
transaction is held while it waits, and while it is in flight unless a restart pulse discards its response; one that
arrives while a discarded one is still in flight is treated as any other. A term that is no transaction (start not on
a word boundary, or a count outside 1 to 16) is the model's fault notATransaction (log 11). While PRST is asserted or
a processor transaction is held, nothing changes (the model's choice, log 8). -/
def Obligations.TransactionArrives : Prop :=
  ∀ (s : State) (x : Transaction),
    (x.wellFormed = false → exec (.processorTransaction x) s = .fault .notATransaction)
    ∧ (x.wellFormed = true → s.hw.control.gen ≠ .idle ∨ s.hw.heldTransaction = true →
        exec (.processorTransaction x) s = .next s)
    ∧ (x.wellFormed = true → s.hw.control.gen = .idle → s.hw.heldTransaction = false →
        x.addr.toNat + 4 * x.count - 4 ≤ 0xFFFFFF → Answers (.processorTransaction x) s fun d =>
          d.path = { s.hw.path with upstream := some x } ∧ KeptBut [.path] s.hw d)
    ∧ (x.wellFormed = true → s.hw.control.gen = .idle → s.hw.heldTransaction = false → s.hw.unwatched = true →
        0xFFFFFF < x.addr.toNat + 4 * x.count - 4 → Answers (.processorTransaction x) s fun d =>
          d.path = (s.hw.path.join .status).served .fault s.hw.control.ms
          ∧ d.control = { s.hw.control with badTransactions := satInc s.hw.control.badTransactions }
          ∧ KeptBut [.path, .control] s.hw d)
    ∧ (s.hw.heldTransaction = true ↔
        s.hw.path.upstream ≠ none ∨ ∃ y, s.hw.path.port = some (.processor y false))

/-- ARBITER_GRANT gives a free port to the processor, to the oldest part request of the highest class, or to a
publication. While the port is busy nothing changes. On a free port: a waiting processor transaction that the guard
does not refuse is granted when no part request waits (the count is then 0) or the count is below 4 (it then increases
by 1); otherwise, or when no processor transaction waits, a waiting class 1 request is granted, the longest waiting
first, else the longest waiting class 2 request, else the head of the publication list, which leaves the list and
carries the record's value at this moment, and the count is 0; with nothing waiting the port stays free and the count
is 0. Nothing but the path changes. -/
def Obligations.ArbiterGrants : Prop :=
  ∀ s : State,
    (s.hw.path.port ≠ none → exec .arbiterGrant s = .next s)
    ∧ (s.hw.path.port = none →
      (∀ x, s.hw.path.upstream = some x → s.hw.refused x = false → s.hw.path.parts = [] → s.hw.path.pubs = [] →
        Answers .arbiterGrant s fun d =>
          d.path = { s.hw.path with upstream := none, port := some (.processor x false), count := 0 }
          ∧ KeptBut [.path] s.hw d)
      ∧ (∀ x, s.hw.path.upstream = some x → s.hw.refused x = false →
        s.hw.path.parts ≠ [] ∨ s.hw.path.pubs ≠ [] → s.hw.path.count < 4 → Answers .arbiterGrant s fun d =>
          d.path = { s.hw.path with
            upstream := none, port := some (.processor x false), count := s.hw.path.count + 1 }
          ∧ KeptBut [.path] s.hw d)
      ∧ (s.hw.path.upstream = none ∨ 4 ≤ s.hw.path.count →
        (∀ q older younger, s.hw.path.parts = older ++ q :: younger → q ∉ older → q.cls = 1 →
          (∀ p ∈ older, p.cls ≠ 1) → Answers .arbiterGrant s fun d =>
            d.path = { s.hw.path with parts := older ++ younger, port := some (.part q false), count := 0 }
            ∧ KeptBut [.path] s.hw d)
        ∧ (∀ q younger, s.hw.path.parts = q :: younger → (∀ p ∈ s.hw.path.parts, p.cls ≠ 1) →
          Answers .arbiterGrant s fun d =>
            d.path = { s.hw.path with parts := younger, port := some (.part q false), count := 0 }
            ∧ KeptBut [.path] s.hw d)
        ∧ (∀ r rest, s.hw.path.parts = [] → s.hw.path.pubs = r :: rest → Answers .arbiterGrant s fun d =>
            d.path = { s.hw.path with
              pubs := rest, port := some (.publication r (recordBytes s.hw r) false), count := 0 }
            ∧ KeptBut [.path] s.hw d))
      ∧ (s.hw.path.upstream = none → s.hw.path.parts = [] → s.hw.path.pubs = [] → Answers .arbiterGrant s fun d =>
          d.path = { s.hw.path with count := 0 } ∧ KeptBut [.path] s.hw d))

/-- The guard map, and ARBITER_GRANT of a WRITE that touches a guarded word: FAULT, and a part request gets the port. For
every word of a record of the window map: it is guarded exactly when the record is a part record, or its unit is
RESETTING, or it is an outbound header whose slot is QUEUED or SENDING. A word of an outbound body is guarded exactly
while its slot is QUEUED or SENDING, a word of a buffer pool block always; a word below the window, and one of free
window memory (of no record, body or block), never. So the control record is never guarded. On a free port, with no
reflex entry watching and ATTN consistent: a waiting WRITE that would be granted (no part request waits, or the count
is below 4) with any of its words guarded leaves memory and shadows as they are; the response is FAULT, no processor
transaction waits any more, the guard-refusal count increases (saturating), the GUARD cause is pending, the last-
transaction time is the counter's value with elapsed time 0 and PROC_QUIET false, a part request is in flight (at the
least the status record's publication waited), the count is 0, and beyond the path, the attention flags and that count
nothing changes. A READ is never refused. -/
def Obligations.GuardMapAndRefusal : Prop :=
  ((∀ (c : Chip) (r : RecId) (j : Nat), j < r.size → (c.wordGuarded (r.addr + j) = true ↔
      r.isPart = true ∨ (∃ u, r.unit? = some u ∧ c.control.block.get u = .resetting)
      ∨ (∃ k, r = .outHeader k ∧ (c.link.out[k].state = .queued ∨ c.link.out[k].state = .sending))))
  ∧ (∀ (c : Chip) (k : Fin 4) (j : Nat), j < 1024 → (c.wordGuarded (outBodyAddr k + j) = true ↔
      c.link.out[k].state = .queued ∨ c.link.out[k].state = .sending))
  ∧ (∀ (c : Chip) (b : Fin 48) (j : Nat), j < 128 → c.wordGuarded (blockAddr b + j) = true)
  ∧ (∀ (c : Chip) (a : Nat), a < 0xFF0000 → c.wordGuarded a = false)
  ∧ (∀ (c : Chip) (a : Nat), (∀ r : RecId, a < r.addr ∨ r.addr + r.size ≤ a) →
      (∀ k : Fin 4, a < outBodyAddr k ∨ outBodyAddr k + 1024 ≤ a) →
      (∀ b : Fin 48, a < blockAddr b ∨ blockAddr b + 128 ≤ a) → c.wordGuarded a = false)
  ∧ (∀ (c : Chip) (j : Nat), j < 64 → c.wordGuarded (RecId.control.addr + j) = false))
  ∧ ((∀ (s : State) (x : Transaction), s.hw.inv = true → s.hw.unwatched = true → s.hw.path.port = none →
    s.hw.path.upstream = some x → s.hw.refused x = true →
    s.hw.path.partWaiting = false ∨ s.hw.path.count < 4 → Answers .arbiterGrant s fun d =>
      d.control = { s.hw.control with guardRefusals := satInc s.hw.control.guardRefusals }
      ∧ d.attention = s.hw.attention.raised .guard
      ∧ d.path.response = some .fault ∧ d.path.upstream = none ∧ d.path.lastTime = s.hw.control.ms
      ∧ d.path.quietElapsed = 0 ∧ d.path.procQuiet = false ∧ d.path.count = 0
      ∧ ((∃ q, d.path.port = some (.part q false)) ∨ (∃ r data, d.path.port = some (.publication r data false)))
      ∧ KeptBut [.control, .attention, .path] s.hw d)
  ∧ (∀ (c : Chip) (a : Addr) (words : List (Word × BitVec 4)), c.refused ⟨a, .write words⟩ = true ↔
      ∃ k, k < words.length ∧ c.wordGuarded (a.toNat + 4 * k) = true)
  ∧ (∀ (c : Chip) (a : Addr) (n : Nat), c.refused ⟨a, .read n⟩ = false))

/-- PROCESSOR_WRITE stores its enabled bytes, in memory and shadows, and then takes its latch words in ascending order.
For a processor WRITE in flight that lies within the address space and includes no latch word, with the invariant and
no reflex entry watching: every byte it enables reads in memory as its data and every other byte as before; the shadow
of every processor record follows at the same offsets and every other shadow byte is as before; the port is free, the
response is DONE unless a restart pulse has discarded it, the last-transaction time is the counter's value, the
elapsed time 0 and PROC_QUIET false; nothing else changes. A WRITE in flight that covers the latch words of any number
of processor records, with the invariant: its bytes are stored and its response given in the same way, then the owner
of each of those records, in ascending order of their offsets, takes the record's whole shadow, and last the quiet
timer restarts. -/
def Obligations.ProcessorWriteCompletes : Prop :=
  (∀ (s : State) (a : Addr) (words : List (Word × BitVec 4)) (discarded : Bool), s.hw.inv = true → s.hw.unwatched = true →
    s.hw.path.port = some (.processor ⟨a, .write words⟩ discarded) → a.toNat + 4 * words.length ≤ 0x1000000 →
    (Chip.windowWords ⟨a, .write words⟩).filterMap Window.latchAt = [] → Answers .processorWrite s fun d =>
      (∀ k, d.mem.read k = (writtenByte words a.toNat k).getD (s.hw.mem.read k))
      ∧ (∀ o, d.shadow.read o = (if inProcessorRecord o then writtenByte words a.toNat (0xFF0000 + o) else none).getD
          (s.hw.shadow.read o))
      ∧ d.path = { s.hw.path with
          port := none, lastTime := s.hw.control.ms, quietElapsed := 0, procQuiet := false,
          response := if discarded then s.hw.path.response else some (.done []) }
      ∧ KeptBut [.path, .mem, .shadow] s.hw d)
  ∧ (∀ (s : State) (a : Addr) (words : List (Word × BitVec 4)) (discarded : Bool), s.hw.inv = true →
    s.hw.path.port = some (.processor ⟨a, .write words⟩ discarded) → a.toNat + 4 * words.length ≤ 0x1000000 →
    a.toNat % 4 = 0 → Answers .processorWrite s fun d => ∃ (records : List RecId) (b : Chip),
      (∀ r, r ∈ records ↔ r.isPart = false ∧ a.toNat ≤ r.addr + r.size - 4
        ∧ r.addr + r.size - 4 < a.toNat + 4 * words.length)
      ∧ records.Pairwise (fun x y => x.offset < y.offset)
      ∧ (∀ k, b.mem.read k = (writtenByte words a.toNat k).getD (s.hw.mem.read k))
      ∧ (∀ o, b.shadow.read o = (if inProcessorRecord o then writtenByte words a.toNat (0xFF0000 + o) else none).getD
          (s.hw.shadow.read o))
      ∧ b.path = { s.hw.path with
          port := none, response := if discarded then s.hw.path.response else some (.done []) }
      ∧ KeptBut [.path, .mem, .shadow] s.hw b
      ∧ d = Chip.touch (records.foldl (fun c r => c.takeLatch r) b))

/-- Every latch row stores its record in memory and shadow, answers DONE and restarts the quiet timer. For every command
that stands for the latch of a processor record (log 5) with PRST not held from power-on and the invariant: it answers
a next state in which the record's bytes stand in memory and every other byte of memory reads as before; the record's
shadow holds the same bytes, and unless the record is the control record (whose latch may reset units) every other
shadow byte is as before; the last-transaction time is the counter's value, the elapsed time 0 and PROC_QUIET false;
the response is DONE, or stays as it was during a restart pulse; the lines are as before. While PRST is held from
power-on such a command changes nothing (the model's choice, log 8). -/
def Obligations.LatchRowStores : Prop :=
  ∀ (i : Instr) (r : RecId) (bs : List Byte) (s : State), rowRecord i = some (r, bs) →
    (s.hw.control.gen = .holding → exec i s = .next s)
    ∧ (s.hw.control.gen ≠ .holding → s.hw.inv = true → Answers i s fun d =>
        Stored r.addr bs s.hw.mem d.mem ∧ d.shadowBytes r = bs
        ∧ (r ≠ .control → Stored r.offset bs s.hw.shadow d.shadow)
        ∧ d.path.lastTime = s.hw.control.ms ∧ d.path.quietElapsed = 0 ∧ d.path.procQuiet = false
        ∧ d.path.response = (if s.hw.control.gen = .idle then some (.done []) else s.hw.path.response)
        ∧ d.pins = s.hw.pins)

/-- A latch row is the completion of the burst WRITE of its whole record. For every command that stands for the latch of a
processor record (log 5), and every state with the invariant, PRST not held from power-on, in which a processor WRITE
of that whole record with its latch word and every byte enabled is in flight, its response discarded exactly when a
restart pulse runs: PROCESSOR_WRITE gives what the command gives on the same state with the port free. So the shadow's
bytes mean the record's fields and command, and the owner takes them as one request. -/
def Obligations.LatchRowIsItsWrite : Prop :=
  ∀ (i : Instr) (r : RecId) (bs : List Byte) (s : State), rowRecord i = some (r, bs) → s.hw.inv = true →
    s.hw.control.gen ≠ .holding →
    s.hw.path.port = some (.processor ⟨BitVec.ofNat 24 r.addr, .write (fullWords bs)⟩ s.hw.prst) →
    exec .processorWrite s = exec i { s with hw := { s.hw with path := { s.hw.path with port := none } } }

/-- PROCESSOR_READ answers from memory, and a consuming row is the READ it stands for. For a processor READ of n words in
flight, with no reflex entry watching, that covers no consuming word or whose response a restart pulse has discarded:
the port is free, the response is DONE with the n words that memory holds at its address (or stays as it was where it
is discarded), the last-transaction time is the counter's value, the elapsed time 0 and PROC_QUIET false; nothing else
changes. That a discarded READ restarts the quiet timer too is the model's reading (log 29). A READ that is not
discarded and covers any number of consuming words is answered in the same way, then each of those words, with the
bytes that memory held, is reported to its owner in ascending order of offset, and last the quiet timer restarts. The
consuming words are word 0 of the attention record, word 1 of a ring entry and word 0 of a sample slot. In every state
in which PRST is not held from power-on and a processor READ of the whole attention record, of a whole event ring
entry or of a whole sample slot is in flight, its response discarded exactly when a restart pulse runs, PROCESSOR_READ
gives what ATTENTION_TAKE, EVENT_POP of that entry or SAMPLE_CONSUME of that channel gives on the same state with the
port free (log 7). -/
def Obligations.ProcessorReadAnswered : Prop :=
  ((∀ (s : State) (a : Addr) (n : Nat) (discarded : Bool), s.hw.unwatched = true →
    s.hw.path.port = some (.processor ⟨a, .read n⟩ discarded) →
    discarded = true ∨ (Chip.windowWords ⟨a, .read n⟩).filterMap Window.consumingAt = [] →
    Answers .processorRead s fun d =>
      d.path = { s.hw.path with
          port := none, lastTime := s.hw.control.ms, quietElapsed := 0, procQuiet := false,
          response := if discarded then s.hw.path.response
            else some (.done (Chip.wordsOf (s.hw.mem.bytes (4 * n) a.toNat))) }
      ∧ KeptBut [.path] s.hw d)
  ∧ (∀ (s : State) (a : Addr) (n : Nat), s.hw.path.port = some (.processor ⟨a, .read n⟩ false) →
    Answers .processorRead s fun d => ∃ b : Chip,
      b.path = { s.hw.path with
        port := none, response := some (.done (Chip.wordsOf (s.hw.mem.bytes (4 * n) a.toNat))) }
      ∧ KeptBut [.path] s.hw b
      ∧ d = Chip.touch ((Chip.windowWords ⟨a, .read n⟩).foldl (fun c o =>
          match Window.consumingAt o with
          | some x => c.reportConsuming x (s.hw.mem.bytes 4 (0xFF0000 + o))
          | none => c) b))
  ∧ (∀ x : Transaction, (Chip.windowWords x).Pairwise (· < ·))
  ∧ (∀ o : Nat, (Window.consumingAt o = some .attention ↔ o = 0x40)
      ∧ (∀ i : Fin 32, Window.consumingAt o = some (.ringEntry i) ↔ o = 0x104 + 8 * i.val)
      ∧ (∀ ch : Fin 8, Window.consumingAt o = some (.sampleSlot ch) ↔ o = 0x400 + 16 * ch.val)))
  ∧ (∀ (s : State), s.hw.control.gen ≠ .holding →
    (s.hw.path.port = some (.processor ⟨BitVec.ofNat 24 RecId.attention.addr, .read 8⟩ s.hw.prst) →
      exec .processorRead s = exec .attentionTake { s with hw := { s.hw with path := { s.hw.path with port := none } } })
    ∧ (∀ i, s.hw.path.port = some (.processor ⟨BitVec.ofNat 24 (RecId.ringEntry i).addr, .read 2⟩ s.hw.prst) →
      exec .processorRead s = exec (.eventPop i) { s with hw := { s.hw with path := { s.hw.path with port := none } } })
    ∧ (∀ ch, s.hw.path.port = some (.processor ⟨BitVec.ofNat 24 (RecId.sampleSlot ch).addr, .read 4⟩ s.hw.prst) →
      exec .processorRead s
        = exec (.sampleConsume ch) { s with hw := { s.hw with path := { s.hw.path with port := none } } }))

/-- PUBLICATION_DONE stores the value that its grant took, frees the port and reports to ring, inbound queue and ATTN. For
a publication in flight whose data has the record's length, with memory in canonical form: its bytes stand in memory
at the record's address and every other byte of memory reads as before. When the record is neither the attention
record, nor a ring entry, nor an inbound descriptor, and is not outstanding, the port is free and nothing else
changes. With such a publication in flight and its record not outstanding: for a ring slot that still holds the entry
published (the publication is not stale), that slot becomes PUBLISHED, the event ring status joins the publication
list exactly when the published count changes, and beyond ring, path and memory nothing changes; for an OCCUPIED
inbound descriptor (not stale), the descriptor is shown from then on, the inbound queue status joins the publication
list, and beyond link, path and memory nothing changes; for the attention record, its cause becomes the published
cause, and with that cause pending and enabled a low line rises at once when 20 us have passed since the last fall and
otherwise waits to rise, a high line stays; with it not so the line is low (falls are the model's choice, log 21);
beyond attention, path and memory nothing changes. -/
def Obligations.PublicationCompletes : Prop :=
  (∀ (s : State) (r : RecId) (data : List Byte) (stale : Bool), s.hw.mem.wf = true →
    s.hw.path.port = some (.publication r data stale) → data.length = r.size →
    (Answers .publicationDone s fun d => Stored r.addr data s.hw.mem d.mem)
    ∧ (r ≠ .attention → (∀ i, r ≠ .ringEntry i) → (∀ k, r ≠ .inboundDesc k) → r ∉ s.hw.control.outstanding →
        Answers .publicationDone s fun d =>
          d.path = { s.hw.path with port := none } ∧ KeptBut [.path, .mem] s.hw d))
  ∧ (∀ (s : State) (data : List Byte), s.hw.inv = true →
    (∀ i, .ringEntry i ∉ s.hw.control.outstanding → s.hw.path.port = some (.publication (.ringEntry i) data false) → s.hw.ring.holds i = true →
      Answers .publicationDone s fun d =>
        d.ring = { s.hw.ring with published := s.hw.ring.published.set i true }
        ∧ d.path = (if d.ring.publishedCount = s.hw.ring.publishedCount then { s.hw.path with port := none }
            else Path.join .ringStatus { s.hw.path with port := none })
        ∧ KeptBut [.ring, .path, .mem] s.hw d)
    ∧ (∀ k x, .inboundDesc k ∉ s.hw.control.outstanding →
      s.hw.path.port = some (.publication (.inboundDesc k) data false) → s.hw.link.desc[k] = some x →
      Answers .publicationDone s fun d =>
        d.link = { s.hw.link with desc := s.hw.link.desc.set k (some { x with shown := true }) }
        ∧ d.path = Path.join .inboundStatus { s.hw.path with port := none } ∧ KeptBut [.link, .path, .mem] s.hw d)
    ∧ (∀ stale, .attention ∉ s.hw.control.outstanding → s.hw.path.port = some (.publication .attention data stale) →
      Answers .publicationDone s fun d =>
        d.attention.published = causeOf (Bytes.get data 0).toNat
        ∧ d.attention.pending = s.hw.attention.pending ∧ d.attention.enabled = s.hw.attention.enabled
        ∧ (d.attention.publishedEligible = true → d.attention.line = (s.hw.attention.line || !s.hw.attention.gap)
            ∧ (s.hw.attention.line = false → s.hw.attention.gap = true → d.attention.riseWaiting = true))
        ∧ (d.attention.publishedEligible = false → d.attention.line = false
            ∧ (s.hw.attention.line = true → d.attention.lastFall = some s.hw.control.ms))
        ∧ d.path = { s.hw.path with port := none } ∧ KeptBut [.attention, .path, .mem] s.hw d))

/-- PUBLICATION_DONE of the last outstanding record of a unit ends its RESETTING. With a publication in flight that counts
(not stale) for an outstanding record r of a RESETTING unit u, memory in canonical form and no reflex entry watching:
r stops being outstanding. When another record of u is still outstanding, u stays RESETTING, and beyond memory, the
port and r's being outstanding nothing changes; when none is, u becomes ON where its enable as last applied is 1, with
the values that turning ON gives it (reset values, and the settings of the shadows, as UnitTurnsOn says), and OFF
where it is 0, and in the OFF case only the control state, the path (port free, status record joined) and memory
change. Where r is an inbound descriptor that is OCCUPIED, which a RESETTING link has none of, it is shown and the
inbound queue status joins too (before the status record, an order that is the model's choice, log 40). A publication
that was granted before the entry (stale) leaves the outstanding records as they are. -/
def Obligations.ResettingEnds : Prop :=
  ∀ (s : State) (r : RecId) (data : List Byte) (u : BlockUnit), s.hw.mem.wf = true → s.hw.unwatched = true →
    r.unit? = some u → r ∈ s.hw.control.outstanding → s.hw.control.block.get u = .resetting →
    let freed : Path := { s.hw.path with port := none };
    let told : Link × Path := match r with
      | .inboundDesc k => (match s.hw.link.desc[k] with
        | some x => ({ s.hw.link with desc := s.hw.link.desc.set k (some { x with shown := true }) },
            freed.join .inboundStatus)
        | none => (s.hw.link, freed))
      | _ => (s.hw.link, freed);
    (s.hw.path.port = some (.publication r data false) → Answers .publicationDone s fun d =>
      d.control.outstanding = s.hw.control.outstanding.filter (fun q => q != r)
      ∧ d.control.block.get u = (if (∃ q ∈ s.hw.control.outstanding, q ≠ r ∧ q.unit? = some u) then .resetting
          else if s.hw.control.enable.get u then .on else .off)
      ∧ ((∃ q ∈ s.hw.control.outstanding, q ≠ r ∧ q.unit? = some u) →
          d.control = { s.hw.control with outstanding := d.control.outstanding } ∧ d.link = told.1 ∧ d.path = told.2
          ∧ KeptBut [.control, .link, .path, .mem] s.hw d)
      ∧ ((∀ q ∈ s.hw.control.outstanding, q ≠ r → q.unit? ≠ some u) → s.hw.control.enable.get u = true →
          TurnedOn u s.hw d)
      ∧ ((∀ q ∈ s.hw.control.outstanding, q ≠ r → q.unit? ≠ some u) → s.hw.control.enable.get u = false →
          d.link = told.1 ∧ d.path = told.2.join .status ∧ KeptBut [.control, .link, .path, .mem] s.hw d))
    ∧ (s.hw.path.port = some (.publication r data true) → Answers .publicationDone s fun d =>
        d.control = s.hw.control)

/-- PROC_QUIET_EXPIRY and QUIET_PERIOD judge PROC_QUIET by the elapsed time and the period in force. With no reflex entry
watching: when PRST is not held from power-on, PROC_QUIET is false and the elapsed time is at least the quiet period,
PROC_QUIET_EXPIRY makes PROC_QUIET true and changes nothing else; in every other state it changes nothing. With the
reflex unit ON and watching entries of which none fires at once, the turn is handed to them: each is judged with
PROC_QUIET true and moves between ARMED, TIMING and FIRED by its condition. With PRST not held from power-on, the
invariant and no reflex entry watching: the word stands in memory and in the control record's shadow. A period from
100 to 10000 becomes the quiet period in force and PROC_QUIET is true exactly when the elapsed time is at least the
period; the elapsed time is not changed. Any other period is reported as BAD_ARG at offset 0 in the status record,
which joins the publication list, and nothing is taken. That the command is step 3 of R27 alone, storing its own word,
reporting no OK and setting no transaction time, is the model's choice (log 6). -/
def Obligations.QuietTimerJudged : Prop :=
  ((∀ s : State, s.hw.unwatched = true →
    if s.hw.control.gen ≠ .holding ∧ s.hw.path.procQuiet = false ∧ s.hw.control.quietPeriod ≤ s.hw.path.quietElapsed then
      Answers .procQuietExpiry s fun d =>
        d.path = { s.hw.path with procQuiet := true } ∧ KeptBut [.path] s.hw d
    else exec .procQuietExpiry s = .next s)
  ∧ (∀ s : State, s.hw.control.gen ≠ .holding → s.hw.path.procQuiet = false →
    s.hw.control.quietPeriod ≤ s.hw.path.quietElapsed → s.hw.on .reflex = true →
    let turned : Chip := { s.hw with path := { s.hw.path with procQuiet := true } };
    turned.noneFires → Answers .procQuietExpiry s (Chip.Rejudged turned)))
  ∧ (∀ (s : State) (p : Word), s.hw.control.gen ≠ .holding → s.hw.inv = true → s.hw.unwatched = true →
    Answers (.quietPeriod p) s fun d =>
      Stored 0xFF0014 (Bytes.ofWord p) s.hw.mem d.mem ∧ Stored 0x14 (Bytes.ofWord p) s.hw.shadow d.shadow
      ∧ (if 100 ≤ p.toNat ∧ p.toNat ≤ 10000 then
          d.control = { s.hw.control with quietPeriod := p.toNat }
          ∧ d.path = { s.hw.path with procQuiet := decide (p.toNat ≤ s.hw.path.quietElapsed) }
        else d.control = s.hw.control.reported 0 .badArg ∧ d.path = s.hw.path.join .status)
      ∧ KeptBut [.control, .path, .mem, .shadow] s.hw d)

/-- Every record has the bytes of its table: processor records are read back field by field, part records show the state.
For every value of every processor record with fields (control, motor slot, scan program, channel settings, input
settings, reflex entry, sound request, link settings, outbound header) and every command code of 32 bits: the bytes
that the record's table gives have the record's length, reading them gives the same fields, and the last word reads as
the code. The release word reads back as the word. For every state of the part, every record's value has the record's
length, and each part record shows the state at the offsets of its table, least significant byte first, every spare
byte 0: status (Table 2-2), motor status (3-1), scan status (5-2), sample slot (5-3), input state (6-2), ring entry
(6-3), ring status (6-5), reflex status (7-2), sound status (8-3), peer image (9-3), link status (9-5), subscription
image (10-2), inbound descriptor (10-3), inbound queue status (10-4), outbound status (10-5) and attention record
(11-1). The result and end codes are numbered as in 00_scope, the event kinds as in Table 6-4, the message kinds as in
Table 9-2, and the attention causes in their order. -/
def Obligations.RecordsRoundTrip : Prop :=
  (∀ (r : ControlRec) (n : Nat), n < 2 ^ 32 → (r.toBytes n).length = 64 ∧ ControlRec.ofBytes (r.toBytes n) = r
    ∧ (Bytes.word (r.toBytes n) 60).toNat = n)
  ∧ (∀ (r : MotorSlot) (n : Nat), n < 2 ^ 32 → (r.toBytes n).length = 32 ∧ MotorSlot.ofBytes (r.toBytes n) = r
    ∧ (Bytes.word (r.toBytes n) 28).toNat = n)
  ∧ (∀ (r : ScanRec) (n : Nat), n < 2 ^ 32 → (r.toBytes n).length = 16 ∧ ScanRec.ofBytes (r.toBytes n) = r
    ∧ (Bytes.word (r.toBytes n) 12).toNat = n)
  ∧ (∀ r : ChannelRec, r.toBytes.length = 16 ∧ ChannelRec.ofBytes r.toBytes = r)
  ∧ (∀ r : InputRec, r.toBytes.length = 4 ∧ InputRec.ofBytes r.toBytes = r)
  ∧ (∀ r : ReflexRec, r.toBytes.length = 32 ∧ ReflexRec.ofBytes r.toBytes = r)
  ∧ (∀ (r : SoundRec) (n : Nat), n < 2 ^ 32 → (r.toBytes n).length = 32 ∧ SoundRec.ofBytes (r.toBytes n) = r
    ∧ (Bytes.word (r.toBytes n) 28).toNat = n)
  ∧ (∀ r : LinkRec, r.toBytes.length = 32 ∧ LinkRec.ofBytes r.toBytes = r)
  ∧ (∀ (r : OutRec) (n : Nat), n < 2 ^ 32 → (r.toBytes n).length = 16 ∧ OutRec.ofBytes (r.toBytes n) = r
    ∧ (Bytes.word (r.toBytes n) 12).toNat = n)
  ∧ (∀ v : Word, Bytes.word (Bytes.ofWord v) 0 = v)
  ∧ ([Code.ok, .badArg, .refusedClaim, .stalled, .notDriver, .busy, .full, .locked, .driverFull, .off, .noPeer, .linkDown,
      .queueFull, .preempted, .ended, .starvedOut, .badDesc, .restart, .peerGone, .expired].map Code.num = List.range 20
    ∧ (∀ x : Code, x.byte = BitVec.ofNat 8 x.num ∧ x.half = BitVec.ofNat 16 x.num)
    ∧ [EventKind.input, .compare, .runDone, .stall, .claimLost, .reflex, .peerJoin, .peerLeave, .soundEnd, .lost].map
      EventKind.byte = [1, 2, 3, 4, 5, 6, 7, 8, 9, 10]
    ∧ [FrameKind.hello, .bye, .motor, .sense, .subscribe, .tone, .mail, .hold, .resume, .reply, .report, .alarm].map
      FrameKind.byte = [0x01, 0x02, 0x10, 0x11, 0x12, 0x13, 0x20, 0x30, 0x31, 0x40, 0x41, 0x42]
    ∧ [Cause.reflex, .stall, .claim, .peer, .mail, .event, .scan, .sound, .send, .guard].map Cause.idx = List.finRange 10)
  ∧ (∀ c : Chip,
    let byte := fun (r : RecId) (k : Nat) => Bytes.get (recordBytes c r) k;
    let half := fun (r : RecId) (k : Nat) => Bytes.half (recordBytes c r) k;
    let word := fun (r : RecId) (k : Nat) => Bytes.word (recordBytes c r) k;
    let spare := fun (r : RecId) (first n : Nat) => ∀ k < n, byte r (first + k) = 0;
    let flag := fun (b : Bool) => if b then (1 : Byte) else 0;
    let small := fun (n : Nat) => BitVec.ofNat 8 n;
    let kind := fun (o : Owner) => (match o with
      | .none => 0
      | .link _ => 1
      | .proc => 2
      | .reflex _ => 3 : Byte);
    let index := fun (o : Owner) => (match o with
      | .link p => BitVec.ofNat 8 p.val
      | .reflex i => BitVec.ofNat 8 i.val
      | .none => 0
      | .proc => 0 : Byte);
    (∀ r, (recordBytes c r).length = r.size)
    ∧ (half .status 0 = 0x0B4C ∧ half .status 2 = 1
      ∧ (∀ k : Fin 6, byte .status (4 + k.val) =
          (match c.control.block.get (BlockUnit.all[k.val]'k.isLt) with
            | .off => 0
            | .resetting => 1
            | .on => 2))
      ∧ spare .status 0x0A 2 ∧ half .status 0x0C = c.control.latchOffset
      ∧ half .status 0x0E = c.control.latchCode.half ∧ half .status 0x10 = c.control.guardRefusals
      ∧ half .status 0x12 = c.control.badTransactions ∧ half .status 0x14 = c.control.restarts
      ∧ half .status 0x16 = c.control.mergedRestarts ∧ word .status 0x18 = c.control.lastRestart ∧ spare .status 0x1C 4)
    ∧ (∀ m : Fin 4, let r := RecId.motorStatus m; let ch := c.motor.ch[m];
      byte r 0 = (match ch.stall with
        | .normal => 0
        | .stalled => 1
        | .cooling _ => 2)
      ∧ byte r 1 = (match ch.mode with
        | .coast => 0
        | .brake => 1
        | .drive _ => 2
        | .pulse _ _ _ => 3
        | .runTo _ _ _ _ => 4)
      ∧ byte r 2 = kind ch.owner ∧ byte r 3 = index ch.owner
      ∧ (byte r 4, half r 6) = (match ch.stage with
        | .coast => (0, 0)
        | .brake => (1, 0)
        | .forward d => (2, BitVec.ofNat 16 d)
        | .reverse d => (3, BitVec.ofInt 16 (-(d : Int))))
      ∧ byte r 5 = small ch.settings.pwm ∧ word r 8 = ch.count ∧ half r 0x0C = ch.speed
      ∧ half r 0x0E = ch.latchResult.half ∧ word r 0x10 = ch.deadline.getD 0
      ∧ half r 0x14 = BitVec.ofNat 16 ch.settings.threshold ∧ half r 0x16 = BitVec.ofNat 16 ch.settings.stallTime
      ∧ (byte r 0x18, word r 0x1C) = (match ch.mode with
        | .pulse _ t .coast => (0, t)
        | .pulse _ t .brake => (1, t)
        | .runTo _ t .coast _ => (0, t)
        | .runTo _ t .brake _ => (1, t)
        | .coast => (0, 0)
        | .brake => (0, 0)
        | .drive _ => (0, 0))
      ∧ spare r 0x19 3)
    ∧ (let r := RecId.scanStatus; let x := c.sense;
      byte r 0 = (match x.scan with
        | .stopped => 0
        | .converting => 1
        | .held _ _ => 2
        | .waiting _ => 3
        | .stepWait => 4)
      ∧ byte r 1 = (match x.active.mode with
        | .single => 0
        | .continuous => 1
        | .stepped => 2)
      ∧ byte r 2 = small x.active.first.val ∧ byte r 3 = small x.active.last.val ∧ byte r 4 = small x.position.val
      ∧ spare r 5 1 ∧ half r 6 = x.latchResult.half ∧ half r 8 = x.scanCount
      ∧ half r 0x0A = BitVec.ofNat 16 x.active.interval ∧ word r 0x0C = x.lastEnd)
    ∧ (∀ k : Fin 8, let r := RecId.sampleSlot k; let x := c.sense.slots[k];
      half r 0 = x.seq
      ∧ byte r 2 = (match x.state with
        | .empty => 0
        | .fresh => 1
        | .consumed => 2)
      ∧ byte r 3 = flag x.condition ∧ half r 4 = x.value ∧ byte r 6 = flag x.entered ∧ byte r 7 = flag x.side
      ∧ half r 8 = x.lost ∧ half r 0x0A = x.scanCount ∧ word r 0x0C = x.time)
    ∧ ((∀ n : Fin 11, byte .inputState n.val = flag c.input.line[n].stable) ∧ spare .inputState 0x0B 1
      ∧ word .inputState 0x0C = c.input.lastChange)
    ∧ (∀ i : Fin 32, let r := RecId.ringEntry i; let x := c.ring.slots[i];
      byte r 0 = x.kind ∧ byte r 1 = x.source ∧ byte r 2 = x.detail ∧ byte r 3 = x.seq ∧ word r 4 = x.time)
    ∧ (byte .ringStatus 0 = small c.ring.publishedCount ∧ byte .ringStatus 1 = small c.ring.head.val
      ∧ byte .ringStatus 2 = flag c.ring.overflow ∧ byte .ringStatus 3 = c.ring.lostPending
      ∧ half .ringStatus 4 = c.ring.lostTotal ∧ spare .ringStatus 6 10)
    ∧ (∀ i : Fin 8, byte .reflexStatus i.val = (match c.reflex.entry[i].state with
        | .disabled => 0
        | .armed => 1
        | .timing _ => 2
        | .fired => 3
        | .spent => 4)
      ∧ byte .reflexStatus (8 + i.val) = c.reflex.entry[i].fires)
    ∧ (let r := RecId.soundStatus; let x := c.sound;
      byte r 0 = (match x.voice with
        | .silent => 0
        | .tone _ _ _ _ _ => 1
        | .stream st => if st.starved = none then 2 else 3)
      ∧ byte r 1 = kind x.voice.source ∧ byte r 2 = index x.voice.source ∧ byte r 3 = kind x.voice.source
      ∧ half r 4 = x.latchResult.half ∧ half r 6 = x.lastEnd.half ∧ half r 8 = x.underruns ∧ spare r 0x0A 2
      ∧ (word r 0x0C, word r 0x10) = (match x.voice with
        | .silent => (0, 0)
        | .tone _ _ _ _ t => (0, t)
        | .stream st => (st.addr, 0))
      ∧ spare r 0x14 12)
    ∧ (∀ p : Fin 8, let r := RecId.peerImage p;
      (c.link.peer[p] = none → spare r 0 16)
      ∧ ∀ x, c.link.peer[p] = some x → byte r 0 = 1 ∧ byte r 1 = flag x.driver ∧ byte r 2 = flag x.throttled
        ∧ byte r 3 = flag x.held.isSome ∧ word r 4 = x.tag ∧ word r 8 = x.lastHeard ∧ half r 0x0C = x.accepted
        ∧ spare r 0x0E 2)
    ∧ (let r := RecId.linkStatus;
      byte r 0 = flag (c.on .link && c.pins.linkReady) ∧ byte r 1 = small c.link.peerCount
      ∧ byte r 2 = small c.link.driverCount ∧ spare r 3 1
      ∧ (∀ k : Fin 12, half r (4 + 2 * k.val) = c.link.counters[k]) ∧ spare r 0x1C 36)
    ∧ (∀ k : Fin 4, let r := RecId.subImage k;
      (c.link.sub[k] = none → spare r 0 16)
      ∧ ∀ x, c.link.sub[k] = some x → byte r 0 = 1 ∧ byte r 1 = small x.slot.val ∧ byte r 2 = x.mask ∧ spare r 3 1
        ∧ word r 4 = x.tag ∧ half r 8 = BitVec.ofNat 16 x.period ∧ half r 0x0A = x.begun ∧ word r 0x0C = x.dueTime)
    ∧ (∀ d : Fin 16, let r := RecId.inboundDesc d;
      (c.link.desc[d] = none → spare r 0 16 ∧ (∀ k : Fin 8, byte r (16 + k.val) = 0xFF) ∧ spare r 0x18 8)
      ∧ ∀ x, c.link.desc[d] = some x → byte r 0 = 1 ∧ byte r 1 = small x.slot.val ∧ byte r 2 = x.seq
        ∧ byte r 3 = small x.blocks.length ∧ word r 4 = x.tag ∧ half r 8 = x.length ∧ spare r 0x0A 2
        ∧ word r 0x0C = x.time
        ∧ (∀ k : Fin 8, byte r (16 + k.val) = (match x.blocks[k.val]? with
            | some b => small b.val
            | none => 0xFF))
        ∧ spare r 0x18 8)
    ∧ (let r := RecId.inboundStatus;
      let shown := c.link.order.filter (fun d => match c.link.desc[d] with
        | some x => x.shown
        | none => false);
      byte r 0 = small shown.length ∧ byte r 1 = small c.link.free.length ∧ byte r 2 = flag c.link.poolLow ∧ spare r 3 1
      ∧ (∀ k : Fin 16, byte r (4 + k.val) = (match shown[k.val]? with
          | some d => small d.val
          | none => 0xFF))
      ∧ byte r 0x14 = c.link.releaseIndex ∧ spare r 0x15 1 ∧ half r 0x16 = c.link.releaseResult.half ∧ spare r 0x18 8)
    ∧ (∀ k : Fin 4, let r := RecId.outStatus k; let x := c.link.out[k];
      byte r 0 = (match x.state with
        | .free => 0
        | .queued => 1
        | .sending => 2
        | .done => 3)
      ∧ byte r 1 = x.frameSeq ∧ half r 2 = x.latchResult.half ∧ half r 4 = x.doneResult.half ∧ spare r 6 2
      ∧ word r 8 = x.doneTime ∧ spare r 0x0C 4)
    ∧ (byte .attention 0 = (match c.attention.selected with
        | none => 0
        | some k => small (k.val + 1))
      ∧ spare .attention 1 3 ∧ (∀ k : Fin 10, byte .attention (4 + k.val) = flag c.attention.pending[k])
      ∧ spare .attention 0x0E 18))

/-- BLOCK_ENABLES applies every enable; a unit that leaves ON ends its work with OFF and has its records outstanding. With
PRST not held from power-on and the invariant, BLOCK_ENABLES answers a next state in which every unit's enable is the
one applied and every unit's block state is: ON where it was OFF and the enable is 1, RESETTING where it was ON and
the enable is 0, and unchanged otherwise; the six enable bytes stand in memory at the control record and no other byte
of memory is changed. Where no block state changes, the enables, those bytes and their shadow are all that changes.
That the command is step 1 of R27 alone, storing its own bytes, with no latch result and no transaction time, is the
model's choice (log 6). With PRST not held from power-on, the invariant and no reflex entry watching, a BLOCK_ENABLES
that clears the enable of an ON unit u and leaves every other block state as it is answers a next state in which u is
RESETTING; every record of u is outstanding and on the publication list, and so is the status record; the shadow of
every processor record of u holds its default contents and the record is guarded; the unit's own state is its reset
state (the link keeps lastFrame, the model's own field, log 23); and the state of every unit but u is as it was, the
motors apart that the link's reset releases: those of its peers are free and in COAST. On leaving ON the motor unit
appends RUN_DONE with OFF for each running PULSE and RUN_TO and then CLAIM_LOST with OFF for each claim (motors A to D
within each, log 26), with no cause but EVENT; the sound unit, unless SILENT, appends SOUND_END with OFF and raises
SOUND; the link unit removes each peer in slot order, appending RUN_DONE and CLAIM_LOST with PEER_GONE for its motors
and then PEER_LEAVE with OFF, raises PEER for a peer and SEND for a slot that was QUEUED or SENDING; the other units
append and raise nothing. -/
def Obligations.BlockEnablesAndResetting : Prop :=
  (∀ (s : State) (e : PerUnit Bool), s.hw.control.gen ≠ .holding → s.hw.inv = true →
    (Answers (.blockEnables e) s fun d =>
      (∀ u, d.control.enable.get u = e.get u ∧ d.control.block.get u =
        (if s.hw.control.block.get u = .off ∧ e.get u = true then .on
          else if s.hw.control.block.get u = .on ∧ e.get u = false then .resetting else s.hw.control.block.get u))
      ∧ Stored 0xFF0000 (BlockUnit.all.map (fun u => Bytes.ofBool (e.get u))) s.hw.mem d.mem)
    ∧ ((∀ u, s.hw.settled e u = true) → Answers (.blockEnables e) s fun d =>
        d.control = { s.hw.control with enable := e }
        ∧ Stored 0 (BlockUnit.all.map (fun u => Bytes.ofBool (e.get u))) s.hw.shadow d.shadow
        ∧ KeptBut [.control, .mem, .shadow] s.hw d))
  ∧ (∀ (s : State) (e : PerUnit Bool) (u : BlockUnit), s.hw.control.gen ≠ .holding → s.hw.inv = true →
    s.hw.unwatched = true → s.hw.control.block.get u = .on → e.get u = false →
    (∀ v, v ≠ u → s.hw.settled e v = true) → Answers (.blockEnables e) s fun d =>
      d.control.block.get u = .resetting ∧ .status ∈ d.path.pubs
      ∧ (∀ r : RecId, r.unit? = some u → r ∈ d.control.outstanding ∧ r ∈ d.path.pubs
          ∧ (r.isPart = false → d.shadowBytes r = r.defaultBytes) ∧ d.recordGuarded r = true)
      ∧ (u = .motor → d.motor = Motor.reset) ∧ (u = .sense → d.sense = Sense.reset)
      ∧ (u = .input → d.input = Inputs.reset) ∧ (u = .reflex → d.reflex = Reflex.reset)
      ∧ (u = .sound → d.sound = Sound.reset)
      ∧ (u = .link → d.link = { Link.reset with lastFrame := s.hw.link.lastFrame })
      ∧ LeftOn u s.hw d
      ∧ (u ≠ .motor → u ≠ .link → d.motor = s.hw.motor) ∧ (u ≠ .sense → d.sense = s.hw.sense)
      ∧ (u ≠ .input → d.input = s.hw.input) ∧ (u ≠ .reflex → d.reflex = s.hw.reflex)
      ∧ (u ≠ .sound → d.sound = s.hw.sound) ∧ (u ≠ .link → d.link = s.hw.link) ∧ d.pins = s.hw.pins)

/-- A unit whose enable is set turns ON from its reset values with the settings of its shadows. With PRST not held from
power-on, the invariant and no reflex entry watching, a BLOCK_ENABLES that sets the enable of an OFF unit u and leaves
every other block state as it is answers a next state in which u is ON and the status record is on the publication
list, and: each motor channel has its reset values with the settings of its slot's shadow where those lie in their
ranges (else the defaults) and the present encoder levels, and the speed window ends at the next multiple of 100; the
scan unit has its reset values with the stored program and channel settings of valid shadows; each input has the
settings of a valid shadow and, judged as at an edge, is INACTIVE with an idle timer where the raw level agrees, has
its timer running from now where it disagrees and debounce is on, and is ACTIVE where it disagrees and debounce is
off; the sound unit has its reset values; the link has its reset values with the settings of a valid shadow and its
storm window ending at the next multiple of 50, and its status record joins where LINK_READY is high; each reflex
entry has the record of a valid shadow, else the default one, and is ARMED where that is enabled, else DISABLED, and
the ARMED ones are judged at once: with no condition true at hold time 0 each is TIMING where its condition is true
and stays ARMED where it is not; an entry whose condition is true at hold time 0 has fired; and where it alone is
enabled its firing leaves what HOLD_TIMER_EXPIRY's leaves. A last latch result that a motor, the scan, the voice or an
outbound slot got while OFF goes back to 0 with the reset values, and its status record joins the publication list
(log 36). Only the unit, the control state, the path, memory and shadow of the enables change (for inputs also ring
and attention; for a firing also what it changes). That the command is a step of a latch by itself is log 6; the
interval stored for SINGLE and STEPPED log 33. -/
def Obligations.UnitTurnsOn : Prop :=
  ∀ (s : State) (e : PerUnit Bool) (u : BlockUnit), s.hw.control.gen ≠ .holding → s.hw.inv = true →
    s.hw.unwatched = true → s.hw.control.block.get u = .off → e.get u = true →
    (∀ v, v ≠ u → s.hw.settled e v = true) →
    Answers (.blockEnables e) s (TurnedOn u s.hw)

/-- ATTENTION_ENABLES, raises, ATTENTION_TAKE and ATTN_GAP_EXPIRY: enables, pending flags, selected cause and ATTN. With
PRST not held from power-on and the invariant, ATTENTION_ENABLES replaces the ten enables as a whole and leaves the
pending flags and the published cause; the line falls at once, with the time recorded, where it was high and its cause
is no longer pending and enabled; the attention record joins the publication list exactly when the selected cause
changes; the ten bytes stand in memory and in the shadow of the control record, and nothing else changes. That the
command is step 2 of R27 alone, with no latch result and no transaction time, is the model's choice (log 6). The
selected cause is the lowest cause pending and enabled, if there is one. With the invariant, a raise of a cause that
is not pending sets its flag, puts the attention record on the publication list and changes nothing else; a raise of a
pending cause changes nothing. ATTN_GAP_EXPIRY, while fewer than 20 us are taken to have passed since the last fall,
ends that gap: the line rises where a rise waits and the published cause is pending and enabled, a waiting rise is
otherwise abandoned, and nothing else changes; with no gap it changes nothing. With PRST released, the invariant and
no reflex entry watching: the response is DONE with the eight words that memory holds of the attention record. Where
the byte at its start names a cause that is pending, that flag alone is cleared and the attention record joins the
publication list, and the line falls where its cause was the one taken; where it names none or one not pending, the
flags and the line stay. Beyond attention and path nothing changes. While a restart pulse runs nothing is taken. -/
def Obligations.AttentionFlags : Prop :=
  ((∀ (s : State) (e : Vector Bool 10), s.hw.control.gen ≠ .holding → s.hw.inv = true →
    Answers (.attentionEnables e) s fun d =>
      d.attention.enabled = e ∧ d.attention.pending = s.hw.attention.pending
      ∧ d.attention.published = s.hw.attention.published
      ∧ (s.hw.attention.line = false → d.attention = { s.hw.attention with enabled := e })
      ∧ (s.hw.attention.line = true → d.attention.publishedEligible = true →
          d.attention = { s.hw.attention with enabled := e })
      ∧ (s.hw.attention.line = true → d.attention.publishedEligible = false →
          d.attention.line = false ∧ d.attention.lastFall = some s.hw.control.ms ∧ d.attention.gap = true
          ∧ d.attention.riseWaiting = false)
      ∧ d.path = (if d.attention.selected = s.hw.attention.selected then s.hw.path else s.hw.path.join .attention)
      ∧ Stored 0xFF0008 (e.toList.map Bytes.ofBool) s.hw.mem d.mem
      ∧ Stored 8 (e.toList.map Bytes.ofBool) s.hw.shadow d.shadow
      ∧ KeptBut [.attention, .path, .mem, .shadow] s.hw d)
  ∧ (∀ (a : Attention) (k : Fin 10), a.selected = some k ↔
      a.pending[k] = true ∧ a.enabled[k] = true
      ∧ ∀ j : Fin 10, j < k → ¬ (a.pending[j] = true ∧ a.enabled[j] = true)))
  ∧ ((∀ (c : Chip) (k : Cause), c.inv = true →
    (c.attention.pending[k.idx] = false →
      (c.raiseCause k).attention = { c.attention with pending := c.attention.pending.set k.idx true }
      ∧ (c.raiseCause k).path = c.path.join .attention ∧ KeptBut [.attention, .path] c (c.raiseCause k))
    ∧ (c.attention.pending[k.idx] = true → c.raiseCause k = c))
  ∧ (∀ s : State,
    (s.hw.attention.gap = true → Answers .attnGapExpiry s fun d =>
      d.attention = { s.hw.attention with
        gap := false, riseWaiting := false,
        line := s.hw.attention.line || (s.hw.attention.riseWaiting && s.hw.attention.publishedEligible) }
      ∧ KeptBut [.attention] s.hw d)
    ∧ (s.hw.attention.gap = false → exec .attnGapExpiry s = .next s)))
  ∧ (∀ s : State, s.hw.inv = true → s.hw.unwatched = true → s.hw.control.gen ≠ .holding →
    let words := Chip.wordsOf (s.hw.mem.bytes 32 0xFF0040);
    let code := (s.hw.mem.read 0xFF0040).toNat;
    (∀ k : Fin 10, s.hw.control.gen = .idle → code = k.val + 1 → s.hw.attention.pending[k] = true →
      Answers .attentionTake s fun d =>
        d.attention.pending = s.hw.attention.pending.set k false ∧ d.attention.enabled = s.hw.attention.enabled
        ∧ (s.hw.attention.line = true → s.hw.attention.published = some k →
            d.attention.line = false ∧ d.attention.lastFall = some s.hw.control.ms)
        ∧ (s.hw.attention.published ≠ some k → d.attention.line = s.hw.attention.line)
        ∧ d.path = (s.hw.path.join .attention).served (.done words) s.hw.control.ms
        ∧ KeptBut [.attention, .path] s.hw d)
    ∧ (s.hw.control.gen = .idle → (∀ k : Fin 10, code = k.val + 1 → s.hw.attention.pending[k] = false) →
      Answers .attentionTake s fun d =>
        d.path = s.hw.path.served (.done words) s.hw.control.ms ∧ KeptBut [.path] s.hw d)
    ∧ (s.hw.control.gen ≠ .idle → Answers .attentionTake s fun d => KeptBut [.path] s.hw d))

/-- Appends to the event ring by the room it has, and EVENT_POP of the published head. For every append to the event ring
with the invariant. With room and lost_pending 0: the tail slot holds kind, source, detail, the next sequence number
and the counter's value and is PENDING, the sequence number moves on by 1, the held count grows by 1, the slot's
record joins the publication list (a publication of it in flight is older than the entry: it is marked stale), and the
EVENT cause is raised where the ring was empty. With 32 entries held: lost_pending and lost_total increase
(saturating), the overflow flag is set, the ring status record joins, and no slot and no cause is touched. With room
and lost_pending above 0: it is an append of a LOST entry with source 0 and detail lost_pending as with lost_pending
0, then lost_pending 0, then the original append to what is left. Beyond ring, attention and path nothing changes.
With PRST released and no reflex entry watching: the response is DONE with the two words that memory holds of the
entry. When the slot is the head, the ring holds an entry and it is PUBLISHED, the head moves on by 1 modulo 32, the
held count decreases by 1 and the ring status record joins the publication list; otherwise the ring stays. Slots,
sequence number and counts of lost events stay, and beyond ring and path nothing changes. While a restart pulse runs
nothing is popped. -/
def Obligations.EventRingAppendsAndPops : Prop :=
  (∀ (c : Chip) (k : EventKind) (x y : Byte), c.inv = true →
    KeptBut [.ring, .attention, .path] c (c.append k x y)
    ∧ (c.ring.held < 32 → c.ring.lostPending = 0 →
        (c.append k x y).ring = { c.ring with
          slots := c.ring.slots.set c.ring.tail ⟨k.byte, x, y, c.ring.nextSeq, c.control.ms⟩,
          published := c.ring.published.set c.ring.tail false,
          nextSeq := c.ring.nextSeq + 1, held := c.ring.held + 1 }
        ∧ (c.append k x y).attention = (if c.ring.held = 0 then c.attention.raised .event else c.attention)
        ∧ (c.append k x y).path = { (if c.ring.held = 0 ∧ c.attention.pending[Cause.event.idx] = false
            then (c.path.join (.ringEntry c.ring.tail)).join .attention else c.path.join (.ringEntry c.ring.tail)) with
          port := (c.append k x y).path.port }
        ∧ ((∀ data stale, c.path.port ≠ some (.publication (.ringEntry c.ring.tail) data stale)) →
          (c.append k x y).path.port = c.path.port)
        ∧ (∀ data stale, c.path.port = some (.publication (.ringEntry c.ring.tail) data stale) →
          (c.append k x y).path.port = some (.publication (.ringEntry c.ring.tail) data true)))
    ∧ (c.ring.held = 32 →
        (c.append k x y).ring = { c.ring with
          lostPending := satInc c.ring.lostPending, lostTotal := satInc c.ring.lostTotal, overflow := true }
        ∧ (c.append k x y).attention = c.attention ∧ (c.append k x y).path = c.path.join .ringStatus)
    ∧ (c.ring.held < 32 → c.ring.lostPending ≠ 0 → ∃ b : Chip,
        b.ring = { c.ring with
          slots := c.ring.slots.set c.ring.tail ⟨10, 0, c.ring.lostPending, c.ring.nextSeq, c.control.ms⟩,
          published := c.ring.published.set c.ring.tail false,
          nextSeq := c.ring.nextSeq + 1, held := c.ring.held + 1, lostPending := 0 }
        ∧ .ringStatus ∈ b.path.pubs ∧ .ringEntry c.ring.tail ∈ b.path.pubs
        ∧ b.attention = (if c.ring.held = 0 then c.attention.raised .event else c.attention)
        ∧ KeptBut [.ring, .attention, .path] c b ∧ c.append k x y = b.append k x y))
  ∧ (∀ (s : State) (i : Fin 32), s.hw.unwatched = true → s.hw.control.gen ≠ .holding →
    let words := Chip.wordsOf (s.hw.mem.bytes 8 (0xFF0100 + 8 * i.val));
    (s.hw.control.gen = .idle → s.hw.ring.head = i → 0 < s.hw.ring.held → s.hw.ring.published[i] = true →
      Answers (.eventPop i) s fun d =>
        d.ring = { s.hw.ring with head := i + 1, held := s.hw.ring.held - 1 }
        ∧ d.path = (s.hw.path.join .ringStatus).served (.done words) s.hw.control.ms ∧ KeptBut [.ring, .path] s.hw d)
    ∧ (s.hw.control.gen = .idle →
        ¬ (s.hw.ring.head = i ∧ 0 < s.hw.ring.held ∧ s.hw.ring.published[i] = true) →
        Answers (.eventPop i) s fun d =>
          d.path = s.hw.path.served (.done words) s.hw.control.ms ∧ KeptBut [.path] s.hw d)
    ∧ (s.hw.control.gen ≠ .idle → Answers (.eventPop i) s fun d => KeptBut [.path] s.hw d))

/-- CONTROL_NONE takes enables, attention enables and quiet period and reports OK; bad content reports BAD_ARG and takes
nothing. With PRST released, the invariant and no reflex entry watching. A control record whose enables and attention
enables are 0 or 1 and whose quiet period lies in 100 to 10000, latched with NONE where no block state changes: the
enables, the attention enables (with the line judged) and the quiet period are those of the record, the last latch
result is offset 0 with OK, the status record joins the publication list (after the attention record where the
selected cause changes: that the result comes last is the model's choice, log 32), and ring, units and lines stay. A
record with other content, latched with NONE, SERVICE_RESET or FLUSH_EVENTS: the last latch result is offset 0 with
BAD_ARG, the status record joins, and enables, quiet period, ring, attention and units stay as they were. In both
cases the record stands in memory and shadow, and the WRITE is answered DONE and restarts the quiet timer. -/
def Obligations.ControlLatchTakenOrBadArg : Prop :=
  ∀ (s : State) (r : ControlRec), s.hw.ready = true →
    (r.valid = true → (∀ u, s.hw.settled r.unitEnables u = true) → Answers (.controlNone r) s fun d =>
      d.control = Control.reported 0 .ok
        { s.hw.control with enable := r.unitEnables, quietPeriod := r.quiet.toNat }
      ∧ d.attention = Attention.review s.hw.control.ms { s.hw.attention with enabled := r.causeEnables }
      ∧ d.path = ((if d.attention.selected = s.hw.attention.selected then s.hw.path else s.hw.path.join .attention).join
          .status).served (.done []) s.hw.control.ms
      ∧ RecordStored .control (r.toBytes 0) s.hw d ∧ KeptBut [.control, .attention, .path, .mem, .shadow] s.hw d)
    ∧ (r.valid = false → ∀ i n, (i, n) ∈ [(Instr.controlNone r, 0), (.serviceReset r, 1), (.flushEvents r, 2)] →
        Answers i s fun d =>
          d.control = s.hw.control.reported 0 .badArg
          ∧ d.path = (s.hw.path.join .status).served (.done []) s.hw.control.ms
          ∧ RecordStored .control (r.toBytes n) s.hw d ∧ KeptBut [.control, .path, .mem, .shadow] s.hw d)
    ∧ (r.valid = true ↔ (∀ k : Fin 6, r.enables[k].toNat ≤ 1) ∧ (∀ k : Fin 10, r.attention[k].toNat ≤ 1)
        ∧ 100 ≤ r.quiet.toNat ∧ r.quiet.toNat ≤ 10000)

/-- SERVICE_RESET takes ON units to RESETTING and clears; FLUSH_EVENTS empties the ring. With PRST not held from power-on,
a valid control record latched with SERVICE_RESET answers a next state in which a unit is OFF exactly when it was OFF
and its enable in the record is 0, and RESETTING otherwise; the enables are the record's; the ring is empty with head
0, lost_pending 0 and no overflow; no cause is pending and ATTN is low; the attention enables and the quiet period are
the record's; and the last latch result is offset 0 with OK. With no reflex entry watching and no block state changed
by the record's own enables, the counter, the restart generator and the counts of the status record stay. With PRST
released, the invariant and no reflex entry watching, a valid control record latched with FLUSH_EVENTS where no block
state changes and the attention enables are those in force: the head and the held count become 0, lost_pending becomes
0 and the overflow flag is cleared; the next sequence number, lost_total, the slots and the pending causes stay; the
ring status record and then the status record join the publication list (that the result comes last is the model's
choice, log 32); the last latch result is offset 0 with OK and enables and quiet period are the record's; the record
stands in memory and shadow; nothing else changes. -/
def Obligations.ServiceResetAndFlush : Prop :=
  (∀ (s : State) (r : ControlRec), s.hw.control.gen ≠ .holding → s.hw.inv = true → r.valid = true →
    (Answers (.serviceReset r) s fun d =>
      (∀ u, d.control.enable.get u = r.unitEnables.get u ∧ d.control.block.get u =
        (if s.hw.control.block.get u = .off ∧ r.unitEnables.get u = false then .off else .resetting))
      ∧ d.ring.held = 0 ∧ d.ring.head = 0 ∧ d.ring.lostPending = 0 ∧ d.ring.overflow = false
      ∧ (∀ k : Fin 10, d.attention.pending[k] = false) ∧ d.attention.line = false
      ∧ d.attention.enabled = r.causeEnables ∧ d.control.quietPeriod = r.quiet.toNat
      ∧ d.control.latchOffset = 0 ∧ d.control.latchCode = .ok)
    ∧ (s.hw.unwatched = true → (∀ u, s.hw.settled r.unitEnables u = true) → Answers (.serviceReset r) s fun d =>
        d.control.ms = s.hw.control.ms ∧ d.control.gen = s.hw.control.gen
        ∧ d.control.guardRefusals = s.hw.control.guardRefusals
        ∧ d.control.badTransactions = s.hw.control.badTransactions ∧ d.control.restarts = s.hw.control.restarts
        ∧ d.control.mergedRestarts = s.hw.control.mergedRestarts
        ∧ d.control.lastRestart = s.hw.control.lastRestart))
  ∧ (∀ (s : State) (r : ControlRec), s.hw.ready = true → r.valid = true →
    (∀ u, s.hw.settled r.unitEnables u = true) → r.causeEnables = s.hw.attention.enabled →
    Answers (.flushEvents r) s fun d =>
      d.ring = { s.hw.ring with head := 0, held := 0, lostPending := 0, overflow := false }
      ∧ d.control = Control.reported 0 .ok
        { s.hw.control with enable := r.unitEnables, quietPeriod := r.quiet.toNat }
      ∧ d.path = ((s.hw.path.join .ringStatus).join .status).served (.done []) s.hw.control.ms
      ∧ RecordStored .control (r.toBytes 2) s.hw d ∧ KeptBut [.ring, .control, .path, .mem, .shadow] s.hw d)

/-- A restart request starts or merges into a pulse; PULSE_TIMER_EXPIRY releases PRST. PULSE_TIMER_EXPIRY in PULSING, once
the counter has reached the end of the pulse, makes the generator IDLE and changes nothing else; before that, or in
another state, it changes nothing. A restart request of width w in IDLE: PULSING until the counter's value plus w,
restart count up by 1 (saturating), last restart time the counter's value, the status record on the publication list;
a transaction waiting for the grant is dropped, one in flight will have its response discarded; with the motor unit ON
no motor is owned by PROC any more and channels of other owners are untouched; with the sound unit ON a sound of
source PROC has ended with RESTART and any other plays on; lines, scan, inputs, reflex table, link, memory and shadows
stay. In PULSING it only increases the merged restart count (saturating) and publishes the status record. -/
def Obligations.RestartGeneratorMoves : Prop :=
  (∀ s : State, (∀ t, s.hw.control.gen = .pulsing t → reached s.hw.control.ms t = true →
      Answers .pulseTimerExpiry s fun d => d.control = { s.hw.control with gen := .idle } ∧ KeptBut [.control] s.hw d)
    ∧ (∀ t, s.hw.control.gen = .pulsing t → reached s.hw.control.ms t = false → exec .pulseTimerExpiry s = .next s)
    ∧ (s.hw.control.gen = .idle ∨ s.hw.control.gen = .holding → exec .pulseTimerExpiry s = .next s))
  ∧ (∀ (c : Chip) (w : Nat), c.control.gen = .idle →
      (c.restartRequest w).control = { c.control with
        gen := .pulsing (c.control.ms + BitVec.ofNat 32 w), restarts := satInc c.control.restarts,
        lastRestart := c.control.ms }
      ∧ .status ∈ (c.restartRequest w).path.pubs ∧ (c.restartRequest w).path.upstream = none
      ∧ (∀ x b, c.path.port = some (.processor x b) → (c.restartRequest w).path.port = some (.processor x true))
      ∧ (c.on .motor = true → ∀ m : Fin 4, (c.restartRequest w).motor.ch[m].owner ≠ .proc
          ∧ (c.motor.ch[m].owner ≠ .proc → (c.restartRequest w).motor.ch[m] = c.motor.ch[m]))
      ∧ (c.on .motor = false → (c.restartRequest w).motor = c.motor)
      ∧ (c.on .sound = true → c.sound.voice.source = .proc →
          (c.restartRequest w).sound = { c.sound with voice := .silent, output := 128, lastEnd := .restart })
      ∧ (c.on .sound = false ∨ c.sound.voice.source ≠ .proc → (c.restartRequest w).sound = c.sound)
      ∧ KeptBut [.control, .ring, .attention, .path, .motor, .sound] c (c.restartRequest w))
  ∧ (∀ (c : Chip) (w : Nat) (t : Word), c.control.gen = .pulsing t →
      (c.restartRequest w).control = { c.control with mergedRestarts := satInc c.control.mergedRestarts }
      ∧ (c.restartRequest w).path = c.path.join .status ∧ KeptBut [.control, .path] c (c.restartRequest w))

/-- The claim table accepts and refuses commands as R55 and R56 give it; a reflex STOP pre-empts the owner of a motor. For
a requester that is PROC, a LINK slot or a REFLEX entry. A command judged by R55 is accepted on a free claim, from the
owner itself, from a requester of a higher level (LINK 1, PROC 2, REFLEX 3), and from a reflex where another reflex
owns the motor; from any other requester of the same or a lower level it is refused. COAST, BRAKE and RESET_COUNT get
that judgement in every stall state; DRIVE, PULSE and RUN_TO get STALLED unless the stall state is NORMAL, and then
that judgement; KEEP is accepted from the owner alone; RELEASE from PROC always, else from the owner alone; NONE
always. A refusal is REFUSED_CLAIM. With the invariant, COAST or BRAKE of a reflex entry's STOP makes the entry the
owner without a deadline, with that mode and stage; a running PULSE or RUN_TO first appends RUN_DONE with PREEMPTED;
then, where another owner has lost the claim, CLAIM_LOST with PREEMPTED is appended and, where that was PROC, the
CLAIM cause raised; the motor status record joins the publication list, and beyond motors, ring, attention and path
nothing changes. Of two STOPs of different entries the second thus takes the claim from the first. -/
def Obligations.ClaimTableJudges : Prop :=
  (∀ o q : Owner, q ≠ .none →
    (o = .none ∨ o = q ∨ o.level < q.level ∨ (∃ i j, o = .reflex i ∧ q = .reflex j) → claimAccepts o q = true)
    ∧ (o ≠ .none → o ≠ q → q.level ≤ o.level → (¬ ∃ i j, o = .reflex i ∧ q = .reflex j) → claimAccepts o q = false))
  ∧ (∀ (q : Owner) (ch : Channel), q ≠ .none →
    let byTable : Code := if claimAccepts ch.owner q then .ok else .refusedClaim;
    motorVerdict q .none ch = .ok
    ∧ (∀ cmd ∈ [MotorCmd.coast, .brake, .resetCount], motorVerdict q cmd ch = byTable)
    ∧ (∀ d n t a, ∀ cmd ∈ [MotorCmd.drive d, .pulse d t a, .runTo n t a],
        motorVerdict q cmd ch = if ch.stall = .normal then byTable else .stalled)
    ∧ motorVerdict q .keep ch = (if ch.owner = q then .ok else .refusedClaim)
    ∧ motorVerdict q .release ch = (if q = .proc ∨ ch.owner = q then .ok else .refusedClaim))
  ∧ (∀ (c : Chip) (m : Fin 4) (i : Fin 8), c.inv = true →
    ∀ cmd mode stage, (cmd, mode, stage) ∈ [(MotorCmd.coast, Mode.coast, Stage.coast), (.brake, .brake, .brake)] →
      let after := c.motorAct (.reflex i) 0 cmd m;
      let told := (c.endOperation m .preempted).claimTaken (.reflex i) m;
      after.motor.ch[m].owner = .reflex i ∧ after.motor.ch[m].deadline = none ∧ after.motor.ch[m].mode = mode
      ∧ after.motor.ch[m].stage = stage ∧ after.motor.ch[m].watch = none ∧ ChannelKept m c after
      ∧ after.ring = told.ring ∧ after.attention = told.attention ∧ .motorStatus m ∈ after.path.pubs
      ∧ KeptBut [.motor, .ring, .attention, .path] c after)
  ∧ (∀ (c : Chip) (m : Fin 4), (c.motor.ch[m].mode.running = true →
        c.endOperation m .preempted = c.append .runDone (Bytes.ofNat m.val) Code.preempted.byte)
      ∧ (c.motor.ch[m].mode.running = false → c.endOperation m .preempted = c))

/-- DRIVE, PULSE and RUN_TO set the mode; the stage waits for the period boundary unless the duty is 0. With PRST
released, the invariant, no reflex entry watching, the motor unit ON, a slot whose settings and used fields lie in
their ranges, a claim that no reflex entry owns, and stall state NORMAL: DRIVE leaves mode DRIVE with the slot's duty;
PULSE leaves mode PULSE with duty, end action and the end time counter plus duration; and RUN_TO with target different
from the count leaves mode RUN_TO with magnitude, target, end action and direction forward where target minus count
(signed, modulo 2^32) is positive and reverse where it is negative. PROC owns the claim with the deadline of the
freshness, the settings are taken, the result is OK, the stage stays as it was (COAST at once for duty 0), and one at
rest that meets the direction opposite to its last within the 50 us is kept at rest until their end; a running PULSE
or RUN_TO first appends RUN_DONE with PREEMPTED, and a LINK owner then loses the claim with CLAIM_LOST PREEMPTED;
count, levels, tally, speed and the other channels stay, the motor status record joins the publication list, the WRITE
is stored and answered DONE, and nothing else changes. -/
def Obligations.MotorDrivesAccepted : Prop :=
  ∀ (s : State) (m : Fin 4) (r : MotorSlot), s.hw.ready = true → s.hw.on .motor = true → r.settingsOk = true →
    r.freshOk = true → (∀ i, s.hw.motor.ch[m].owner ≠ .reflex i) → s.hw.motor.ch[m].stall = .normal →
    let a := s.hw.motor.ch[m];
    let good := fun (n : Nat) (mode : Mode) (rest : Bool) (d : Chip) =>
      d.motor.ch[m].mode = mode ∧ d.motor.ch[m].stage = (if rest then .coast else a.stage)
      ∧ d.motor.ch[m].count = a.count ∧ d.motor.ch[m].stall = .normal ∧ TakenByProc m r s.hw d
      ∧ (∀ x y, mode.target.dir? = some x → a.lastDir = some y → y ≠ x → a.stage.driving = false → a.gap = true →
          d.motor.ch[m].reversing = true)
      ∧ RecordStored (.motorSlot m) (r.toBytes n) s.hw d
      ∧ PreemptedByProc m ((s.hw.endOperation m .preempted).claimTaken .proc m) s.hw d;
    (r.dutyOk = true → Answers (.drive m r) s (good 3 (.drive r.duty.toInt) (r.duty.toInt == 0)))
    ∧ (r.dutyOk = true → r.durationOk = true → r.endOk = true → Answers (.pulse m r) s
        (good 4 (.pulse r.duty.toInt (s.hw.control.ms + r.param) r.action) (r.duty.toInt == 0)))
    ∧ (r.magnitudeOk = true → r.endOk = true → 0 < (r.param - s.hw.motor.ch[m].count).toInt → Answers (.runTo m r) s
        (good 5 (.runTo r.duty.toNat r.param r.action .forward) false))
    ∧ (r.magnitudeOk = true → r.endOk = true → (r.param - s.hw.motor.ch[m].count).toInt < 0 → Answers (.runTo m r) s
        (good 5 (.runTo r.duty.toNat r.param r.action .reverse) false))

/-- COAST and BRAKE act at once and cool a stalled motor; a RUN_TO already at its target ends with its end action. With
PRST released, the invariant, no reflex entry watching, the motor unit ON, settings and freshness in their ranges, a
claim that no reflex entry owns: COAST leaves mode and stage COAST and BRAKE mode and stage BRAKE, whatever the stall
state, with the stall watch stopped, STALLED become COOLING until the counter plus 1000 and any other stall state
unchanged; PROC owns the claim, the settings are taken, the result is OK, the count stays, the motor status record
joins the publication list, the WRITE is stored and answered DONE, and nothing else changes. In stall state NORMAL a
valid RUN_TO whose target equals the count leaves the mode and the stage of its end action and appends RUN_DONE with
detail OK, with the same claim, settings and result. A PULSE or RUN_TO that was running first appends RUN_DONE with
PREEMPTED, and a LINK owner last loses the claim with CLAIM_LOST PREEMPTED. -/
def Obligations.MotorRestsAccepted : Prop :=
  ∀ (s : State) (m : Fin 4) (r : MotorSlot), s.hw.ready = true → s.hw.on .motor = true → r.settingsOk = true →
    r.freshOk = true → (∀ i, s.hw.motor.ch[m].owner ≠ .reflex i) →
    let good := fun (n : Nat) (mode : Mode) (stage : Stage) (d : Chip) =>
      d.motor.ch[m].mode = mode ∧ d.motor.ch[m].stage = stage ∧ d.motor.ch[m].count = s.hw.motor.ch[m].count
      ∧ d.motor.ch[m].stall = (if s.hw.motor.ch[m].stall = .stalled then .cooling (s.hw.control.ms + 1000)
          else s.hw.motor.ch[m].stall)
      ∧ d.motor.ch[m].watch = none ∧ TakenByProc m r s.hw d ∧ RecordStored (.motorSlot m) (r.toBytes n) s.hw d
      ∧ PreemptedByProc m ((s.hw.endOperation m .preempted).claimTaken .proc m) s.hw d;
    Answers (.coast m r) s (good 1 .coast .coast) ∧ Answers (.brake m r) s (good 2 .brake .brake)
    ∧ (r.magnitudeOk = true → r.endOk = true → r.param = s.hw.motor.ch[m].count → s.hw.motor.ch[m].stall = .normal →
        Answers (.runTo m r) s fun d =>
          d.motor.ch[m].mode = (if r.endAction = 1 then .brake else .coast)
          ∧ d.motor.ch[m].stage = (if r.endAction = 1 then .brake else .coast)
          ∧ d.motor.ch[m].count = s.hw.motor.ch[m].count ∧ d.motor.ch[m].stall = .normal ∧ TakenByProc m r s.hw d
          ∧ RecordStored (.motorSlot m) (r.toBytes 5) s.hw d
          ∧ PreemptedByProc m
            (((s.hw.endOperation m .preempted).append .runDone (Bytes.ofNat m.val) 0).claimTaken .proc m) s.hw d)

/-- KEEP moves the deadline, RESET_COUNT clears the count, MOTOR_NONE takes the settings. With PRST released, the
invariant, no reflex entry watching, the motor unit ON and the slot's settings in their ranges. KEEP with a good
freshness from PROC as the owner, and RESET_COUNT with a good freshness on a claim that no reflex entry owns and no
RUN_TO running: PROC owns the claim with the deadline of the freshness; mode, stage and stall state stay; the count
stays for KEEP and is 0 after RESET_COUNT. RESET_COUNT during a RUN_TO sets the count to 0, leaves the mode and stage
of its end action and appends RUN_DONE with detail ENDED. A LINK owner loses the claim to RESET_COUNT with CLAIM_LOST
PREEMPTED. MOTOR_NONE takes the settings and changes neither claim, deadline, mode, stage, stall state nor count; a
new threshold or stall time judges the stall watch again, which then runs from now exactly where the stall state is
NORMAL, the threshold not 0 and the applied duty's magnitude at least the threshold. Each has the result OK, the motor
status record joins the publication list, the WRITE is stored and answered DONE, and nothing else changes. -/
def Obligations.MotorKeepResetNone : Prop :=
  ∀ (s : State) (m : Fin 4) (r : MotorSlot), s.hw.ready = true → s.hw.on .motor = true → r.settingsOk = true →
    let a := s.hw.motor.ch[m];
    let stands := fun (n : Nat) (count : Word) (d : Chip) =>
      d.motor.ch[m].mode = a.mode ∧ d.motor.ch[m].stage = a.stage ∧ d.motor.ch[m].stall = a.stall
      ∧ d.motor.ch[m].count = count ∧ d.path = (s.hw.path.join (.motorStatus m)).served (.done []) s.hw.control.ms
      ∧ RecordStored (.motorSlot m) (r.toBytes n) s.hw d ∧ KeptBut [.motor, .path, .mem, .shadow] s.hw d;
    (r.freshOk = true → a.owner = .proc → Answers (.keep m r) s fun d => stands 6 a.count d ∧ TakenByProc m r s.hw d)
    ∧ (r.freshOk = true → (∀ i, a.owner ≠ .reflex i) → (∀ n t e x, a.mode ≠ .runTo n t e x) →
        Answers (.resetCount m r) s fun d =>
          d.motor.ch[m].mode = a.mode ∧ d.motor.ch[m].stage = a.stage ∧ d.motor.ch[m].stall = a.stall
          ∧ d.motor.ch[m].count = 0 ∧ TakenByProc m r s.hw d ∧ RecordStored (.motorSlot m) (r.toBytes 7) s.hw d
          ∧ PreemptedByProc m (s.hw.claimTaken .proc m) s.hw d)
    ∧ (∀ n t e x, r.freshOk = true → (∀ i, a.owner ≠ .reflex i) → a.mode = .runTo n t e x →
        Answers (.resetCount m r) s fun d =>
          d.motor.ch[m].mode = e.mode ∧ d.motor.ch[m].count = 0
          ∧ (a.stall = .normal → d.motor.ch[m].stage = (if e = .brake then .brake else .coast))
          ∧ TakenByProc m r s.hw d
          ∧ RecordStored (.motorSlot m) (r.toBytes 7) s.hw d
          ∧ PreemptedByProc m ((s.hw.endOperation m .ended).claimTaken .proc m) s.hw d)
    ∧ (Answers (.motorNone m r) s fun d =>
        d.motor.ch[m].watch = (if r.settings.threshold = a.settings.threshold ∧ r.settings.stallTime = a.settings.stallTime
          then a.watch else d.motor.ch[m].watchJudged s.hw.control.ms none)
        ∧ stands 0 a.count d ∧ d.motor.ch[m].owner = a.owner ∧ d.motor.ch[m].deadline = a.deadline
        ∧ d.motor.ch[m].settings = r.settings ∧ d.motor.ch[m].latchResult = .ok ∧ ChannelKept m s.hw d)

/-- RELEASE and CLAIM_EXPIRY free the claim, coast the channel, and append RUN_DONE then CLAIM_LOST. With PRST released,
the invariant, no reflex entry watching and the motor unit ON: RELEASE with settings in their ranges, whoever owns the
claim, and the expiry of a claim whose deadline the counter has reached, leave owner NONE with no deadline, mode and
stage COAST, a STALLED channel COOLING until the counter plus 1000, and count, encoder state and the other channels as
they were; a running PULSE or RUN_TO first appends RUN_DONE and then CLAIM_LOST follows, both with detail ENDED for
RELEASE and EXPIRED for the expiry, which raises the CLAIM cause where PROC was the owner; the motor status record
joins the publication list. RELEASE on a free claim changes only settings and result and appends nothing. RELEASE has
the result OK and stores its WRITE. Before its deadline a claim does not expire. -/
def Obligations.ClaimReleased : Prop :=
  ∀ (s : State) (m : Fin 4) (r : MotorSlot), s.hw.ready = true → s.hw.on .motor = true →
    let a := s.hw.motor.ch[m];
    (r.settingsOk = true → a.owner ≠ .none → Answers (.release m r) s fun d =>
      Released m s.hw d ∧ d.motor.ch[m].settings = r.settings ∧ d.motor.ch[m].latchResult = .ok
      ∧ d.ring = ((s.hw.endOperation m .ended).append .claimLost (Bytes.ofNat m.val) Code.ended.byte).ring
      ∧ d.attention = ((s.hw.endOperation m .ended).append .claimLost (Bytes.ofNat m.val) Code.ended.byte).attention
      ∧ RecId.motorStatus m ∈ d.path.pubs ∧ RecordStored (.motorSlot m) (r.toBytes 8) s.hw d
      ∧ KeptBut [.motor, .ring, .attention, .path, .mem, .shadow] s.hw d)
    ∧ (r.settingsOk = true → a.owner = .none → Answers (.release m r) s fun d =>
        d.motor.ch[m] = { (a.takeSettings s.hw.control.ms r.settings) with latchResult := .ok }
        ∧ ChannelKept m s.hw d ∧ d.path = (s.hw.path.join (.motorStatus m)).served (.done []) s.hw.control.ms
        ∧ RecordStored (.motorSlot m) (r.toBytes 8) s.hw d ∧ KeptBut [.motor, .path, .mem, .shadow] s.hw d)
    ∧ (∀ t, a.deadline = some t → a.owner ≠ .none → reached s.hw.control.ms t = true →
        let e := (s.hw.endOperation m .expired).append .claimLost (Bytes.ofNat m.val) Code.expired.byte;
        Answers (.claimExpiry m) s fun d =>
          Released m s.hw d ∧ d.motor.ch[m].settings = a.settings ∧ d.motor.ch[m].latchResult = a.latchResult
          ∧ d.ring = e.ring ∧ d.attention = (if a.owner = .proc then e.attention.raised .claim else e.attention)
          ∧ RecId.motorStatus m ∈ d.path.pubs ∧ KeptBut [.motor, .ring, .attention, .path] s.hw d)
    ∧ (∀ t, a.deadline = some t → reached s.hw.control.ms t = false → exec (.claimExpiry m) s = .next s)

/-- Motor slot latches that are BAD_ARG, OFF, STALLED or REFUSED_CLAIM change nothing of claim and mode. With PRST
released, the invariant and no reflex entry watching, for each of the nine commands of a motor slot. Settings or a
used field outside its range, with the motor unit not RESETTING: only the last latch result changes, to BAD_ARG. Valid
content with the unit OFF: only the last latch result changes, to OFF. Valid content with the unit ON: DRIVE, PULSE
and RUN_TO in STALLED or COOLING, and a command that the claim table refuses, take the slot's settings and leave
owner, deadline, mode and stage, with result STALLED, and with REFUSED_CLAIM, which raises the CLAIM cause. Each time
the motor status record joins the publication list, the WRITE is stored, and nothing else changes. The ranges are
those of Table 4-1: PWM frequency 4, 8, 16 or 20, stall time 10 to 200 in units of 10 ms, threshold 0 or 100 to 1000,
freshness 0 or 20 to 10000, duty -1000 to 1000, as a magnitude 1 to 1000, duration 1 to 60000, end action 0 or 1; each
command uses the fields that R64 step 1 names for it. -/
def Obligations.MotorLatchRefused : Prop :=
  ∀ (s : State) (m : Fin 4) (r : MotorSlot) (n : Fin 9), s.hw.ready = true →
    let a := s.hw.motor.ch[m];
    let left := fun (x : Channel) (d : Chip) =>
      d.motor = { s.hw.motor with ch := s.hw.motor.ch.set m x } ∧ RecordStored (.motorSlot m) (r.toBytes n.val) s.hw d;
    let quiet := fun (d : Chip) => d.path = (s.hw.path.join (.motorStatus m)).served (.done []) s.hw.control.ms
      ∧ KeptBut [.motor, .path, .mem, .shadow] s.hw d;
    (r.command n.val = none ∨ r.settingsOk = false → s.hw.resetting .motor = false →
      Answers (motorInstr m r n) s fun d => left { a with latchResult := .badArg } d ∧ quiet d)
    ∧ (∀ cmd, r.command n.val = some cmd → r.settingsOk = true → s.hw.on .motor = false →
      s.hw.resetting .motor = false →
      Answers (motorInstr m r n) s fun d => left { a with latchResult := .off } d ∧ quiet d)
    ∧ (∀ cmd, r.command n.val = some cmd → r.settingsOk = true → s.hw.on .motor = true →
      motorVerdict .proc cmd a = .stalled → Answers (motorInstr m r n) s fun d =>
        left { (a.takeSettings s.hw.control.ms r.settings) with latchResult := .stalled } d ∧ quiet d)
    ∧ (∀ cmd, r.command n.val = some cmd → r.settingsOk = true → s.hw.on .motor = true →
      motorVerdict .proc cmd a = .refusedClaim → Answers (motorInstr m r n) s fun d =>
        left { (a.takeSettings s.hw.control.ms r.settings) with latchResult := .refusedClaim } d
        ∧ d.attention = s.hw.attention.raised .claim ∧ RecId.motorStatus m ∈ d.path.pubs
        ∧ KeptBut [.motor, .attention, .path, .mem, .shadow] s.hw d)
    ∧ (let fresh := r.freshness = 0 ∨ (20 ≤ r.freshness.toNat ∧ r.freshness.toNat ≤ 10000);
      let duty := -1000 ≤ r.duty.toInt ∧ r.duty.toInt ≤ 1000;
      let magnitude := 1 ≤ r.duty.toInt ∧ r.duty.toInt ≤ 1000;
      let duration := 1 ≤ r.param.toNat ∧ r.param.toNat ≤ 60000;
      let atEnd := r.endAction.toNat ≤ 1;
      (r.settingsOk = true ↔ r.pwm.toNat ∈ [4, 8, 16, 20] ∧ (10 ≤ r.stallTime.toNat ∧ r.stallTime.toNat ≤ 200)
        ∧ (r.threshold = 0 ∨ (100 ≤ r.threshold.toNat ∧ r.threshold.toNat ≤ 1000)))
      ∧ r.settings = ⟨r.pwm.toNat, r.threshold.toNat, 10 * r.stallTime.toNat⟩
      ∧ (r.freshOk = true ↔ fresh) ∧ (r.dutyOk = true ↔ duty) ∧ (r.magnitudeOk = true ↔ magnitude)
      ∧ (r.durationOk = true ↔ duration) ∧ (r.endOk = true ↔ atEnd)
      ∧ r.action = (if r.endAction = 1 then .brake else .coast)
      ∧ (r.command n.val ≠ none ↔ match n with
        | 0 => True
        | 1 => fresh
        | 2 => fresh
        | 3 => duty ∧ fresh
        | 4 => duty ∧ duration ∧ atEnd ∧ fresh
        | 5 => magnitude ∧ atEnd ∧ fresh
        | 6 => fresh
        | 7 => fresh
        | 8 => True))

/-- PWM_PERIOD_BOUNDARY takes the target or begins a reversal passage; REVERSAL_PASSAGE_END ends it. With the motor unit
ON, PWM_PERIOD_BOUNDARY takes the PWM frequency of the settings for the period that begins, in every stage state. A
stage that is kept at rest it leaves, with nothing else changed. Of any other: with a target at rest it leaves the
stage; with a driving target in the direction last driven, or with none, or with the 50 us since driving stopped
complete, the stage takes the target; driving in the other direction it goes to COAST and begins a passage; at rest
with the 50 us not complete it is kept at rest. REVERSAL_PASSAGE_END ends the 50 us: a stage kept at rest takes the
target that stands, in a new period at the frequency of the settings; any other is left. The motor status record joins
the publication list exactly when the stage changes. Whenever the stage takes a state, the stall watch runs exactly
where the stall state is NORMAL, the threshold not 0 and the applied duty's magnitude at least the threshold, from
when it began or else from now; otherwise it is left. Beyond that channel and the path nothing changes. That
boundaries leave a stage which is kept at rest, and that the end of the 50 us leaves one that is not, is the model's
reading (log 17). -/
def Obligations.StageAtPeriodAndPassage : Prop :=
  ∀ (s : State) (m : Fin 4), s.hw.on .motor = true →
    let a := s.hw.motor.ch[m];
    let told := fun (d : Chip) =>
      d.path = (if d.motor.ch[m].stage = a.stage then s.hw.path else s.hw.path.join (.motorStatus m))
      ∧ (∀ k : Fin 4, k ≠ m → d.motor.ch[k] = s.hw.motor.ch[k]) ∧ d.motor.windowEnd = s.hw.motor.windowEnd
      ∧ d.motor.ch[m].mode = a.mode ∧ d.motor.ch[m].owner = a.owner ∧ d.motor.ch[m].count = a.count
      ∧ d.motor.ch[m].stall = a.stall ∧ d.motor.ch[m].settings = a.settings ∧ KeptBut [.motor, .path] s.hw d;
    (a.reversing = true → Answers (.pwmPeriodBoundary m) s fun d =>
        d.motor.ch[m] = { a with periodPwm := a.settings.pwm } ∧ told d)
    ∧ (a.reversing = false → Answers (.pwmPeriodBoundary m) s fun d =>
        d.motor.ch[m].periodPwm = a.settings.pwm ∧ told d
        ∧ (a.target.driving = false → d.motor.ch[m].stage = a.stage ∧ d.motor.ch[m].reversing = false
          ∧ d.motor.ch[m].watch = a.watch)
        ∧ (∀ x, a.target.dir? = some x →
            (a.lastDir = none ∨ a.lastDir = some x ∨ (a.stage.driving = false ∧ a.gap = false) →
              d.motor.ch[m].stage = a.target ∧ d.motor.ch[m].lastDir = some x ∧ d.motor.ch[m].reversing = false
              ∧ d.motor.ch[m].watch = d.motor.ch[m].watchJudged s.hw.control.ms a.watch)
            ∧ (∀ y, a.lastDir = some y → y ≠ x → a.stage.driving = true →
              d.motor.ch[m].stage = .coast ∧ d.motor.ch[m].lastDir = some y ∧ d.motor.ch[m].reversing = true
              ∧ d.motor.ch[m].gap = true ∧ d.motor.ch[m].watch = none)
            ∧ (∀ y, a.lastDir = some y → y ≠ x → a.stage.driving = false → a.gap = true →
              d.motor.ch[m].stage = a.stage ∧ d.motor.ch[m].reversing = true ∧ d.motor.ch[m].watch = a.watch)))
    ∧ (a.gap = true → a.stage.driving = false → Answers (.reversalPassageEnd m) s fun d =>
        d.motor.ch[m].gap = false ∧ d.motor.ch[m].reversing = false ∧ told d
        ∧ d.motor.ch[m].periodPwm = (if a.reversing then a.settings.pwm else a.periodPwm)
        ∧ d.motor.ch[m].stage = (if a.reversing then a.target else a.stage)
        ∧ d.motor.ch[m].watch = (if a.reversing then d.motor.ch[m].watchJudged s.hw.control.ms a.watch else a.watch))
    ∧ (a.gap = false → Answers (.reversalPassageEnd m) s fun d => d.motor.ch[m] = a ∧ told d)

/-- ENCODER_STEP counts a change of one line, restarts the watch and completes a RUN_TO that has reached its target.
ENCODER_STEP gives the motor's lines their new levels. With the motor unit not ON nothing else changes. With it ON the
levels become the last decoded ones. By the table of R42 a change of one line is a step of +1 or -1: the count (modulo
2^32) and the tally take it, a running watch starts again from now, and the motor status record joins the publication
list; unless it completes a RUN_TO nothing else changes. No change, or a change of both lines, counts nothing. A step
after which a forward RUN_TO has target minus count 0 or negative, or a reverse one 0 or positive, leaves the mode
and, in stall state NORMAL, the stage of its end action and appends RUN_DONE with detail OK. -/
def Obligations.EncoderStepCounted : Prop :=
  ∀ (s : State) (m : Fin 4) (x y : Bool), s.hw.inv = true →
    let a := s.hw.motor.ch[m];
    let lines := fun (d : Chip) => d.pins = { s.hw.pins with encoder := s.hw.pins.encoder.set m (x, y) }
      ∧ (∀ k : Fin 4, k ≠ m → d.motor.ch[k] = s.hw.motor.ch[k]) ∧ d.motor.windowEnd = s.hw.motor.windowEnd;
    (s.hw.on .motor = false → Answers (.encoderStep m x y) s fun d => lines d ∧ KeptBut [.pins] s.hw d)
    ∧ (s.hw.on .motor = true → (∀ l, a.levels = some l → quadStep l (x, y) = none) →
        Answers (.encoderStep m x y) s fun d =>
          lines d ∧ d.motor.ch[m] = { a with levels := some (x, y) } ∧ KeptBut [.pins, .motor] s.hw d)
    ∧ (∀ l n, s.hw.on .motor = true → a.levels = some l → quadStep l (x, y) = some n →
        let stepped := { a with
          levels := some (x, y), count := a.count + BitVec.ofInt 32 n, tally := a.tally + n,
          watch := a.watch.map (fun _ => s.hw.control.ms) };
        ((∀ g t e w, a.mode = .runTo g t e w → runReached w t stepped.count = false) →
          Answers (.encoderStep m x y) s fun d =>
            lines d ∧ d.motor.ch[m] = stepped ∧ d.path = s.hw.path.join (.motorStatus m)
            ∧ KeptBut [.pins, .motor, .path] s.hw d)
        ∧ (∀ g t e w, a.mode = .runTo g t e w → runReached w t stepped.count = true →
          Answers (.encoderStep m x y) s fun d =>
            lines d ∧ d.motor.ch[m].mode = e.mode ∧ d.motor.ch[m].count = stepped.count
            ∧ d.motor.ch[m].tally = stepped.tally ∧ d.motor.ch[m].levels = some (x, y)
            ∧ d.motor.ch[m].owner = a.owner ∧ d.motor.ch[m].deadline = a.deadline
            ∧ (a.stall = .normal → d.motor.ch[m].stage = (if e = .brake then .brake else .coast))
            ∧ d.ring = (s.hw.append .runDone (Bytes.ofNat m.val) 0).ring
            ∧ d.attention = (s.hw.append .runDone (Bytes.ofNat m.val) 0).attention
            ∧ RecId.motorStatus m ∈ d.path.pubs ∧ KeptBut [.pins, .motor, .ring, .attention, .path] s.hw d))
    ∧ (∀ l : Bool × Bool, ∀ n : Int, quadStep l (x, y) = some n ↔
        (n = 1 ∧ (l, (x, y)) ∈ [((false, false), (true, false)), ((true, false), (true, true)),
          ((true, true), (false, true)), ((false, true), (false, false))])
        ∨ (n = -1 ∧ (l, (x, y)) ∈ [((false, false), (false, true)), ((true, false), (false, false)),
          ((true, true), (true, false)), ((false, true), (true, true))]))
    ∧ (∀ t n : Word, (runReached .forward t n = true ↔ (t - n).toInt ≤ 0)
        ∧ (runReached .reverse t n = true ↔ 0 ≤ (t - n).toInt))

/-- PULSE_EXPIRY applies the end action with RUN_DONE OK; SPEED_WINDOW_END turns each tally into the speed. With the motor
unit ON. When the counter has reached the end time of a PULSE, PULSE_EXPIRY leaves the mode of its end action (and its
stage in stall state NORMAL), appends RUN_DONE with detail OK after the motor status record has joined the publication
list, and changes nothing else; before that it changes nothing. When the counter has reached the end of the speed
window, SPEED_WINDOW_END makes each channel's speed its tally as a signed 16-bit value that saturates and the tally 0,
puts each motor status record whose speed changed on the list, and sets the next end at the next multiple of 100;
count, mode, stage and claim stay, and beyond motors and path nothing changes. -/
def Obligations.PulseAndWindowEnd : Prop :=
  ∀ (s : State), s.hw.inv = true → s.hw.on .motor = true →
    (∀ (m : Fin 4) (v : Int) (t : Word) (e : EndAction), s.hw.motor.ch[m].mode = .pulse v t e →
      (reached s.hw.control.ms t = false → exec (.pulseExpiry m) s = .next s)
      ∧ (reached s.hw.control.ms t = true → Answers (.pulseExpiry m) s fun d =>
        d.motor.ch[m].mode = e.mode
        ∧ (s.hw.motor.ch[m].stall = .normal → d.motor.ch[m].stage = (if e = .brake then .brake else .coast))
        ∧ d.motor.ch[m].owner = s.hw.motor.ch[m].owner ∧ d.motor.ch[m].deadline = s.hw.motor.ch[m].deadline
        ∧ d.motor.ch[m].count = s.hw.motor.ch[m].count ∧ d.motor.ch[m].stall = s.hw.motor.ch[m].stall
        ∧ ChannelKept m s.hw d
        ∧ Reports ({ s.hw with path := s.hw.path.join (.motorStatus m) }.append .runDone (Bytes.ofNat m.val) 0) d
        ∧ KeptBut [.motor, .ring, .attention, .path] s.hw d))
    ∧ (reached s.hw.control.ms s.hw.motor.windowEnd = true → Answers .speedWindowEnd s fun d =>
        d.motor.windowEnd = nextMultiple 100 s.hw.control.ms
        ∧ (∀ m : Fin 4, d.motor.ch[m] = { s.hw.motor.ch[m] with
            speed := BitVec.ofInt 16 (max (-32768) (min 32767 s.hw.motor.ch[m].tally)), tally := 0 })
        ∧ (∀ r, r ∈ d.path.pubs ↔ r ∈ s.hw.path.pubs
            ∨ ∃ m : Fin 4, r = .motorStatus m ∧ d.motor.ch[m].speed ≠ s.hw.motor.ch[m].speed)
        ∧ d.path = { s.hw.path with pubs := d.path.pubs } ∧ KeptBut [.motor, .path] s.hw d)

/-- STALL coasts the channel, ends its operation and raises STALL; COOLING_END makes the stall state NORMAL. With the
motor unit ON, the invariant and no reflex entry watching. When the stall watch has run for the stall time, STALL
leaves stage and mode COAST, the stall state STALLED, the watch stopped and claim, deadline, count and settings as
they were; a running PULSE or RUN_TO first appends RUN_DONE with detail STALLED; then a STALL event with detail
STALLED is appended, the STALL cause raised and the motor status record joins the publication list. Before that STALL
changes nothing. When the counter has reached the cool end time, COOLING_END makes the stall state NORMAL, keeps mode,
stage and claim, puts the motor status record on the list and changes nothing else; before that it changes nothing. -/
def Obligations.StallAndCooling : Prop :=
  ∀ (s : State) (m : Fin 4), s.hw.on .motor = true → s.hw.inv = true → s.hw.unwatched = true →
    let a := s.hw.motor.ch[m];
    (∀ t, a.watch = some t → a.settings.stallTime ≤ (s.hw.control.ms - t).toNat →
      let e := (s.hw.endOperation m .stalled).append .stall (Bytes.ofNat m.val) Code.stalled.byte;
      Answers (.stall m) s fun d =>
        d.motor.ch[m].stage = .coast ∧ d.motor.ch[m].mode = .coast ∧ d.motor.ch[m].stall = .stalled
        ∧ d.motor.ch[m].watch = none ∧ d.motor.ch[m].owner = a.owner ∧ d.motor.ch[m].deadline = a.deadline
        ∧ d.motor.ch[m].count = a.count ∧ d.motor.ch[m].settings = a.settings ∧ ChannelKept m s.hw d
        ∧ d.ring = e.ring ∧ d.attention = e.attention.raised .stall ∧ RecId.motorStatus m ∈ d.path.pubs
        ∧ KeptBut [.motor, .ring, .attention, .path] s.hw d)
    ∧ ((∀ t, a.watch = some t → (s.hw.control.ms - t).toNat < a.settings.stallTime) → exec (.stall m) s = .next s)
    ∧ (∀ t, a.stall = .cooling t →
      (reached s.hw.control.ms t = false → exec (.coolingEnd m) s = .next s)
      ∧ (reached s.hw.control.ms t = true → Answers (.coolingEnd m) s fun d =>
        d.motor.ch[m].stall = .normal ∧ d.motor.ch[m].mode = a.mode ∧ d.motor.ch[m].stage = a.stage
        ∧ d.motor.ch[m].owner = a.owner ∧ d.motor.ch[m].deadline = a.deadline ∧ d.motor.ch[m].count = a.count
        ∧ ChannelKept m s.hw d ∧ d.path = s.hw.path.join (.motorStatus m) ∧ KeptBut [.motor, .path] s.hw d))

/-- A valid NONE latch replaces the stored program and touches no scan. With PRST released, the invariant, no reflex entry
watching and the sense unit ON, a NONE latch of the scan program record whose content is valid replaces the stored
program with the first channel, last channel, mode and interval of the latch, the interval as given for CONTINUOUS and
0 for SINGLE and STEPPED; the result is OK; scan state, position, converter and active program are as they were. The
scan status record joins the publication list for the result, the WRITE is stored and answered DONE, and nothing else
changes. No record's value depends on the stored program. -/
def Obligations.ScanNoneStoresProgram : Prop :=
  (∀ (s : State) (r : ScanRec), s.hw.ready = true → s.hw.on .sense = true → r.valid = true →
    Answers (.scanNone r) s fun d =>
      d.sense = { s.hw.sense with stored := d.sense.stored, latchResult := .ok }
      ∧ d.sense.stored.first.val = r.first.toNat ∧ d.sense.stored.last.val = r.last.toNat
      ∧ d.sense.stored.mode = (if r.mode = 0 then .single else if r.mode = 1 then .continuous else .stepped)
      ∧ d.sense.stored.interval = (if r.mode = 1 then r.interval.toNat else 0)
      ∧ d.path = (s.hw.path.join .scanStatus).served (.done []) s.hw.control.ms
      ∧ RecordStored .scanProgram (r.toBytes 0) s.hw d ∧ KeptBut [.sense, .path, .mem, .shadow] s.hw d)
  ∧ (∀ (c : Chip) (p : Program) (r : RecId),
      recordBytes { c with sense := { c.sense with stored := p } } r = recordBytes c r)

/-- STEP converts the channel at the scan position in STEP_WAIT and is BUSY in every other scan state. With PRST released,
the invariant, no reflex entry watching and the sense unit ON: a STEP latch in STEP_WAIT asks for a conversion of the
channel at the scan position (begun at once on a free converter, else when the discarded conversion ends), the scan
state becomes CONVERTING, the position stays and the result is OK. In any other scan state the result is BUSY and
nothing of the scan, the converter and the slots changes, so the STEP is not remembered. In both cases the scan status
record joins the publication list, the WRITE is stored and answered DONE, and nothing else changes. -/
def Obligations.StepAcceptedOnlyInStepWait : Prop :=
  ∀ (s : State) (r : ScanRec), s.hw.ready = true → s.hw.on .sense = true →
    (s.hw.sense.scan = .stepWait → Answers (.step r) s fun d =>
      d.sense = { s.hw.sense with scan := .converting, conv := d.sense.conv, latchResult := .ok }
      ∧ (s.hw.sense.conv = .free → d.sense.conv = .running s.hw.sense.position)
      ∧ (∀ x, s.hw.sense.conv = .discarding x → d.sense.conv = .discarding (some s.hw.sense.position))
      ∧ d.path = (s.hw.path.join .scanStatus).served (.done []) s.hw.control.ms
      ∧ RecordStored .scanProgram (r.toBytes 3) s.hw d ∧ KeptBut [.sense, .path, .mem, .shadow] s.hw d)
    ∧ (s.hw.sense.scan ≠ .stepWait → Answers (.step r) s fun d =>
      d.sense = { s.hw.sense with latchResult := .busy }
      ∧ d.path = (s.hw.path.join .scanStatus).served (.done []) s.hw.control.ms
      ∧ RecordStored .scanProgram (r.toBytes 3) s.hw d ∧ KeptBut [.sense, .path, .mem, .shadow] s.hw d)

/-- START and SCAN_STOP are accepted in every scan state; bad content and a unit that is OFF are refused. With PRST
released, the invariant and no reflex entry watching. Sense unit ON: START copies the stored program into the active
one, the position becomes its first channel, the scan state CONVERTING and a conversion of that channel is asked for,
a running conversion of a scan in CONVERTING being discarded first; SCAN_STOP leaves a STOPPED scan as it is and
otherwise makes it STOPPED at the first channel of the active program with a running conversion of CONVERTING marked
to be discarded. Slots, scan count and settings stay, and the result is OK. With the unit OFF every scan command with
valid content has the result OFF, and SCAN_NONE with content outside Table 5-1 the result BAD_ARG unless the unit is
RESETTING; then nothing but the result changes. Each time the scan status record joins the publication list, the WRITE
is stored and answered DONE, and nothing else changes. -/
def Obligations.ScanStartStopRefused : Prop :=
  ∀ (s : State) (r : ScanRec), s.hw.ready = true →
    let only := fun (n : Nat) (x : Sense) (d : Chip) => d.sense = x
      ∧ d.path = (s.hw.path.join .scanStatus).served (.done []) s.hw.control.ms
      ∧ RecordStored .scanProgram (r.toBytes n) s.hw d ∧ KeptBut [.sense, .path, .mem, .shadow] s.hw d;
    let asked : Converter := match s.hw.sense.scan, s.hw.sense.conv with
      | .converting, .running _ => .discarding (some s.hw.sense.stored.first)
      | .converting, .discarding _ => .discarding (some s.hw.sense.stored.first)
      | _, .discarding _ => .discarding (some s.hw.sense.stored.first)
      | _, _ => .running s.hw.sense.stored.first;
    let cut : Converter := match s.hw.sense.scan, s.hw.sense.conv with
      | .converting, .running _ => .discarding none
      | .converting, .discarding _ => .discarding none
      | _, x => x;
    (s.hw.on .sense = true → Answers (.start r) s (only 1 { s.hw.sense with
      active := s.hw.sense.stored, position := s.hw.sense.stored.first, scan := .converting, conv := asked,
      latchResult := .ok }))
    ∧ (s.hw.on .sense = true → s.hw.sense.scan ≠ .stopped → Answers (.scanStop r) s (only 2 { s.hw.sense with
      scan := .stopped, position := s.hw.sense.active.first, conv := cut, latchResult := .ok }))
    ∧ (s.hw.on .sense = true → s.hw.sense.scan = .stopped →
      Answers (.scanStop r) s (only 2 { s.hw.sense with latchResult := .ok }))
    ∧ (s.hw.on .sense = false → s.hw.resetting .sense = false →
      ∀ i n, (i, n) ∈ [(Instr.start r, 1), (.scanStop r, 2), (.step r, 3)] ∨ ((i, n) = (.scanNone r, 0) ∧ r.valid = true) →
        Answers i s (only n { s.hw.sense with latchResult := .off }))
    ∧ (s.hw.resetting .sense = false → r.valid = false →
      Answers (.scanNone r) s (only 0 { s.hw.sense with latchResult := .badArg }))
    ∧ (r.valid = true ↔ r.first.toNat ≤ r.last.toNat ∧ r.last.toNat ≤ 7 ∧ r.mode.toNat ≤ 2
        ∧ (r.mode = 1 → r.interval.toNat ≤ 1000))

/-- CONVERSION_COMPLETE stores, holds or discards the sample and the scan goes on; INTERVAL_EXPIRY begins the next scan.
With the invariant and no reflex entry watching. A conversion of channel ch that is to be used: on a PROTECT channel
whose slot is FRESH the scan is HELD at ch with the sample and the time, and slots stay; otherwise the slot takes the
sample, the next sequence, the time, FRESH, the scan count, the comparator's condition and side, entered where the
condition has just become true, and a lost count one higher (saturating) where it was FRESH; other slots stay. Then
below the last channel of the active program the scan moves to ch + 1, CONVERTING (STEP_WAIT in STEPPED); at the last
the scan count increases, the end time is the counter's value, SCAN is raised and SINGLE leaves STOPPED, STEPPED
STEP_WAIT, CONTINUOUS WAITING for the interval or, with interval 0, CONVERTING, all at the first channel. A COMPARE
event is appended where entered with event enable. A discarded conversion stores nothing. INTERVAL_EXPIRY in WAITING
converts the first channel. -/
def Obligations.SampleStoredHeldOrDiscarded : Prop :=
  ∀ (s : State) (v : BitVec 12), s.hw.inv = true → s.hw.unwatched = true →
    let p := s.hw.sense.active;
    (∀ ch, s.hw.sense.conv = .running ch →
      let old := s.hw.sense.slots[ch];
      let x := s.hw.sense.settings[ch];
      let judged := compare x v.toNat;
      (x.protect = true → old.state = .fresh → Answers (.conversionComplete v) s fun d =>
        d.sense = { s.hw.sense with conv := .free, scan := .held v s.hw.control.ms, position := ch }
        ∧ d.path = s.hw.path.join .scanStatus ∧ KeptBut [.sense, .path] s.hw d)
      ∧ (¬ (x.protect = true ∧ old.state = .fresh) → Answers (.conversionComplete v) s fun d =>
        d.sense.slots[ch] = {
          seq := old.seq + 1, state := .fresh, condition := judged.1, value := v.setWidth 16,
          entered := judged.1 && !old.condition, side := judged.2,
          lost := if old.state = .fresh then satInc old.lost else old.lost,
          scanCount := s.hw.sense.scanCount, time := s.hw.control.ms }
        ∧ (∀ k, k ≠ ch → d.sense.slots[k] = s.hw.sense.slots[k])
        ∧ d.sense.settings = s.hw.sense.settings ∧ d.sense.active = p ∧ d.sense.stored = s.hw.sense.stored
        ∧ d.sense.latchResult = s.hw.sense.latchResult
        ∧ RecId.sampleSlot ch ∈ d.path.pubs ∧ RecId.scanStatus ∈ d.path.pubs
        ∧ d.ring = (if judged.1 && !old.condition && x.event
            then (s.hw.append .compare (Bytes.ofNat ch.val) (Bytes.ofBool judged.2)).ring else s.hw.ring)
        ∧ (ch < p.last → d.sense.position = ch + 1 ∧ d.sense.scanCount = s.hw.sense.scanCount
          ∧ (p.mode = .stepped → d.sense.scan = .stepWait ∧ d.sense.conv = .free)
          ∧ (p.mode ≠ .stepped → d.sense.scan = .converting ∧ d.sense.conv = .running (ch + 1)))
        ∧ (p.last ≤ ch → d.sense.position = p.first ∧ d.sense.scanCount = s.hw.sense.scanCount + 1
          ∧ d.sense.lastEnd = s.hw.control.ms ∧ d.attention.pending[Cause.scan.idx] = true
          ∧ (p.mode = .single → d.sense.scan = .stopped) ∧ (p.mode = .stepped → d.sense.scan = .stepWait)
          ∧ (p.mode = .continuous → p.interval = 0 → d.sense.scan = .converting ∧ d.sense.conv = .running p.first)
          ∧ (p.mode = .continuous → p.interval ≠ 0 →
              d.sense.scan = .waiting (s.hw.control.ms + BitVec.ofNat 32 p.interval)))
        ∧ KeptBut [.sense, .ring, .attention, .path] s.hw d))
    ∧ (∀ y, s.hw.sense.conv = .discarding y → Answers (.conversionComplete v) s fun d =>
        d.sense = { s.hw.sense with conv := match y with | none => .free | some k => .running k }
        ∧ KeptBut [.sense] s.hw d)
    ∧ (s.hw.sense.conv = .free → exec (.conversionComplete v) s = .next s)
    ∧ (∀ t, s.hw.sense.scan = .waiting t → s.hw.on .sense = true → s.hw.sense.conv = .free →
        (reached s.hw.control.ms t = false → exec .intervalExpiry s = .next s)
        ∧ (reached s.hw.control.ms t = true → Answers .intervalExpiry s fun d =>
            d.sense = { s.hw.sense with scan := .converting, position := p.first, conv := .running p.first }
            ∧ d.path = s.hw.path.join .scanStatus ∧ KeptBut [.sense, .path] s.hw d))
    ∧ (∀ (x : ChannelSettings) (n : Nat), compare x n =
        if x.enabled = false then (false, false)
        else if x.inside then (decide (x.lower ≤ n ∧ n ≤ x.upper), false)
        else (decide (x.upper < n ∨ n < x.lower), decide (x.upper < n)))

/-- SAMPLE_CONSUME consumes only the FRESH sample that was returned; CHANNEL_SETTINGS_LATCH replaces a channel's settings.
With PRST released, the invariant and no reflex entry watching. SAMPLE_CONSUME returns the four words that memory
holds of the slot. With the sense unit ON, FRESH returned and the slot FRESH with the returned sequence, and no hold
on that channel, the slot becomes CONSUMED and joins the publication list; where the returned state is not FRESH, the
slot is not FRESH, the sequences differ or the unit is not ON, nothing is consumed. A channel settings latch with
valid content and no hold on that channel replaces the six settings and reports OK; with the unit not ON it reports
OFF, with bad content BAD_ARG, and takes nothing: offset 0x0300 plus 16 times the channel, status record joined, WRITE
stored. A hold on that channel is released by a consumed sample, and by settings with OVERWRITE, which count the FRESH
sample in the slot as lost. The slot then holds the held sample with the time it entered the hold, the next sequence,
FRESH, the scan count, and the condition, side and entered flag that the settings now in force give; a COMPARE event
is appended where entered with event enable; and the scan goes on from HELD as after any store: below the last channel
of the active program to the next one, CONVERTING (STEP_WAIT in STEPPED); at the last the scan count increases, the
end time is the counter's value, SCAN is raised, and the scan is at the first channel, STOPPED, STEP_WAIT, WAITING for
the interval or, with interval 0, CONVERTING. In the other cases nothing else changes. -/
def Obligations.SampleConsumedAndChannelSettings : Prop :=
  ∀ (s : State) (ch : Fin 8) (r : ChannelRec), s.hw.ready = true →
    let old := s.hw.sense.slots[ch];
    let image := s.hw.mem.bytes 16 (0xFF0400 + 16 * ch.val);
    let off := 0x0300 + 16 * ch.val;
    let held := ∃ v t, s.hw.sense.scan = .held v t ∧ s.hw.sense.position = ch;
    let taken := s.hw.on .sense = true ∧ Bytes.get image 2 = 1 ∧ old.state = .fresh ∧ old.seq = Bytes.half image 0;
    (taken → ¬ held → Answers (.sampleConsume ch) s fun d =>
      d.sense = { s.hw.sense with slots := s.hw.sense.slots.set ch { old with state := .consumed } }
      ∧ d.path = (s.hw.path.join (.sampleSlot ch)).served (.done (Chip.wordsOf image)) s.hw.control.ms
      ∧ KeptBut [.sense, .path] s.hw d)
    ∧ (¬ taken → Answers (.sampleConsume ch) s fun d =>
      d.path = s.hw.path.served (.done (Chip.wordsOf image)) s.hw.control.ms ∧ KeptBut [.path] s.hw d)
    ∧ (∀ v t, taken → s.hw.sense.scan = .held v t → s.hw.sense.position = ch → Answers (.sampleConsume ch) s fun d =>
      HeldStored ch v t old.lost s.hw.sense.settings[ch] s.hw d ∧ d.sense.settings = s.hw.sense.settings
      ∧ d.path.response = some (.done (Chip.wordsOf image)) ∧ KeptBut [.sense, .ring, .attention, .path] s.hw d)
    ∧ (r.valid = true → s.hw.on .sense = true → ¬ held ∨ r.consume = 1 → Answers (.channelSettingsLatch ch r) s fun d =>
      d.sense = { s.hw.sense with settings := s.hw.sense.settings.set ch r.settings }
      ∧ d.control = s.hw.control.reported off .ok
      ∧ d.path = (s.hw.path.join .status).served (.done []) s.hw.control.ms
      ∧ RecordStored (.channelSettings ch) r.toBytes s.hw d ∧ KeptBut [.sense, .control, .path, .mem, .shadow] s.hw d)
    ∧ (∀ v t, r.valid = true → s.hw.on .sense = true → r.consume = 0 → s.hw.sense.scan = .held v t →
      s.hw.sense.position = ch → Answers (.channelSettingsLatch ch r) s fun d =>
        HeldStored ch v t (if old.state = .fresh then satInc old.lost else old.lost) r.settings s.hw d
        ∧ d.sense.settings = s.hw.sense.settings.set ch r.settings ∧ d.control = s.hw.control.reported off .ok
        ∧ .status ∈ d.path.pubs ∧ d.path.response = some (.done [])
        ∧ RecordStored (.channelSettings ch) r.toBytes s.hw d
        ∧ KeptBut [.sense, .ring, .attention, .control, .path, .mem, .shadow] s.hw d)
    ∧ (r.valid = false ∨ s.hw.on .sense = false → Answers (.channelSettingsLatch ch r) s fun d =>
      d.control = s.hw.control.reported off (if r.valid then .off else .badArg)
      ∧ d.path = (s.hw.path.join .status).served (.done []) s.hw.control.ms
      ∧ RecordStored (.channelSettings ch) r.toBytes s.hw d ∧ KeptBut [.control, .path, .mem, .shadow] s.hw d)
    ∧ (r.valid = true ↔ r.consume.toNat ≤ 1 ∧ r.enable.toNat ≤ 1 ∧ r.mode.toNat ≤ 1 ∧ r.event.toNat ≤ 1
        ∧ r.lower.toNat ≤ r.upper.toNat ∧ r.upper.toNat ≤ 4095)
    ∧ r.settings = ⟨r.consume == 1, r.enable == 1, r.mode == 1, r.event == 1, r.lower.toNat, r.upper.toNat⟩

/-- INPUT_EDGE runs or idles the debounce timer, or turns the stable state at once; DEBOUNCE_EXPIRY turns it. With the
invariant and no reflex entry watching. INPUT_EDGE gives the line its level; a level it has already changes nothing,
and with the input unit not ON nothing else changes. With it ON: where the raw level under the polarity then disagrees
with the stable state and debounce is on, the timer runs from now; where it agrees, the timer is idle; where it
disagrees with debounce off, and at DEBOUNCE_EXPIRY of a timer that has run for the debounce time, the stable state
becomes what the raw level means, the timer idle, the last change time the counter's value, the input state record
joins the publication list, and an INPUT event with the new state is appended where the event mode calls for it.
Before that time DEBOUNCE_EXPIRY changes nothing. Settings and the other inputs stay, and nothing else changes. -/
def Obligations.InputEdgesDebounced : Prop :=
  ∀ (s : State) (n : Fin 11) (level : Bool), s.hw.inv = true → s.hw.unwatched = true →
    let x := s.hw.input.line[n];
    let turned := fun (c : Chip) (new : Bool) (d : Chip) =>
      let told := { c with path := c.path.join .inputState };
      d.input = { line := c.input.line.set n { x with stable := new, timer := none }, lastChange := c.control.ms }
      ∧ Reports (if x.settings.event = .both ∨ (x.settings.event = .press ∧ new = true)
            ∨ (x.settings.event = .release ∧ new = false)
          then told.append .input (Bytes.ofNat n.val) (Bytes.ofBool new) else told) d
      ∧ d.pins = c.pins ∧ KeptBut [.pins, .input, .ring, .attention, .path] s.hw d;
    let c := { s.hw with pins := { s.hw.pins with input := s.hw.pins.input.set n level } };
    let raw := level == x.settings.activeHigh;
    (s.hw.pins.input[n] = level → exec (.inputEdge n level) s = .next s)
    ∧ (s.hw.on .input = false → Answers (.inputEdge n level) s fun d => d.pins = c.pins ∧ KeptBut [.pins] s.hw d)
    ∧ (s.hw.pins.input[n] ≠ level → s.hw.on .input = true →
      (raw ≠ x.stable → x.settings.debounce ≠ 0 → Answers (.inputEdge n level) s fun d =>
        d.pins = c.pins ∧ d.input = { s.hw.input with
          line := s.hw.input.line.set n { x with timer := some s.hw.control.ms } } ∧ KeptBut [.pins, .input] s.hw d)
      ∧ (raw = x.stable → Answers (.inputEdge n level) s fun d =>
        d.pins = c.pins ∧ d.input = { s.hw.input with line := s.hw.input.line.set n { x with timer := none } }
        ∧ KeptBut [.pins, .input] s.hw d)
      ∧ (raw ≠ x.stable → x.settings.debounce = 0 → Answers (.inputEdge n level) s (turned c raw)))
    ∧ (∀ t, x.timer = some t → s.hw.on .input = true →
      ((s.hw.control.ms - t).toNat < x.settings.debounce → exec (.debounceExpiry n) s = .next s)
      ∧ (x.settings.debounce ≤ (s.hw.control.ms - t).toNat → Answers (.debounceExpiry n) s
          (turned s.hw (s.hw.pins.input[n] == x.settings.activeHigh))))
    ∧ (x.timer = none ∨ s.hw.on .input = false → exec (.debounceExpiry n) s = .next s)

/-- INPUT_SETTINGS_LATCH takes new settings and judges the raw level again; bad content and OFF are refused. With PRST
released, the invariant and no reflex entry watching. Valid content with the input unit ON reports OK. Settings equal
to those in force change nothing of the input. Others replace them, and where the raw level under the new polarity
agrees with the stable state the timer is idle; where it disagrees, a timer that runs keeps its start and an idle one
starts now, and while the time run is below the new debounce time the stable state stays; once it is reached, at once
with debounce off, the stable state turns, the timer is idle and the last change time is the counter's value. With the
unit not ON the result is OFF, with bad content BAD_ARG, and nothing is taken. The result is reported with offset
0x0480 plus 4 times the input, and the WRITE is stored. Nothing else changes, apart from an INPUT event of a turn.
Debounce codes 0 to 3 mean off, 5, 10 and 20 ms. -/
def Obligations.InputSettingsTaken : Prop :=
  ∀ (s : State) (n : Fin 11) (r : InputRec), s.hw.ready = true →
    let x := s.hw.input.line[n];
    let off := 0x0480 + 4 * n.val;
    let y := r.settings;
    let raw := s.hw.pins.input[n] == y.activeHigh;
    let start := x.timer.getD s.hw.control.ms;
    let latched := fun (line : InputLine) (d : Chip) =>
      d.input = { s.hw.input with line := s.hw.input.line.set n line } ∧ d.control = s.hw.control.reported off .ok
      ∧ d.path = (s.hw.path.join .status).served (.done []) s.hw.control.ms
      ∧ RecordStored (.inputSettings n) r.toBytes s.hw d ∧ KeptBut [.input, .control, .path, .mem, .shadow] s.hw d;
    (r.valid = true → s.hw.on .input = true →
      (y = x.settings → Answers (.inputSettingsLatch n r) s (latched x))
      ∧ (y ≠ x.settings → raw = x.stable → Answers (.inputSettingsLatch n r) s
          (latched { x with settings := y, timer := none }))
      ∧ (y ≠ x.settings → raw ≠ x.stable → (s.hw.control.ms - start).toNat < y.debounce →
          Answers (.inputSettingsLatch n r) s (latched { x with settings := y, timer := some start }))
      ∧ (y ≠ x.settings → raw ≠ x.stable → y.debounce ≤ (s.hw.control.ms - start).toNat →
          Answers (.inputSettingsLatch n r) s fun d =>
            d.input = { line := s.hw.input.line.set n ⟨raw, none, y⟩, lastChange := s.hw.control.ms }
            ∧ d.control = s.hw.control.reported off .ok ∧ .inputState ∈ d.path.pubs ∧ .status ∈ d.path.pubs
            ∧ RecordStored (.inputSettings n) r.toBytes s.hw d
            ∧ KeptBut [.input, .ring, .attention, .control, .path, .mem, .shadow] s.hw d))
    ∧ (r.valid = false ∨ s.hw.on .input = false → Answers (.inputSettingsLatch n r) s fun d =>
        d.control = s.hw.control.reported off (if r.valid then .off else .badArg)
        ∧ d.path = (s.hw.path.join .status).served (.done []) s.hw.control.ms
        ∧ RecordStored (.inputSettings n) r.toBytes s.hw d ∧ KeptBut [.control, .path, .mem, .shadow] s.hw d)
    ∧ (r.valid = true ↔ r.debounce.toNat ≤ 3 ∧ r.polarity.toNat ≤ 1 ∧ r.event.toNat ≤ 3)
    ∧ y.activeHigh = (r.polarity == 1)
    ∧ (∀ code ms, (code, ms) ∈ [((0 : Byte), 0), (1, 5), (2, 10), (3, 20)] → r.debounce = code → y.debounce = ms)
    ∧ (∀ code mode, (code, mode) ∈ [((0 : Byte), EventMode.none), (1, .press), (2, .release), (3, .both)] →
        r.event = code → y.event = mode)

/-- REFLEX_ENTRY_LATCH replaces an entry and judges an enabled one at once; bad content and OFF are refused. With PRST
released, the invariant, and no reflex entry watching, or with PROC_QUIET already false none but entry i. Valid
content with the reflex unit ON replaces entry i, watching or not, with fire count 0 and reports OK at offset 0x0500
plus 32 times i: with enable 0 it is DISABLED; with enable 1, with PROC_QUIET already false, it is ARMED where its
condition is false, TIMING until the counter plus the hold time where its condition is true and the hold time above 0,
and with hold time 0 it fires at once as at the end of a hold. With the unit not ON the result is OFF, with bad
content BAD_ARG, and nothing is taken. The WRITE is stored, the reflex status record joins the publication list when
the entry is taken, the status record joins it for the result (after the reflex status record: that the result comes
last is the model's choice, log 32), the other entries stay and nothing else changes. A condition is all, or for
combine ANY some, of the terms that are not NONE; a term of a unit that is not ON reads false, and its invert flag
turns it around. Valid content is that of R115: flags 0 or 1, term kinds to 6 with their indices in range, a term in
use, an action selected, a hold time to 10000, and the fields of the selected actions in their ranges. -/
def Obligations.ReflexEntryLatched : Prop :=
  (∀ (s : State) (i : Fin 8) (r : ReflexRec), s.hw.inv = true → s.hw.control.gen = .idle →
    (s.hw.unwatched = true ∨ (s.hw.path.procQuiet = false ∧
      ∀ k, k ≠ i → s.hw.reflex.entry[k].state = .disabled ∨ s.hw.reflex.entry[k].state = .spent)) →
    let off := 0x0500 + 32 * i.val;
    let holds := s.hw.condition r;
    let entered := fun (x : EntryState) (d : Chip) =>
      d.reflex = { s.hw.reflex with entry := s.hw.reflex.entry.set i ⟨r, x, 0⟩ }
      ∧ d.control = s.hw.control.reported off .ok
      ∧ d.path = ((s.hw.path.join .reflexStatus).join .status).served (.done []) s.hw.control.ms
      ∧ RecordStored (.reflexEntry i) r.toBytes s.hw d ∧ KeptBut [.reflex, .control, .path, .mem, .shadow] s.hw d;
    (r.valid = true → s.hw.on .reflex = true →
      (r.enable = 0 → Answers (.reflexEntryLatch i r) s (entered .disabled))
      ∧ (r.enable = 1 → s.hw.path.procQuiet = false → holds = false → Answers (.reflexEntryLatch i r) s (entered .armed))
      ∧ (r.enable = 1 → s.hw.path.procQuiet = false → holds = true → r.hold ≠ 0 → Answers (.reflexEntryLatch i r) s
          (entered (.timing (s.hw.control.ms + r.hold.setWidth 32))))
      ∧ (r.enable = 1 → s.hw.path.procQuiet = false → holds = true → r.hold = 0 → Answers (.reflexEntryLatch i r) s
          fun d => Fired i r 1 s.hw d ∧ d.control.latchOffset = BitVec.ofNat 16 off ∧ d.control.latchCode = .ok
            ∧ .status ∈ d.path.pubs ∧ d.path.response = some (.done [])
            ∧ RecordStored (.reflexEntry i) r.toBytes s.hw d
            ∧ KeptBut [.control, .ring, .attention, .path, .motor, .reflex, .sound, .link, .mem, .shadow] s.hw d))
    ∧ (r.valid = false ∨ s.hw.on .reflex = false → Answers (.reflexEntryLatch i r) s fun d =>
        d.control = s.hw.control.reported off (if r.valid then .off else .badArg)
        ∧ d.path = (s.hw.path.join .status).served (.done []) s.hw.control.ms
        ∧ RecordStored (.reflexEntry i) r.toBytes s.hw d ∧ KeptBut [.control, .path, .mem, .shadow] s.hw d))
  ∧ (∀ (c : Chip) (r : ReflexRec), c.condition r = true ↔
      if r.combine = 1 then ∃ x ∈ r.terms, x.kind ≠ 0 ∧ c.termValue x = true
      else ∀ x ∈ r.terms, x.kind ≠ 0 → c.termValue x = true)
  ∧ (∀ (c : Chip) (k : Byte) (j : Byte), let x : TermRec := ⟨k, j, 0⟩;
      c.termValue ⟨k, j, 1⟩ = !c.termValue x
      ∧ (∀ n : Fin 11, k = 1 → j.toNat = n.val →
          c.termValue x = if c.on .input then c.input.line[n].stable else false)
      ∧ (∀ n : Fin 8, k = 2 → j.toNat = n.val →
          c.termValue x = if c.on .sense then c.sense.slots[n].condition else false)
      ∧ (∀ n : Fin 4, k = 3 → j.toNat = n.val →
          c.termValue x = if c.on .motor then c.motor.ch[n].stall == .stalled else false)
      ∧ (k = 4 → c.termValue x = if c.on .link then (List.finRange 8).all (fun p => c.link.peer[p].isNone) else false)
      ∧ (k = 5 → c.termValue x = if c.on .link then !c.pins.linkReady else false)
      ∧ (k = 6 → c.termValue x = c.path.procQuiet))
  ∧ (∀ r : ReflexRec, r.valid = true ↔
      (∀ x ∈ [r.enable, r.rearm, r.combine, r.stop, r.tone, r.alarm, r.attention, r.restart], x.toNat ≤ 1)
      ∧ (∀ x ∈ [r.term1, r.term2, r.term3], x.kind.toNat ≤ 6 ∧ (x.kind = 1 → x.index.toNat ≤ 10)
        ∧ (x.kind = 2 → x.index.toNat ≤ 7) ∧ (x.kind = 3 → x.index.toNat ≤ 3) ∧ (x.kind ≠ 0 → x.invert.toNat ≤ 1))
      ∧ (∃ x ∈ [r.term1, r.term2, r.term3], x.kind ≠ 0)
      ∧ (∃ x ∈ [r.stop, r.tone, r.alarm, r.attention, r.restart], x = 1) ∧ r.hold.toNat ≤ 10000
      ∧ (r.stop = 1 → r.stopMode.toNat ≤ 1 ∧ (∀ m : Fin 4, r.motors[m].toNat ≤ 1) ∧ ∃ m : Fin 4, r.motors[m] = 1)
      ∧ (r.tone = 1 → (50 ≤ r.frequency.toNat ∧ r.frequency.toNat ≤ 8000)
        ∧ 1 ≤ r.duration.toNat ∧ r.duration.toNat ≤ 60000)
      ∧ (r.restart = 1 → 1 ≤ r.pulse.toNat ∧ r.pulse.toNat ≤ 100))

/-- HOLD_TIMER_EXPIRY fires the entry: its state and count, STOP, TONE, ALARM, the REFLEX event, ATTENTION and RESTART.
With the invariant, the reflex unit ON and the counter at the hold end time of entry i, which alone watches:
HOLD_TIMER_EXPIRY leaves it SPENT in MANUAL, and in AUTO FIRED, or ARMED where the firing has turned its condition
false, with one more fire (saturating). With STOP selected and the motor unit ON each motor selected is owned by
REFLEX(i) without deadline, in mode COAST or BRAKE of the stop mode, and STALLED has become COOLING; motors not
selected stay unless RESTART frees them from PROC. With TONE selected and the sound unit ON the voice plays the
entry's tone at volume 100 from REFLEX(i) until the counter plus its duration; with ALARM selected and the link UP
entry i is in the alarm set. With ATTENTION selected REFLEX is pending; with RESTART selected and no pulse running a
pulse runs until the counter plus its width and the restart count has increased. Without TONE and RESTART the ring is
as each STOP's pre-emption in order of the motors (RUN_DONE, then CLAIM_LOST, both PREEMPTED) and then an append of
REFLEX with index i and the first result of STOP and ALARM that is not OK leaves it. The other entries, lines, scan,
inputs, memory and shadows stay. Before that time nothing changes. With the reflex unit ON and no entry that fires at
once, a change handed to the unit moves each watching entry by its condition as it then stands: ARMED to TIMING,
TIMING and FIRED to ARMED; it changes nothing else, and the reflex status record joins the publication list when a
state changes. -/
def Obligations.EntryFiresAtHoldExpiry : Prop :=
  (∀ (s : State) (i : Fin 8) (t : Word), s.hw.inv = true → s.hw.on .reflex = true →
    s.hw.reflex.entry[i].state = .timing t →
    let e := s.hw.reflex.entry[i];
    let r := e.record;
    (reached s.hw.control.ms t = false → exec (.holdTimerExpiry i) s = .next s)
    ∧ (reached s.hw.control.ms t = true →
      (∀ k, k ≠ i → s.hw.reflex.entry[k].state = .disabled ∨ s.hw.reflex.entry[k].state = .spent) →
      Answers (.holdTimerExpiry i) s fun d =>
        Fired i r (satInc e.fires) s.hw d
        ∧ KeptBut [.control, .ring, .attention, .path, .motor, .reflex, .sound, .link] s.hw d))
  ∧ (∀ c : Chip, c.on .reflex = true → c.noneFires → c.Rejudged c.handChange)

/-- TONE and STREAM take the voice from any sound below REFLEX level; SOUND_NONE does nothing; the other latches are
refused. With PRST released, the invariant and no reflex entry watching. Sound unit ON and the voice's source not
REFLEX: TONE with frequency 50 to 8000, volume to 100 and duration 1 to 60000 sets TONE from PROC, begun now and
ending at the counter plus the duration, the output at the first half's level 128 + 127 v / 100; STREAM with volume to
100, rate 0 or 1 and a descriptor address that is a multiple of 4 above 0 and below 0x1000000 sets STREAM with an
empty buffer, output 128, and places a descriptor read. The result is OK. A sound that played ends first with
PREEMPTED, and with the voice SILENT ring and attention stay. A REFLEX sound makes both BUSY, SOUND_NONE is OK, a
field out of range BAD_ARG (not while RESETTING), a unit that is OFF OFF, and while RESETTING no result is written;
then nothing but the result changes. Each time the status record joins the publication list, the WRITE is stored and
answered DONE, and nothing else changes. -/
def Obligations.SoundRequestsTaken : Prop :=
  ∀ (s : State) (r : SoundRec), s.hw.ready = true →
    let v := s.hw.sound.voice;
    let now := s.hw.control.ms;
    let toneFits := (50 ≤ r.frequency.toNat ∧ r.frequency.toNat ≤ 8000) ∧ r.volume.toNat ≤ 100
      ∧ (1 ≤ r.duration.toNat ∧ r.duration.toNat ≤ 60000);
    let streamFits := r.volume.toNat ≤ 100 ∧ r.rate.toNat ≤ 1 ∧ r.desc.toNat % 4 = 0 ∧ r.desc ≠ 0
      ∧ r.desc.toNat < 0x1000000;
    let begun := fun (n : Nat) (x : Voice) (level : Byte) (more : List PartReq) (d : Chip) =>
      d.sound = { s.hw.sound with
        voice := x, output := level, lastEnd := (if v = .silent then s.hw.sound.lastEnd else .preempted),
        latchResult := .ok }
      ∧ d.path.parts = (if v = .silent then s.hw.path.parts else s.hw.path.soundless) ++ more
      ∧ (v = .silent → d.path = { (s.hw.path.join .soundStatus).served (.done []) now with
          parts := s.hw.path.parts ++ more } ∧ KeptBut [.sound, .path, .mem, .shadow] s.hw d)
      ∧ (v ≠ .silent → SoundEnded v.source .preempted s.hw d ∧ d.path.response = some (.done []))
      ∧ RecordStored .soundRequest (r.toBytes n) s.hw d
      ∧ KeptBut [.sound, .ring, .attention, .path, .mem, .shadow] s.hw d;
    let only := fun (n : Nat) (code : Code) (d : Chip) => d.sound = { s.hw.sound with latchResult := code }
      ∧ d.path = (s.hw.path.join .soundStatus).served (.done []) now
      ∧ RecordStored .soundRequest (r.toBytes n) s.hw d ∧ KeptBut [.sound, .path, .mem, .shadow] s.hw d;
    (s.hw.on .sound = true → (∀ i, v.source ≠ .reflex i) →
      (toneFits → Answers (.tone r) s (begun 1 (.tone .proc r.frequency.toNat r.volume.toNat now (now + r.duration))
        (BitVec.ofNat 8 (128 + 127 * r.volume.toNat / 100)) []))
      ∧ (streamFits → Answers (.stream r) s (begun 2 (.stream {
          fast := r.rate == 1, volume := r.volume.toNat, addr := r.desc, block := none, fetched := 0, staging := [],
          lastBlock := false, chainDone := false, starved := none, tookSample := false })
        128 [.descRead r.desc.toNat])))
    ∧ (s.hw.on .sound = true → (∃ i, v.source = .reflex i) → (toneFits → Answers (.tone r) s (only 1 .busy))
      ∧ (streamFits → Answers (.stream r) s (only 2 .busy)))
    ∧ (s.hw.on .sound = true → Answers (.soundNone r) s (only 0 .ok))
    ∧ (s.hw.resetting .sound = false → (¬ toneFits → Answers (.tone r) s (only 1 .badArg))
      ∧ (¬ streamFits → Answers (.stream r) s (only 2 .badArg)))
    ∧ (s.hw.on .sound = false → s.hw.resetting .sound = false → (toneFits → Answers (.tone r) s (only 1 .off))
      ∧ (streamFits → Answers (.stream r) s (only 2 .off)) ∧ Answers (.soundNone r) s (only 0 .off)
      ∧ Answers (.soundStop r) s (only 3 .off))
    ∧ (s.hw.resetting .sound = true → ∀ i n, (i, n) ∈ [(Instr.soundNone r, 0), (.tone r, 1), (.stream r, 2),
        (.soundStop r, 3)] → Answers i s fun d => d.path = s.hw.path.served (.done []) now
      ∧ RecordStored .soundRequest (r.toBytes n) s.hw d ∧ KeptBut [.path, .mem, .shadow] s.hw d)

/-- SOUND_STOP: none on SILENT with OK, an end with ENDED for LINK and PROC sounds with OK, none on a REFLEX sound with
BUSY. With PRST released, the invariant, no reflex entry watching and the sound unit ON. Voice SILENT: no effect, OK.
A sound whose source is LINK(s) or PROC, in TONE, STREAM or STARVED: it ends with end code ENDED, OK. A sound whose
source is REFLEX(i): no effect, the tone plays on, BUSY. Each time the status record joins the publication list, the
WRITE is stored and answered DONE, and nothing else changes. On a SILENT voice, as it is after a STOP that came first,
the natural end of a sound does not happen: TONE_EXPIRY, SAMPLE_PERIOD and STARVED_OUT change nothing; and after a
natural end that came first the STOP finds SILENT and gets OK, so that either way one SOUND_END is appended. -/
def Obligations.StopActsOnTheVoice : Prop :=
  (∀ (s : State) (r : SoundRec), s.hw.ready = true → s.hw.on .sound = true →
    let v := s.hw.sound.voice;
    let only := fun (code : Code) (d : Chip) => d.sound = { s.hw.sound with latchResult := code }
      ∧ d.path = (s.hw.path.join .soundStatus).served (.done []) s.hw.control.ms
      ∧ RecordStored .soundRequest (r.toBytes 3) s.hw d ∧ KeptBut [.sound, .path, .mem, .shadow] s.hw d;
    (v = .silent → Answers (.soundStop r) s (only .ok))
    ∧ (v.source = .proc ∨ (∃ p, v.source = .link p) → Answers (.soundStop r) s fun d =>
        d.sound = { s.hw.sound with voice := .silent, output := 128, lastEnd := .ended, latchResult := .ok }
        ∧ SoundEnded v.source .ended s.hw d ∧ d.path.parts = s.hw.path.soundless
        ∧ d.path.response = some (.done []) ∧ RecordStored .soundRequest (r.toBytes 3) s.hw d
        ∧ KeptBut [.sound, .ring, .attention, .path, .mem, .shadow] s.hw d)
    ∧ ((∃ i, v.source = .reflex i) → Answers (.soundStop r) s (only .busy)))
  ∧ (∀ s : State, s.hw.sound.voice = .silent →
      exec .toneExpiry s = .next s ∧ exec .samplePeriod s = .next s ∧ exec .starvedOut s = .next s)

/-- TONE_EXPIRY, STARVED_OUT, REREAD_TIME and SAMPLE_PERIOD: the natural ends, the reread and the samples of a stream.
With the invariant. At its end time a tone ends with ENDED, and at its starved limit a starved stream with
STARVED_OUT; at its reread time a starved stream places a read of its current descriptor; before those times nothing
changes. At a sample period of a stream a staged byte leaves the head of the buffer and the output is 128 plus its
difference from 128 times the volume over 100, rounded toward 128, and a sample fetch of the next bytes is placed
where R136 calls for one. With an empty buffer: STARVED gives 128; the chain done ends the stream with ENDED; after a
sample at the previous period the output holds, the underrun count increases (saturating) and the status record joins
the publication list; otherwise nothing changes. Every end silences the voice at 128 and withdraws the sound unit's
requests. Nothing else changes. That an empty period after one in which STARVED took a sample counts is the model's
reading of R136's table against its last sentence (log 20). -/
def Obligations.SoundTimersAndPeriods : Prop :=
  ∀ s : State, s.hw.inv = true →
    let now := s.hw.control.ms;
    let ended := fun (code : Code) (d : Chip) =>
      d.sound = { s.hw.sound with voice := .silent, output := 128, lastEnd := code }
      ∧ SoundEnded s.hw.sound.voice.source code s.hw d ∧ d.path.parts = s.hw.path.soundless
      ∧ KeptBut [.sound, .ring, .attention, .path] s.hw d;
    (∀ q f v x t, s.hw.sound.voice = .tone q f v x t →
      (reached now t = false → exec .toneExpiry s = .next s)
      ∧ (reached now t = true → Answers .toneExpiry s (ended .ended)))
    ∧ (∀ st : Stream, s.hw.sound.voice = .stream st →
      (∀ x, st.starved = some x →
        (reached now x.limit = false → exec .starvedOut s = .next s)
        ∧ (reached now x.limit = true → Answers .starvedOut s (ended .starvedOut))
        ∧ (∀ t, x.reread = some t →
          (reached now t = false → exec .rereadTime s = .next s)
          ∧ (reached now t = true → Answers .rereadTime s fun d =>
              d.sound = { s.hw.sound with voice := .stream { st with starved := some { x with reread := none } } }
              ∧ d.path = { s.hw.path with parts := s.hw.path.parts ++ [.descRead st.addr.toNat] }
              ∧ KeptBut [.sound, .path] s.hw d)))
      ∧ (∀ b rest, st.staging = b :: rest → Answers .samplePeriod s fun d =>
          d.sound = { s.hw.sound with
            voice := .stream { st with staging := rest, tookSample := true },
            output := (if 128 ≤ b.toNat then BitVec.ofNat 8 (128 + (b.toNat - 128) * st.volume / 100)
              else BitVec.ofNat 8 (128 - (128 - b.toNat) * st.volume / 100)) }
          ∧ (st.block = none → d.path = s.hw.path)
          ∧ (∀ k, st.block = some k → d.path = { s.hw.path with
              parts := s.hw.path.parts ++ if s.hw.path.mayFetch k.length st.fetched rest.length
                then [.sampleFetch (k.sample.toNat + st.fetched)] else [] })
          ∧ KeptBut [.sound, .path] s.hw d)
      ∧ (st.staging = [] → st.starved ≠ none → Answers .samplePeriod s fun d =>
          d.sound = { s.hw.sound with voice := .stream { st with tookSample := false }, output := 128 }
          ∧ KeptBut [.sound] s.hw d)
      ∧ (st.staging = [] → st.starved = none →
        (st.chainDone = true → Answers .samplePeriod s (ended .ended))
        ∧ (st.chainDone = false → st.tookSample = true → Answers .samplePeriod s fun d =>
            d.sound = { s.hw.sound with
              voice := .stream { st with tookSample := false }, underruns := satInc s.hw.sound.underruns }
            ∧ d.path = s.hw.path.join .soundStatus ∧ KeptBut [.sound, .path] s.hw d)
        ∧ (st.chainDone = false → st.tookSample = false → exec .samplePeriod s = .next s)))

/-- DESCRIPTOR_READ_DONE, SAMPLE_FETCH_DONE and DONE_WRITE_DONE: the walk along the chain of descriptors. With the
invariant; each frees the port. A descriptor read with ready word 0 makes the voice STARVED with the limit in 2000 ms
and the reread in 10 ms, publishing the status record and raising SOUND, or sets the next reread alone where it was
STARVED; a ready and valid descriptor becomes the current block with no byte fetched, noted as last where its next
address is 0, STARVED over, and a fetch is placed; a ready invalid one ends the stream with BAD_DESC. A sample fetch
adds at most 64 bytes, no more than the block has left, to the buffer; then the done-write is placed at the
descriptor's address plus 12 where the block is complete, else the next fetch where R136 calls for one. A done-write
clears the four bytes of the ready word, past the top of memory from 0; the last block ends the chain, and any other
makes its next address the current descriptor, read next, with the status record published. A withdrawn read or fetch
frees the port alone and a withdrawn done-write still clears its word. Nothing else changes. The model's readings:
that a sample was taken is kept over the return from STARVED (log 20), and STARVED with an empty buffer leaves the
output to the next period (log 35). -/
def Obligations.StreamWalked : Prop :=
  ∀ (s : State) (a : Nat) (w : Bool), s.hw.inv = true →
    let freed : Path := { s.hw.path with port := none };
    (s.hw.path.port = some (.part (.descRead a) w) →
      (w = true → Answers .descriptorReadDone s fun d => d.path = freed ∧ KeptBut [.path] s.hw d)
      ∧ (∀ st : Stream, s.hw.sound.voice = .stream st → w = false →
        let word := fun k => Bytes.word (s.hw.mem.bytes 16 a) k;
        let valid := (word 0).toNat % 4 = 0 ∧ (word 0).toNat < 0x1000000 ∧ 1 ≤ (word 4).toNat ∧ (word 4).toNat ≤ 4096
          ∧ (word 8 = 0 ∨ ((word 8).toNat % 4 = 0 ∧ (word 8).toNat < 0x1000000));
        (word 12 = 0 → st.starved = none → Answers .descriptorReadDone s fun d =>
          d.sound = { s.hw.sound with voice := .stream { st with
            starved := some ⟨s.hw.control.ms + 2000, some (s.hw.control.ms + 10)⟩ } }
          ∧ d.attention.pending[Cause.sound.idx] = true ∧ .soundStatus ∈ d.path.pubs ∧ d.path.port = none
          ∧ d.path.parts = s.hw.path.parts ∧ KeptBut [.sound, .attention, .path] s.hw d)
        ∧ (∀ x, word 12 = 0 → st.starved = some x → Answers .descriptorReadDone s fun d =>
          d.sound = { s.hw.sound with voice := .stream { st with
            starved := some { x with reread := some (s.hw.control.ms + 10) } } }
          ∧ d.path = freed ∧ KeptBut [.sound, .path] s.hw d)
        ∧ (word 12 ≠ 0 → valid → Answers .descriptorReadDone s fun d =>
          d.sound = { s.hw.sound with voice := .stream { st with
            block := some ⟨word 0, (word 4).toNat, word 8⟩, fetched := 0, lastBlock := word 8 == 0, chainDone := false,
            starved := none } }
          ∧ d.path = { freed with
              pubs := if st.starved.isSome then joins .soundStatus s.hw.path.pubs else s.hw.path.pubs
              parts := s.hw.path.parts ++ if freed.mayFetch (word 4).toNat 0 st.staging.length
                then [.sampleFetch (word 0).toNat] else [] }
          ∧ KeptBut [.sound, .path] s.hw d)
        ∧ (word 12 ≠ 0 → ¬ valid → Answers .descriptorReadDone s fun d =>
          d.sound = { s.hw.sound with voice := .silent, output := 128, lastEnd := .badDesc }
          ∧ SoundEnded .proc .badDesc { s.hw with path := freed } d ∧ d.path.parts = s.hw.path.soundless ∧ d.path.port = none
          ∧ KeptBut [.sound, .ring, .attention, .path] s.hw d)))
    ∧ (s.hw.path.port = some (.part (.sampleFetch a) w) →
      (w = true → Answers .sampleFetchDone s fun d => d.path = freed ∧ KeptBut [.path] s.hw d)
      ∧ (∀ (st : Stream) (b : SoundBlock), s.hw.sound.voice = .stream st → st.block = some b → w = false →
        let staging := st.staging ++ (s.hw.mem.bytes 64 a).take (b.length - st.fetched);
        let fetched := st.fetched + min 64 (b.length - st.fetched);
        Answers .sampleFetchDone s fun d =>
          d.sound = { s.hw.sound with voice := .stream { st with staging := staging, fetched := fetched } }
          ∧ d.path = { freed with
              parts := s.hw.path.parts ++ if fetched = b.length then [.doneWrite (st.addr.toNat + 12)]
              else if freed.mayFetch b.length fetched staging.length then [.sampleFetch (b.sample.toNat + fetched)]
              else [] }
          ∧ KeptBut [.sound, .path] s.hw d))
    ∧ (s.hw.path.port = some (.part (.doneWrite a) w) → Answers .doneWriteDone s fun d =>
      (∀ k, d.mem.read k = if k ∈ [a % 0x1000000, (a + 1) % 0x1000000, (a + 2) % 0x1000000, (a + 3) % 0x1000000]
        then 0 else s.hw.mem.read k)
      ∧ (w = true → d.path = freed ∧ KeptBut [.path, .mem] s.hw d)
      ∧ (∀ (st : Stream) (b : SoundBlock), s.hw.sound.voice = .stream st → st.block = some b → w = false →
        (st.lastBlock = true → d.sound = { s.hw.sound with voice := .stream { st with chainDone := true } }
          ∧ d.path = freed)
        ∧ (st.lastBlock = false → d.sound = { s.hw.sound with voice := .stream { st with addr := b.next, block := none } }
          ∧ d.path = { freed.join .soundStatus with parts := s.hw.path.parts ++ [.descRead b.next.toNat] }))
      ∧ KeptBut [.sound, .path, .mem] s.hw d)

/-- LINK_READY_RISE brings the link UP in HUNT; LINK_READY_FALL removes every peer and gives up every unfinished frame.
With the invariant and no reflex entry watching. A rise with the link unit ON and the line low makes the link UP: the
receiver is in HUNT, a HOLD is pending where the pool is LOW, the link status record joins the publication list. A
fall with the link UP leaves every slot of the peer table EMPTY, subscriptions of joined slots (one per slot) EMPTY,
the receiver in HUNT, no frame finishing or being sent, no reply, alarm, pending pool frame or queued slot; the blocks
of the finishing frame, then those of the frame being received, are at the tail of the free list (the order is the
model's choice, log 16); a chunk buffer of either frame is free, its stores and the body fetch are withdrawn; slots
QUEUED or SENDING are DONE with LINK_DOWN and the time; motors owned by a joined peer are free and in COAST; PEER is
pending where a peer was joined, with PEER_LEAVE in slot order where none owns a motor, SEND where a slot was ended.
All else stays. With the unit not ON, or the line already there, only the line changes. -/
def Obligations.LinkReadyMovesTheLink : Prop :=
  ∀ s : State, s.hw.inv = true → s.hw.unwatched = true →
    (s.hw.on .link = false ∨ s.hw.pins.linkReady = true → Answers .linkReadyRise s fun d =>
      d.pins = { s.hw.pins with linkReady := true } ∧ KeptBut [.pins] s.hw d)
    ∧ (s.hw.on .link = true → s.hw.pins.linkReady = false → Answers .linkReadyRise s fun d =>
      d.pins = { s.hw.pins with linkReady := true }
      ∧ d.link = { s.hw.link with
          receiver := .hunt, poolFrame := if s.hw.link.poolLow then .hold else s.hw.link.poolFrame }
      ∧ d.path = s.hw.path.join .linkStatus ∧ KeptBut [.pins, .link, .path] s.hw d)
    ∧ (s.hw.on .link = false ∨ s.hw.pins.linkReady = false → Answers .linkReadyFall s fun d =>
      d.pins = { s.hw.pins with linkReady := false } ∧ KeptBut [.pins] s.hw d)
    ∧ (s.hw.on .link = true → s.hw.pins.linkReady = true →
      let blocksOf := fun (r : Receiver) => match r with
        | .header f => f.blocks
        | .payload f => f.blocks
        | .crc f => f.blocks
        | _ => [];
      let receiving := s.hw.link.receiver ≠ .hunt ∧ ∀ n, s.hw.link.receiver ≠ .skip n;
      let given := fun (b : Fin 2) => if s.hw.link.buf[b].store = some .finishing
        then s.hw.link.finishing ≠ none else receiving;
      let gone := fun (q : PartReq) => q.isBody = true
        ∨ ∃ b : Fin 2, q.isChunk b = true ∧ given b ∧ s.hw.link.buf[b].store ≠ none;
      Answers .linkReadyFall s fun d =>
        d.pins = { s.hw.pins with linkReady := false }
        ∧ d.link = { s.hw.link with
            peer := Vector.replicate 8 none
            sub := d.link.sub
            receiver := .hunt
            finishing := none
            buf := d.link.buf
            free := s.hw.link.free ++ (match s.hw.link.finishing with | some f => f.blocks | none => [])
              ++ blocksOf s.hw.link.receiver
            poolLow := d.link.poolLow
            poolFrame := .none
            replies := []
            alarms := []
            outOrder := []
            tx := none
            out := s.hw.link.out.map (fun o => if o.state = .queued ∨ o.state = .sending
              then { o with state := .done, doneResult := .linkDown, doneTime := s.hw.control.ms } else o) }
        ∧ (∀ b : Fin 2, (given b → d.link.buf[b] = ⟨[], none⟩) ∧ (¬ given b → d.link.buf[b] = s.hw.link.buf[b]))
        ∧ (∀ q, q ∈ d.path.parts ↔ q ∈ s.hw.path.parts ∧ ¬ gone q)
        ∧ (∀ q w, s.hw.path.port = some (.part q w) → (gone q → d.path.port = some (.part q true))
            ∧ (¬ gone q → d.path.port = some (.part q w)))
        ∧ ((∀ (k j : Fin 4) (x y : Subscription), s.hw.link.sub[k] = some x → s.hw.link.sub[j] = some y → x.slot = y.slot
              → k = j) →
            ∀ (k : Fin 4) (x : Subscription), s.hw.link.sub[k] = some x → s.hw.link.peer[x.slot] ≠ none → d.link.sub[k] = none)
        ∧ (∀ k : Fin 4, s.hw.link.sub[k] = none → d.link.sub[k] = none)
        ∧ (s.hw.on .motor = true → ∀ (m : Fin 4) p, s.hw.motor.ch[m].owner = .link p → s.hw.link.peer[p] ≠ none →
            d.motor.ch[m].owner = .none ∧ d.motor.ch[m].deadline = none ∧ d.motor.ch[m].mode = .coast)
        ∧ (∀ m : Fin 4, (∀ p, s.hw.motor.ch[m].owner ≠ .link p) → d.motor.ch[m] = s.hw.motor.ch[m])
        ∧ ((∃ p : Fin 8, s.hw.link.peer[p] ≠ none) → d.attention.pending[Cause.peer.idx] = true)
        ∧ ((∀ (m : Fin 4) p, s.hw.motor.ch[m].owner ≠ .link p) →
            d.ring = (((List.finRange 8).filter (fun p => s.hw.link.peer[p].isSome)).foldl (fun x p =>
              x.append .peerLeave (BitVec.ofNat 8 p.val) Code.linkDown.byte) s.hw).ring)
        ∧ ((∃ k : Fin 4, s.hw.link.out[k].state = .queued ∨ s.hw.link.out[k].state = .sending) →
            d.attention.pending[Cause.send.idx] = true)
        ∧ .linkStatus ∈ d.path.pubs ∧ KeptBut [.pins, .motor, .ring, .attention, .path, .link] s.hw d)

/-- RX_BYTE and LINE_GAP move the receiver: HUNT, HEADER, CRC and SKIP; a frame without payload is received whole. With
the invariant and the link UP. HUNT: 0x5A begins a frame in HEADER, any other byte is ignored. HEADER: the byte joins
the header and the CRC; at the second a length above 1000 discards the frame with OVERSIZE, to SKIP without a count;
after the eighth the receiver is in PAYLOAD, or in CRC for length 0. CRC: the first byte is kept; the second finishes
the frame, whose chunk stores become those of the finishing frame, or discards it with OVERRUN where another is
finishing, to HUNT. SKIP counts its bytes down to HUNT; without a count bytes are ignored. A line gap inside a frame
discards it with RUNT, to HUNT, and ends SKIP; in HUNT it does nothing. A discard counts, returns the frame's blocks,
frees its chunk buffers and publishes the link status record. While the link is DOWN neither does anything. The eleven
bytes of Table 9-1 for a frame of length 0, from HUNT, finish a frame with that tag, sequence and kind whose CRC is
good. Nothing else changes. -/
def Obligations.ReceiverTakesBytes : Prop :=
  (∀ (s : State) (b : Byte), s.hw.inv = true → s.hw.linkUp = true →
    let l := s.hw.link;
    let got := fun (r : Receiver) (d : Chip) => d.link = { l with receiver := r } ∧ KeptBut [.link] s.hw d;
    let lost := fun (k : Fin 12) (f : RxFrame) (r : Receiver) (d : Chip) =>
      d.link = l.discarded true k f r ∧ .linkStatus ∈ d.path.pubs
      ∧ (∀ i a x, l.buf[i].store = some .receiving → PartReq.chunkStore i a x ∉ d.path.parts)
      ∧ KeptBut [.link, .path] s.hw d;
    (l.receiver = .hunt →
      (b = 0x5A → Answers (.rxByte b) s (got (.header ⟨[], 0, [], [], 0xFFFF, []⟩)))
      ∧ (b ≠ 0x5A → exec (.rxByte b) s = .next s) ∧ exec .lineGap s = .next s)
    ∧ (∀ f, l.receiver = .header f →
      let g : RxFrame := { f with header := f.header ++ [b], crc := crcByte f.crc b };
      let n := (Bytes.half g.header 0).toNat;
      (g.header.length = 2 → 1000 < n → Answers (.rxByte b) s (lost 1 f (.skip none)))
      ∧ (g.header.length = 8 → Answers (.rxByte b) s (got (if n = 0 then .crc g else .payload g)))
      ∧ (g.header.length ≠ 8 → (g.header.length = 2 → n ≤ 1000) → Answers (.rxByte b) s (got (.header g))))
    ∧ (∀ f, l.receiver = .crc f →
      (f.crcField = [] → Answers (.rxByte b) s (got (.crc { f with crcField := [b] })))
      ∧ (f.crcField ≠ [] → l.finishing = none → Answers (.rxByte b) s fun d =>
          d.link = { l with
            receiver := .hunt
            finishing := some { f with crcField := f.crcField ++ [b] }
            buf := l.buf.map (fun x => if x.store = some .receiving then { x with store := some .finishing } else x) }
          ∧ KeptBut [.link] s.hw d)
      ∧ (f.crcField ≠ [] → l.finishing ≠ none → Answers (.rxByte b) s (lost 4 f .hunt)))
    ∧ (∀ n, l.receiver = .skip (some n) →
        Answers (.rxByte b) s (got (if n ≤ 1 then .hunt else .skip (some (n - 1)))) ∧ Answers .lineGap s (got .hunt))
    ∧ (l.receiver = .skip none → exec (.rxByte b) s = .next s ∧ Answers .lineGap s (got .hunt))
    ∧ (∀ f, l.receiver = .header f ∨ l.receiver = .payload f ∨ l.receiver = .crc f →
        Answers .lineGap s (lost 0 f .hunt)))
  ∧ (∀ (s : State) (b : Byte), s.hw.linkUp = false → exec (.rxByte b) s = .next s ∧ exec .lineGap s = .next s)
  ∧ (∀ (c : Chip) (tag : Word) (seq kind : Byte), c.linkUp = true → c.link.receiver = .hunt → c.link.finishing = none →
      let d := ([0x5A, 0, 0] ++ Bytes.ofWord tag ++ [seq, kind]
        ++ Bytes.ofHalf (crc16 ([0, 0] ++ Bytes.ofWord tag ++ [seq, kind]))).foldl (fun (c : Chip) b => c.rxByte b) c;
      ∃ f, d.link.finishing = some f ∧ d.link.receiver = .hunt ∧ f.length = 0 ∧ f.tag = tag ∧ f.seq = seq
        ∧ f.kind = kind ∧ f.crcOk)

/-- RX_BYTE in PAYLOAD fills chunk buffers, takes blocks and places chunk stores; CHUNK_STORE_DONE writes the block. With
the invariant and the link UP. A payload byte whose own buffer waits for its store (that alone is tested, log 37)
discards the frame with OVERRUN, with an empty free list too (the model's choice, log 18); one whose buffer is free
and that needs a block (payload byte 0, 128, ...) with the free list empty discards it with NO_BUFFER; both to SKIP
with the bytes still to come. Otherwise it joins the current chunk buffer, the CRC and, among the first 16, the kept
bytes; a block needed is taken from the head of the free list. At the last byte, or the 64th of the buffer, a store of
64 bytes (zeros past the payload) is placed at 0xFF4000 plus 128 times the block of that stretch, plus 64 for its
second half, and the other buffer becomes current; after the last byte the receiver is in CRC. CHUNK_STORE_DONE puts
the bytes at their address, every other byte reading as before, frees the port and, unless withdrawn, the buffer.
Nothing else changes. -/
def Obligations.PayloadStoredInChunks : Prop :=
  (∀ (s : State) (b : Byte) (f : RxFrame), s.hw.inv = true → s.hw.linkUp = true → s.hw.link.receiver = .payload f →
    let l := s.hw.link;
    let needs := f.received % 128 = 0;
    let lost := fun (k : Fin 12) (d : Chip) =>
      d.link = l.discarded true k f (.skip (some (f.length - (f.received + 1) + 2))) ∧ .linkStatus ∈ d.path.pubs
      ∧ (∀ i a x, l.buf[i].store = some .receiving → PartReq.chunkStore i a x ∉ d.path.parts)
      ∧ KeptBut [.link, .path] s.hw d;
    (l.buf[l.cur].store ≠ none → Answers (.rxByte b) s (lost 4))
    ∧ (l.buf[l.cur].store = none → needs → l.free = [] → Answers (.rxByte b) s (lost 5))
    ∧ (l.buf[l.cur].store = none → (needs → l.free ≠ []) →
      let g : RxFrame := { f with
        received := f.received + 1, crc := crcByte f.crc b,
        first := (if f.first.length < 16 then f.first ++ [b] else f.first),
        blocks := (if needs then f.blocks ++ l.free.take 1 else f.blocks) };
      let bytes := l.buf[l.cur].bytes ++ [b];
      let low := if needs then poolLowAt l.settings (l.free.length - 1) l.poolLow else l.poolLow;
      let base : Link := { l with
        receiver := (if f.received + 1 = f.length then .crc g else .payload g),
        free := (if needs then l.free.drop 1 else l.free), poolLow := low,
        poolFrame := poolFrameAt true l.poolLow low l.poolFrame };
      (f.received + 1 ≠ f.length → bytes.length ≠ 64 → Answers (.rxByte b) s fun d =>
        d.link = { base with buf := l.buf.set l.cur ⟨bytes, none⟩ } ∧ d.path.parts = s.hw.path.parts
        ∧ KeptBut [.link, .path] s.hw d)
      ∧ (∀ blk, f.received + 1 = f.length ∨ bytes.length = 64 → g.blocks[f.received / 128]? = some blk →
        bytes.length ≤ 64 → Answers (.rxByte b) s fun d =>
          d.link = { base with buf := l.buf.set l.cur ⟨[], some .receiving⟩, cur := l.cur + 1 }
          ∧ d.path.parts = s.hw.path.parts ++ [.chunkStore l.cur
              (0xFF4000 + 128 * blk.val + 64 * (f.received / 64 % 2)) (bytes ++ List.replicate (64 - bytes.length) 0)]
          ∧ KeptBut [.link, .path] s.hw d)))
  ∧ (∀ (s : State) (b : Fin 2) (a : Nat) (data : List Byte) (w : Bool), s.hw.inv = true →
      s.hw.path.port = some (.part (.chunkStore b a data) w) → a + data.length ≤ 0x1000000 →
      Answers .chunkStoreDone s fun d =>
        Stored a data s.hw.mem d.mem ∧ d.path = { s.hw.path with port := none }
        ∧ d.link = (if w then s.hw.link else { s.hw.link with buf := s.hw.link.buf.set b ⟨[], none⟩ })
        ∧ KeptBut [.link, .path, .mem] s.hw d)

/-- FRAME_JUDGE discards with BAD_CRC, BAD_KIND, UNKNOWN_PEER or THROTTLED, counting the peer's storm window. With the
invariant, for a finished frame none of whose chunk stores is outstanding. The counter is BAD_CRC where the CRC field
differs from the computed value; else BAD_KIND where the kind is none of those a tablet sends; else UNKNOWN_PEER where
the tag is 0 or held by no JOINED entry and the frame is no HELLO with a tag; else, from a peer that is throttled once
this frame has counted in its storm window, THROTTLED for kinds other than BYE, HOLD and RESUME. A frame with a good
CRC counts in the window of the peer whose tag it carries, one more up to 255, and throttles it above the rising
threshold. The frame's blocks join the tail of the free list and the pool is judged; the link status record joins the
publication list; no reply, event or cause comes of it, and nothing else changes. With no finished frame, or a store
outstanding, nothing changes. -/
def Obligations.FrameDiscardedAtJudgement : Prop :=
  ∀ s : State, s.hw.inv = true →
    let l := s.hw.link;
    let tablet : List Byte := [0x01, 0x02, 0x10, 0x11, 0x12, 0x13, 0x20, 0x30, 0x31];
    let lost := fun (k : Fin 12) (f : RxFrame) (from' : Link) (d : Chip) =>
      d.link = (from'.counted k).returned s.hw.linkUp f.blocks ∧ .linkStatus ∈ d.path.pubs
      ∧ KeptBut [.link, .path] s.hw d;
    (∀ f, s.hw.judging f →
      let l0 : Link := { l with finishing := none };
      (¬ f.crcOk → Answers .frameJudge s (lost 2 f l0))
      ∧ (f.crcOk → s.hw.stranger f.tag →
        (f.kind ∉ tablet → Answers .frameJudge s (lost 3 f l0))
        ∧ (f.kind ∈ tablet → f.tag = 0 ∨ f.kind ≠ 0x01 → Answers .frameJudge s (lost 6 f l0)))
      ∧ (∀ p x, f.crcOk → s.hw.joinedAs p f.tag x →
        let l1 := l0.withPeer p (some (x.stormed l.settings.rising));
        (f.kind ∉ tablet → Answers .frameJudge s (lost 3 f l1))
        ∧ (f.kind ∈ tablet → f.kind ∉ [0x02, 0x30, 0x31] → (x.stormed l.settings.rising).throttled = true →
            Answers .frameJudge s (lost 8 f l1))))
    ∧ (l.finishing = none ∨ (∃ b : Fin 2, l.buf[b].store = some .finishing) → exec .frameJudge s = .next s)

/-- FRAME_JUDGE of a HELLO: a stranger joins the lowest EMPTY slot or is refused; a joined peer changes its role. With the
invariant, no reflex entry watching, fewer than eight replies held, for a finished HELLO with a good CRC. From a tag
that is not joined: BAD_ARG for a payload length not 1 to 16 or a role not 0 or 1; else LOCKED, counted, with the lock
on; else FULL with no EMPTY slot; else DRIVER_FULL for DRIVER at the driver limit; else the lowest EMPTY slot is
JOINED with tag, role, last heard now and one accepted frame, a PEER_JOIN event carries slot and role, PEER is raised,
and the reply OK carries the slot. From a joined peer not throttled: it is heard and counted; BAD_ARG as before; the
role becomes WATCHER, the motors it owns released to COAST, or DRIVER below the driver limit, else DRIVER_FULL and
WATCHER; an equal role changes nothing; an OK carries the slot as in R152 (the model's reading of R153, log 38), a
refusal no data. Each reply goes to the tag with the HELLO's sequence and kind; the blocks return and the pool is
judged. Nothing else changes. -/
def Obligations.HelloJudged : Prop :=
  ∀ (s : State) (f : RxFrame), s.hw.inv = true → s.hw.unwatched = true → s.hw.link.replies.length < 8 →
    s.hw.judging f → f.crcOk → f.kind = 0x01 → f.tag ≠ 0 →
    let l : Link := { s.hw.link with finishing := none };
    let up := s.hw.linkUp;
    let role := (Bytes.get f.first 0).toNat;
    let fits := 1 ≤ f.length ∧ f.length ≤ 16 ∧ role ≤ 1;
    let answered := fun (from' : Link) (code : Code) (data : List Byte) =>
      (from'.replied f.tag ([f.seq, 0x01, code.byte] ++ data)).returned up f.blocks;
    let only := fun (from' : Link) (code : Code) (d : Chip) =>
      d.link = answered from' code [] ∧ KeptBut [.link, .path] s.hw d;
    let kept := fun (from' : Link) (p : Fin 8) (d : Chip) =>
      d.link = answered from' .ok [BitVec.ofNat 8 p.val] ∧ KeptBut [.link, .path] s.hw d;
    (s.hw.stranger f.tag →
      (¬ fits → Answers .frameJudge s (only l .badArg))
      ∧ (fits → l.settings.lock = true → Answers .frameJudge s (only (l.counted 7) .locked))
      ∧ (fits → l.settings.lock = false → (∀ p : Fin 8, l.peer[p] ≠ none) → Answers .frameJudge s (only l .full))
      ∧ (∀ p : Fin 8, fits → l.settings.lock = false → l.peer[p] = none → (∀ q < p, l.peer[q] ≠ none) →
        (role = 1 → l.settings.driverLimit ≤ l.driverCount → Answers .frameJudge s (only l .driverFull))
        ∧ ((role = 1 → l.driverCount < l.settings.driverLimit) → Answers .frameJudge s fun d =>
          d.link = answered (l.withPeer p (some {
            tag := f.tag, driver := role == 1, lastHeard := s.hw.control.ms, silence := 0, window := 0,
            throttled := false, held := none, accepted := 1 })) .ok [BitVec.ofNat 8 p.val]
          ∧ d.ring = (s.hw.append .peerJoin (BitVec.ofNat 8 p.val) (BitVec.ofNat 8 role)).ring
          ∧ d.attention.pending[Cause.peer.idx] = true ∧ .peerImage p ∈ d.path.pubs ∧ .linkStatus ∈ d.path.pubs
          ∧ KeptBut [.link, .ring, .attention, .path] s.hw d)))
    ∧ (∀ p x, s.hw.joinedAs p f.tag x → (x.stormed l.settings.rising).throttled = false →
      let y := (x.stormed l.settings.rising).heard s.hw.control.ms;
      let l1 := l.withPeer p (some y);
      (¬ fits → Answers .frameJudge s (only l1 .badArg))
      ∧ (fits → (role = 1 ↔ x.driver = true) → Answers .frameJudge s (kept l1 p))
      ∧ (fits → role = 1 → x.driver = false → l.driverCount < l.settings.driverLimit → Answers .frameJudge s
          (kept (l.withPeer p (some { y with driver := true })) p))
      ∧ (fits → role = 1 → x.driver = false → l.settings.driverLimit ≤ l.driverCount →
          Answers .frameJudge s (only l1 .driverFull))
      ∧ (fits → role = 0 → x.driver = true → Answers .frameJudge s fun d =>
          d.link = answered (l.withPeer p (some { y with driver := false })) .ok [BitVec.ofNat 8 p.val]
          ∧ (s.hw.on .motor = true → ∀ m : Fin 4, s.hw.motor.ch[m].owner = .link p →
              d.motor.ch[m].owner = .none ∧ d.motor.ch[m].mode = .coast)
          ∧ (∀ m : Fin 4, s.hw.motor.ch[m].owner ≠ .link p → d.motor.ch[m] = s.hw.motor.ch[m])
          ∧ .peerImage p ∈ d.path.pubs ∧ .linkStatus ∈ d.path.pubs
          ∧ KeptBut [.link, .motor, .ring, .attention, .path] s.hw d))

/-- FRAME_JUDGE of MAIL, HOLD, RESUME and BYE from a joined peer. With the invariant and no reflex entry watching, for a
finished frame with a good CRC from the peer in slot p, heard and counted in its storm window. HOLD marks it held
until the counter plus the hold timeout, RESUME ends its hold, throttled or not; blocks return, no reply. BYE empties
the slot: its replies and its subscription are gone, PEER_LEAVE carries slot and ENDED, PEER is raised, its motors are
free and in COAST; blocks return. MAIL of a peer not throttled, with fewer than eight replies held: the lowest EMPTY
descriptor becomes OCCUPIED with slot, tag, sequence, length, time and the frame's blocks, which stay out of the free
list, its index is last in the order, it is not yet shown, MAIL is raised where the order was empty, and the reply is
OK; with every descriptor OCCUPIED the QUEUE_FULL counter increases, the blocks return and the reply is QUEUE_FULL. A
reply queued behind eight is dropped and counted. Nothing else changes. -/
def Obligations.MailAndHoldsJudged : Prop :=
  ∀ (s : State) (f : RxFrame) (p : Fin 8) (x : Peer), s.hw.inv = true → s.hw.unwatched = true → s.hw.judging f →
    f.crcOk → s.hw.joinedAs p f.tag x →
    let l : Link := { s.hw.link with finishing := none };
    let now := s.hw.control.ms;
    let up := s.hw.linkUp;
    let y := (x.stormed l.settings.rising).heard now;
    let mailed := fun (code : Code) => [f.seq, 0x20, code.byte];
    let answered := fun (code : Code) (from' : Link) => if l.replies.length < 8 then from'.replied f.tag (mailed code)
      else from'.counted 10;
    (f.kind = 0x30 → Answers .frameJudge s fun d =>
      d.link = (l.withPeer p (some { y with held := some (now + BitVec.ofNat 32 l.settings.holdTimeout) })).returned up
        f.blocks
      ∧ .peerImage p ∈ d.path.pubs ∧ KeptBut [.link, .path] s.hw d)
    ∧ (f.kind = 0x31 → Answers .frameJudge s fun d =>
      d.link = (l.withPeer p (some { y with held := none })).returned up f.blocks
      ∧ .peerImage p ∈ d.path.pubs ∧ KeptBut [.link, .path] s.hw d)
    ∧ (f.kind = 0x02 → Answers .frameJudge s fun d =>
      d.link = Link.returned up f.blocks { l.withPeer p none with
        sub := d.link.sub, replies := l.replies.filter (fun r => r.tag != f.tag) }
      ∧ (∀ (k : Fin 4) (z : Subscription), l.sub[k] = some z → z.slot = p →
          (∀ (j : Fin 4) (w : Subscription), l.sub[j] = some w → w.slot = p → j = k) → d.link.sub[k] = none)
      ∧ (∀ k : Fin 4, (∀ z : Subscription, l.sub[k] = some z → z.slot ≠ p) → d.link.sub[k] = l.sub[k])
      ∧ (s.hw.on .motor = true → ∀ m : Fin 4, s.hw.motor.ch[m].owner = .link p →
          d.motor.ch[m].owner = .none ∧ d.motor.ch[m].mode = .coast)
      ∧ (∀ m : Fin 4, s.hw.motor.ch[m].owner ≠ .link p → d.motor.ch[m] = s.hw.motor.ch[m])
      ∧ ((∀ m : Fin 4, s.hw.motor.ch[m].owner ≠ .link p) →
          d.ring = (s.hw.append .peerLeave (BitVec.ofNat 8 p.val) Code.ended.byte).ring)
      ∧ d.attention.pending[Cause.peer.idx] = true ∧ .peerImage p ∈ d.path.pubs ∧ .linkStatus ∈ d.path.pubs
      ∧ KeptBut [.link, .motor, .ring, .attention, .path] s.hw d)
    ∧ (f.kind = 0x20 → (x.stormed l.settings.rising).throttled = false →
      (∀ k : Fin 16, l.desc[k] = none → (∀ j < k, l.desc[j] ≠ none) → Answers .frameJudge s fun d =>
        d.link = answered .ok { l.withPeer p (some y) with
          desc := l.desc.set k (some {
            slot := p, tag := f.tag, seq := f.seq, length := BitVec.ofNat 16 f.length, time := now, blocks := f.blocks,
            shown := false })
          order := l.order ++ [k] }
        ∧ d.attention.pending = (if l.order = [] then s.hw.attention.pending.set Cause.mail.idx true
            else s.hw.attention.pending)
        ∧ .inboundDesc k ∈ d.path.pubs ∧ KeptBut [.link, .attention, .path] s.hw d)
      ∧ ((∀ k : Fin 16, l.desc[k] ≠ none) → Answers .frameJudge s fun d =>
        d.link = answered .queueFull (((l.withPeer p (some y)).counted 9).returned up f.blocks)
        ∧ .linkStatus ∈ d.path.pubs ∧ KeptBut [.link, .path] s.hw d))

/-- FRAME_JUDGE of SENSE, SUBSCRIBE, TONE and MOTOR from a joined peer: the service acts and its result goes into a REPLY.
With the invariant, no reflex entry watching, fewer than eight replies held, for a finished frame with a good CRC of a
peer not throttled, which is heard and counted; the blocks return, and the reply carries sequence, kind, result and
data. A length above 16 or below the shortest of Table 10-1 gives BAD_ARG. SENSE: BAD_ARG for mask 0, OFF, or OK with
six bytes (channel, condition, value, sequence) per masked channel. SUBSCRIBE: mask 0 empties the peer's entry; a
period outside 20 to 1000 is BAD_ARG; else the peer's entry, or the lowest EMPTY one, has mask and period, is due now,
count 0; FULL without one. TONE: BAD_ARG, OFF, NOT_DRIVER for a WATCHER, BUSY against a PROC or REFLEX sound; on a
SILENT voice, and after a tablet's sound has ended with PREEMPTED, it plays from LINK(p). MOTOR: BAD_ARG for a bad
motor or command, OFF, NOT_DRIVER, the claim table's refusal. One that the claim table accepts, on a free or own
claim, sets owner LINK(p) and the deadline; COAST and BRAKE take effect at once and cool a stalled motor; DRIVE, PULSE
and RUN_TO set the mode, the stage at once for duty 0; a RUN_TO at its target ends with its end action and RUN_DONE
OK; a running PULSE or RUN_TO first ends with RUN_DONE PREEMPTED. KEEP changes the deadline alone; RESET_COUNT clears
the count and ends a RUN_TO with RUN_DONE ENDED; RELEASE frees the motor in COAST with RUN_DONE and CLAIM_LOST ENDED.
Settings and latch result stay, the motor status record joins. A refused service changes nothing else. -/
def Obligations.ServicesAnswered : Prop :=
  ∀ (s : State) (f : RxFrame) (p : Fin 8) (x : Peer), s.hw.inv = true → s.hw.unwatched = true →
    s.hw.link.replies.length < 8 → s.hw.judging f → f.crcOk → s.hw.joinedAs p f.tag x →
    (x.stormed s.hw.link.settings.rising).throttled = false →
    let now := s.hw.control.ms;
    let byte := fun (k : Nat) => Bytes.get f.first k;
    let l := Link.withPeer p (some ((x.stormed s.hw.link.settings.rising).heard now)) { s.hw.link with finishing := none };
    let answered := fun (code : Code) (data : List Byte) (from' : Link) =>
      (from'.replied f.tag ([f.seq, f.kind, code.byte] ++ data)).returned s.hw.linkUp f.blocks;
    let only := fun (code : Code) (d : Chip) => d.link = answered code [] l ∧ KeptBut [.link, .path] s.hw d;
    (∀ kind shortest, (kind, shortest) ∈ [((0x10 : Byte), 13), (0x11, 1), (0x12, if byte 0 = 0 then 1 else 3), (0x13, 7)] →
      f.kind = kind → (f.length < shortest ∨ 16 < f.length) → Answers .frameJudge s (only .badArg))
    ∧ (f.kind = 0x11 → 1 ≤ f.length → f.length ≤ 16 →
      (byte 0 = 0 → Answers .frameJudge s (only .badArg))
      ∧ (byte 0 ≠ 0 → s.hw.on .sense = false → Answers .frameJudge s (only .off))
      ∧ (byte 0 ≠ 0 → s.hw.on .sense = true → Answers .frameJudge s fun d =>
          d.link = answered .ok (((List.finRange 8).filter (fun ch => (byte 0).getLsbD ch.val)).flatMap (fun ch =>
            [BitVec.ofNat 8 ch.val, (if s.hw.sense.slots[ch].condition then 1 else 0)]
            ++ Bytes.ofHalf s.hw.sense.slots[ch].value ++ Bytes.ofHalf s.hw.sense.slots[ch].seq)) l
          ∧ KeptBut [.link, .path] s.hw d))
    ∧ (f.kind = 0x12 → f.length ≤ 16 →
      let period := (Bytes.half f.first 1).toNat;
      let entry : Subscription := ⟨p, f.tag, byte 0, period, true, now, 0, 0⟩;
      let mine := fun (k : Fin 4) => (∃ z : Subscription, l.sub[k] = some z ∧ z.slot = p);
      let set := fun (k : Fin 4) (y : Option Subscription) (d : Chip) =>
        d.link = answered .ok [] { l with sub := l.sub.set k y } ∧ .subImage k ∈ d.path.pubs
        ∧ KeptBut [.link, .path] s.hw d;
      (byte 0 = 0 → 1 ≤ f.length → ((∀ k, ¬ mine k) → Answers .frameJudge s (only .ok))
        ∧ (∀ k, mine k → (∀ j < k, ¬ mine j) → Answers .frameJudge s (set k none)))
      ∧ (byte 0 ≠ 0 → 3 ≤ f.length → (period < 20 ∨ 1000 < period) → Answers .frameJudge s (only .badArg))
      ∧ (byte 0 ≠ 0 → 3 ≤ f.length → 20 ≤ period → period ≤ 1000 →
        (∀ k, mine k → (∀ j < k, ¬ mine j) → Answers .frameJudge s (set k (some entry)))
        ∧ ((∀ k, ¬ mine k) → ∀ k : Fin 4, l.sub[k] = none → (∀ j < k, l.sub[j] ≠ none) →
            Answers .frameJudge s (set k (some entry)))
        ∧ ((∀ k, ¬ mine k) → (∀ k : Fin 4, l.sub[k] ≠ none) → Answers .frameJudge s (only .full))))
    ∧ (f.kind = 0x13 → 7 ≤ f.length → f.length ≤ 16 →
      let hz := (Bytes.half f.first 0).toNat;
      let ms := (Bytes.word f.first 2).toNat;
      let vol := (byte 6).toNat;
      let fits := 50 ≤ hz ∧ hz ≤ 8000 ∧ 1 ≤ ms ∧ ms ≤ 60000 ∧ vol ≤ 100;
      (¬ fits → Answers .frameJudge s (only .badArg))
      ∧ (fits → s.hw.on .sound = false → Answers .frameJudge s (only .off))
      ∧ (fits → s.hw.on .sound = true → x.driver = false → Answers .frameJudge s (only .notDriver))
      ∧ (fits → s.hw.on .sound = true → x.driver = true → 2 ≤ s.hw.sound.voice.source.level →
          Answers .frameJudge s (only .busy))
      ∧ (fits → s.hw.on .sound = true → x.driver = true → s.hw.sound.voice = .silent → Answers .frameJudge s fun d =>
          d.sound = { s.hw.sound with
            voice := .tone (.link p) hz vol now (now + BitVec.ofNat 32 ms), output := BitVec.ofNat 8 (128 + 127 * vol / 100) }
          ∧ d.link = answered .ok [] l ∧ .soundStatus ∈ d.path.pubs ∧ KeptBut [.link, .sound, .path] s.hw d)
      ∧ (∀ q, fits → s.hw.on .sound = true → x.driver = true → s.hw.sound.voice.source = .link q →
          Answers .frameJudge s fun d =>
            d.sound = { s.hw.sound with
              voice := .tone (.link p) hz vol now (now + BitVec.ofNat 32 ms), lastEnd := .preempted,
              output := BitVec.ofNat 8 (128 + 127 * vol / 100) }
            ∧ SoundEnded (.link q) .preempted s.hw d ∧ d.link = answered .ok [] l
            ∧ KeptBut [.link, .sound, .ring, .attention, .path] s.hw d))
    ∧ (f.kind = 0x10 → 13 ≤ f.length → f.length ≤ 16 →
      let r : MotorSlot := {
        duty := Bytes.half f.first 2, param := Bytes.word f.first 4, freshness := Bytes.word f.first 8,
        endAction := byte 12 };
      let code := (byte 1).toNat;
      (3 < (byte 0).toNat ∨ code = 0 ∨ r.command code = none → Answers .frameJudge s (only .badArg))
      ∧ (∀ (m : Fin 4) (cmd : MotorCmd), (byte 0).toNat = m.val → code ≠ 0 → r.command code = some cmd →
        (s.hw.on .motor = false → Answers .frameJudge s (only .off))
        ∧ (s.hw.on .motor = true → x.driver = false → Answers .frameJudge s (only .notDriver))
        ∧ (s.hw.on .motor = true → x.driver = true → ∀ v, motorVerdict (.link p) cmd s.hw.motor.ch[m] = v → v ≠ .ok →
            Answers .frameJudge s (only v))
        ∧ (s.hw.on .motor = true → x.driver = true → motorVerdict (.link p) cmd s.hw.motor.ch[m] = .ok →
          let a := s.hw.motor.ch[m];
          let accepted := fun (told d : Chip) =>
            d.motor.ch[m].settings = a.settings ∧ d.motor.ch[m].latchResult = a.latchResult ∧ ChannelKept m s.hw d
            ∧ d.ring = told.ring ∧ d.attention = told.attention ∧ d.link = answered .ok [] l
            ∧ .motorStatus m ∈ d.path.pubs ∧ KeptBut [.link, .motor, .ring, .attention, .path] s.hw d;
          let acts := fun (mode : Mode) (stage : Stage) (count : Word) (stall : StallState) (told d : Chip) =>
            d.motor.ch[m].owner = .link p
            ∧ d.motor.ch[m].deadline = (if r.freshness = 0 then none else some (now + r.freshness))
            ∧ d.motor.ch[m].mode = mode ∧ d.motor.ch[m].stage = stage ∧ d.motor.ch[m].count = count
            ∧ d.motor.ch[m].stall = stall ∧ accepted told d;
          let ended := s.hw.endOperation m .preempted;
          let cooled : StallState := if a.stall = .stalled then .cooling (now + 1000) else a.stall;
          let rested : Stage := if r.duty.toInt = 0 then .coast else a.stage;
          let rest := fun (e : EndAction) => (if e = .brake then Stage.brake else .coast);
          (code = 1 → Answers .frameJudge s (acts .coast .coast a.count cooled ended))
          ∧ (code = 2 → Answers .frameJudge s (acts .brake .brake a.count cooled ended))
          ∧ (code = 3 → Answers .frameJudge s (acts (.drive r.duty.toInt) rested a.count .normal ended))
          ∧ (code = 4 → Answers .frameJudge s
              (acts (.pulse r.duty.toInt (now + r.param) r.action) rested a.count .normal ended))
          ∧ (code = 5 → 0 < (r.param - a.count).toInt → Answers .frameJudge s
              (acts (.runTo r.duty.toNat r.param r.action .forward) a.stage a.count .normal ended))
          ∧ (code = 5 → (r.param - a.count).toInt < 0 → Answers .frameJudge s
              (acts (.runTo r.duty.toNat r.param r.action .reverse) a.stage a.count .normal ended))
          ∧ (code = 5 → r.param = a.count → Answers .frameJudge s
              (acts r.action.mode (rest r.action) a.count .normal (ended.append .runDone (Bytes.ofNat m.val) 0)))
          ∧ (code = 6 → Answers .frameJudge s (acts a.mode a.stage a.count a.stall s.hw))
          ∧ (code = 7 → (∀ n t e y, a.mode ≠ .runTo n t e y) →
              Answers .frameJudge s (acts a.mode a.stage 0 a.stall s.hw))
          ∧ (∀ n t e y, code = 7 → a.mode = .runTo n t e y →
              Answers .frameJudge s (acts e.mode (rest e) 0 a.stall (s.hw.endOperation m .ended)))
          ∧ (code = 8 → Answers .frameJudge s fun d => Released m s.hw d
              ∧ accepted ((s.hw.endOperation m .ended).append .claimLost (Bytes.ofNat m.val) Code.ended.byte) d))))

/-- PEER_AGED, STORM_WINDOW_END, HOLD_EXPIRY and SUBSCRIPTION_DUE act when their time is reached, and else do nothing.
With the invariant, no reflex entry watching and the link unit ON. A joined peer whose silence has reached an aging
time other than 0 is removed with EXPIRED: slot EMPTY, its replies gone, PEER_LEAVE (appended alone where it owns no
motor), PEER raised, its motors free and in COAST. A storm window that is over returns every window count to 0, ends
the throttling of the peers at or below the falling threshold, and the next one ends at the next multiple of 50. A
hold whose time is reached ends, the peer's image joining the publication list. A subscription not yet due whose due
time is reached is due, its lateness the time since, held at 1000. In each case nothing else changes; where the unit
is not ON, the entry is absent or the time is not reached, the command changes nothing. -/
def Obligations.PeerTimersReached : Prop :=
  ∀ s : State, s.hw.inv = true → s.hw.unwatched = true →
    let l := s.hw.link;
    let now := s.hw.control.ms;
    let on := s.hw.on .link = true;
    (∀ p : Fin 8,
      let aged := fun (x : Peer) => l.settings.aging ≠ 0 ∧ 1000 * l.settings.aging ≤ x.silence;
      (∀ x, l.peer[p] = some x → on → aged x → Answers (.peerAged p) s fun d =>
        d.link = { l.withPeer p none with sub := d.link.sub, replies := l.replies.filter (fun r => r.tag != x.tag) }
        ∧ (∀ k : Fin 4, (∀ z : Subscription, l.sub[k] = some z → z.slot ≠ p) → d.link.sub[k] = l.sub[k])
        ∧ (s.hw.on .motor = true → ∀ m : Fin 4, s.hw.motor.ch[m].owner = .link p →
            d.motor.ch[m].owner = .none ∧ d.motor.ch[m].mode = .coast)
        ∧ (∀ m : Fin 4, s.hw.motor.ch[m].owner ≠ .link p → d.motor.ch[m] = s.hw.motor.ch[m])
        ∧ ((∀ m : Fin 4, s.hw.motor.ch[m].owner ≠ .link p) →
            d.ring = (s.hw.append .peerLeave (BitVec.ofNat 8 p.val) Code.expired.byte).ring)
        ∧ d.attention.pending[Cause.peer.idx] = true ∧ .peerImage p ∈ d.path.pubs ∧ .linkStatus ∈ d.path.pubs
        ∧ KeptBut [.link, .motor, .ring, .attention, .path] s.hw d)
      ∧ (¬ on ∨ (∀ x, l.peer[p] = some x → ¬ aged x) → exec (.peerAged p) s = .next s))
    ∧ (on → reached now l.stormEnd = true → Answers .stormWindowEnd s fun d =>
      d.link = { l with
        peer := l.peer.map (Option.map (fun x => { x with
          window := 0, throttled := x.throttled && decide (l.settings.falling < x.window) }))
        stormEnd := d.link.stormEnd }
      ∧ (now.toNat + 50 < 2 ^ 32 → d.link.stormEnd.toNat % 50 = 0 ∧ now.toNat < d.link.stormEnd.toNat
          ∧ d.link.stormEnd.toNat ≤ now.toNat + 50)
      ∧ KeptBut [.link, .path] s.hw d)
    ∧ (¬ on ∨ reached now l.stormEnd = false → exec .stormWindowEnd s = .next s)
    ∧ (∀ (p : Fin 8) (x : Peer) (t : Word), l.peer[p] = some x → x.held = some t → on → reached now t = true →
        Answers (.holdExpiry p) s fun d => d.link = l.withPeer p (some { x with held := none })
          ∧ d.path = s.hw.path.join (.peerImage p) ∧ KeptBut [.link, .path] s.hw d)
    ∧ (∀ p : Fin 8, (¬ on ∨ ∀ (x : Peer) (t : Word), l.peer[p] = some x → x.held = some t → reached now t = false) →
        exec (.holdExpiry p) s = .next s)
    ∧ (∀ (k : Fin 4) (x : Subscription), l.sub[k] = some x → on → x.due = false → reached now x.dueTime = true →
        Answers (.subscriptionDue k) s fun d =>
          d.link = { l with sub := l.sub.set k (some { x with due := true, lateness := min 1000 (now - x.dueTime).toNat }) }
          ∧ KeptBut [.link] s.hw d)
    ∧ (∀ k : Fin 4, (¬ on ∨ ∀ x : Subscription, l.sub[k] = some x → x.due = true ∨ reached now x.dueTime = false) →
        exec (.subscriptionDue k) s = .next s)

/-- LINK_SETTINGS_LATCH replaces the settings and ages peers; RELEASE_WORD returns a descriptor's blocks. With PRST
released, the invariant and no reflex entry watching; the WRITE is stored and answered DONE. Link settings, reported
with offset 0x0700: BAD_ARG for a field outside Table 9-4, else OFF with the unit not ON, else BAD_ARG for a driver
limit below the driver count, all taking nothing; else OK: settings equal to those in force change nothing more,
others replace them, remove the peers whose silence reaches the new aging time and judge the pool under the new marks,
and where no peer is removed nothing else changes. Release word: with the unit not ON the result OFF is reported with
offset 0x0B00; ON, a value above 15 or of an EMPTY descriptor increases the bad releases counter, BAD_ARG; of an
OCCUPIED one empties it, takes it out of the order and returns its blocks, the pool judged, OK; the last release
fields show the low byte of the value and the result, and the inbound status joins the publication list. Nothing else
changes. That OFF is reported while RESETTING too is the model's reading (log 15). -/
def Obligations.LinkLatchesTaken : Prop :=
  (∀ (s : State) (r : LinkRec), s.hw.ready = true →
    let l := s.hw.link;
    let stored := fun (d : Chip) => d.path.response = some (.done []) ∧ RecordStored .linkSettings r.toBytes s.hw d;
    let only := fun (code : Code) (d : Chip) => d.control = s.hw.control.reported 0x0700 code
      ∧ d.path = (s.hw.path.join .status).served (.done []) s.hw.control.ms ∧ stored d
      ∧ KeptBut [.control, .path, .mem, .shadow] s.hw d;
    let fits := r.lock.toNat ≤ 1 ∧ r.driverLimit.toNat ≤ 8 ∧ 1 ≤ r.rising.toNat ∧ r.falling.toNat < r.rising.toNat
      ∧ 1 ≤ r.low.toNat ∧ r.low.toNat ≤ 47 ∧ 2 ≤ r.high.toNat ∧ r.high.toNat ≤ 48 ∧ r.low.toNat < r.high.toNat
      ∧ 100 ≤ r.holdTimeout.toNat ∧ r.holdTimeout.toNat ≤ 2000;
    let x : LinkSettings := ⟨r.lock == 1, r.driverLimit.toNat, r.aging.toNat, r.rising.toNat, r.falling.toNat, r.low.toNat,
      r.high.toNat, r.holdTimeout.toNat⟩;
    let aged := fun (p : Fin 8) => ∃ y : Peer, l.peer[p] = some y ∧ x.aging ≠ 0 ∧ 1000 * x.aging ≤ y.silence;
    (¬ fits → Answers (.linkSettingsLatch r) s (only .badArg))
    ∧ (fits → s.hw.on .link = false → Answers (.linkSettingsLatch r) s (only .off))
    ∧ (fits → s.hw.on .link = true → x.driverLimit < l.driverCount → Answers (.linkSettingsLatch r) s (only .badArg))
    ∧ (fits → s.hw.on .link = true → l.driverCount ≤ x.driverLimit →
      (x = l.settings → Answers (.linkSettingsLatch r) s (only .ok))
      ∧ (x ≠ l.settings → Answers (.linkSettingsLatch r) s fun d =>
          let low := poolLowAt x l.free.length l.poolLow;
          d.link = { l with
            settings := x
            peer := d.link.peer
            sub := d.link.sub
            replies := d.link.replies
            poolLow := low
            poolFrame := poolFrameAt s.hw.linkUp l.poolLow low l.poolFrame }
          ∧ (∀ p, aged p → d.link.peer[p] = none) ∧ (∀ p, ¬ aged p → d.link.peer[p] = l.peer[p])
          ∧ ((∀ p, ¬ aged p) → d.link.sub = l.sub ∧ d.link.replies = l.replies
              ∧ KeptBut [.link, .control, .path, .mem, .shadow] s.hw d)
          ∧ d.control = s.hw.control.reported 0x0700 .ok ∧ .status ∈ d.path.pubs ∧ stored d
          ∧ KeptBut [.link, .motor, .ring, .attention, .control, .path, .mem, .shadow] s.hw d)))
  ∧ (∀ (s : State) (v : Word), s.hw.ready = true →
    let l := s.hw.link;
    let stored := fun (d : Chip) =>
      d.path.response = some (.done []) ∧ RecordStored .releaseWord (Bytes.ofWord v) s.hw d;
    let noted := fun (code : Code) (x : Link) => { x with releaseIndex := v.setWidth 8, releaseResult := code };
    (s.hw.on .link = false → Answers (.releaseWord v) s fun d => d.control = s.hw.control.reported 0x0B00 .off
      ∧ .status ∈ d.path.pubs ∧ stored d ∧ KeptBut [.control, .path, .mem, .shadow] s.hw d)
    ∧ (s.hw.on .link = true → (∀ k : Fin 16, v.toNat = k.val → l.desc[k] = none) → Answers (.releaseWord v) s fun d =>
        d.link = noted .badArg (l.counted 11) ∧ .linkStatus ∈ d.path.pubs ∧ .inboundStatus ∈ d.path.pubs ∧ stored d
        ∧ KeptBut [.link, .path, .mem, .shadow] s.hw d)
    ∧ (∀ (k : Fin 16) (x : Descriptor), s.hw.on .link = true → v.toNat = k.val → l.desc[k] = some x →
        Answers (.releaseWord v) s fun d =>
          d.link = noted .ok (Link.returned s.hw.linkUp x.blocks { l with
            desc := l.desc.set k none, order := l.order.filter (fun j => j != k) })
          ∧ .inboundDesc k ∈ d.path.pubs ∧ .inboundStatus ∈ d.path.pubs ∧ stored d
          ∧ KeptBut [.link, .path, .mem, .shadow] s.hw d))

/-- SEND queues an outbound slot or ends it at once; OUTBOUND_NONE changes nothing else. With PRST released, the invariant
and no reflex entry watching; the WRITE is stored and answered DONE, and the latch result stands in the slot's status,
which joins the publication list. Link unit ON: OUTBOUND_NONE is OK; SEND to a slot QUEUED or SENDING is BUSY; with a
length above 1000 the slot is DONE with BAD_ARG, the latch result BAD_ARG; with the link DOWN it is DONE with
LINK_DOWN, the latch result OK; otherwise it is QUEUED with the destination and length of the header, its index last
in the order, OK. DONE sets the done time and raises SEND. With the unit OFF the result is OFF, and while RESETTING
none is written. Nothing else changes. That no result is written while RESETTING is the model's reading of R29 (log
15), and that a queued slot shows done result OK (0) is that of log 30. -/
def Obligations.OutboundSlotLatched : Prop :=
  ∀ (s : State) (k : Fin 4) (r : OutRec), s.hw.ready = true →
    let l := s.hw.link;
    let o := l.out[k];
    let now := s.hw.control.ms;
    let stored := fun (n : Nat) (d : Chip) => d.path.response = some (.done [])
      ∧ RecordStored (.outHeader k) (r.toBytes n) s.hw d;
    let only := fun (n : Nat) (x : OutSlot) (d : Chip) => d.link = { l with out := l.out.set k x }
      ∧ d.path = (s.hw.path.join (.outStatus k)).served (.done []) now ∧ stored n d
      ∧ KeptBut [.link, .path, .mem, .shadow] s.hw d;
    let ended := fun (done code : Code) (d : Chip) =>
      d.link = { l with
        out := l.out.set k { o with state := .done, doneResult := done, doneTime := now, latchResult := code } }
      ∧ d.attention.pending = s.hw.attention.pending.set Cause.send.idx true ∧ .outStatus k ∈ d.path.pubs ∧ stored 1 d
      ∧ KeptBut [.link, .attention, .path, .mem, .shadow] s.hw d;
    let busy := o.state = .queued ∨ o.state = .sending;
    (s.hw.on .link = true → Answers (.outboundNone k r) s (only 0 { o with latchResult := .ok }))
    ∧ (s.hw.on .link = true →
      (busy → Answers (.send k r) s (only 1 { o with latchResult := .busy }))
      ∧ (¬ busy → 1000 < r.length.toNat → Answers (.send k r) s (ended .badArg .badArg))
      ∧ (¬ busy → r.length.toNat ≤ 1000 → s.hw.pins.linkReady = false → Answers (.send k r) s (ended .linkDown .ok))
      ∧ (¬ busy → r.length.toNat ≤ 1000 → s.hw.pins.linkReady = true → Answers (.send k r) s fun d =>
          d.link = { l with
            out := l.out.set k { o with
              state := .queued, doneResult := .ok, dest := r.dest, length := r.length.toNat, latchResult := .ok }
            outOrder := l.outOrder ++ [k] }
          ∧ d.path = (s.hw.path.join (.outStatus k)).served (.done []) now ∧ stored 1 d
          ∧ KeptBut [.link, .path, .mem, .shadow] s.hw d))
    ∧ (s.hw.on .link = false → s.hw.resetting .link = false →
        Answers (.outboundNone k r) s (only 0 { o with latchResult := .off })
        ∧ Answers (.send k r) s (only 1 { o with latchResult := .off }))
    ∧ (s.hw.resetting .link = true → ∀ i n, (i, n) ∈ [(Instr.outboundNone k r, 0), (.send k r, 1)] →
        Answers i s fun d => d.path = s.hw.path.served (.done []) now ∧ stored n d
          ∧ KeptBut [.path, .mem, .shadow] s.hw d)

/-- TRANSMIT_BEGIN begins the first frame available: pool frame, reply, alarm, outbound slot, due subscription. With the
link UP and no frame being sent, each frame takes the part's sequence, which increases. The pending pool frame is
begun first, to all, with no payload; else the oldest reply whose destination is not held; else, with no peer held,
the oldest alarm, to all, with its index; else the oldest queued slot whose destination is not held (for destination
0, no peer held): it leaves the order, and is SENDING with a fetch of its first stretch placed, or, with length 0, its
MAIL frame begun at once; with its destination gone it is DONE with NO_PEER and SEND is raised, and nothing is sent
where it was alone and no subscription is due; else the due subscription of a subscriber not held with the greatest
lateness, the lowest of equals: its REPORT carries OK, mask and channel data, or OFF and mask, its count increases and
its due time moves by one period, or to now plus the period once the lateness has reached it. With nothing available,
the link DOWN or a frame being sent, nothing changes. -/
def Obligations.TransmitterChooses : Prop :=
  ∀ s : State, s.hw.inv = true →
    let l := s.hw.link;
    let now := s.hw.control.ms;
    let held := fun (tag : Word) => ∃ (p : Fin 8) (x : Peer), l.peer[p] = some x ∧ x.tag = tag ∧ x.held ≠ none;
    let anyone := ∃ (p : Fin 8) (x : Peer), l.peer[p] = some x ∧ x.held ≠ none;
    let begun := fun (dest : Word) (kind : Byte) (payload : List Byte) (from' : Link) =>
      { from' with tx := some ⟨dest, kind, l.txSeq, payload, none⟩, txSeq := l.txSeq + 1 };
    let free := fun (k : Fin 4) => if l.out[k].dest = 0 then ¬ anyone else ¬ held l.out[k].dest;
    let due := fun (k : Fin 4) (x : Subscription) => l.sub[k] = some x ∧ x.due = true
      ∧ ∀ y : Peer, l.peer[x.slot] = some y → y.held = none;
    let noPool := l.poolFrame = .none;
    let noReply := ∀ q ∈ l.replies, held q.tag;
    let noAlarm := l.alarms = [] ∨ anyone;
    let noReport := ∀ (k : Fin 4) (x : Subscription), ¬ due k x;
    (s.hw.linkUp = false ∨ l.tx ≠ none → exec .transmitBegin s = .next s)
    ∧ (s.hw.linkUp = true → l.tx = none →
      (∀ frame kind, (frame, kind) ∈ [(PoolFrame.hold, (0x30 : Byte)), (.resume, 0x31)] → l.poolFrame = frame →
        Answers .transmitBegin s fun d =>
          d.link = begun 0 kind [] { l with poolFrame := .none } ∧ KeptBut [.link] s.hw d)
      ∧ (∀ before q after, noPool → l.replies = before ++ q :: after → (∀ z ∈ before, held z.tag) → ¬ held q.tag →
        Answers .transmitBegin s fun d =>
          d.link = begun q.tag 0x40 q.payload { l with replies := before ++ after } ∧ KeptBut [.link] s.hw d)
      ∧ (∀ e rest, noPool → noReply → l.alarms = e :: rest → ¬ anyone → Answers .transmitBegin s fun d =>
          d.link = begun 0 0x42 [BitVec.ofNat 8 e.val] { l with alarms := rest } ∧ KeptBut [.link] s.hw d)
      ∧ (∀ before k after, noPool → noReply → noAlarm → l.outOrder = before ++ k :: after → (∀ j ∈ before, ¬ free j) →
        free k →
        let o := l.out[k];
        let taken : Link := { l with outOrder := l.outOrder.filter (fun j => j != k) };
        let gone := o.dest ≠ 0 ∧ s.hw.stranger o.dest;
        (gone → before = [] → after = [] → noReport → Answers .transmitBegin s fun d =>
          d.link = { taken with out := l.out.set k { o with state := .done, doneResult := .noPeer, doneTime := now } }
          ∧ d.attention.pending = s.hw.attention.pending.set Cause.send.idx true ∧ .outStatus k ∈ d.path.pubs
          ∧ KeptBut [.link, .attention, .path] s.hw d)
        ∧ (¬ gone → o.length = 0 → Answers .transmitBegin s fun d =>
          d.link = { taken with
            out := l.out.set k { o with state := .sending, frameSeq := l.txSeq }
            tx := some ⟨o.dest, 0x20, l.txSeq, [], some ⟨k, 0, true, 0, 0, false⟩⟩
            txSeq := l.txSeq + 1 }
          ∧ d.path = s.hw.path.join (.outStatus k) ∧ KeptBut [.link, .path] s.hw d)
        ∧ (¬ gone → 0 < o.length → Answers .transmitBegin s fun d =>
          d.link = { taken with
            out := l.out.set k { o with state := .sending }
            tx := some ⟨o.dest, 0x20, 0, [], some ⟨k, o.length, false, 0, 0, true⟩⟩ }
          ∧ d.path = { s.hw.path.join (.outStatus k) with
              parts := s.hw.path.parts ++ [.bodyFetch (0xFF1000 + 1024 * k.val) ((min 64 o.length + 3) / 4)] }
          ∧ KeptBut [.link, .path] s.hw d))
      ∧ (∀ k x, noPool → noReply → noAlarm → (∀ j ∈ l.outOrder, ¬ free j) → due k x →
        (∀ j y, due j y → y.lateness < x.lateness ∨ (y.lateness = x.lateness ∧ k ≤ j)) →
        Answers .transmitBegin s fun d =>
          d.link = begun x.tag 0x41
            (if s.hw.on .sense then [Code.ok.byte, x.mask] ++ maskData s.hw.sense x.mask else [Code.off.byte, x.mask])
            { l with sub := l.sub.set k (some { x with
                begun := x.begun + 1, due := false, lateness := 0,
                dueTime := (if x.lateness < x.period then x.dueTime else now) + BitVec.ofNat 32 x.period }) }
          ∧ .subImage k ∈ d.path.pubs ∧ KeptBut [.link, .path] s.hw d)
      ∧ (noPool → noReply → noAlarm → (∀ j ∈ l.outOrder, ¬ free j) → noReport → exec .transmitBegin s = .next s))

/-- BODY_FETCH_DONE, BODY_BUFFER_SENT and TRANSMIT_END carry a frame to its last CRC byte and end its slot. With the
invariant. A body fetch that completes frees the port and, unless withdrawn, adds its bytes (at most 64, no more than
the body has left) to the payload; a frame that waited for it begins with the part's sequence, which the slot's status
shows. A buffer sent makes room. After each, the fetch of the next stretch, 64 bytes or what is left rounded up to
words, is placed while none waits, bytes remain and a buffer is free (the model's reading of the two buffers, log 19).
At the end of a frame the transmitter is IDLE and the bytes sent, which the model keeps in a field of its own
(lastFrame, log 23), are sync, length, destination, sequence, kind, payload and CRC, low bytes first; a slot's frame
makes it DONE with OK at the counter's time and raises SEND, and not before its body has been sent. Nothing else
changes; with no frame being sent the last two change nothing. -/
def Obligations.FrameBodySentAndEnded : Prop :=
  ∀ s : State, s.hw.inv = true →
    let l := s.hw.link;
    let count := fun (x : MailTx) => (x.length + 63) / 64;
    let more := fun (x : MailTx) => decide (x.fetching = false ∧ x.fetched < count x ∧ x.fetched < x.sent + 2);
    let fetch := fun (x : MailTx) => PartReq.bodyFetch (0xFF1000 + 1024 * x.slot.val + 64 * x.fetched)
      ((min 64 (x.length - 64 * x.fetched) + 3) / 4);
    let next := fun (x : MailTx) => { x with fetching := x.fetching || more x };
    let asked := fun (x : MailTx) => if more x then [fetch x] else [];
    (∀ (a words : Nat) (w : Bool), s.hw.path.port = some (.part (.bodyFetch a words) w) →
      (w = true → Answers .bodyFetchDone s fun d => d.path = { s.hw.path with port := none } ∧ KeptBut [.path] s.hw d)
      ∧ (∀ (t : Sending) (x : MailTx), w = false → l.tx = some t → t.mail = some x →
        let payload := t.payload ++ (s.hw.mem.bytes (4 * words) a).take (min 64 (x.length - 64 * x.fetched));
        let y : MailTx := { x with fetched := x.fetched + 1, fetching := false };
        (x.begun = true → Answers .bodyFetchDone s fun d =>
          d.link = { l with tx := some { t with payload := payload, mail := some (next y) } }
          ∧ d.path = { s.hw.path with port := none, parts := s.hw.path.parts ++ asked y }
          ∧ KeptBut [.link, .path] s.hw d)
        ∧ (x.begun = false → Answers .bodyFetchDone s fun d =>
          let z : MailTx := { y with begun := true };
          d.link = { l with
            tx := some { t with seq := l.txSeq, payload := payload, mail := some (next z) }
            txSeq := l.txSeq + 1
            out := l.out.set x.slot { l.out[x.slot] with frameSeq := l.txSeq } }
          ∧ d.path.parts = s.hw.path.parts ++ asked z ∧ d.path.port = none ∧ .outStatus x.slot ∈ d.path.pubs
          ∧ KeptBut [.link, .path] s.hw d)))
    ∧ (∀ (t : Sending) (x : MailTx), l.tx = some t → t.mail = some x →
      (x.begun = true → x.sent < x.fetched → Answers .bodyBufferSent s fun d =>
        let y : MailTx := { x with sent := x.sent + 1 };
        d.link = { l with tx := some { t with mail := some (next y) } }
        ∧ d.path = { s.hw.path with parts := s.hw.path.parts ++ asked y } ∧ KeptBut [.link, .path] s.hw d)
      ∧ (x.begun = false ∨ x.fetched ≤ x.sent → exec .bodyBufferSent s = .next s)
      ∧ (x.begun = false ∨ x.sent ≠ count x → exec .transmitEnd s = .next s))
    ∧ (∀ t : Sending, l.tx = some t →
      let body := Bytes.ofHalf (BitVec.ofNat 16 t.payload.length) ++ Bytes.ofWord t.dest ++ [t.seq, t.kind] ++ t.payload;
      let idle : Link := { l with tx := none, lastFrame := [0x5A] ++ body ++ Bytes.ofHalf (crc16 body) };
      (t.mail = none → Answers .transmitEnd s fun d => d.link = idle ∧ KeptBut [.link] s.hw d)
      ∧ (∀ x : MailTx, t.mail = some x → x.begun = true → x.sent = count x → Answers .transmitEnd s fun d =>
        d.link = { idle with
          out := l.out.set x.slot { l.out[x.slot] with
            state := .done, doneResult := .ok, doneTime := s.hw.control.ms } }
        ∧ d.attention.pending = s.hw.attention.pending.set Cause.send.idx true ∧ .outStatus x.slot ∈ d.path.pubs
        ∧ KeptBut [.link, .attention, .path] s.hw d))
    ∧ (l.tx = none → exec .bodyBufferSent s = .next s ∧ exec .transmitEnd s = .next s)

end
end

