-- ==== Sys2Proof/Laws/State.lean ====
section
/-! SUPPORT. What each named update of one unit leaves unchanged, field by field. -/

namespace Sys2Proof.Machine.Chip

@[simp] theorem modCh_pins (m : Fin 4) (f : Channel → Channel) (c : Chip) : (modCh m f c).pins = c.pins := rfl
@[simp] theorem modCh_control (m : Fin 4) (f : Channel → Channel) (c : Chip) : (modCh m f c).control = c.control := rfl
@[simp] theorem modCh_ring (m : Fin 4) (f : Channel → Channel) (c : Chip) : (modCh m f c).ring = c.ring := rfl
@[simp] theorem modCh_attention (m : Fin 4) (f : Channel → Channel) (c : Chip) : (modCh m f c).attention = c.attention := rfl
@[simp] theorem modCh_path (m : Fin 4) (f : Channel → Channel) (c : Chip) : (modCh m f c).path = c.path := rfl
@[simp] theorem modCh_sense (m : Fin 4) (f : Channel → Channel) (c : Chip) : (modCh m f c).sense = c.sense := rfl
@[simp] theorem modCh_input (m : Fin 4) (f : Channel → Channel) (c : Chip) : (modCh m f c).input = c.input := rfl
@[simp] theorem modCh_reflex (m : Fin 4) (f : Channel → Channel) (c : Chip) : (modCh m f c).reflex = c.reflex := rfl
@[simp] theorem modCh_sound (m : Fin 4) (f : Channel → Channel) (c : Chip) : (modCh m f c).sound = c.sound := rfl
@[simp] theorem modCh_link (m : Fin 4) (f : Channel → Channel) (c : Chip) : (modCh m f c).link = c.link := rfl
@[simp] theorem modCh_mem (m : Fin 4) (f : Channel → Channel) (c : Chip) : (modCh m f c).mem = c.mem := rfl
@[simp] theorem modCh_shadow (m : Fin 4) (f : Channel → Channel) (c : Chip) : (modCh m f c).shadow = c.shadow := rfl

@[simp] theorem modSlot_pins (ch : Fin 8) (f : SampleSlot → SampleSlot) (c : Chip) : (modSlot ch f c).pins = c.pins := rfl
@[simp] theorem modSlot_control (ch : Fin 8) (f : SampleSlot → SampleSlot) (c : Chip) : (modSlot ch f c).control = c.control := rfl
@[simp] theorem modSlot_ring (ch : Fin 8) (f : SampleSlot → SampleSlot) (c : Chip) : (modSlot ch f c).ring = c.ring := rfl
@[simp] theorem modSlot_attention (ch : Fin 8) (f : SampleSlot → SampleSlot) (c : Chip) : (modSlot ch f c).attention = c.attention := rfl
@[simp] theorem modSlot_path (ch : Fin 8) (f : SampleSlot → SampleSlot) (c : Chip) : (modSlot ch f c).path = c.path := rfl
@[simp] theorem modSlot_motor (ch : Fin 8) (f : SampleSlot → SampleSlot) (c : Chip) : (modSlot ch f c).motor = c.motor := rfl
@[simp] theorem modSlot_input (ch : Fin 8) (f : SampleSlot → SampleSlot) (c : Chip) : (modSlot ch f c).input = c.input := rfl
@[simp] theorem modSlot_reflex (ch : Fin 8) (f : SampleSlot → SampleSlot) (c : Chip) : (modSlot ch f c).reflex = c.reflex := rfl
@[simp] theorem modSlot_sound (ch : Fin 8) (f : SampleSlot → SampleSlot) (c : Chip) : (modSlot ch f c).sound = c.sound := rfl
@[simp] theorem modSlot_link (ch : Fin 8) (f : SampleSlot → SampleSlot) (c : Chip) : (modSlot ch f c).link = c.link := rfl
@[simp] theorem modSlot_mem (ch : Fin 8) (f : SampleSlot → SampleSlot) (c : Chip) : (modSlot ch f c).mem = c.mem := rfl
@[simp] theorem modSlot_shadow (ch : Fin 8) (f : SampleSlot → SampleSlot) (c : Chip) : (modSlot ch f c).shadow = c.shadow := rfl

@[simp] theorem modInput_pins (n : Fin 11) (f : InputLine → InputLine) (c : Chip) : (modInput n f c).pins = c.pins := rfl
@[simp] theorem modInput_control (n : Fin 11) (f : InputLine → InputLine) (c : Chip) : (modInput n f c).control = c.control := rfl
@[simp] theorem modInput_ring (n : Fin 11) (f : InputLine → InputLine) (c : Chip) : (modInput n f c).ring = c.ring := rfl
@[simp] theorem modInput_attention (n : Fin 11) (f : InputLine → InputLine) (c : Chip) : (modInput n f c).attention = c.attention := rfl
@[simp] theorem modInput_path (n : Fin 11) (f : InputLine → InputLine) (c : Chip) : (modInput n f c).path = c.path := rfl
@[simp] theorem modInput_motor (n : Fin 11) (f : InputLine → InputLine) (c : Chip) : (modInput n f c).motor = c.motor := rfl
@[simp] theorem modInput_sense (n : Fin 11) (f : InputLine → InputLine) (c : Chip) : (modInput n f c).sense = c.sense := rfl
@[simp] theorem modInput_reflex (n : Fin 11) (f : InputLine → InputLine) (c : Chip) : (modInput n f c).reflex = c.reflex := rfl
@[simp] theorem modInput_sound (n : Fin 11) (f : InputLine → InputLine) (c : Chip) : (modInput n f c).sound = c.sound := rfl
@[simp] theorem modInput_link (n : Fin 11) (f : InputLine → InputLine) (c : Chip) : (modInput n f c).link = c.link := rfl
@[simp] theorem modInput_mem (n : Fin 11) (f : InputLine → InputLine) (c : Chip) : (modInput n f c).mem = c.mem := rfl
@[simp] theorem modInput_shadow (n : Fin 11) (f : InputLine → InputLine) (c : Chip) : (modInput n f c).shadow = c.shadow := rfl

@[simp] theorem modEntry_pins (i : Fin 8) (f : ReflexEntry → ReflexEntry) (c : Chip) : (modEntry i f c).pins = c.pins := rfl
@[simp] theorem modEntry_control (i : Fin 8) (f : ReflexEntry → ReflexEntry) (c : Chip) : (modEntry i f c).control = c.control := rfl
@[simp] theorem modEntry_ring (i : Fin 8) (f : ReflexEntry → ReflexEntry) (c : Chip) : (modEntry i f c).ring = c.ring := rfl
@[simp] theorem modEntry_attention (i : Fin 8) (f : ReflexEntry → ReflexEntry) (c : Chip) : (modEntry i f c).attention = c.attention := rfl
@[simp] theorem modEntry_path (i : Fin 8) (f : ReflexEntry → ReflexEntry) (c : Chip) : (modEntry i f c).path = c.path := rfl
@[simp] theorem modEntry_motor (i : Fin 8) (f : ReflexEntry → ReflexEntry) (c : Chip) : (modEntry i f c).motor = c.motor := rfl
@[simp] theorem modEntry_sense (i : Fin 8) (f : ReflexEntry → ReflexEntry) (c : Chip) : (modEntry i f c).sense = c.sense := rfl
@[simp] theorem modEntry_input (i : Fin 8) (f : ReflexEntry → ReflexEntry) (c : Chip) : (modEntry i f c).input = c.input := rfl
@[simp] theorem modEntry_sound (i : Fin 8) (f : ReflexEntry → ReflexEntry) (c : Chip) : (modEntry i f c).sound = c.sound := rfl
@[simp] theorem modEntry_link (i : Fin 8) (f : ReflexEntry → ReflexEntry) (c : Chip) : (modEntry i f c).link = c.link := rfl
@[simp] theorem modEntry_mem (i : Fin 8) (f : ReflexEntry → ReflexEntry) (c : Chip) : (modEntry i f c).mem = c.mem := rfl
@[simp] theorem modEntry_shadow (i : Fin 8) (f : ReflexEntry → ReflexEntry) (c : Chip) : (modEntry i f c).shadow = c.shadow := rfl

@[simp] theorem modPeer_pins (p : Fin 8) (f : Peer → Peer) (c : Chip) : (modPeer p f c).pins = c.pins := rfl
@[simp] theorem modPeer_control (p : Fin 8) (f : Peer → Peer) (c : Chip) : (modPeer p f c).control = c.control := rfl
@[simp] theorem modPeer_ring (p : Fin 8) (f : Peer → Peer) (c : Chip) : (modPeer p f c).ring = c.ring := rfl
@[simp] theorem modPeer_attention (p : Fin 8) (f : Peer → Peer) (c : Chip) : (modPeer p f c).attention = c.attention := rfl
@[simp] theorem modPeer_path (p : Fin 8) (f : Peer → Peer) (c : Chip) : (modPeer p f c).path = c.path := rfl
@[simp] theorem modPeer_motor (p : Fin 8) (f : Peer → Peer) (c : Chip) : (modPeer p f c).motor = c.motor := rfl
@[simp] theorem modPeer_sense (p : Fin 8) (f : Peer → Peer) (c : Chip) : (modPeer p f c).sense = c.sense := rfl
@[simp] theorem modPeer_input (p : Fin 8) (f : Peer → Peer) (c : Chip) : (modPeer p f c).input = c.input := rfl
@[simp] theorem modPeer_reflex (p : Fin 8) (f : Peer → Peer) (c : Chip) : (modPeer p f c).reflex = c.reflex := rfl
@[simp] theorem modPeer_sound (p : Fin 8) (f : Peer → Peer) (c : Chip) : (modPeer p f c).sound = c.sound := rfl
@[simp] theorem modPeer_mem (p : Fin 8) (f : Peer → Peer) (c : Chip) : (modPeer p f c).mem = c.mem := rfl
@[simp] theorem modPeer_shadow (p : Fin 8) (f : Peer → Peer) (c : Chip) : (modPeer p f c).shadow = c.shadow := rfl

@[simp] theorem setSub_pins (k : Fin 4) (x : Option Subscription) (c : Chip) : (setSub k x c).pins = c.pins := rfl
@[simp] theorem setSub_control (k : Fin 4) (x : Option Subscription) (c : Chip) : (setSub k x c).control = c.control := rfl
@[simp] theorem setSub_ring (k : Fin 4) (x : Option Subscription) (c : Chip) : (setSub k x c).ring = c.ring := rfl
@[simp] theorem setSub_attention (k : Fin 4) (x : Option Subscription) (c : Chip) : (setSub k x c).attention = c.attention := rfl
@[simp] theorem setSub_path (k : Fin 4) (x : Option Subscription) (c : Chip) : (setSub k x c).path = c.path := rfl
@[simp] theorem setSub_motor (k : Fin 4) (x : Option Subscription) (c : Chip) : (setSub k x c).motor = c.motor := rfl
@[simp] theorem setSub_sense (k : Fin 4) (x : Option Subscription) (c : Chip) : (setSub k x c).sense = c.sense := rfl
@[simp] theorem setSub_input (k : Fin 4) (x : Option Subscription) (c : Chip) : (setSub k x c).input = c.input := rfl
@[simp] theorem setSub_reflex (k : Fin 4) (x : Option Subscription) (c : Chip) : (setSub k x c).reflex = c.reflex := rfl
@[simp] theorem setSub_sound (k : Fin 4) (x : Option Subscription) (c : Chip) : (setSub k x c).sound = c.sound := rfl
@[simp] theorem setSub_mem (k : Fin 4) (x : Option Subscription) (c : Chip) : (setSub k x c).mem = c.mem := rfl
@[simp] theorem setSub_shadow (k : Fin 4) (x : Option Subscription) (c : Chip) : (setSub k x c).shadow = c.shadow := rfl

@[simp] theorem modOut_pins (k : Fin 4) (f : OutSlot → OutSlot) (c : Chip) : (modOut k f c).pins = c.pins := rfl
@[simp] theorem modOut_control (k : Fin 4) (f : OutSlot → OutSlot) (c : Chip) : (modOut k f c).control = c.control := rfl
@[simp] theorem modOut_ring (k : Fin 4) (f : OutSlot → OutSlot) (c : Chip) : (modOut k f c).ring = c.ring := rfl
@[simp] theorem modOut_attention (k : Fin 4) (f : OutSlot → OutSlot) (c : Chip) : (modOut k f c).attention = c.attention := rfl
@[simp] theorem modOut_path (k : Fin 4) (f : OutSlot → OutSlot) (c : Chip) : (modOut k f c).path = c.path := rfl
@[simp] theorem modOut_motor (k : Fin 4) (f : OutSlot → OutSlot) (c : Chip) : (modOut k f c).motor = c.motor := rfl
@[simp] theorem modOut_sense (k : Fin 4) (f : OutSlot → OutSlot) (c : Chip) : (modOut k f c).sense = c.sense := rfl
@[simp] theorem modOut_input (k : Fin 4) (f : OutSlot → OutSlot) (c : Chip) : (modOut k f c).input = c.input := rfl
@[simp] theorem modOut_reflex (k : Fin 4) (f : OutSlot → OutSlot) (c : Chip) : (modOut k f c).reflex = c.reflex := rfl
@[simp] theorem modOut_sound (k : Fin 4) (f : OutSlot → OutSlot) (c : Chip) : (modOut k f c).sound = c.sound := rfl
@[simp] theorem modOut_mem (k : Fin 4) (f : OutSlot → OutSlot) (c : Chip) : (modOut k f c).mem = c.mem := rfl
@[simp] theorem modOut_shadow (k : Fin 4) (f : OutSlot → OutSlot) (c : Chip) : (modOut k f c).shadow = c.shadow := rfl

@[simp] theorem writeMem_pins (a : Nat) (bs : List Byte) (c : Chip) : (writeMem a bs c).pins = c.pins := rfl
@[simp] theorem writeMem_control (a : Nat) (bs : List Byte) (c : Chip) : (writeMem a bs c).control = c.control := rfl
@[simp] theorem writeMem_ring (a : Nat) (bs : List Byte) (c : Chip) : (writeMem a bs c).ring = c.ring := rfl
@[simp] theorem writeMem_attention (a : Nat) (bs : List Byte) (c : Chip) : (writeMem a bs c).attention = c.attention := rfl
@[simp] theorem writeMem_path (a : Nat) (bs : List Byte) (c : Chip) : (writeMem a bs c).path = c.path := rfl
@[simp] theorem writeMem_motor (a : Nat) (bs : List Byte) (c : Chip) : (writeMem a bs c).motor = c.motor := rfl
@[simp] theorem writeMem_sense (a : Nat) (bs : List Byte) (c : Chip) : (writeMem a bs c).sense = c.sense := rfl
@[simp] theorem writeMem_input (a : Nat) (bs : List Byte) (c : Chip) : (writeMem a bs c).input = c.input := rfl
@[simp] theorem writeMem_reflex (a : Nat) (bs : List Byte) (c : Chip) : (writeMem a bs c).reflex = c.reflex := rfl
@[simp] theorem writeMem_sound (a : Nat) (bs : List Byte) (c : Chip) : (writeMem a bs c).sound = c.sound := rfl
@[simp] theorem writeMem_link (a : Nat) (bs : List Byte) (c : Chip) : (writeMem a bs c).link = c.link := rfl
@[simp] theorem writeMem_shadow (a : Nat) (bs : List Byte) (c : Chip) : (writeMem a bs c).shadow = c.shadow := rfl

@[simp] theorem setShadow_pins (r : RecId) (bs : List Byte) (c : Chip) : (setShadow r bs c).pins = c.pins := rfl
@[simp] theorem setShadow_control (r : RecId) (bs : List Byte) (c : Chip) : (setShadow r bs c).control = c.control := rfl
@[simp] theorem setShadow_ring (r : RecId) (bs : List Byte) (c : Chip) : (setShadow r bs c).ring = c.ring := rfl
@[simp] theorem setShadow_attention (r : RecId) (bs : List Byte) (c : Chip) : (setShadow r bs c).attention = c.attention := rfl
@[simp] theorem setShadow_path (r : RecId) (bs : List Byte) (c : Chip) : (setShadow r bs c).path = c.path := rfl
@[simp] theorem setShadow_motor (r : RecId) (bs : List Byte) (c : Chip) : (setShadow r bs c).motor = c.motor := rfl
@[simp] theorem setShadow_sense (r : RecId) (bs : List Byte) (c : Chip) : (setShadow r bs c).sense = c.sense := rfl
@[simp] theorem setShadow_input (r : RecId) (bs : List Byte) (c : Chip) : (setShadow r bs c).input = c.input := rfl
@[simp] theorem setShadow_reflex (r : RecId) (bs : List Byte) (c : Chip) : (setShadow r bs c).reflex = c.reflex := rfl
@[simp] theorem setShadow_sound (r : RecId) (bs : List Byte) (c : Chip) : (setShadow r bs c).sound = c.sound := rfl
@[simp] theorem setShadow_link (r : RecId) (bs : List Byte) (c : Chip) : (setShadow r bs c).link = c.link := rfl
@[simp] theorem setShadow_mem (r : RecId) (bs : List Byte) (c : Chip) : (setShadow r bs c).mem = c.mem := rfl

@[simp] theorem place_pins (q : PartReq) (c : Chip) : (place q c).pins = c.pins := rfl
@[simp] theorem place_control (q : PartReq) (c : Chip) : (place q c).control = c.control := rfl
@[simp] theorem place_ring (q : PartReq) (c : Chip) : (place q c).ring = c.ring := rfl
@[simp] theorem place_attention (q : PartReq) (c : Chip) : (place q c).attention = c.attention := rfl
@[simp] theorem place_motor (q : PartReq) (c : Chip) : (place q c).motor = c.motor := rfl
@[simp] theorem place_sense (q : PartReq) (c : Chip) : (place q c).sense = c.sense := rfl
@[simp] theorem place_input (q : PartReq) (c : Chip) : (place q c).input = c.input := rfl
@[simp] theorem place_reflex (q : PartReq) (c : Chip) : (place q c).reflex = c.reflex := rfl
@[simp] theorem place_sound (q : PartReq) (c : Chip) : (place q c).sound = c.sound := rfl
@[simp] theorem place_link (q : PartReq) (c : Chip) : (place q c).link = c.link := rfl
@[simp] theorem place_mem (q : PartReq) (c : Chip) : (place q c).mem = c.mem := rfl
@[simp] theorem place_shadow (q : PartReq) (c : Chip) : (place q c).shadow = c.shadow := rfl

/-! What the updates of one element set. -/

@[simp] theorem modCh_same (m : Fin 4) (f : Channel → Channel) (c : Chip) :
    (modCh m f c).motor.ch[m] = f c.motor.ch[m] := by simp [modCh]

theorem modCh_other (m k : Fin 4) (f : Channel → Channel) (c : Chip) (h : k ≠ m) :
    (modCh m f c).motor.ch[k] = c.motor.ch[k] := by
  have h' : m.val ≠ k.val := fun e => h (Fin.ext e.symm)
  simp [modCh, h']

@[simp] theorem modCh_windowEnd (m : Fin 4) (f : Channel → Channel) (c : Chip) :
    (modCh m f c).motor.windowEnd = c.motor.windowEnd := rfl

@[simp] theorem modSlot_same (ch : Fin 8) (f : SampleSlot → SampleSlot) (c : Chip) :
    (modSlot ch f c).sense.slots[ch] = f c.sense.slots[ch] := by simp [modSlot]

theorem modSlot_other (ch k : Fin 8) (f : SampleSlot → SampleSlot) (c : Chip) (h : k ≠ ch) :
    (modSlot ch f c).sense.slots[k] = c.sense.slots[k] := by
  have h' : ch.val ≠ k.val := fun e => h (Fin.ext e.symm)
  simp [modSlot, h']

@[simp] theorem modInput_same (n : Fin 11) (f : InputLine → InputLine) (c : Chip) :
    (modInput n f c).input.line[n] = f c.input.line[n] := by simp [modInput]

theorem modInput_other (n k : Fin 11) (f : InputLine → InputLine) (c : Chip) (h : k ≠ n) :
    (modInput n f c).input.line[k] = c.input.line[k] := by
  have h' : n.val ≠ k.val := fun e => h (Fin.ext e.symm)
  simp [modInput, h']

@[simp] theorem modEntry_same (i : Fin 8) (f : ReflexEntry → ReflexEntry) (c : Chip) :
    (modEntry i f c).reflex.entry[i] = f c.reflex.entry[i] := by simp [modEntry]

theorem modEntry_other (i k : Fin 8) (f : ReflexEntry → ReflexEntry) (c : Chip) (h : k ≠ i) :
    (modEntry i f c).reflex.entry[k] = c.reflex.entry[k] := by
  have h' : i.val ≠ k.val := fun e => h (Fin.ext e.symm)
  simp [modEntry, h']

@[simp] theorem modOut_same (k : Fin 4) (f : OutSlot → OutSlot) (c : Chip) :
    (modOut k f c).link.out[k] = f c.link.out[k] := by simp [modOut]

theorem modOut_other (k j : Fin 4) (f : OutSlot → OutSlot) (c : Chip) (h : j ≠ k) :
    (modOut k f c).link.out[j] = c.link.out[j] := by
  have h' : k.val ≠ j.val := fun e => h (Fin.ext e.symm)
  simp [modOut, h']

@[simp] theorem modPeer_same (p : Fin 8) (f : Peer → Peer) (c : Chip) :
    (modPeer p f c).link.peer[p] = c.link.peer[p].map f := by simp [modPeer]

theorem modPeer_other (p k : Fin 8) (f : Peer → Peer) (c : Chip) (h : k ≠ p) :
    (modPeer p f c).link.peer[k] = c.link.peer[k] := by
  have h' : p.val ≠ k.val := fun e => h (Fin.ext e.symm)
  simp [modPeer, h']

@[simp] theorem setSub_same (k : Fin 4) (x : Option Subscription) (c : Chip) :
    (setSub k x c).link.sub[k] = x := by simp [setSub]

@[simp] theorem on_of_control (c : Chip) (k : Control) (u : BlockUnit) :
    on { c with control := k } u = (k.block.get u == .on) := rfl

end Sys2Proof.Machine.Chip
end

