-- ==== Sys2Proof/Laws/Keeps.lean ====
section
/-! SUPPORT. What each shared operation leaves unchanged: one lemma for each, whose parts simp uses one by one. -/

namespace Sys2Proof.Machine

@[simp] theorem Attention.review_enabled (now : Word) (a : Attention) : (a.review now).enabled = a.enabled := by
  unfold Attention.review; split <;> rfl
@[simp] theorem Attention.review_pending (now : Word) (a : Attention) : (a.review now).pending = a.pending := by
  unfold Attention.review; split <;> rfl
@[simp] theorem Attention.review_published (now : Word) (a : Attention) : (a.review now).published = a.published := by
  unfold Attention.review; split <;> rfl

namespace Chip

@[simp] theorem forEach_nil {α : Type} (f : α → Chip → Chip) (c : Chip) : forEach [] f c = c := rfl
theorem forEach_cons {α : Type} (x : α) (xs : List α) (f : α → Chip → Chip) (c : Chip) :
    forEach (x :: xs) f c = forEach xs f (f x c) := rfl

/-- What every application keeps, the whole keeps. -/
theorem forEach_inv {α : Type} {xs : List α} {f : α → Chip → Chip} (P : Chip → Prop) (c : Chip) (h0 : P c)
    (h : ∀ x ∈ xs, ∀ d, P d → P (f x d)) : P (forEach xs f c) := by
  induction xs generalizing c with
  | nil => exact h0
  | cons x xs ih => exact ih _ (h x (by simp) c h0) (fun y hy => h y (by simp [hy]))

@[simp] theorem publish_keeps (r : RecId) (c : Chip) :
    (publish r c).pins = c.pins ∧ (publish r c).control = c.control ∧ (publish r c).ring = c.ring ∧
    (publish r c).attention = c.attention ∧ (publish r c).path.upstream = c.path.upstream ∧
    (publish r c).path.port = c.path.port ∧ (publish r c).path.parts = c.path.parts ∧
    (publish r c).path.count = c.path.count ∧ (publish r c).path.lastTime = c.path.lastTime ∧
    (publish r c).path.quietElapsed = c.path.quietElapsed ∧ (publish r c).path.procQuiet = c.path.procQuiet ∧
    (publish r c).path.response = c.path.response ∧ (publish r c).motor = c.motor ∧ (publish r c).sense = c.sense ∧
    (publish r c).input = c.input ∧ (publish r c).reflex = c.reflex ∧ (publish r c).sound = c.sound ∧
    (publish r c).link = c.link ∧ (publish r c).mem = c.mem ∧ (publish r c).shadow = c.shadow := by
  unfold publish; split <;> simp
@[simp] theorem publishIf_keeps (b : Bool) (r : RecId) (c : Chip) :
    (publishIf b r c).pins = c.pins ∧ (publishIf b r c).control = c.control ∧ (publishIf b r c).ring = c.ring ∧
    (publishIf b r c).attention = c.attention ∧ (publishIf b r c).path.upstream = c.path.upstream ∧
    (publishIf b r c).path.port = c.path.port ∧ (publishIf b r c).path.parts = c.path.parts ∧
    (publishIf b r c).path.count = c.path.count ∧ (publishIf b r c).path.lastTime = c.path.lastTime ∧
    (publishIf b r c).path.quietElapsed = c.path.quietElapsed ∧ (publishIf b r c).path.procQuiet = c.path.procQuiet ∧
    (publishIf b r c).path.response = c.path.response ∧ (publishIf b r c).motor = c.motor ∧
    (publishIf b r c).sense = c.sense ∧ (publishIf b r c).input = c.input ∧ (publishIf b r c).reflex = c.reflex ∧
    (publishIf b r c).sound = c.sound ∧ (publishIf b r c).link = c.link ∧ (publishIf b r c).mem = c.mem ∧
    (publishIf b r c).shadow = c.shadow := by
  unfold publishIf; split <;> simp
@[simp] theorem markStale_keeps (r : RecId) (c : Chip) :
    (markStale r c).pins = c.pins ∧ (markStale r c).control = c.control ∧ (markStale r c).ring = c.ring ∧
    (markStale r c).attention = c.attention ∧ (markStale r c).path.upstream = c.path.upstream ∧
    (markStale r c).path.parts = c.path.parts ∧ (markStale r c).path.pubs = c.path.pubs ∧
    (markStale r c).path.count = c.path.count ∧ (markStale r c).path.lastTime = c.path.lastTime ∧
    (markStale r c).path.quietElapsed = c.path.quietElapsed ∧ (markStale r c).path.procQuiet = c.path.procQuiet ∧
    (markStale r c).path.response = c.path.response ∧ (markStale r c).motor = c.motor ∧
    (markStale r c).sense = c.sense ∧ (markStale r c).input = c.input ∧ (markStale r c).reflex = c.reflex ∧
    (markStale r c).sound = c.sound ∧ (markStale r c).link = c.link ∧ (markStale r c).mem = c.mem ∧
    (markStale r c).shadow = c.shadow := by
  unfold markStale; split <;> (try split) <;> simp
@[simp] theorem reportLatch_keeps (o : Nat) (x : Code) (c : Chip) :
    (reportLatch o x c).pins = c.pins ∧ (reportLatch o x c).control.ms = c.control.ms ∧
    (reportLatch o x c).control.gen = c.control.gen ∧ (reportLatch o x c).control.block = c.control.block ∧
    (reportLatch o x c).control.enable = c.control.enable ∧
    (reportLatch o x c).control.outstanding = c.control.outstanding ∧
    (reportLatch o x c).control.quietPeriod = c.control.quietPeriod ∧
    (reportLatch o x c).control.guardRefusals = c.control.guardRefusals ∧
    (reportLatch o x c).control.badTransactions = c.control.badTransactions ∧
    (reportLatch o x c).control.restarts = c.control.restarts ∧
    (reportLatch o x c).control.mergedRestarts = c.control.mergedRestarts ∧
    (reportLatch o x c).control.lastRestart = c.control.lastRestart ∧ (reportLatch o x c).ring = c.ring ∧
    (reportLatch o x c).attention = c.attention ∧ (reportLatch o x c).path.upstream = c.path.upstream ∧
    (reportLatch o x c).path.port = c.path.port ∧ (reportLatch o x c).path.parts = c.path.parts ∧
    (reportLatch o x c).path.count = c.path.count ∧ (reportLatch o x c).path.lastTime = c.path.lastTime ∧
    (reportLatch o x c).path.quietElapsed = c.path.quietElapsed ∧
    (reportLatch o x c).path.procQuiet = c.path.procQuiet ∧ (reportLatch o x c).path.response = c.path.response ∧
    (reportLatch o x c).motor = c.motor ∧ (reportLatch o x c).sense = c.sense ∧ (reportLatch o x c).input = c.input ∧
    (reportLatch o x c).reflex = c.reflex ∧ (reportLatch o x c).sound = c.sound ∧ (reportLatch o x c).link = c.link ∧
    (reportLatch o x c).mem = c.mem ∧ (reportLatch o x c).shadow = c.shadow := by
  unfold reportLatch; simp
@[simp] theorem withdraw_keeps (k : PartReq → Bool) (c : Chip) :
    (withdraw k c).pins = c.pins ∧ (withdraw k c).control = c.control ∧ (withdraw k c).ring = c.ring ∧
    (withdraw k c).attention = c.attention ∧ (withdraw k c).path.upstream = c.path.upstream ∧
    (withdraw k c).path.pubs = c.path.pubs ∧ (withdraw k c).path.lastTime = c.path.lastTime ∧
    (withdraw k c).path.quietElapsed = c.path.quietElapsed ∧ (withdraw k c).path.procQuiet = c.path.procQuiet ∧
    (withdraw k c).path.response = c.path.response ∧ (withdraw k c).motor = c.motor ∧ (withdraw k c).sense = c.sense ∧
    (withdraw k c).input = c.input ∧ (withdraw k c).reflex = c.reflex ∧ (withdraw k c).sound = c.sound ∧
    (withdraw k c).link = c.link ∧ (withdraw k c).mem = c.mem ∧ (withdraw k c).shadow = c.shadow := by
  unfold withdraw Path.settleCount; simp only []; (repeat' split) <;> simp
@[simp] theorem setVoice_keeps (v : Voice) (c : Chip) :
    (setVoice v c).pins = c.pins ∧ (setVoice v c).control = c.control ∧ (setVoice v c).ring = c.ring ∧
    (setVoice v c).attention = c.attention ∧ (setVoice v c).path = c.path ∧ (setVoice v c).motor = c.motor ∧
    (setVoice v c).sense = c.sense ∧ (setVoice v c).input = c.input ∧ (setVoice v c).reflex = c.reflex ∧
    (setVoice v c).sound.output = c.sound.output ∧ (setVoice v c).sound.underruns = c.sound.underruns ∧
    (setVoice v c).sound.lastEnd = c.sound.lastEnd ∧ (setVoice v c).sound.latchResult = c.sound.latchResult ∧
    (setVoice v c).link = c.link ∧ (setVoice v c).mem = c.mem ∧ (setVoice v c).shadow = c.shadow := by
  simp [setVoice]
@[simp] theorem raiseCause_keeps (k : Cause) (c : Chip) :
    (raiseCause k c).pins = c.pins ∧ (raiseCause k c).control = c.control ∧ (raiseCause k c).ring = c.ring ∧
    (raiseCause k c).attention.enabled = c.attention.enabled ∧
    (raiseCause k c).attention.published = c.attention.published ∧ (raiseCause k c).path.upstream = c.path.upstream ∧
    (raiseCause k c).path.port = c.path.port ∧ (raiseCause k c).path.parts = c.path.parts ∧
    (raiseCause k c).path.count = c.path.count ∧ (raiseCause k c).path.lastTime = c.path.lastTime ∧
    (raiseCause k c).path.quietElapsed = c.path.quietElapsed ∧ (raiseCause k c).path.procQuiet = c.path.procQuiet ∧
    (raiseCause k c).path.response = c.path.response ∧ (raiseCause k c).motor = c.motor ∧
    (raiseCause k c).sense = c.sense ∧ (raiseCause k c).input = c.input ∧ (raiseCause k c).reflex = c.reflex ∧
    (raiseCause k c).sound = c.sound ∧ (raiseCause k c).link = c.link ∧ (raiseCause k c).mem = c.mem ∧
    (raiseCause k c).shadow = c.shadow := by
  unfold raiseCause changeAttention; split <;> simp
@[simp] theorem takeCause_keeps (k : Option (Fin 10)) (c : Chip) :
    (takeCause k c).pins = c.pins ∧ (takeCause k c).control = c.control ∧ (takeCause k c).ring = c.ring ∧
    (takeCause k c).attention.enabled = c.attention.enabled ∧
    (takeCause k c).attention.published = c.attention.published ∧ (takeCause k c).path.upstream = c.path.upstream ∧
    (takeCause k c).path.port = c.path.port ∧ (takeCause k c).path.parts = c.path.parts ∧
    (takeCause k c).path.count = c.path.count ∧ (takeCause k c).path.lastTime = c.path.lastTime ∧
    (takeCause k c).path.quietElapsed = c.path.quietElapsed ∧ (takeCause k c).path.procQuiet = c.path.procQuiet ∧
    (takeCause k c).path.response = c.path.response ∧ (takeCause k c).motor = c.motor ∧
    (takeCause k c).sense = c.sense ∧ (takeCause k c).input = c.input ∧ (takeCause k c).reflex = c.reflex ∧
    (takeCause k c).sound = c.sound ∧ (takeCause k c).link = c.link ∧ (takeCause k c).mem = c.mem ∧
    (takeCause k c).shadow = c.shadow := by
  unfold takeCause changeAttention; (repeat' split) <;> simp
@[simp] theorem clearCauses_keeps (c : Chip) :
    (clearCauses c).pins = c.pins ∧ (clearCauses c).control = c.control ∧ (clearCauses c).ring = c.ring ∧
    (clearCauses c).attention.enabled = c.attention.enabled ∧
    (clearCauses c).attention.published = c.attention.published ∧ (clearCauses c).path.upstream = c.path.upstream ∧
    (clearCauses c).path.port = c.path.port ∧ (clearCauses c).path.parts = c.path.parts ∧
    (clearCauses c).path.count = c.path.count ∧ (clearCauses c).path.lastTime = c.path.lastTime ∧
    (clearCauses c).path.quietElapsed = c.path.quietElapsed ∧ (clearCauses c).path.procQuiet = c.path.procQuiet ∧
    (clearCauses c).path.response = c.path.response ∧ (clearCauses c).motor = c.motor ∧
    (clearCauses c).sense = c.sense ∧ (clearCauses c).input = c.input ∧ (clearCauses c).reflex = c.reflex ∧
    (clearCauses c).sound = c.sound ∧ (clearCauses c).link = c.link ∧ (clearCauses c).mem = c.mem ∧
    (clearCauses c).shadow = c.shadow := by
  unfold clearCauses changeAttention; simp
@[simp] theorem setCauseEnables_keeps (e : Vector Bool 10) (c : Chip) :
    (setCauseEnables e c).pins = c.pins ∧ (setCauseEnables e c).control = c.control ∧
    (setCauseEnables e c).ring = c.ring ∧ (setCauseEnables e c).attention.pending = c.attention.pending ∧
    (setCauseEnables e c).attention.published = c.attention.published ∧
    (setCauseEnables e c).path.upstream = c.path.upstream ∧ (setCauseEnables e c).path.port = c.path.port ∧
    (setCauseEnables e c).path.parts = c.path.parts ∧ (setCauseEnables e c).path.count = c.path.count ∧
    (setCauseEnables e c).path.lastTime = c.path.lastTime ∧
    (setCauseEnables e c).path.quietElapsed = c.path.quietElapsed ∧
    (setCauseEnables e c).path.procQuiet = c.path.procQuiet ∧ (setCauseEnables e c).path.response = c.path.response ∧
    (setCauseEnables e c).motor = c.motor ∧ (setCauseEnables e c).sense = c.sense ∧
    (setCauseEnables e c).input = c.input ∧ (setCauseEnables e c).reflex = c.reflex ∧
    (setCauseEnables e c).sound = c.sound ∧ (setCauseEnables e c).link = c.link ∧ (setCauseEnables e c).mem = c.mem ∧
    (setCauseEnables e c).shadow = c.shadow := by
  unfold setCauseEnables changeAttention; simp
@[simp] theorem appendRoom_keeps (k : EventKind) (x y : Byte) (c : Chip) :
    (appendRoom k x y c).pins = c.pins ∧ (appendRoom k x y c).control = c.control ∧
    (appendRoom k x y c).attention.enabled = c.attention.enabled ∧
    (appendRoom k x y c).attention.published = c.attention.published ∧
    (appendRoom k x y c).path.upstream = c.path.upstream ∧ (appendRoom k x y c).path.parts = c.path.parts ∧
    (appendRoom k x y c).path.count = c.path.count ∧ (appendRoom k x y c).path.lastTime = c.path.lastTime ∧
    (appendRoom k x y c).path.quietElapsed = c.path.quietElapsed ∧
    (appendRoom k x y c).path.procQuiet = c.path.procQuiet ∧ (appendRoom k x y c).path.response = c.path.response ∧
    (appendRoom k x y c).motor = c.motor ∧ (appendRoom k x y c).sense = c.sense ∧
    (appendRoom k x y c).input = c.input ∧ (appendRoom k x y c).reflex = c.reflex ∧
    (appendRoom k x y c).sound = c.sound ∧ (appendRoom k x y c).link = c.link ∧ (appendRoom k x y c).mem = c.mem ∧
    (appendRoom k x y c).shadow = c.shadow := by
  unfold appendRoom; simp only []; split <;> simp
@[simp] theorem appendDropped_keeps (c : Chip) :
    (appendDropped c).pins = c.pins ∧ (appendDropped c).control = c.control ∧
    (appendDropped c).attention = c.attention ∧ (appendDropped c).path.upstream = c.path.upstream ∧
    (appendDropped c).path.port = c.path.port ∧ (appendDropped c).path.parts = c.path.parts ∧
    (appendDropped c).path.count = c.path.count ∧ (appendDropped c).path.lastTime = c.path.lastTime ∧
    (appendDropped c).path.quietElapsed = c.path.quietElapsed ∧ (appendDropped c).path.procQuiet = c.path.procQuiet ∧
    (appendDropped c).path.response = c.path.response ∧ (appendDropped c).motor = c.motor ∧
    (appendDropped c).sense = c.sense ∧ (appendDropped c).input = c.input ∧ (appendDropped c).reflex = c.reflex ∧
    (appendDropped c).sound = c.sound ∧ (appendDropped c).link = c.link ∧ (appendDropped c).mem = c.mem ∧
    (appendDropped c).shadow = c.shadow := by
  unfold appendDropped; simp
@[simp] theorem append_keeps (k : EventKind) (x y : Byte) (c : Chip) :
    (append k x y c).pins = c.pins ∧ (append k x y c).control = c.control ∧
    (append k x y c).attention.enabled = c.attention.enabled ∧
    (append k x y c).attention.published = c.attention.published ∧ (append k x y c).path.upstream = c.path.upstream ∧
    (append k x y c).path.parts = c.path.parts ∧ (append k x y c).path.count = c.path.count ∧
    (append k x y c).path.lastTime = c.path.lastTime ∧ (append k x y c).path.quietElapsed = c.path.quietElapsed ∧
    (append k x y c).path.procQuiet = c.path.procQuiet ∧ (append k x y c).path.response = c.path.response ∧
    (append k x y c).motor = c.motor ∧ (append k x y c).sense = c.sense ∧ (append k x y c).input = c.input ∧
    (append k x y c).reflex = c.reflex ∧ (append k x y c).sound = c.sound ∧ (append k x y c).link = c.link ∧
    (append k x y c).mem = c.mem ∧ (append k x y c).shadow = c.shadow := by
  unfold append; simp only []; (repeat' split) <;> simp
@[simp] theorem flushRing_keeps (c : Chip) :
    (flushRing c).pins = c.pins ∧ (flushRing c).control = c.control ∧ (flushRing c).attention = c.attention ∧
    (flushRing c).path.upstream = c.path.upstream ∧ (flushRing c).path.port = c.path.port ∧
    (flushRing c).path.parts = c.path.parts ∧ (flushRing c).path.count = c.path.count ∧
    (flushRing c).path.lastTime = c.path.lastTime ∧ (flushRing c).path.quietElapsed = c.path.quietElapsed ∧
    (flushRing c).path.procQuiet = c.path.procQuiet ∧ (flushRing c).path.response = c.path.response ∧
    (flushRing c).motor = c.motor ∧ (flushRing c).sense = c.sense ∧ (flushRing c).input = c.input ∧
    (flushRing c).reflex = c.reflex ∧ (flushRing c).sound = c.sound ∧ (flushRing c).link = c.link ∧
    (flushRing c).mem = c.mem ∧ (flushRing c).shadow = c.shadow := by
  unfold flushRing; simp
@[simp] theorem entryPublished_keeps (i : Fin 32) (c : Chip) :
    (entryPublished i c).pins = c.pins ∧ (entryPublished i c).control = c.control ∧
    (entryPublished i c).attention = c.attention ∧ (entryPublished i c).path.upstream = c.path.upstream ∧
    (entryPublished i c).path.port = c.path.port ∧ (entryPublished i c).path.parts = c.path.parts ∧
    (entryPublished i c).path.count = c.path.count ∧ (entryPublished i c).path.lastTime = c.path.lastTime ∧
    (entryPublished i c).path.quietElapsed = c.path.quietElapsed ∧
    (entryPublished i c).path.procQuiet = c.path.procQuiet ∧ (entryPublished i c).path.response = c.path.response ∧
    (entryPublished i c).motor = c.motor ∧ (entryPublished i c).sense = c.sense ∧
    (entryPublished i c).input = c.input ∧ (entryPublished i c).reflex = c.reflex ∧
    (entryPublished i c).sound = c.sound ∧ (entryPublished i c).link = c.link ∧ (entryPublished i c).mem = c.mem ∧
    (entryPublished i c).shadow = c.shadow := by
  unfold entryPublished; split <;> simp
@[simp] theorem popEvent_keeps (i : Fin 32) (c : Chip) :
    (popEvent i c).pins = c.pins ∧ (popEvent i c).control = c.control ∧ (popEvent i c).attention = c.attention ∧
    (popEvent i c).path.upstream = c.path.upstream ∧ (popEvent i c).path.port = c.path.port ∧
    (popEvent i c).path.parts = c.path.parts ∧ (popEvent i c).path.count = c.path.count ∧
    (popEvent i c).path.lastTime = c.path.lastTime ∧ (popEvent i c).path.quietElapsed = c.path.quietElapsed ∧
    (popEvent i c).path.procQuiet = c.path.procQuiet ∧ (popEvent i c).path.response = c.path.response ∧
    (popEvent i c).motor = c.motor ∧ (popEvent i c).sense = c.sense ∧ (popEvent i c).input = c.input ∧
    (popEvent i c).reflex = c.reflex ∧ (popEvent i c).sound = c.sound ∧ (popEvent i c).link = c.link ∧
    (popEvent i c).mem = c.mem ∧ (popEvent i c).shadow = c.shadow := by
  unfold popEvent; split <;> simp
@[simp] theorem runDone_keeps (m : Fin 4) (x : Code) (c : Chip) :
    (runDone m x c).pins = c.pins ∧ (runDone m x c).control = c.control ∧
    (runDone m x c).attention.enabled = c.attention.enabled ∧
    (runDone m x c).attention.published = c.attention.published ∧ (runDone m x c).path.upstream = c.path.upstream ∧
    (runDone m x c).path.parts = c.path.parts ∧ (runDone m x c).path.count = c.path.count ∧
    (runDone m x c).path.lastTime = c.path.lastTime ∧ (runDone m x c).path.quietElapsed = c.path.quietElapsed ∧
    (runDone m x c).path.procQuiet = c.path.procQuiet ∧ (runDone m x c).path.response = c.path.response ∧
    (runDone m x c).motor = c.motor ∧ (runDone m x c).sense = c.sense ∧ (runDone m x c).input = c.input ∧
    (runDone m x c).reflex = c.reflex ∧ (runDone m x c).sound = c.sound ∧ (runDone m x c).link = c.link ∧
    (runDone m x c).mem = c.mem ∧ (runDone m x c).shadow = c.shadow := by
  unfold runDone; simp
@[simp] theorem endOperation_keeps (m : Fin 4) (x : Code) (c : Chip) :
    (endOperation m x c).pins = c.pins ∧ (endOperation m x c).control = c.control ∧
    (endOperation m x c).attention.enabled = c.attention.enabled ∧
    (endOperation m x c).attention.published = c.attention.published ∧
    (endOperation m x c).path.upstream = c.path.upstream ∧ (endOperation m x c).path.parts = c.path.parts ∧
    (endOperation m x c).path.count = c.path.count ∧ (endOperation m x c).path.lastTime = c.path.lastTime ∧
    (endOperation m x c).path.quietElapsed = c.path.quietElapsed ∧
    (endOperation m x c).path.procQuiet = c.path.procQuiet ∧ (endOperation m x c).path.response = c.path.response ∧
    (endOperation m x c).motor = c.motor ∧ (endOperation m x c).sense = c.sense ∧
    (endOperation m x c).input = c.input ∧ (endOperation m x c).reflex = c.reflex ∧
    (endOperation m x c).sound = c.sound ∧ (endOperation m x c).link = c.link ∧ (endOperation m x c).mem = c.mem ∧
    (endOperation m x c).shadow = c.shadow := by
  unfold endOperation; split <;> simp
@[simp] theorem setMode_keeps (m : Fin 4) (x : Mode) (c : Chip) :
    (setMode m x c).pins = c.pins ∧ (setMode m x c).control = c.control ∧ (setMode m x c).ring = c.ring ∧
    (setMode m x c).attention = c.attention ∧ (setMode m x c).path = c.path ∧ (setMode m x c).sense = c.sense ∧
    (setMode m x c).input = c.input ∧ (setMode m x c).reflex = c.reflex ∧ (setMode m x c).sound = c.sound ∧
    (setMode m x c).link = c.link ∧ (setMode m x c).mem = c.mem ∧ (setMode m x c).shadow = c.shadow := by
  unfold setMode; simp
@[simp] theorem channelTakes_keeps (m : Fin 4) (x : MotorCmd) (c : Chip) :
    (channelTakes m x c).pins = c.pins ∧ (channelTakes m x c).control = c.control ∧
    (channelTakes m x c).attention.enabled = c.attention.enabled ∧
    (channelTakes m x c).attention.published = c.attention.published ∧
    (channelTakes m x c).path.upstream = c.path.upstream ∧ (channelTakes m x c).path.parts = c.path.parts ∧
    (channelTakes m x c).path.count = c.path.count ∧ (channelTakes m x c).path.lastTime = c.path.lastTime ∧
    (channelTakes m x c).path.quietElapsed = c.path.quietElapsed ∧
    (channelTakes m x c).path.procQuiet = c.path.procQuiet ∧ (channelTakes m x c).path.response = c.path.response ∧
    (channelTakes m x c).sense = c.sense ∧ (channelTakes m x c).input = c.input ∧
    (channelTakes m x c).reflex = c.reflex ∧ (channelTakes m x c).sound = c.sound ∧
    (channelTakes m x c).link = c.link ∧ (channelTakes m x c).mem = c.mem ∧
    (channelTakes m x c).shadow = c.shadow := by
  unfold channelTakes; simp only []; (repeat' split) <;> simp
@[simp] theorem claimLost_keeps (m : Fin 4) (o : Owner) (x : Code) (c : Chip) :
    (claimLost m o x c).pins = c.pins ∧ (claimLost m o x c).control = c.control ∧
    (claimLost m o x c).attention.enabled = c.attention.enabled ∧
    (claimLost m o x c).attention.published = c.attention.published ∧
    (claimLost m o x c).path.upstream = c.path.upstream ∧ (claimLost m o x c).path.parts = c.path.parts ∧
    (claimLost m o x c).path.count = c.path.count ∧ (claimLost m o x c).path.lastTime = c.path.lastTime ∧
    (claimLost m o x c).path.quietElapsed = c.path.quietElapsed ∧
    (claimLost m o x c).path.procQuiet = c.path.procQuiet ∧ (claimLost m o x c).path.response = c.path.response ∧
    (claimLost m o x c).motor = c.motor ∧ (claimLost m o x c).sense = c.sense ∧ (claimLost m o x c).input = c.input ∧
    (claimLost m o x c).reflex = c.reflex ∧ (claimLost m o x c).sound = c.sound ∧ (claimLost m o x c).link = c.link ∧
    (claimLost m o x c).mem = c.mem ∧ (claimLost m o x c).shadow = c.shadow := by
  unfold claimLost; simp only []; split <;> simp
@[simp] theorem releaseClaim_keeps (m : Fin 4) (x : Code) (c : Chip) :
    (releaseClaim m x c).pins = c.pins ∧ (releaseClaim m x c).control = c.control ∧
    (releaseClaim m x c).attention.enabled = c.attention.enabled ∧
    (releaseClaim m x c).attention.published = c.attention.published ∧
    (releaseClaim m x c).path.upstream = c.path.upstream ∧ (releaseClaim m x c).path.parts = c.path.parts ∧
    (releaseClaim m x c).path.count = c.path.count ∧ (releaseClaim m x c).path.lastTime = c.path.lastTime ∧
    (releaseClaim m x c).path.quietElapsed = c.path.quietElapsed ∧
    (releaseClaim m x c).path.procQuiet = c.path.procQuiet ∧ (releaseClaim m x c).path.response = c.path.response ∧
    (releaseClaim m x c).sense = c.sense ∧ (releaseClaim m x c).input = c.input ∧
    (releaseClaim m x c).reflex = c.reflex ∧ (releaseClaim m x c).sound = c.sound ∧
    (releaseClaim m x c).link = c.link ∧ (releaseClaim m x c).mem = c.mem ∧
    (releaseClaim m x c).shadow = c.shadow := by
  unfold releaseClaim; simp only []; split <;> simp
@[simp] theorem releaseClaimsOf_keeps (o : Owner) (x : Code) (c : Chip) :
    (releaseClaimsOf o x c).pins = c.pins ∧ (releaseClaimsOf o x c).control = c.control ∧
    (releaseClaimsOf o x c).attention.enabled = c.attention.enabled ∧
    (releaseClaimsOf o x c).attention.published = c.attention.published ∧
    (releaseClaimsOf o x c).path.upstream = c.path.upstream ∧ (releaseClaimsOf o x c).path.parts = c.path.parts ∧
    (releaseClaimsOf o x c).path.count = c.path.count ∧ (releaseClaimsOf o x c).path.lastTime = c.path.lastTime ∧
    (releaseClaimsOf o x c).path.quietElapsed = c.path.quietElapsed ∧
    (releaseClaimsOf o x c).path.procQuiet = c.path.procQuiet ∧
    (releaseClaimsOf o x c).path.response = c.path.response ∧ (releaseClaimsOf o x c).sense = c.sense ∧
    (releaseClaimsOf o x c).input = c.input ∧ (releaseClaimsOf o x c).reflex = c.reflex ∧
    (releaseClaimsOf o x c).sound = c.sound ∧ (releaseClaimsOf o x c).link = c.link ∧
    (releaseClaimsOf o x c).mem = c.mem ∧ (releaseClaimsOf o x c).shadow = c.shadow := by
  unfold releaseClaimsOf; generalize List.finRange 4 = xs; induction xs generalizing c with
  | nil => simp
  | cons m xs ih => simp only [forEach_cons, ih]; split <;> simp
@[simp] theorem motorAct_keeps (o : Owner) (w : Word) (x : MotorCmd) (m : Fin 4) (c : Chip) :
    (motorAct o w x m c).pins = c.pins ∧ (motorAct o w x m c).control = c.control ∧
    (motorAct o w x m c).attention.enabled = c.attention.enabled ∧
    (motorAct o w x m c).attention.published = c.attention.published ∧
    (motorAct o w x m c).path.upstream = c.path.upstream ∧ (motorAct o w x m c).path.parts = c.path.parts ∧
    (motorAct o w x m c).path.count = c.path.count ∧ (motorAct o w x m c).path.lastTime = c.path.lastTime ∧
    (motorAct o w x m c).path.quietElapsed = c.path.quietElapsed ∧
    (motorAct o w x m c).path.procQuiet = c.path.procQuiet ∧ (motorAct o w x m c).path.response = c.path.response ∧
    (motorAct o w x m c).sense = c.sense ∧ (motorAct o w x m c).input = c.input ∧
    (motorAct o w x m c).reflex = c.reflex ∧ (motorAct o w x m c).sound = c.sound ∧
    (motorAct o w x m c).link = c.link ∧ (motorAct o w x m c).mem = c.mem ∧
    (motorAct o w x m c).shadow = c.shadow := by
  unfold motorAct; simp only []; (repeat' split) <;> simp
@[simp] theorem endSound_keeps (x : Code) (c : Chip) :
    (endSound x c).pins = c.pins ∧ (endSound x c).control = c.control ∧
    (endSound x c).attention.enabled = c.attention.enabled ∧
    (endSound x c).attention.published = c.attention.published ∧ (endSound x c).path.upstream = c.path.upstream ∧
    (endSound x c).path.lastTime = c.path.lastTime ∧ (endSound x c).path.quietElapsed = c.path.quietElapsed ∧
    (endSound x c).path.procQuiet = c.path.procQuiet ∧ (endSound x c).path.response = c.path.response ∧
    (endSound x c).motor = c.motor ∧ (endSound x c).sense = c.sense ∧ (endSound x c).input = c.input ∧
    (endSound x c).reflex = c.reflex ∧ (endSound x c).sound.underruns = c.sound.underruns ∧
    (endSound x c).sound.latchResult = c.sound.latchResult ∧ (endSound x c).link = c.link ∧
    (endSound x c).mem = c.mem ∧ (endSound x c).shadow = c.shadow := by
  unfold endSound; simp only []; split <;> simp
@[simp] theorem startTone_keeps (o : Owner) (f v d : Nat) (c : Chip) :
    (startTone o f v d c).pins = c.pins ∧ (startTone o f v d c).control = c.control ∧
    (startTone o f v d c).attention.enabled = c.attention.enabled ∧
    (startTone o f v d c).attention.published = c.attention.published ∧
    (startTone o f v d c).path.upstream = c.path.upstream ∧ (startTone o f v d c).path.lastTime = c.path.lastTime ∧
    (startTone o f v d c).path.quietElapsed = c.path.quietElapsed ∧
    (startTone o f v d c).path.procQuiet = c.path.procQuiet ∧ (startTone o f v d c).path.response = c.path.response ∧
    (startTone o f v d c).motor = c.motor ∧ (startTone o f v d c).sense = c.sense ∧
    (startTone o f v d c).input = c.input ∧ (startTone o f v d c).reflex = c.reflex ∧
    (startTone o f v d c).sound.underruns = c.sound.underruns ∧
    (startTone o f v d c).sound.latchResult = c.sound.latchResult ∧ (startTone o f v d c).link = c.link ∧
    (startTone o f v d c).mem = c.mem ∧ (startTone o f v d c).shadow = c.shadow := by
  unfold startTone; simp
@[simp] theorem placeDescRead_keeps (a : Word) (c : Chip) :
    (placeDescRead a c).pins = c.pins ∧ (placeDescRead a c).control = c.control ∧ (placeDescRead a c).ring = c.ring ∧
    (placeDescRead a c).attention = c.attention ∧ (placeDescRead a c).path.upstream = c.path.upstream ∧
    (placeDescRead a c).path.port = c.path.port ∧ (placeDescRead a c).path.pubs = c.path.pubs ∧
    (placeDescRead a c).path.count = c.path.count ∧ (placeDescRead a c).path.lastTime = c.path.lastTime ∧
    (placeDescRead a c).path.quietElapsed = c.path.quietElapsed ∧
    (placeDescRead a c).path.procQuiet = c.path.procQuiet ∧ (placeDescRead a c).path.response = c.path.response ∧
    (placeDescRead a c).motor = c.motor ∧ (placeDescRead a c).sense = c.sense ∧ (placeDescRead a c).input = c.input ∧
    (placeDescRead a c).reflex = c.reflex ∧ (placeDescRead a c).sound = c.sound ∧ (placeDescRead a c).link = c.link ∧
    (placeDescRead a c).mem = c.mem ∧ (placeDescRead a c).shadow = c.shadow := by
  simp [placeDescRead, place]
@[simp] theorem startStream_keeps (v : Nat) (f : Bool) (d : Word) (c : Chip) :
    (startStream v f d c).pins = c.pins ∧ (startStream v f d c).control = c.control ∧
    (startStream v f d c).attention.enabled = c.attention.enabled ∧
    (startStream v f d c).attention.published = c.attention.published ∧
    (startStream v f d c).path.upstream = c.path.upstream ∧ (startStream v f d c).path.lastTime = c.path.lastTime ∧
    (startStream v f d c).path.quietElapsed = c.path.quietElapsed ∧
    (startStream v f d c).path.procQuiet = c.path.procQuiet ∧ (startStream v f d c).path.response = c.path.response ∧
    (startStream v f d c).motor = c.motor ∧ (startStream v f d c).sense = c.sense ∧
    (startStream v f d c).input = c.input ∧ (startStream v f d c).reflex = c.reflex ∧
    (startStream v f d c).sound.underruns = c.sound.underruns ∧
    (startStream v f d c).sound.latchResult = c.sound.latchResult ∧ (startStream v f d c).link = c.link ∧
    (startStream v f d c).mem = c.mem ∧ (startStream v f d c).shadow = c.shadow := by
  unfold startStream; simp
@[simp] theorem restartPath_keeps (c : Chip) :
    (restartPath c).pins = c.pins ∧ (restartPath c).control = c.control ∧ (restartPath c).ring = c.ring ∧
    (restartPath c).attention = c.attention ∧ (restartPath c).path.parts = c.path.parts ∧
    (restartPath c).path.pubs = c.path.pubs ∧ (restartPath c).path.count = c.path.count ∧
    (restartPath c).path.lastTime = c.path.lastTime ∧ (restartPath c).path.quietElapsed = c.path.quietElapsed ∧
    (restartPath c).path.procQuiet = c.path.procQuiet ∧ (restartPath c).path.response = c.path.response ∧
    (restartPath c).motor = c.motor ∧ (restartPath c).sense = c.sense ∧ (restartPath c).input = c.input ∧
    (restartPath c).reflex = c.reflex ∧ (restartPath c).sound = c.sound ∧ (restartPath c).link = c.link ∧
    (restartPath c).mem = c.mem ∧ (restartPath c).shadow = c.shadow := by
  simp [restartPath]
@[simp] theorem restartClaims_keeps (c : Chip) :
    (restartClaims c).pins = c.pins ∧ (restartClaims c).control = c.control ∧
    (restartClaims c).attention.enabled = c.attention.enabled ∧
    (restartClaims c).attention.published = c.attention.published ∧
    (restartClaims c).path.upstream = c.path.upstream ∧ (restartClaims c).path.parts = c.path.parts ∧
    (restartClaims c).path.count = c.path.count ∧ (restartClaims c).path.lastTime = c.path.lastTime ∧
    (restartClaims c).path.quietElapsed = c.path.quietElapsed ∧ (restartClaims c).path.procQuiet = c.path.procQuiet ∧
    (restartClaims c).path.response = c.path.response ∧ (restartClaims c).sense = c.sense ∧
    (restartClaims c).input = c.input ∧ (restartClaims c).reflex = c.reflex ∧ (restartClaims c).sound = c.sound ∧
    (restartClaims c).link = c.link ∧ (restartClaims c).mem = c.mem ∧ (restartClaims c).shadow = c.shadow := by
  unfold restartClaims; split <;> simp
@[simp] theorem restartSound_keeps (c : Chip) :
    (restartSound c).pins = c.pins ∧ (restartSound c).control = c.control ∧
    (restartSound c).attention.enabled = c.attention.enabled ∧
    (restartSound c).attention.published = c.attention.published ∧ (restartSound c).path.upstream = c.path.upstream ∧
    (restartSound c).path.lastTime = c.path.lastTime ∧ (restartSound c).path.quietElapsed = c.path.quietElapsed ∧
    (restartSound c).path.procQuiet = c.path.procQuiet ∧ (restartSound c).path.response = c.path.response ∧
    (restartSound c).motor = c.motor ∧ (restartSound c).sense = c.sense ∧ (restartSound c).input = c.input ∧
    (restartSound c).reflex = c.reflex ∧ (restartSound c).sound.underruns = c.sound.underruns ∧
    (restartSound c).sound.latchResult = c.sound.latchResult ∧ (restartSound c).link = c.link ∧
    (restartSound c).mem = c.mem ∧ (restartSound c).shadow = c.shadow := by
  unfold restartSound; split <;> simp
@[simp] theorem pulseStart_keeps (c : Chip) :
    (pulseStart c).pins = c.pins ∧ (pulseStart c).control = c.control ∧
    (pulseStart c).attention.enabled = c.attention.enabled ∧
    (pulseStart c).attention.published = c.attention.published ∧ (pulseStart c).path.lastTime = c.path.lastTime ∧
    (pulseStart c).path.quietElapsed = c.path.quietElapsed ∧ (pulseStart c).path.procQuiet = c.path.procQuiet ∧
    (pulseStart c).path.response = c.path.response ∧ (pulseStart c).sense = c.sense ∧ (pulseStart c).input = c.input ∧
    (pulseStart c).reflex = c.reflex ∧ (pulseStart c).sound.underruns = c.sound.underruns ∧
    (pulseStart c).sound.latchResult = c.sound.latchResult ∧ (pulseStart c).link = c.link ∧
    (pulseStart c).mem = c.mem ∧ (pulseStart c).shadow = c.shadow := by
  simp [pulseStart]
@[simp] theorem restartRequest_keeps (w : Nat) (c : Chip) :
    (restartRequest w c).pins = c.pins ∧ (restartRequest w c).control.ms = c.control.ms ∧
    (restartRequest w c).control.block = c.control.block ∧ (restartRequest w c).control.enable = c.control.enable ∧
    (restartRequest w c).control.outstanding = c.control.outstanding ∧
    (restartRequest w c).control.quietPeriod = c.control.quietPeriod ∧
    (restartRequest w c).control.latchOffset = c.control.latchOffset ∧
    (restartRequest w c).control.latchCode = c.control.latchCode ∧
    (restartRequest w c).control.guardRefusals = c.control.guardRefusals ∧
    (restartRequest w c).control.badTransactions = c.control.badTransactions ∧
    (restartRequest w c).attention.enabled = c.attention.enabled ∧
    (restartRequest w c).attention.published = c.attention.published ∧
    (restartRequest w c).path.lastTime = c.path.lastTime ∧
    (restartRequest w c).path.quietElapsed = c.path.quietElapsed ∧
    (restartRequest w c).path.procQuiet = c.path.procQuiet ∧ (restartRequest w c).path.response = c.path.response ∧
    (restartRequest w c).sense = c.sense ∧ (restartRequest w c).input = c.input ∧
    (restartRequest w c).reflex = c.reflex ∧ (restartRequest w c).sound.underruns = c.sound.underruns ∧
    (restartRequest w c).sound.latchResult = c.sound.latchResult ∧ (restartRequest w c).link = c.link ∧
    (restartRequest w c).mem = c.mem ∧ (restartRequest w c).shadow = c.shadow := by
  unfold restartRequest; split <;> simp
@[simp] theorem placeAlarm_keeps (i : Fin 8) (c : Chip) :
    (placeAlarm i c).pins = c.pins ∧ (placeAlarm i c).control = c.control ∧ (placeAlarm i c).ring = c.ring ∧
    (placeAlarm i c).attention = c.attention ∧ (placeAlarm i c).path = c.path ∧ (placeAlarm i c).motor = c.motor ∧
    (placeAlarm i c).sense = c.sense ∧ (placeAlarm i c).input = c.input ∧ (placeAlarm i c).reflex = c.reflex ∧
    (placeAlarm i c).sound = c.sound ∧ (placeAlarm i c).link.settings = c.link.settings ∧
    (placeAlarm i c).link.peer = c.link.peer ∧ (placeAlarm i c).link.sub = c.link.sub ∧
    (placeAlarm i c).link.desc = c.link.desc ∧ (placeAlarm i c).link.order = c.link.order ∧
    (placeAlarm i c).link.releaseIndex = c.link.releaseIndex ∧
    (placeAlarm i c).link.releaseResult = c.link.releaseResult ∧ (placeAlarm i c).link.free = c.link.free ∧
    (placeAlarm i c).link.poolLow = c.link.poolLow ∧ (placeAlarm i c).link.poolFrame = c.link.poolFrame ∧
    (placeAlarm i c).link.receiver = c.link.receiver ∧ (placeAlarm i c).link.finishing = c.link.finishing ∧
    (placeAlarm i c).link.buf = c.link.buf ∧ (placeAlarm i c).link.cur = c.link.cur ∧
    (placeAlarm i c).link.replies = c.link.replies ∧ (placeAlarm i c).link.out = c.link.out ∧
    (placeAlarm i c).link.outOrder = c.link.outOrder ∧ (placeAlarm i c).link.tx = c.link.tx ∧
    (placeAlarm i c).link.txSeq = c.link.txSeq ∧ (placeAlarm i c).link.counters = c.link.counters ∧
    (placeAlarm i c).link.stormEnd = c.link.stormEnd ∧ (placeAlarm i c).link.lastFrame = c.link.lastFrame ∧
    (placeAlarm i c).mem = c.mem ∧ (placeAlarm i c).shadow = c.shadow := by
  unfold placeAlarm; split <;> simp
@[simp] theorem motorActAll_keeps (o : Owner) (w : Word) (x : MotorCmd) (xs : List (Fin 4)) (c : Chip) :
    (forEach xs (motorAct o w x) c).pins = c.pins ∧ (forEach xs (motorAct o w x) c).control = c.control ∧
    (forEach xs (motorAct o w x) c).attention.enabled = c.attention.enabled ∧
    (forEach xs (motorAct o w x) c).attention.published = c.attention.published ∧ (forEach xs (motorAct o w x) c).path.upstream = c.path.upstream ∧
    (forEach xs (motorAct o w x) c).path.parts = c.path.parts ∧ (forEach xs (motorAct o w x) c).path.count = c.path.count ∧
    (forEach xs (motorAct o w x) c).path.lastTime = c.path.lastTime ∧ (forEach xs (motorAct o w x) c).path.quietElapsed = c.path.quietElapsed ∧
    (forEach xs (motorAct o w x) c).path.procQuiet = c.path.procQuiet ∧ (forEach xs (motorAct o w x) c).path.response = c.path.response ∧
    (forEach xs (motorAct o w x) c).sense = c.sense ∧ (forEach xs (motorAct o w x) c).input = c.input ∧ (forEach xs (motorAct o w x) c).reflex = c.reflex ∧
    (forEach xs (motorAct o w x) c).sound = c.sound ∧ (forEach xs (motorAct o w x) c).link = c.link ∧ (forEach xs (motorAct o w x) c).mem = c.mem ∧
    (forEach xs (motorAct o w x) c).shadow = c.shadow := by
  induction xs generalizing c with
  | nil => simp
  | cons m xs ih => simp [forEach_cons, ih]
@[simp] theorem fireStop_keeps (i : Fin 8) (r : ReflexRec) (c : Chip) :
    (fireStop i r c).pins = c.pins ∧ (fireStop i r c).control = c.control ∧
    (fireStop i r c).attention.enabled = c.attention.enabled ∧
    (fireStop i r c).attention.published = c.attention.published ∧ (fireStop i r c).path.upstream = c.path.upstream ∧
    (fireStop i r c).path.parts = c.path.parts ∧ (fireStop i r c).path.count = c.path.count ∧
    (fireStop i r c).path.lastTime = c.path.lastTime ∧ (fireStop i r c).path.quietElapsed = c.path.quietElapsed ∧
    (fireStop i r c).path.procQuiet = c.path.procQuiet ∧ (fireStop i r c).path.response = c.path.response ∧
    (fireStop i r c).sense = c.sense ∧ (fireStop i r c).input = c.input ∧ (fireStop i r c).reflex = c.reflex ∧
    (fireStop i r c).sound = c.sound ∧ (fireStop i r c).link = c.link ∧ (fireStop i r c).mem = c.mem ∧
    (fireStop i r c).shadow = c.shadow := by
  unfold fireStop; split <;> simp
@[simp] theorem fireTone_keeps (i : Fin 8) (r : ReflexRec) (c : Chip) :
    (fireTone i r c).pins = c.pins ∧ (fireTone i r c).control = c.control ∧
    (fireTone i r c).attention.enabled = c.attention.enabled ∧
    (fireTone i r c).attention.published = c.attention.published ∧ (fireTone i r c).path.upstream = c.path.upstream ∧
    (fireTone i r c).path.lastTime = c.path.lastTime ∧ (fireTone i r c).path.quietElapsed = c.path.quietElapsed ∧
    (fireTone i r c).path.procQuiet = c.path.procQuiet ∧ (fireTone i r c).path.response = c.path.response ∧
    (fireTone i r c).motor = c.motor ∧ (fireTone i r c).sense = c.sense ∧ (fireTone i r c).input = c.input ∧
    (fireTone i r c).reflex = c.reflex ∧ (fireTone i r c).sound.underruns = c.sound.underruns ∧
    (fireTone i r c).sound.latchResult = c.sound.latchResult ∧ (fireTone i r c).link = c.link ∧
    (fireTone i r c).mem = c.mem ∧ (fireTone i r c).shadow = c.shadow := by
  unfold fireTone; split <;> simp
@[simp] theorem fireAlarm_keeps (i : Fin 8) (r : ReflexRec) (c : Chip) :
    (fireAlarm i r c).pins = c.pins ∧ (fireAlarm i r c).control = c.control ∧ (fireAlarm i r c).ring = c.ring ∧
    (fireAlarm i r c).attention = c.attention ∧ (fireAlarm i r c).path = c.path ∧ (fireAlarm i r c).motor = c.motor ∧
    (fireAlarm i r c).sense = c.sense ∧ (fireAlarm i r c).input = c.input ∧ (fireAlarm i r c).reflex = c.reflex ∧
    (fireAlarm i r c).sound = c.sound ∧ (fireAlarm i r c).link.settings = c.link.settings ∧
    (fireAlarm i r c).link.peer = c.link.peer ∧ (fireAlarm i r c).link.sub = c.link.sub ∧
    (fireAlarm i r c).link.desc = c.link.desc ∧ (fireAlarm i r c).link.order = c.link.order ∧
    (fireAlarm i r c).link.releaseIndex = c.link.releaseIndex ∧
    (fireAlarm i r c).link.releaseResult = c.link.releaseResult ∧ (fireAlarm i r c).link.free = c.link.free ∧
    (fireAlarm i r c).link.poolLow = c.link.poolLow ∧ (fireAlarm i r c).link.poolFrame = c.link.poolFrame ∧
    (fireAlarm i r c).link.receiver = c.link.receiver ∧ (fireAlarm i r c).link.finishing = c.link.finishing ∧
    (fireAlarm i r c).link.buf = c.link.buf ∧ (fireAlarm i r c).link.cur = c.link.cur ∧
    (fireAlarm i r c).link.replies = c.link.replies ∧ (fireAlarm i r c).link.out = c.link.out ∧
    (fireAlarm i r c).link.outOrder = c.link.outOrder ∧ (fireAlarm i r c).link.tx = c.link.tx ∧
    (fireAlarm i r c).link.txSeq = c.link.txSeq ∧ (fireAlarm i r c).link.counters = c.link.counters ∧
    (fireAlarm i r c).link.stormEnd = c.link.stormEnd ∧ (fireAlarm i r c).link.lastFrame = c.link.lastFrame ∧
    (fireAlarm i r c).mem = c.mem ∧ (fireAlarm i r c).shadow = c.shadow := by
  unfold fireAlarm; split <;> simp
@[simp] theorem fire_keeps (i : Fin 8) (c : Chip) :
    (fire i c).pins = c.pins ∧ (fire i c).control.ms = c.control.ms ∧ (fire i c).control.block = c.control.block ∧
    (fire i c).control.enable = c.control.enable ∧ (fire i c).control.outstanding = c.control.outstanding ∧
    (fire i c).control.quietPeriod = c.control.quietPeriod ∧ (fire i c).control.latchOffset = c.control.latchOffset ∧
    (fire i c).control.latchCode = c.control.latchCode ∧ (fire i c).control.guardRefusals = c.control.guardRefusals ∧
    (fire i c).control.badTransactions = c.control.badTransactions ∧
    (fire i c).attention.enabled = c.attention.enabled ∧ (fire i c).attention.published = c.attention.published ∧
    (fire i c).path.lastTime = c.path.lastTime ∧ (fire i c).path.quietElapsed = c.path.quietElapsed ∧
    (fire i c).path.procQuiet = c.path.procQuiet ∧ (fire i c).path.response = c.path.response ∧
    (fire i c).sense = c.sense ∧ (fire i c).input = c.input ∧ (fire i c).sound.underruns = c.sound.underruns ∧
    (fire i c).sound.latchResult = c.sound.latchResult ∧ (fire i c).link.settings = c.link.settings ∧
    (fire i c).link.peer = c.link.peer ∧ (fire i c).link.sub = c.link.sub ∧ (fire i c).link.desc = c.link.desc ∧
    (fire i c).link.order = c.link.order ∧ (fire i c).link.releaseIndex = c.link.releaseIndex ∧
    (fire i c).link.releaseResult = c.link.releaseResult ∧ (fire i c).link.free = c.link.free ∧
    (fire i c).link.poolLow = c.link.poolLow ∧ (fire i c).link.poolFrame = c.link.poolFrame ∧
    (fire i c).link.receiver = c.link.receiver ∧ (fire i c).link.finishing = c.link.finishing ∧
    (fire i c).link.buf = c.link.buf ∧ (fire i c).link.cur = c.link.cur ∧ (fire i c).link.replies = c.link.replies ∧
    (fire i c).link.out = c.link.out ∧ (fire i c).link.outOrder = c.link.outOrder ∧ (fire i c).link.tx = c.link.tx ∧
    (fire i c).link.txSeq = c.link.txSeq ∧ (fire i c).link.counters = c.link.counters ∧
    (fire i c).link.stormEnd = c.link.stormEnd ∧ (fire i c).link.lastFrame = c.link.lastFrame ∧
    (fire i c).mem = c.mem ∧ (fire i c).shadow = c.shadow := by
  unfold fire; simp only []; (repeat' split) <;> simp
@[simp] theorem rejudge_keeps (i : Fin 8) (c : Chip) :
    (rejudge i c).pins = c.pins ∧ (rejudge i c).control = c.control ∧ (rejudge i c).ring = c.ring ∧
    (rejudge i c).attention = c.attention ∧ (rejudge i c).path.upstream = c.path.upstream ∧
    (rejudge i c).path.port = c.path.port ∧ (rejudge i c).path.parts = c.path.parts ∧
    (rejudge i c).path.count = c.path.count ∧ (rejudge i c).path.lastTime = c.path.lastTime ∧
    (rejudge i c).path.quietElapsed = c.path.quietElapsed ∧ (rejudge i c).path.procQuiet = c.path.procQuiet ∧
    (rejudge i c).path.response = c.path.response ∧ (rejudge i c).motor = c.motor ∧ (rejudge i c).sense = c.sense ∧
    (rejudge i c).input = c.input ∧ (rejudge i c).sound = c.sound ∧ (rejudge i c).link = c.link ∧
    (rejudge i c).mem = c.mem ∧ (rejudge i c).shadow = c.shadow := by
  unfold rejudge; simp only []; (repeat' split) <;> simp
@[simp] theorem rejudgeAll_keeps (xs : List (Fin 8)) (c : Chip) :
    (forEach xs rejudge c).pins = c.pins ∧ (forEach xs rejudge c).control = c.control ∧ (forEach xs rejudge c).ring = c.ring ∧
    (forEach xs rejudge c).attention = c.attention ∧ (forEach xs rejudge c).path.upstream = c.path.upstream ∧
    (forEach xs rejudge c).path.port = c.path.port ∧ (forEach xs rejudge c).path.parts = c.path.parts ∧
    (forEach xs rejudge c).path.count = c.path.count ∧ (forEach xs rejudge c).path.lastTime = c.path.lastTime ∧
    (forEach xs rejudge c).path.quietElapsed = c.path.quietElapsed ∧ (forEach xs rejudge c).path.procQuiet = c.path.procQuiet ∧
    (forEach xs rejudge c).path.response = c.path.response ∧ (forEach xs rejudge c).motor = c.motor ∧
    (forEach xs rejudge c).sense = c.sense ∧ (forEach xs rejudge c).input = c.input ∧ (forEach xs rejudge c).sound = c.sound ∧
    (forEach xs rejudge c).link = c.link ∧ (forEach xs rejudge c).mem = c.mem ∧ (forEach xs rejudge c).shadow = c.shadow := by
  induction xs generalizing c with
  | nil => simp
  | cons m xs ih => simp [forEach_cons, ih]
@[simp] theorem fireAll_keeps (xs : List (Fin 8)) (c : Chip) :
    (forEach xs fire c).pins = c.pins ∧ (forEach xs fire c).control.ms = c.control.ms ∧
    (forEach xs fire c).control.block = c.control.block ∧ (forEach xs fire c).control.enable = c.control.enable ∧
    (forEach xs fire c).control.outstanding = c.control.outstanding ∧
    (forEach xs fire c).control.quietPeriod = c.control.quietPeriod ∧
    (forEach xs fire c).control.latchOffset = c.control.latchOffset ∧
    (forEach xs fire c).control.latchCode = c.control.latchCode ∧
    (forEach xs fire c).control.guardRefusals = c.control.guardRefusals ∧
    (forEach xs fire c).control.badTransactions = c.control.badTransactions ∧
    (forEach xs fire c).attention.enabled = c.attention.enabled ∧
    (forEach xs fire c).attention.published = c.attention.published ∧ (forEach xs fire c).path.lastTime = c.path.lastTime ∧
    (forEach xs fire c).path.quietElapsed = c.path.quietElapsed ∧ (forEach xs fire c).path.procQuiet = c.path.procQuiet ∧
    (forEach xs fire c).path.response = c.path.response ∧ (forEach xs fire c).sense = c.sense ∧ (forEach xs fire c).input = c.input ∧
    (forEach xs fire c).sound.underruns = c.sound.underruns ∧ (forEach xs fire c).sound.latchResult = c.sound.latchResult ∧
    (forEach xs fire c).link.settings = c.link.settings ∧ (forEach xs fire c).link.peer = c.link.peer ∧
    (forEach xs fire c).link.sub = c.link.sub ∧ (forEach xs fire c).link.desc = c.link.desc ∧
    (forEach xs fire c).link.order = c.link.order ∧ (forEach xs fire c).link.releaseIndex = c.link.releaseIndex ∧
    (forEach xs fire c).link.releaseResult = c.link.releaseResult ∧ (forEach xs fire c).link.free = c.link.free ∧
    (forEach xs fire c).link.poolLow = c.link.poolLow ∧ (forEach xs fire c).link.poolFrame = c.link.poolFrame ∧
    (forEach xs fire c).link.receiver = c.link.receiver ∧ (forEach xs fire c).link.finishing = c.link.finishing ∧
    (forEach xs fire c).link.buf = c.link.buf ∧ (forEach xs fire c).link.cur = c.link.cur ∧
    (forEach xs fire c).link.replies = c.link.replies ∧ (forEach xs fire c).link.out = c.link.out ∧
    (forEach xs fire c).link.outOrder = c.link.outOrder ∧ (forEach xs fire c).link.tx = c.link.tx ∧
    (forEach xs fire c).link.txSeq = c.link.txSeq ∧ (forEach xs fire c).link.counters = c.link.counters ∧
    (forEach xs fire c).link.stormEnd = c.link.stormEnd ∧ (forEach xs fire c).link.lastFrame = c.link.lastFrame ∧
    (forEach xs fire c).mem = c.mem ∧ (forEach xs fire c).shadow = c.shadow := by
  induction xs generalizing c with
  | nil => simp
  | cons m xs ih => simp [forEach_cons, ih]
@[simp] theorem settle_keeps (n : Nat) (c : Chip) :
    (settle n c).pins = c.pins ∧ (settle n c).control.ms = c.control.ms ∧
    (settle n c).control.block = c.control.block ∧ (settle n c).control.enable = c.control.enable ∧
    (settle n c).control.outstanding = c.control.outstanding ∧
    (settle n c).control.quietPeriod = c.control.quietPeriod ∧
    (settle n c).control.latchOffset = c.control.latchOffset ∧ (settle n c).control.latchCode = c.control.latchCode ∧
    (settle n c).control.guardRefusals = c.control.guardRefusals ∧
    (settle n c).control.badTransactions = c.control.badTransactions ∧
    (settle n c).attention.enabled = c.attention.enabled ∧ (settle n c).attention.published = c.attention.published ∧
    (settle n c).path.lastTime = c.path.lastTime ∧ (settle n c).path.quietElapsed = c.path.quietElapsed ∧
    (settle n c).path.procQuiet = c.path.procQuiet ∧ (settle n c).path.response = c.path.response ∧
    (settle n c).sense = c.sense ∧ (settle n c).input = c.input ∧ (settle n c).sound.underruns = c.sound.underruns ∧
    (settle n c).sound.latchResult = c.sound.latchResult ∧ (settle n c).link.settings = c.link.settings ∧
    (settle n c).link.peer = c.link.peer ∧ (settle n c).link.sub = c.link.sub ∧ (settle n c).link.desc = c.link.desc ∧
    (settle n c).link.order = c.link.order ∧ (settle n c).link.releaseIndex = c.link.releaseIndex ∧
    (settle n c).link.releaseResult = c.link.releaseResult ∧ (settle n c).link.free = c.link.free ∧
    (settle n c).link.poolLow = c.link.poolLow ∧ (settle n c).link.poolFrame = c.link.poolFrame ∧
    (settle n c).link.receiver = c.link.receiver ∧ (settle n c).link.finishing = c.link.finishing ∧
    (settle n c).link.buf = c.link.buf ∧ (settle n c).link.cur = c.link.cur ∧
    (settle n c).link.replies = c.link.replies ∧ (settle n c).link.out = c.link.out ∧
    (settle n c).link.outOrder = c.link.outOrder ∧ (settle n c).link.tx = c.link.tx ∧
    (settle n c).link.txSeq = c.link.txSeq ∧ (settle n c).link.counters = c.link.counters ∧
    (settle n c).link.stormEnd = c.link.stormEnd ∧ (settle n c).link.lastFrame = c.link.lastFrame ∧
    (settle n c).mem = c.mem ∧ (settle n c).shadow = c.shadow := by
  induction n generalizing c with
  | zero => simp [settle]
  | succ n ih => simp only [settle]; split <;> simp [ih]
@[simp] theorem handChange_keeps (c : Chip) :
    (handChange c).pins = c.pins ∧ (handChange c).control.ms = c.control.ms ∧
    (handChange c).control.block = c.control.block ∧ (handChange c).control.enable = c.control.enable ∧
    (handChange c).control.outstanding = c.control.outstanding ∧
    (handChange c).control.quietPeriod = c.control.quietPeriod ∧
    (handChange c).control.latchOffset = c.control.latchOffset ∧
    (handChange c).control.latchCode = c.control.latchCode ∧
    (handChange c).control.guardRefusals = c.control.guardRefusals ∧
    (handChange c).control.badTransactions = c.control.badTransactions ∧
    (handChange c).attention.enabled = c.attention.enabled ∧
    (handChange c).attention.published = c.attention.published ∧ (handChange c).path.lastTime = c.path.lastTime ∧
    (handChange c).path.quietElapsed = c.path.quietElapsed ∧ (handChange c).path.procQuiet = c.path.procQuiet ∧
    (handChange c).path.response = c.path.response ∧ (handChange c).sense = c.sense ∧ (handChange c).input = c.input ∧
    (handChange c).sound.underruns = c.sound.underruns ∧ (handChange c).sound.latchResult = c.sound.latchResult ∧
    (handChange c).link.settings = c.link.settings ∧ (handChange c).link.peer = c.link.peer ∧
    (handChange c).link.sub = c.link.sub ∧ (handChange c).link.desc = c.link.desc ∧
    (handChange c).link.order = c.link.order ∧ (handChange c).link.releaseIndex = c.link.releaseIndex ∧
    (handChange c).link.releaseResult = c.link.releaseResult ∧ (handChange c).link.free = c.link.free ∧
    (handChange c).link.poolLow = c.link.poolLow ∧ (handChange c).link.poolFrame = c.link.poolFrame ∧
    (handChange c).link.receiver = c.link.receiver ∧ (handChange c).link.finishing = c.link.finishing ∧
    (handChange c).link.buf = c.link.buf ∧ (handChange c).link.cur = c.link.cur ∧
    (handChange c).link.replies = c.link.replies ∧ (handChange c).link.out = c.link.out ∧
    (handChange c).link.outOrder = c.link.outOrder ∧ (handChange c).link.tx = c.link.tx ∧
    (handChange c).link.txSeq = c.link.txSeq ∧ (handChange c).link.counters = c.link.counters ∧
    (handChange c).link.stormEnd = c.link.stormEnd ∧ (handChange c).link.lastFrame = c.link.lastFrame ∧
    (handChange c).mem = c.mem ∧ (handChange c).shadow = c.shadow := by
  unfold handChange; split <;> simp
@[simp] theorem setProcQuiet_keeps (b : Bool) (c : Chip) :
    (setProcQuiet b c).pins = c.pins ∧ (setProcQuiet b c).control.ms = c.control.ms ∧
    (setProcQuiet b c).control.block = c.control.block ∧ (setProcQuiet b c).control.enable = c.control.enable ∧
    (setProcQuiet b c).control.outstanding = c.control.outstanding ∧
    (setProcQuiet b c).control.quietPeriod = c.control.quietPeriod ∧
    (setProcQuiet b c).control.latchOffset = c.control.latchOffset ∧
    (setProcQuiet b c).control.latchCode = c.control.latchCode ∧
    (setProcQuiet b c).control.guardRefusals = c.control.guardRefusals ∧
    (setProcQuiet b c).control.badTransactions = c.control.badTransactions ∧
    (setProcQuiet b c).attention.enabled = c.attention.enabled ∧
    (setProcQuiet b c).attention.published = c.attention.published ∧
    (setProcQuiet b c).path.lastTime = c.path.lastTime ∧ (setProcQuiet b c).path.quietElapsed = c.path.quietElapsed ∧
    (setProcQuiet b c).path.response = c.path.response ∧ (setProcQuiet b c).sense = c.sense ∧
    (setProcQuiet b c).input = c.input ∧ (setProcQuiet b c).sound.underruns = c.sound.underruns ∧
    (setProcQuiet b c).sound.latchResult = c.sound.latchResult ∧ (setProcQuiet b c).link.settings = c.link.settings ∧
    (setProcQuiet b c).link.peer = c.link.peer ∧ (setProcQuiet b c).link.sub = c.link.sub ∧
    (setProcQuiet b c).link.desc = c.link.desc ∧ (setProcQuiet b c).link.order = c.link.order ∧
    (setProcQuiet b c).link.releaseIndex = c.link.releaseIndex ∧
    (setProcQuiet b c).link.releaseResult = c.link.releaseResult ∧ (setProcQuiet b c).link.free = c.link.free ∧
    (setProcQuiet b c).link.poolLow = c.link.poolLow ∧ (setProcQuiet b c).link.poolFrame = c.link.poolFrame ∧
    (setProcQuiet b c).link.receiver = c.link.receiver ∧ (setProcQuiet b c).link.finishing = c.link.finishing ∧
    (setProcQuiet b c).link.buf = c.link.buf ∧ (setProcQuiet b c).link.cur = c.link.cur ∧
    (setProcQuiet b c).link.replies = c.link.replies ∧ (setProcQuiet b c).link.out = c.link.out ∧
    (setProcQuiet b c).link.outOrder = c.link.outOrder ∧ (setProcQuiet b c).link.tx = c.link.tx ∧
    (setProcQuiet b c).link.txSeq = c.link.txSeq ∧ (setProcQuiet b c).link.counters = c.link.counters ∧
    (setProcQuiet b c).link.stormEnd = c.link.stormEnd ∧ (setProcQuiet b c).link.lastFrame = c.link.lastFrame ∧
    (setProcQuiet b c).mem = c.mem ∧ (setProcQuiet b c).shadow = c.shadow := by
  unfold setProcQuiet; split <;> simp
@[simp] theorem answer_keeps (d : Bool) (r : Response) (c : Chip) :
    (answer d r c).pins = c.pins ∧ (answer d r c).control = c.control ∧ (answer d r c).ring = c.ring ∧
    (answer d r c).attention = c.attention ∧ (answer d r c).path.upstream = c.path.upstream ∧
    (answer d r c).path.port = c.path.port ∧ (answer d r c).path.parts = c.path.parts ∧
    (answer d r c).path.pubs = c.path.pubs ∧ (answer d r c).path.count = c.path.count ∧
    (answer d r c).path.lastTime = c.path.lastTime ∧ (answer d r c).path.quietElapsed = c.path.quietElapsed ∧
    (answer d r c).path.procQuiet = c.path.procQuiet ∧ (answer d r c).motor = c.motor ∧
    (answer d r c).sense = c.sense ∧ (answer d r c).input = c.input ∧ (answer d r c).reflex = c.reflex ∧
    (answer d r c).sound = c.sound ∧ (answer d r c).link = c.link ∧ (answer d r c).mem = c.mem ∧
    (answer d r c).shadow = c.shadow := by
  unfold answer; split <;> simp
@[simp] theorem touch_keeps (c : Chip) :
    (touch c).pins = c.pins ∧ (touch c).control.ms = c.control.ms ∧ (touch c).control.block = c.control.block ∧
    (touch c).control.enable = c.control.enable ∧ (touch c).control.outstanding = c.control.outstanding ∧
    (touch c).control.quietPeriod = c.control.quietPeriod ∧ (touch c).control.latchOffset = c.control.latchOffset ∧
    (touch c).control.latchCode = c.control.latchCode ∧ (touch c).control.guardRefusals = c.control.guardRefusals ∧
    (touch c).control.badTransactions = c.control.badTransactions ∧
    (touch c).attention.enabled = c.attention.enabled ∧ (touch c).attention.published = c.attention.published ∧
    (touch c).path.response = c.path.response ∧ (touch c).sense = c.sense ∧ (touch c).input = c.input ∧
    (touch c).sound.underruns = c.sound.underruns ∧ (touch c).sound.latchResult = c.sound.latchResult ∧
    (touch c).link.settings = c.link.settings ∧ (touch c).link.peer = c.link.peer ∧ (touch c).link.sub = c.link.sub ∧
    (touch c).link.desc = c.link.desc ∧ (touch c).link.order = c.link.order ∧
    (touch c).link.releaseIndex = c.link.releaseIndex ∧ (touch c).link.releaseResult = c.link.releaseResult ∧
    (touch c).link.free = c.link.free ∧ (touch c).link.poolLow = c.link.poolLow ∧
    (touch c).link.poolFrame = c.link.poolFrame ∧ (touch c).link.receiver = c.link.receiver ∧
    (touch c).link.finishing = c.link.finishing ∧ (touch c).link.buf = c.link.buf ∧ (touch c).link.cur = c.link.cur ∧
    (touch c).link.replies = c.link.replies ∧ (touch c).link.out = c.link.out ∧
    (touch c).link.outOrder = c.link.outOrder ∧ (touch c).link.tx = c.link.tx ∧ (touch c).link.txSeq = c.link.txSeq ∧
    (touch c).link.counters = c.link.counters ∧ (touch c).link.stormEnd = c.link.stormEnd ∧
    (touch c).link.lastFrame = c.link.lastFrame ∧ (touch c).mem = c.mem ∧ (touch c).shadow = c.shadow := by
  simp [touch]
@[simp] theorem storeRecord_keeps (r : RecId) (bs : List Byte) (c : Chip) :
    (storeRecord r bs c).pins = c.pins ∧ (storeRecord r bs c).control = c.control ∧
    (storeRecord r bs c).ring = c.ring ∧ (storeRecord r bs c).attention = c.attention ∧
    (storeRecord r bs c).path = c.path ∧ (storeRecord r bs c).motor = c.motor ∧ (storeRecord r bs c).sense = c.sense ∧
    (storeRecord r bs c).input = c.input ∧ (storeRecord r bs c).reflex = c.reflex ∧
    (storeRecord r bs c).sound = c.sound ∧ (storeRecord r bs c).link = c.link := by
  simp [storeRecord]

end Chip
end Sys2Proof.Machine
end

