-- ==== Sys2Proof/Laws/Memory.lean ====
section
/-! SUPPORT. Memory: every write keeps the canonical form, and what a write does to each byte that is read. -/

namespace Sys2Proof.Machine

namespace Mem

@[simp] theorem wf_nil : wf [] = true := rfl

theorem wf_cons {a : Nat} {v : Byte} {m : Mem} :
    wf ((a, v) :: m) = true ↔ v ≠ unlisted ∧ above a m = true ∧ wf m = true := by
  simp [wf, and_assoc]

theorem above_cons {j a : Nat} {v : Byte} {m : Mem} : above j ((a, v) :: m) = true ↔ j < a := by
  simp [above]

theorem above_mono {j k : Nat} (h : j ≤ k) : ∀ m : Mem, above k m = true → above j m = true
  | [], _ => rfl
  | (_, _) :: _, h' => by
    rw [above_cons] at *
    omega

theorem write_above {j k : Nat} (v : Byte) (hk : j < k) :
    ∀ m : Mem, wf m = true → above j m = true → above j (write m k v) = true
  | [], _, _ => by
    simp only [write]
    split <;> simp [above, hk]
  | (a, w) :: m, hw, h => by
    rw [above_cons] at h
    rw [wf_cons] at hw
    simp only [write]
    split_ifs
    · simpa [above_cons] using h
    · simpa [above_cons] using hk
    · exact above_mono h.le m hw.2.1
    · simpa [above_cons] using hk
    · simpa [above_cons] using h

/-- A write keeps the canonical form. -/
@[simp] theorem wf_write (k : Nat) (v : Byte) : ∀ m : Mem, wf m = true → wf (write m k v) = true
  | [], _ => by
    simp only [write]
    split <;> simp_all [wf, above]
  | (a, w) :: m, h => by
    have h' := wf_cons.mp h
    simp only [write]
    split_ifs with h1 h2 h3 h4
    · exact h
    · exact wf_cons.mpr ⟨h2, above_cons.mpr h1, h⟩
    · exact h'.2.2
    · exact wf_cons.mpr ⟨h4, h3 ▸ h'.2.1, h'.2.2⟩
    · exact wf_cons.mpr ⟨h'.1, write_above v (by omega) m h'.2.2 h'.2.1, wf_write k v m h'.2.2⟩

@[simp] theorem wf_writeCells (cs : List Host.Cell) (m : Mem) (h : wf m = true) : wf (writeCells m cs) = true := by
  induction cs generalizing m with
  | nil => exact h
  | cons c cs ih => exact ih _ (wf_write _ _ _ h)

theorem read_above {j k : Nat} (h : k ≤ j) : ∀ m : Mem, above j m = true → wf m = true → read m k = unlisted
  | [], _, _ => rfl
  | (a, v) :: m, h', hw => by
    rw [above_cons] at h'
    rw [wf_cons] at hw
    simp only [read]
    rw [if_neg (by omega)]
    exact read_above (j := a) (by omega) m hw.2.1 hw.2.2

/-- What a write does to every byte that is read. -/
theorem read_write (k : Nat) (v : Byte) (a : Nat) :
    ∀ m : Mem, wf m = true → read (write m k v) a = if a = k then v else read m a
  | [], _ => by
    simp only [write]
    split_ifs <;> simp_all [read]
  | (b, w) :: m, h => by
    have h' := wf_cons.mp h
    have hgap : k ≤ b → read m k = unlisted := fun hk => read_above hk m h'.2.1 h'.2.2
    simp only [write]
    by_cases ha : a = k
    · subst ha
      rw [if_pos rfl]
      split_ifs with h1 h2 h3 h4
      · rw [read, if_neg (by omega), hgap (by omega), h2]
      · simp [read]
      · rw [hgap (by omega), h4]
      · simp [read]
      · rw [read, if_neg h3, read_write a v a m h'.2.2, if_pos rfl]
    · rw [if_neg ha]
      split_ifs with h1 h2 h3 h4
      · rfl
      · rw [read, if_neg ha]
      · rw [read, if_neg (by omega)]
      · rw [read, if_neg ha, read, if_neg (by omega)]
      · rw [read, read, read_write k v a m h'.2.2, if_neg ha]

/-- The last byte that a list of cells puts at an address. -/
def lastCell (cs : List Host.Cell) (a : Nat) : Option Byte := (cs.reverse.find? (fun c => c.1 == a)).map Prod.snd

/-- What a list of cells does to every byte that is read. -/
theorem read_writeCells (cs : List Host.Cell) (m : Mem) (a : Nat) (h : wf m = true) :
    read (writeCells m cs) a = (lastCell cs a).getD (read m a) := by
  induction cs generalizing m with
  | nil => rfl
  | cons c cs ih =>
    have := ih (write m c.1 c.2) (wf_write _ _ _ h)
    simp only [writeCells, List.foldl_cons] at this ⊢
    rw [this, read_write _ _ _ _ h]
    simp only [lastCell, List.reverse_cons, List.find?_append]
    cases hf : cs.reverse.find? (fun d => d.1 == a) with
    | some d => simp
    | none =>
      by_cases hc : c.1 = a
      · simp [hc]
      · have : a ≠ c.1 := fun e => hc e.symm
        simp [hc, this]

/-- A byte that no cell names is as it was. -/
theorem read_writeCells_other (cs : List Host.Cell) (m : Mem) (a : Nat) (h : wf m = true)
    (ha : ∀ c ∈ cs, c.1 ≠ a) : read (writeCells m cs) a = read m a := by
  rw [read_writeCells _ _ _ h]
  have : cs.reverse.find? (fun c => c.1 == a) = none := by
    rw [List.find?_eq_none]
    intro c hc
    simpa using ha c (by simpa using hc)
  simp [lastCell, this]

/-- Two memories in canonical form that read the same at every address are equal data. -/
theorem ext : ∀ m n : Mem, m.wf = true → n.wf = true → (∀ a, m.read a = n.read a) → m = n
  | [], [], _, _, _ => rfl
  | [], (b, w) :: n, _, hn, h => by
    have := h b
    simp only [read, if_pos] at this
    exact absurd this.symm (wf_cons.mp hn).1
  | (a, v) :: m, [], hm, _, h => by
    have := h a
    simp only [read, if_pos] at this
    exact absurd this (wf_cons.mp hm).1
  | (a, v) :: m, (b, w) :: n, hm, hn, h => by
    have hm' := wf_cons.mp hm
    have hn' := wf_cons.mp hn
    have hab : a = b := by
      rcases Nat.lt_trichotomy a b with hlt | he | hlt
      · have := h a
        simp only [read, if_pos] at this
        rw [if_neg (by omega), read_above hlt.le n hn'.2.1 hn'.2.2] at this
        exact absurd this hm'.1
      · exact he
      · have := h b
        simp only [read, if_pos] at this
        rw [if_neg (by omega), read_above hlt.le m hm'.2.1 hm'.2.2] at this
        exact absurd this.symm hn'.1
    subst hab
    have hvw : v = w := by
      have := h a
      simpa [read] using this
    subst hvw
    congr 1
    refine ext m n hm'.2.2 hn'.2.2 (fun k => ?_)
    have := h k
    simp only [read] at this
    by_cases hk : k = a
    · rw [hk, read_above le_rfl m hm'.2.1 hm'.2.2, read_above le_rfl n hn'.2.1 hn'.2.2]
    · rwa [if_neg hk, if_neg hk] at this

end Mem

namespace Chip

@[simp] theorem writeMem_wf (a : Nat) (bs : List Byte) (c : Chip) (h : c.mem.wf = true) :
    (writeMem a bs c).mem.wf = true := Mem.wf_writeCells _ _ h

@[simp] theorem setShadow_wf (r : RecId) (bs : List Byte) (c : Chip) (h : c.shadow.wf = true) :
    (setShadow r bs c).shadow.wf = true := Mem.wf_writeCells _ _ h

end Chip
end Sys2Proof.Machine
end

