-- ==== Sys2Proof/Laws/Effects.lean ====
section
/-! SUPPORT. What each shared operation does, in the words of Sys2Proof/Safety.lean: bytes stored, records joined, flags
raised, events appended, changes handed to a reflex unit where no entry watches, and the frame of a latch row. -/

namespace Sys2Proof.Machine

/-! ### Bytes -/

theorem Bytes_get_lt (bs : List Byte) (i : Nat) (h : i < bs.length) : Bytes.get bs i = bs[i] := by
  simp [Bytes.get, h]

theorem stored_cells : ∀ (bs : List Byte) (a : Nat) (m : Mem), m.wf = true → a + bs.length ≤ Config.addressSpace →
    Stored a bs m (m.writeCells (cells bs a))
  | [], a, m, _, _ => by
    intro k
    simp only [cells, Mem.writeCells, List.foldl_nil, List.length_nil, Nat.add_zero]
    rw [if_neg (by omega)]
  | b :: bs, a, m, h, hle => by
    intro k
    simp only [List.length_cons] at hle ⊢
    have hlt : a < Config.addressSpace := by omega
    simp only [cells, Mem.writeCells, List.foldl_cons, Nat.mod_eq_of_lt hlt]
    have ih := stored_cells bs (a + 1) (m.write a b) (Mem.wf_write _ _ _ h) (by omega) k
    simp only [Mem.writeCells] at ih
    rw [ih, Mem.read_write _ _ _ _ h]
    by_cases h1 : k = a
    · subst h1
      rw [if_neg (by omega), if_pos rfl, if_pos (by omega)]
      simp [Bytes.get]
    · by_cases h2 : a + 1 ≤ k ∧ k < a + 1 + bs.length
      · rw [if_pos h2, if_pos (by omega)]
        obtain ⟨d, rfl⟩ : ∃ d, k = a + 1 + d := ⟨k - (a + 1), by omega⟩
        rw [show a + 1 + d - (a + 1) = d by omega, show a + 1 + d - a = d + 1 by omega]
        simp [Bytes.get]
      · rw [if_neg h2, if_neg h1, if_neg (by omega)]

theorem cellsAt_eq_map (o : Nat) (bs : List Byte) :
    cellsAt o bs = (List.range bs.length).map (fun i => (o + i, Bytes.get bs i)) := rfl

theorem stored_cellsAt (o : Nat) (bs : List Byte) (m : Mem) (h : m.wf = true) :
    Stored o bs m (m.writeCells (cellsAt o bs)) := by
  suffices H : ∀ n, n ≤ bs.length → ∀ k,
      (m.writeCells ((List.range n).map (fun i => (o + i, Bytes.get bs i)))).read k
        = if o ≤ k ∧ k < o + n then Bytes.get bs (k - o) else m.read k from H _ le_rfl
  intro n
  induction n with
  | zero =>
    intro _ k
    simp only [List.range_zero, List.map_nil, Mem.writeCells, List.foldl_nil, Nat.add_zero]
    rw [if_neg (by omega)]
  | succ n ih =>
    intro hn k
    have ih := ih (by omega) k
    have hw := Mem.wf_writeCells ((List.range n).map (fun i => (o + i, Bytes.get bs i))) m h
    simp only [List.range_succ, List.map_append, Mem.writeCells, List.foldl_append, List.map_cons, List.map_nil,
      List.foldl_cons, List.foldl_nil] at ih hw ⊢
    rw [Mem.read_write _ _ _ _ hw, ih]
    by_cases hk : k = o + n
    · subst hk
      rw [if_pos rfl, if_pos (by omega), show o + n - o = n by omega]
    · rw [if_neg hk]
      by_cases h2 : o ≤ k ∧ k < o + n
      · rw [if_pos h2, if_pos (by omega)]
      · rw [if_neg h2, if_neg (by omega)]

theorem addr_add_size_le (r : RecId) : r.addr + r.size ≤ Config.addressSpace := by
  cases r <;> simp only [RecId.addr, RecId.offset, RecId.size, Config.windowBase, Config.addressSpace] <;> omega

namespace Chip

theorem writeMem_stored (a : Nat) (bs : List Byte) (c : Chip) (h : c.mem.wf = true)
    (hle : a + bs.length ≤ Config.addressSpace) : Stored a bs c.mem (writeMem a bs c).mem :=
  stored_cells bs a c.mem h hle

theorem setShadow_stored (r : RecId) (bs : List Byte) (c : Chip) (h : c.shadow.wf = true) :
    Stored r.offset bs c.shadow (setShadow r bs c).shadow := stored_cellsAt _ _ _ h

theorem storeRecord_stored (r : RecId) (bs : List Byte) (c : Chip) (hm : c.mem.wf = true) (hs : c.shadow.wf = true)
    (hl : bs.length = r.size) : RecordStored r bs c (storeRecord r bs c) :=
  ⟨writeMem_stored _ _ _ hm (hl ▸ addr_add_size_le r), stored_cellsAt _ _ _ hs⟩

/-! ### Publication list -/

@[simp] theorem publish_path (r : RecId) (c : Chip) : (publish r c).path = c.path.join r := by
  unfold publish Path.join joins; split <;> rfl

theorem joins_nodup (r : RecId) (l : List RecId) (h : l.Nodup) : (joins r l).Nodup := by
  unfold joins; split
  · exact h
  · next hr => exact List.nodup_append.mpr ⟨h, by simp, fun a ha b hb e => hr (by simp_all)⟩

theorem mem_joins (r q : RecId) (l : List RecId) : q ∈ joins r l ↔ q = r ∨ q ∈ l := by
  unfold joins; split
  · next h => exact ⟨Or.inr, fun h' => h'.elim (fun e => e ▸ h) id⟩
  · simp [or_comm]

theorem publish_eq (r : RecId) (c : Chip) : publish r c = { c with path := c.path.join r } := by
  unfold publish Path.join joins; split <;> rfl

/-! ### Attention -/

theorem publishedEligible_of_le (a b : Attention) (hp : b.published = a.published) (he : b.enabled = a.enabled)
    (hle : ∀ k : Fin 10, a.pending[k] = true → b.pending[k] = true) (h : a.publishedEligible = true) :
    b.publishedEligible = true := by
  unfold Attention.publishedEligible Attention.eligible at *
  rw [hp, he]
  cases hk : a.published with
  | none => rw [hk] at h; exact h
  | some k =>
    rw [hk] at h
    simp only [Bool.and_eq_true] at h ⊢
    exact ⟨hle k h.1, h.2⟩

theorem lineOk_review (now : Word) (a : Attention) : (a.review now).lineOk = true := by
  unfold Attention.review Attention.lineOk
  split
  · rfl
  · next h => cases hl : a.line <;> simp_all

theorem review_of_lineOk (now : Word) (a : Attention) (h : a.lineOk = true) : a.review now = a := by
  unfold Attention.review
  unfold Attention.lineOk at h
  split
  · next h' => cases hl : a.line <;> simp_all
  · rfl

/-- A raise of a cause that was not pending (R176). -/
theorem raiseCause_attention (k : Cause) (c : Chip) (h : c.attention.lineOk = true) :
    (raiseCause k c).attention = c.attention.raised k := by
  unfold raiseCause Attention.raised
  split
  · next hp =>
    have : c.attention.pending.set k.idx true = c.attention.pending := by
      apply Vector.ext
      intro i hi
      rw [Vector.getElem_set]
      split
      · next e => simpa [← e] using hp.symm
      · rfl
    rw [this]
  · unfold changeAttention
    simp only [publishIf]
    have hb : Attention.lineOk { c.attention with pending := c.attention.pending.set k.idx true } = true := by
      unfold Attention.lineOk at h ⊢
      simp only [Bool.or_eq_true] at h ⊢
      rcases h with h | h
      · exact Or.inl h
      · refine Or.inr (publishedEligible_of_le c.attention _ rfl rfl (fun i hi => ?_) h)
        simp only [Fin.getElem_fin, Vector.getElem_set] at *
        split <;> simp_all
    split <;> simp [publish_eq, review_of_lineOk _ _ hb]

/-! ### Changes handed to the reflex unit -/

theorem firesNow_of_state (c : Chip) (i : Fin 8) (h : c.reflex.entry[i].state ≠ .armed) : c.firesNow i = false := by
  unfold firesNow
  simp only [Bool.and_eq_false_iff, beq_eq_false_iff_ne]
  exact Or.inl (Or.inl h)

theorem rejudge_of_state (c : Chip) (i : Fin 8)
    (h : c.reflex.entry[i].state = .disabled ∨ c.reflex.entry[i].state = .spent) : rejudge i c = c := by
  unfold rejudge
  rcases h with h | h <;> simp only [h]

/-- With no entry watching, a change handed to the reflex unit does nothing (R114). -/
theorem handChange_of_unwatched (c : Chip) (h : c.unwatched = true) : c.handChange = c := by
  unfold handChange
  split
  · next hon =>
    have h8 : ∀ i : Fin 8, c.reflex.entry[i].state = .disabled ∨ c.reflex.entry[i].state = .spent := by
      unfold unwatched at h
      simp only [hon, Bool.not_true, Bool.false_or, List.all_eq_true, List.mem_finRange, forall_true_left,
        Bool.or_eq_true, beq_iff_eq] at h
      exact h
    have hf : (List.finRange 8).filter c.firesNow = [] := by
      rw [List.filter_eq_nil_iff]
      intro i _
      have : c.reflex.entry[i].state ≠ .armed := by
        rcases h8 i with h | h <;> rw [h] <;> simp
      simp [firesNow_of_state c i this]
    have hr : ∀ xs : List (Fin 8), forEach xs rejudge c = c := by
      intro xs
      induction xs with
      | nil => rfl
      | cons i xs ih => rw [forEach_cons, rejudge_of_state c i (h8 i), ih]
    simp only [settle, hf, hr]
  · rfl

/-- Whether an entry watches depends on the block states and the entries alone. -/
theorem unwatched_congr (c d : Chip) (hb : d.control.block = c.control.block) (hr : d.reflex = c.reflex) :
    d.unwatched = c.unwatched := by
  unfold unwatched on
  rw [hb, hr]

theorem setProcQuiet_of_unwatched (b : Bool) (c : Chip) (h : c.unwatched = true) :
    setProcQuiet b c = { c with path := { c.path with procQuiet := b } } := by
  unfold setProcQuiet
  split
  · next hb => subst hb; rfl
  · exact handChange_of_unwatched _ ((unwatched_congr c _ rfl rfl).trans h)

theorem touch_of_unwatched (c : Chip) (h : c.unwatched = true) :
    touch c = { c with path := { c.path with lastTime := c.control.ms, quietElapsed := 0, procQuiet := false } } := by
  unfold touch
  exact setProcQuiet_of_unwatched _ _ ((unwatched_congr c _ rfl rfl).trans h)

end Chip
end Sys2Proof.Machine
end

