-- ==== Sys2Proof/Laws/Invariant.lean ====
section
/-! SUPPORT. The invariant `Chip.inv`: which updates it does not see, and that every shared operation keeps it. -/

namespace Sys2Proof.Machine.Chip

theorem inv_iff (c : Chip) : c.inv = true ↔
    c.mem.wf = true ∧ c.shadow.wf = true ∧ c.path.pubs.Nodup ∧ c.path.count ≤ 4
    ∧ c.path.quietElapsed ≤ Config.quietHeld ∧ c.ring.held ≤ Config.ringSize
    ∧ c.link.replies.length ≤ Config.replyQueueSize ∧ c.attention.lineOk = true := by
  simp only [inv, Bool.and_eq_true, decide_eq_true_eq, and_assoc]

/-- The invariant sees no more of the chip than this. -/
theorem inv_of (c d : Chip) (hm : d.mem = c.mem) (hs : d.shadow = c.shadow) (hr : d.ring.held = c.ring.held)
    (ha : d.attention = c.attention) (hl : d.link.replies = c.link.replies) (hc : d.path.count = c.path.count)
    (hq : d.path.quietElapsed = c.path.quietElapsed) (hp : c.path.pubs.Nodup → d.path.pubs.Nodup)
    (h : c.inv = true) : d.inv = true := by
  rw [inv_iff] at h ⊢
  rw [hm, hs, hr, ha, hl, hc, hq]
  exact ⟨h.1, h.2.1, hp h.2.2.1, h.2.2.2⟩

@[simp] theorem inv_pins (c : Chip) (x : Pins) : inv { c with pins := x } = c.inv := rfl
@[simp] theorem inv_control (c : Chip) (x : Control) : inv { c with control := x } = c.inv := rfl
@[simp] theorem inv_motor (c : Chip) (x : Motor) : inv { c with motor := x } = c.inv := rfl
@[simp] theorem inv_sense (c : Chip) (x : Sense) : inv { c with sense := x } = c.inv := rfl
@[simp] theorem inv_input (c : Chip) (x : Inputs) : inv { c with input := x } = c.inv := rfl
@[simp] theorem inv_reflex (c : Chip) (x : Reflex) : inv { c with reflex := x } = c.inv := rfl
@[simp] theorem inv_sound (c : Chip) (x : Sound) : inv { c with sound := x } = c.inv := rfl
@[simp] theorem modCh_inv (m : Fin 4) (f : Channel → Channel) (c : Chip) : (modCh m f c).inv = c.inv := rfl
@[simp] theorem modSlot_inv (k : Fin 8) (f : SampleSlot → SampleSlot) (c : Chip) : (modSlot k f c).inv = c.inv := rfl
@[simp] theorem modInput_inv (n : Fin 11) (f : InputLine → InputLine) (c : Chip) : (modInput n f c).inv = c.inv := rfl
@[simp] theorem modEntry_inv (i : Fin 8) (f : ReflexEntry → ReflexEntry) (c : Chip) : (modEntry i f c).inv = c.inv :=
  rfl
@[simp] theorem modPeer_inv (p : Fin 8) (f : Peer → Peer) (c : Chip) : (modPeer p f c).inv = c.inv := rfl
@[simp] theorem setSub_inv (k : Fin 4) (x : Option Subscription) (c : Chip) : (setSub k x c).inv = c.inv := rfl
@[simp] theorem modOut_inv (k : Fin 4) (f : OutSlot → OutSlot) (c : Chip) : (modOut k f c).inv = c.inv := rfl
@[simp] theorem place_inv (q : PartReq) (c : Chip) : (place q c).inv = c.inv := rfl
@[simp] theorem setVoice_inv (v : Voice) (c : Chip) : (setVoice v c).inv = c.inv := rfl
@[simp] theorem setMode_inv (m : Fin 4) (x : Mode) (c : Chip) : (setMode m x c).inv = c.inv := rfl

/-- An update of the path that keeps its own part of the invariant. -/
@[simp] theorem inv_path (c : Chip) (x : Path) (hp : x.pubs = c.path.pubs) (hc : x.count = c.path.count)
    (hq : x.quietElapsed = c.path.quietElapsed) : inv { c with path := x } = c.inv := by
  simp only [inv, hp, hc, hq]

/-- An update of the ring that does not lengthen it. -/
theorem inv_ring (c : Chip) (x : Ring) (hr : x.held ≤ Config.ringSize) (h : c.inv = true) :
    inv { c with ring := x } = true := by
  rw [inv_iff] at h ⊢
  exact ⟨h.1, h.2.1, h.2.2.1, h.2.2.2.1, h.2.2.2.2.1, hr, h.2.2.2.2.2.2⟩

theorem inv_held {c : Chip} (h : c.inv = true) : c.ring.held ≤ Config.ringSize := ((inv_iff c).mp h).2.2.2.2.2.1
theorem inv_lineOk {c : Chip} (h : c.inv = true) : c.attention.lineOk = true := ((inv_iff c).mp h).2.2.2.2.2.2.2
theorem inv_mem {c : Chip} (h : c.inv = true) : c.mem.wf = true := ((inv_iff c).mp h).1
theorem inv_shadow {c : Chip} (h : c.inv = true) : c.shadow.wf = true := ((inv_iff c).mp h).2.1

/-- An update of the link that does not lengthen the reply queue past its size. -/
theorem inv_link (c : Chip) (x : Link) (hr : x.replies.length ≤ Config.replyQueueSize) (h : c.inv = true) :
    inv { c with link := x } = true := by
  rw [inv_iff] at h ⊢
  exact ⟨h.1, h.2.1, h.2.2.1, h.2.2.2.1, h.2.2.2.2.1, h.2.2.2.2.2.1, hr, h.2.2.2.2.2.2.2⟩

@[simp] theorem writeMem_inv (a : Nat) (bs : List Byte) (c : Chip) (h : c.inv = true) : (writeMem a bs c).inv = true := by
  rw [inv_iff] at h ⊢
  exact ⟨writeMem_wf _ _ _ h.1, h.2⟩
@[simp] theorem setShadow_inv (r : RecId) (bs : List Byte) (c : Chip) (h : c.inv = true) :
    (setShadow r bs c).inv = true := by
  rw [inv_iff] at h ⊢
  exact ⟨h.1, setShadow_wf _ _ _ h.2.1, h.2.2⟩
@[simp] theorem publish_inv (r : RecId) (c : Chip) (h : c.inv = true) : (publish r c).inv = true := by
  rw [inv_iff] at h ⊢
  simp only [publish_keeps, publish_path]
  exact ⟨h.1, h.2.1, joins_nodup _ _ h.2.2.1, h.2.2.2⟩
@[simp] theorem withdraw_inv (k : PartReq → Bool) (c : Chip) (h : c.inv = true) : (withdraw k c).inv = true := by
  rw [inv_iff] at h ⊢
  simp only [withdraw_keeps]
  refine ⟨h.1, h.2.1, h.2.2.1, ?_, h.2.2.2.2⟩
  have := h.2.2.2.1
  unfold withdraw Path.settleCount
  dsimp only
  split_ifs <;> simp [this]
@[simp] theorem changeAttention_inv (f : Attention → Attention) (c : Chip) (h : c.inv = true) :
    (changeAttention f c).inv = true := by
  unfold changeAttention publishIf
  have : inv { c with attention := (f c.attention).review c.control.ms } = true := by
    rw [inv_iff] at h ⊢
    exact ⟨h.1, h.2.1, h.2.2.1, h.2.2.2.1, h.2.2.2.2.1, h.2.2.2.2.2.1, h.2.2.2.2.2.2.1, lineOk_review _ _⟩
  dsimp only
  split
  · exact publish_inv _ _ this
  · exact this
@[simp] theorem appendRoom_inv (k : EventKind) (x y : Byte) (c : Chip) (hr : c.ring.held < Config.ringSize)
    (h : c.inv = true) : (appendRoom k x y c).inv = true := by
  have h1 : inv { c with ring := c.ring.push c.control.ms k x y } = true := inv_ring _ _ hr h
  have h2 := publish_inv (.ringEntry c.ring.tail) _ h1
  have h3 : (markStale (.ringEntry c.ring.tail) (publish (.ringEntry c.ring.tail)
      { c with ring := c.ring.push c.control.ms k x y })).inv = true := by
    unfold markStale
    (repeat' split) <;> exact h2
  unfold appendRoom raiseCause
  dsimp only
  (repeat' split) <;> simp [h3]
@[simp] theorem appendDropped_inv (c : Chip) (h : c.inv = true) : (appendDropped c).inv = true :=
  publish_inv _ _ (inv_ring _ _ (inv_held h) h)
theorem appendRoom_held (k : EventKind) (x y : Byte) (c : Chip) : (appendRoom k x y c).ring.held = c.ring.held + 1 := by
  unfold appendRoom
  dsimp only
  split <;> simp [Ring.push]
@[simp] theorem append_inv (k : EventKind) (x y : Byte) (c : Chip) (h : c.inv = true) : (append k x y c).inv = true := by
  unfold append
  dsimp only
  split
  · simp [h]
  · next hr =>
    rw [not_le] at hr
    split
    · simp [h, hr]
    · have h1 := appendRoom_inv .lost 0 c.ring.lostPending c hr h
      have h2 := publish_inv .ringStatus _ (inv_ring _
        { (appendRoom .lost 0 c.ring.lostPending c).ring with lostPending := 0 } (inv_held h1) h1)
      split
      · next hl => exact appendRoom_inv _ _ _ _ hl h2
      · exact appendDropped_inv _ h2
@[simp] theorem publishIf_inv (b : Bool) (r : RecId) (c : Chip) (h : c.inv = true) :
    (publishIf b r c).inv = true := by
  unfold publishIf; (repeat' split) <;> simp [h]
@[simp] theorem markStale_inv (r : RecId) (c : Chip) (h : c.inv = true) :
    (markStale r c).inv = true := by
  unfold markStale; (repeat' split) <;> exact h
@[simp] theorem reportLatch_inv (o : Nat) (x : Code) (c : Chip) (h : c.inv = true) :
    (reportLatch o x c).inv = true := by
  unfold reportLatch; simp [h]
@[simp] theorem raiseCause_inv (k : Cause) (c : Chip) (h : c.inv = true) :
    (raiseCause k c).inv = true := by
  unfold raiseCause; (repeat' split) <;> simp [h]
@[simp] theorem takeCause_inv (k : Option (Fin 10)) (c : Chip) (h : c.inv = true) :
    (takeCause k c).inv = true := by
  unfold takeCause; (repeat' split) <;> simp [h]
@[simp] theorem clearCauses_inv (c : Chip) (h : c.inv = true) :
    (clearCauses c).inv = true := by
  exact changeAttention_inv _ _ h
@[simp] theorem setCauseEnables_inv (e : Vector Bool 10) (c : Chip) (h : c.inv = true) :
    (setCauseEnables e c).inv = true := by
  exact changeAttention_inv _ _ h
@[simp] theorem flushRing_inv (c : Chip) (h : c.inv = true) :
    (flushRing c).inv = true := by
  exact publish_inv _ _ (inv_ring _ _ (Nat.zero_le _) h)
@[simp] theorem entryPublished_inv (i : Fin 32) (c : Chip) (h : c.inv = true) :
    (entryPublished i c).inv = true := by
  have h1 := inv_ring c { c.ring with published := c.ring.published.set i true } (inv_held h) h
  unfold entryPublished; dsimp only; split <;> simp [h, h1]
@[simp] theorem popEvent_inv (i : Fin 32) (c : Chip) (h : c.inv = true) :
    (popEvent i c).inv = true := by
  have h1 := inv_ring c c.ring.pop (Nat.le_trans (Nat.sub_le _ 1) (inv_held h)) h
  unfold popEvent; split <;> simp [h, h1]
@[simp] theorem runDone_inv (m : Fin 4) (x : Code) (c : Chip) (h : c.inv = true) :
    (runDone m x c).inv = true := by
  exact append_inv _ _ _ _ h
@[simp] theorem endOperation_inv (m : Fin 4) (x : Code) (c : Chip) (h : c.inv = true) :
    (endOperation m x c).inv = true := by
  unfold endOperation; (repeat' split) <;> simp [h]
@[simp] theorem channelTakes_inv (m : Fin 4) (x : MotorCmd) (c : Chip) (h : c.inv = true) :
    (channelTakes m x c).inv = true := by
  unfold channelTakes; dsimp only; (repeat' split) <;> simp [h]
@[simp] theorem claimLost_inv (m : Fin 4) (o : Owner) (x : Code) (c : Chip) (h : c.inv = true) :
    (claimLost m o x c).inv = true := by
  unfold claimLost; dsimp only; (repeat' split) <;> simp [h]
@[simp] theorem releaseClaim_inv (m : Fin 4) (x : Code) (c : Chip) (h : c.inv = true) :
    (releaseClaim m x c).inv = true := by
  unfold releaseClaim; dsimp only; (repeat' split) <;> simp (maxDischargeDepth := 30) only [publish_inv, claimLost_inv, modCh_inv, setMode_inv, endOperation_inv, h]
theorem forEach_inv_inv {α : Type} (xs : List α) (f : α → Chip → Chip) (c : Chip) (h : c.inv = true)
    (hf : ∀ x ∈ xs, ∀ d : Chip, d.inv = true → (f x d).inv = true) : (forEach xs f c).inv = true :=
  forEach_inv (fun d => d.inv = true) c h hf
@[simp] theorem releaseClaimsOf_inv (o : Owner) (x : Code) (c : Chip) (h : c.inv = true) :
    (releaseClaimsOf o x c).inv = true := by
  exact forEach_inv_inv _ _ _ h (fun m _ d hd => by split <;> simp [hd])
@[simp] theorem motorAct_inv (o : Owner) (w : Word) (x : MotorCmd) (m : Fin 4) (c : Chip) (h : c.inv = true) :
    (motorAct o w x m c).inv = true := by
  unfold motorAct; dsimp only; (repeat' split) <;> simp (maxDischargeDepth := 30) only [publish_inv, claimLost_inv, modCh_inv, channelTakes_inv, releaseClaim_inv, h]
@[simp] theorem endSound_inv (x : Code) (c : Chip) (h : c.inv = true) :
    (endSound x c).inv = true := by
  unfold endSound; dsimp only; (repeat' split) <;> simp (maxDischargeDepth := 30) only [raiseCause_inv, append_inv, publish_inv, inv_sound, withdraw_inv, h]
@[simp] theorem startTone_inv (o : Owner) (f v d : Nat) (c : Chip) (h : c.inv = true) :
    (startTone o f v d c).inv = true := by
  unfold startTone; dsimp only; simp (maxDischargeDepth := 30) only [publish_inv, inv_sound, endSound_inv, h]
@[simp] theorem placeDescRead_inv (a : Word) (c : Chip) (h : c.inv = true) :
    (placeDescRead a c).inv = true := by
  exact h
@[simp] theorem startStream_inv (v : Nat) (f : Bool) (d : Word) (c : Chip) (h : c.inv = true) :
    (startStream v f d c).inv = true := by
  unfold startStream; dsimp only; simp (maxDischargeDepth := 30) only [placeDescRead_inv, publish_inv, inv_sound, endSound_inv, h]
@[simp] theorem restartPath_inv (c : Chip) (h : c.inv = true) :
    (restartPath c).inv = true := by
  exact (inv_path _ _ rfl rfl rfl).trans h
@[simp] theorem restartClaims_inv (c : Chip) (h : c.inv = true) :
    (restartClaims c).inv = true := by
  unfold restartClaims; (repeat' split) <;> simp [h]
@[simp] theorem restartSound_inv (c : Chip) (h : c.inv = true) :
    (restartSound c).inv = true := by
  unfold restartSound; (repeat' split) <;> simp [h]
@[simp] theorem pulseStart_inv (c : Chip) (h : c.inv = true) :
    (pulseStart c).inv = true := by
  exact restartSound_inv _ (restartClaims_inv _ (restartPath_inv _ h))
@[simp] theorem restartRequest_inv (w : Nat) (c : Chip) (h : c.inv = true) :
    (restartRequest w c).inv = true := by
  unfold restartRequest; (repeat' split) <;> simp [h]
@[simp] theorem placeAlarm_inv (i : Fin 8) (c : Chip) (h : c.inv = true) :
    (placeAlarm i c).inv = true := by
  unfold placeAlarm; split
  · exact inv_link _ _ ((inv_iff c).mp h).2.2.2.2.2.2.1 h
  · exact h
@[simp] theorem fireStop_inv (i : Fin 8) (r : ReflexRec) (c : Chip) (h : c.inv = true) :
    (fireStop i r c).inv = true := by
  unfold fireStop; split
  · exact forEach_inv_inv _ _ _ h (fun m _ d hd => by simp [hd])
  · exact h
@[simp] theorem fireTone_inv (i : Fin 8) (r : ReflexRec) (c : Chip) (h : c.inv = true) :
    (fireTone i r c).inv = true := by
  unfold fireTone; (repeat' split) <;> simp [h]
@[simp] theorem fireAlarm_inv (i : Fin 8) (r : ReflexRec) (c : Chip) (h : c.inv = true) :
    (fireAlarm i r c).inv = true := by
  unfold fireAlarm; (repeat' split) <;> simp [h]
@[simp] theorem fire_inv (i : Fin 8) (c : Chip) (h : c.inv = true) :
    (fire i c).inv = true := by
  unfold fire; dsimp only; (repeat' split) <;> simp (maxDischargeDepth := 30) only [restartRequest_inv, raiseCause_inv, append_inv, fireAlarm_inv, fireTone_inv, fireStop_inv, publish_inv, modEntry_inv, h]
@[simp] theorem rejudge_inv (i : Fin 8) (c : Chip) (h : c.inv = true) :
    (rejudge i c).inv = true := by
  unfold rejudge; dsimp only; (repeat' split) <;> simp [h]
@[simp] theorem settle_inv (n : Nat) (c : Chip) (h : c.inv = true) :
    (settle n c).inv = true := by
  induction n generalizing c with
  | zero => exact h
  | succ n ih =>
    have h1 : (forEach (List.finRange 8) rejudge c).inv = true :=
      forEach_inv_inv _ _ _ h (fun i _ d hd => rejudge_inv i d hd)
    simp only [settle]
    split
    · exact h1
    · exact ih _ (forEach_inv_inv _ _ _ h1 (fun i _ d hd => fire_inv i d hd))
@[simp] theorem handChange_inv (c : Chip) (h : c.inv = true) :
    (handChange c).inv = true := by
  unfold handChange; (repeat' split) <;> simp [h]
@[simp] theorem setProcQuiet_inv (b : Bool) (c : Chip) (h : c.inv = true) :
    (setProcQuiet b c).inv = true := by
  unfold setProcQuiet; split
  · exact h
  · exact handChange_inv _ (by simpa using h)
@[simp] theorem answer_inv (d : Bool) (r : Response) (c : Chip) (h : c.inv = true) :
    (answer d r c).inv = true := by
  unfold answer; (repeat' split) <;> simp [h]
@[simp] theorem touch_inv (c : Chip) (h : c.inv = true) :
    (touch c).inv = true := by
  unfold touch
  refine setProcQuiet_inv _ _ ?_
  rw [inv_iff] at h ⊢
  exact ⟨h.1, h.2.1, h.2.2.1, h.2.2.2.1, Nat.zero_le _, h.2.2.2.2.2⟩
@[simp] theorem storeRecord_inv (r : RecId) (bs : List Byte) (c : Chip) (h : c.inv = true) :
    (storeRecord r bs c).inv = true := by
  exact setShadow_inv _ _ _ (writeMem_inv _ _ _ h)

end Sys2Proof.Machine.Chip
end

