-- ==== Sys2Proof/Laws/Rows.lean ====
section
/-! SUPPORT. How the statements about commands are proved: from what the meaning does to the chip (`act_answers`), and for
a latch row from what its latch does to the chip after the WRITE is stored and answered (`latchRow_answers`); the length of
every record's bytes; what the end of a sound does. -/

namespace Sys2Proof.Machine

theorem act_answers {f : Chip → Chip} {s : State} {P : Chip → Prop} {i : Instr} (h : exec i s = act f s)
    (hp : P (f s.hw)) : Answers i s P := ⟨_, h, rfl, hp⟩

/-- A command whose meaning changes nothing answers the state as it was. -/
theorem act_same {f : Chip → Chip} {s : State} {i : Instr} (h : exec i s = act f s) (hp : f s.hw = s.hw) :
    exec i s = .next s := by
  rw [h, act, hp]

namespace Chip

theorem ready_iff (c : Chip) : c.ready = true ↔ c.inv = true ∧ c.unwatched = true ∧ c.control.gen = .idle := by
  simp [ready, and_assoc]

/-- The chip after the WRITE of a latch row has been stored and answered. -/
def written (c : Chip) (mem shadow : Mem) : Chip :=
  { c with path := { c.path with response := some (.done []) }, mem := mem, shadow := shadow }

@[simp] theorem written_parts (c : Chip) (m h : Mem) :
    (c.written m h).pins = c.pins ∧ (c.written m h).control = c.control ∧ (c.written m h).ring = c.ring ∧
    (c.written m h).attention = c.attention ∧
    (c.written m h).path = { c.path with response := some (.done []) } ∧ (c.written m h).motor = c.motor ∧
    (c.written m h).sense = c.sense ∧ (c.written m h).input = c.input ∧ (c.written m h).reflex = c.reflex ∧
    (c.written m h).sound = c.sound ∧ (c.written m h).link = c.link ∧ (c.written m h).mem = m ∧
    (c.written m h).shadow = h := ⟨rfl, rfl, rfl, rfl, rfl, rfl, rfl, rfl, rfl, rfl, rfl, rfl, rfl⟩

/-- The chip after its processor transaction has been timed. -/
def timed (c : Chip) : Chip :=
  { c with path := { c.path with lastTime := c.control.ms, quietElapsed := 0, procQuiet := false } }

@[simp] theorem timed_parts (c : Chip) :
    c.timed.pins = c.pins ∧ c.timed.control = c.control ∧ c.timed.ring = c.ring ∧ c.timed.attention = c.attention ∧
    c.timed.path = { c.path with lastTime := c.control.ms, quietElapsed := 0, procQuiet := false } ∧
    c.timed.motor = c.motor ∧ c.timed.sense = c.sense ∧ c.timed.input = c.input ∧ c.timed.reflex = c.reflex ∧
    c.timed.sound = c.sound ∧ c.timed.link = c.link ∧ c.timed.mem = c.mem ∧ c.timed.shadow = c.shadow :=
  ⟨rfl, rfl, rfl, rfl, rfl, rfl, rfl, rfl, rfl, rfl, rfl, rfl, rfl⟩

theorem latchRow_of_idle (r : RecId) (bs : List Byte) (take : Chip → Chip) (c : Chip) (h : c.control.gen = .idle) :
    latchRow r bs take c = touch (take (c.written (storeRecord r bs c).mem (storeRecord r bs c).shadow)) := by
  unfold latchRow holding prst answer
  rw [if_neg (by rw [h]; simp), if_neg (by rw [h]; simp)]
  rfl

/-- A latch row in a ready state: its latch takes the chip with the record stored and the WRITE answered (R1, R6, R7). -/
theorem latchRow_answers {r : RecId} {bs : List Byte} {take : Chip → Chip} {i : Instr} {s : State} {P : Chip → Prop}
    (hi : exec i s = act (latchRow r bs take) s) (h : s.hw.ready = true) (hl : bs.length = r.size)
    (H : ∀ m sh, Stored r.addr bs s.hw.mem m → Stored r.offset bs s.hw.shadow sh →
      (s.hw.written m sh).inv = true → (s.hw.written m sh).unwatched = true →
      (take (s.hw.written m sh)).unwatched = true ∧ P (take (s.hw.written m sh)).timed) : Answers i s P := by
  obtain ⟨hinv, hu, hg⟩ := (ready_iff _).mp h
  have hs := storeRecord_stored r bs s.hw (inv_mem hinv) (inv_shadow hinv) hl
  have hi' := storeRecord_inv r bs s.hw hinv
  obtain ⟨hu', hp⟩ := H _ _ hs.1 hs.2
    (by
      obtain ⟨a, b, hrest⟩ := (inv_iff _).mp hi'
      exact (inv_iff _).mpr ⟨a, b, by simpa using hrest⟩)
    (by rw [unwatched_congr s.hw _ (by simp) (by simp)]; exact hu)
  refine act_answers hi ?_
  rw [latchRow_of_idle _ _ _ _ hg, touch_of_unwatched _ hu']
  exact hp

end Chip

/-! ### Lengths of records -/

theorem ControlRec.length_toBytes (r : ControlRec) (n : Nat) : (r.toBytes n).length = RecId.control.size := by
  simp [ControlRec.toBytes, Bytes.ofWord, Bytes.zeros, RecId.size]
theorem MotorSlot.length_toBytes (m : Fin 4) (r : MotorSlot) (n : Nat) :
    (r.toBytes n).length = (RecId.motorSlot m).size := by
  simp [MotorSlot.toBytes, Bytes.ofHalf, Bytes.ofWord, Bytes.zeros, RecId.size]
theorem ScanRec.length_toBytes (r : ScanRec) (n : Nat) : (r.toBytes n).length = RecId.scanProgram.size := by
  simp [ScanRec.toBytes, Bytes.ofHalf, Bytes.ofWord, Bytes.zeros, RecId.size]
theorem ChannelRec.length_toBytes (ch : Fin 8) (r : ChannelRec) : r.toBytes.length = (RecId.channelSettings ch).size := by
  simp [ChannelRec.toBytes, Bytes.ofHalf, Bytes.zeros, RecId.size]
theorem InputRec.length_toBytes (n : Fin 11) (r : InputRec) : r.toBytes.length = (RecId.inputSettings n).size := by
  simp [InputRec.toBytes, RecId.size]
theorem ReflexRec.length_toBytes (i : Fin 8) (r : ReflexRec) : r.toBytes.length = (RecId.reflexEntry i).size := by
  simp [ReflexRec.toBytes, TermRec.toBytes, Bytes.ofHalf, Bytes.zeros, RecId.size]
theorem SoundRec.length_toBytes (r : SoundRec) (n : Nat) : (r.toBytes n).length = RecId.soundRequest.size := by
  simp [SoundRec.toBytes, Bytes.ofHalf, Bytes.ofWord, Bytes.zeros, RecId.size]
theorem LinkRec.length_toBytes (r : LinkRec) : r.toBytes.length = RecId.linkSettings.size := by
  simp [LinkRec.toBytes, Bytes.ofHalf, Bytes.zeros, RecId.size]
theorem OutRec.length_toBytes (k : Fin 4) (r : OutRec) (n : Nat) : (r.toBytes n).length = (RecId.outHeader k).size := by
  simp [OutRec.toBytes, Bytes.ofHalf, Bytes.ofWord, Bytes.zeros, RecId.size]
theorem Bytes.length_ofWord (w : Word) : (Bytes.ofWord w).length = RecId.releaseWord.size := by
  simp [Bytes.ofWord, RecId.size]

namespace Chip

/-! ### Raises and appends -/

theorem raiseCause_pending (k : Cause) (c : Chip) : (raiseCause k c).attention.pending[k.idx] = true := by
  unfold raiseCause
  split
  · assumption
  · unfold changeAttention publishIf
    dsimp only
    split <;> simp [publish_eq]

theorem mem_pubs_raiseCause (k : Cause) (c : Chip) (r : RecId) (h : r ∈ c.path.pubs) :
    r ∈ (raiseCause k c).path.pubs := by
  unfold raiseCause changeAttention publishIf
  dsimp only
  split
  · exact h
  · split
    · simp [Path.join, mem_joins, h]
    · exact h

theorem appendDropped_ring (c : Chip) : (appendDropped c).ring = c.ring.drop := by simp [appendDropped, publish_eq]

theorem appendRoom_ring (k : EventKind) (x y : Byte) (c : Chip) :
    (appendRoom k x y c).ring = c.ring.push c.control.ms k x y := by
  unfold appendRoom
  dsimp only
  split <;> simp [publish_eq]

/-- What an append leaves in the ring depends on the ring and the time alone (R104 to R106). -/
theorem append_ring_congr (k : EventKind) (x y : Byte) (c d : Chip) (hr : c.ring = d.ring)
    (ht : c.control.ms = d.control.ms) : (append k x y c).ring = (append k x y d).ring := by
  unfold append
  simp only [hr]
  split
  · rw [appendDropped_ring, appendDropped_ring, hr]
  split
  · rw [appendRoom_ring, appendRoom_ring, hr, ht]
  · simp only [publish_eq, appendRoom_ring, hr, ht]
    split
    · simp [appendRoom_ring, ht]
    · simp [appendDropped_ring]

/-- What appends and raises keep of the path. -/
theorem append_path_keeps (P : Path → Prop) (hj : ∀ p r, P p → P (p.join r))
    (hm : ∀ r (c : Chip), P c.path → P (markStale r c).path) (k : EventKind) (x y : Byte) (c : Chip) (h : P c.path) :
    P (append k x y c).path := by
  have hr : ∀ k (c : Chip), P c.path → P (raiseCause k c).path := by
    intro k c h
    unfold raiseCause changeAttention publishIf
    dsimp only
    split
    · exact h
    · split
      · rw [publish_path]; exact hj _ _ h
      · exact h
  have h0 : ∀ c : Chip, P c.path → P (appendDropped c).path := by
    intro c h
    simp only [appendDropped, publish_path]
    exact hj _ _ h
  have h1 : ∀ k x y (c : Chip), P c.path → P (appendRoom k x y c).path := by
    intro k x y c h
    have : P (markStale (.ringEntry c.ring.tail)
        (publish (.ringEntry c.ring.tail) { c with ring := c.ring.push c.control.ms k x y })).path :=
      hm _ _ (by rw [publish_path]; exact hj _ _ h)
    unfold appendRoom
    dsimp only
    split
    · exact hr _ _ this
    · exact this
  have h2 : P (publish .ringStatus { appendRoom .lost 0 c.ring.lostPending c with
      ring := { (appendRoom .lost 0 c.ring.lostPending c).ring with lostPending := 0 } }).path := by
    rw [publish_path]; exact hj _ _ (h1 _ _ _ _ h)
  unfold append
  split
  · exact h0 _ h
  split
  · exact h1 _ _ _ _ h
  · dsimp only
    split
    · exact h1 _ _ _ _ h2
    · exact h0 _ h2

theorem mem_pubs_append (k : EventKind) (x y : Byte) (c : Chip) (r : RecId) (h : r ∈ c.path.pubs) :
    r ∈ (append k x y c).path.pubs :=
  append_path_keeps (fun p => r ∈ p.pubs) (fun p q hp => by simp [Path.join, mem_joins, hp]) (fun q c hp => by simpa) k x y c h

theorem append_port (k : EventKind) (x y : Byte) (c : Chip) (q : PartReq) (w : Bool)
    (h : c.path.port = some (.part q w)) : (append k x y c).path.port = some (.part q w) :=
  append_path_keeps (fun p => p.port = some (.part q w)) (fun p _ hp => hp)
    (fun r c hp => by unfold markStale; rw [hp]; exact hp) k x y c h

/-! ### The end of a sound -/

theorem endSound_silent (code : Code) (c : Chip) (h : c.sound.voice = .silent) : c.endSound code = c := by
  simp [endSound, h]

/-- A sound in progress ends (R130). -/
theorem endSound_spec (code : Code) (c : Chip) (h : c.sound.voice ≠ .silent) :
    (c.endSound code).sound = { c.sound with voice := .silent, output := 128, lastEnd := code }
    ∧ SoundEnded c.sound.voice.source code c (c.endSound code) ∧ (c.endSound code).path.parts = c.path.soundless
    ∧ KeptBut [.sound, .ring, .attention, .path] c (c.endSound code) := by
  unfold endSound
  rw [if_neg h]
  refine ⟨by simp, ⟨by simp, ?_, raiseCause_pending _ _, ?_, ?_⟩, ?_, ?_⟩
  · simp only [raiseCause_keeps]
    rw [append_ring_congr _ _ _ _ c (by simp) (by simp)]
    simp only [soundIndex]
    all_goals cases c.sound.voice.source <;> rfl
  · apply mem_pubs_raiseCause
    apply mem_pubs_append
    simp [Path.join, mem_joins]
  · intro q w hq
    simp only [raiseCause_keeps]
    apply append_port
    simp only [publish_path, Path.join, withdraw, Path.settleCount, hq]
    split <;> rfl
  · simp only [raiseCause_keeps, append_keeps, publish_path, Path.join, withdraw, Path.settleCount, Path.soundless]
    split <;> split <;> rfl
  · intro p hp
    cases p <;> simp_all [Part.same]

end Chip
end Sys2Proof.Machine
end

