-- ==== Sys2Proof/Laws/Link.lean ====
section
/-! SUPPORT. What the shared operations of the link unit do: its fields in the words of Sys2Proof/Safety.lean, and the parts
of the chip that each keeps. -/

namespace Sys2Proof.Machine

/-! ### The pool -/

theorem Link.judgePool_free (up : Bool) (free : List (Fin 48)) (l : Link) :
    Link.judgePool up { l with free := free } = { l with
      free := free
      poolLow := poolLowAt l.settings free.length l.poolLow
      poolFrame := poolFrameAt up l.poolLow (poolLowAt l.settings free.length l.poolLow) l.poolFrame } := by
  unfold Link.judgePool
  dsimp only
  have hlow : (if free.length < l.settings.low then true else if l.settings.high ≤ free.length then false else l.poolLow)
      = poolLowAt l.settings free.length l.poolLow := rfl
  rw [hlow]
  generalize poolLowAt l.settings free.length l.poolLow = low
  congr 1
  unfold poolFrameAt
  cases l.poolLow <;> cases low <;> cases l.poolFrame <;> simp

namespace Chip

@[simp] theorem modLink_keeps (f : Link → Link) (c : Chip) :
    (c.modLink f).pins = c.pins ∧ (c.modLink f).control = c.control ∧ (c.modLink f).ring = c.ring ∧
    (c.modLink f).attention = c.attention ∧ (c.modLink f).path = c.path ∧ (c.modLink f).motor = c.motor ∧
    (c.modLink f).sense = c.sense ∧ (c.modLink f).input = c.input ∧ (c.modLink f).reflex = c.reflex ∧
    (c.modLink f).sound = c.sound ∧ (c.modLink f).link = f c.link ∧ (c.modLink f).mem = c.mem ∧
    (c.modLink f).shadow = c.shadow := ⟨rfl, rfl, rfl, rfl, rfl, rfl, rfl, rfl, rfl, rfl, rfl, rfl, rfl⟩

@[simp] theorem modLink_inv (f : Link → Link) (c : Chip) (hr : (f c.link).replies.length ≤ Config.replyQueueSize)
    (h : c.inv = true) : (c.modLink f).inv = true := inv_link c _ hr h

/-- A counter's increase (R161). -/
theorem count_eq (k : Counter) (c : Chip) :
    c.count k = { c with link := c.link.counted k.idx, path := c.path.join .linkStatus } := by
  rw [count, publish_eq]; rfl

/-- The free list changes (R149, R150). -/
theorem setFree_eq (free : List (Fin 48)) (c : Chip) :
    ∃ p : Path, (p = c.path ∨ p = c.path.join .inboundStatus) ∧ c.setFree free = { c with
      link := { c.link with
        free := free
        poolLow := poolLowAt c.link.settings free.length c.link.poolLow
        poolFrame := poolFrameAt c.linkUp c.link.poolLow (poolLowAt c.link.settings free.length c.link.poolLow)
          c.link.poolFrame }
      path := p } := by
  unfold setFree publishIf
  dsimp only
  split
  · exact ⟨_, Or.inr rfl, by rw [publish_eq]; simp [modLink, Link.judgePool_free]⟩
  · exact ⟨_, Or.inl rfl, by simp [modLink, Link.judgePool_free]⟩

/-- Blocks return to the free list (R149, R150). -/
theorem returnBlocks_eq (bs : List (Fin 48)) (c : Chip) :
    ∃ p : Path, (p = c.path ∨ p = c.path.join .inboundStatus) ∧
      c.returnBlocks bs = { c with link := c.link.returned c.linkUp bs, path := p } := by
  obtain ⟨p, hp, h⟩ := setFree_eq (c.link.free ++ bs) c
  exact ⟨p, hp, by rw [returnBlocks, h]; simp [Link.returned]⟩

@[simp] theorem returnBlocks_link (bs : List (Fin 48)) (c : Chip) :
    (c.returnBlocks bs).link = c.link.returned c.linkUp bs := by
  obtain ⟨p, -, h⟩ := returnBlocks_eq bs c
  rw [h]

@[simp] theorem returnBlocks_keeps (bs : List (Fin 48)) (c : Chip) :
    (c.returnBlocks bs).pins = c.pins ∧ (c.returnBlocks bs).control = c.control ∧ (c.returnBlocks bs).ring = c.ring ∧
    (c.returnBlocks bs).attention = c.attention ∧ (c.returnBlocks bs).path.parts = c.path.parts ∧
    (c.returnBlocks bs).path.port = c.path.port ∧ (c.returnBlocks bs).motor = c.motor ∧
    (c.returnBlocks bs).sense = c.sense ∧ (c.returnBlocks bs).input = c.input ∧
    (c.returnBlocks bs).reflex = c.reflex ∧ (c.returnBlocks bs).sound = c.sound ∧ (c.returnBlocks bs).mem = c.mem ∧
    (c.returnBlocks bs).shadow = c.shadow := by
  obtain ⟨p, hp, h⟩ := returnBlocks_eq bs c
  rw [h]
  rcases hp with rfl | rfl <;> simp [Path.join]

theorem mem_pubs_returnBlocks (bs : List (Fin 48)) (c : Chip) (r : RecId) (hr : r ∈ c.path.pubs) :
    r ∈ (c.returnBlocks bs).path.pubs := by
  obtain ⟨p, hp, h⟩ := returnBlocks_eq bs c
  rw [h]
  rcases hp with rfl | rfl
  · exact hr
  · simp [Path.join, mem_joins, hr]

/-! ### Frames given up -/

/-- A finishing frame none of whose stores is outstanding is discarded (R148). -/
theorem discard_finishing (k : Counter) (f : RxFrame) (c : Chip)
    (h : ∀ b : Fin 2, c.link.buf[b].store ≠ some .finishing) :
    c.discard k .finishing f = (c.count k).returnBlocks f.blocks := by
  have h0 := h 0
  have h1 := h 1
  simp only [Fin.getElem_fin, Fin.isValue, Fin.val_zero, Fin.val_one] at h0 h1
  unfold discard dropFrame
  dsimp only
  rw [show List.finRange 2 = [0, 1] from rfl, forEach_cons, forEach_cons, forEach_nil, count_eq]
  simp [Link.counted, h0, h1]

/-- The chunk buffers after a frame being received has been given up. -/
theorem dropFrame_receiving_link (f : RxFrame) (c : Chip) :
    (c.dropFrame .receiving f).link = Link.returned c.linkUp f.blocks { c.link with
      buf := c.link.buf.map (fun x => if x.store = some .finishing then x else ⟨[], none⟩) } := by
  unfold dropFrame
  dsimp only
  rw [show List.finRange 2 = [0, 1] from rfl, forEach_cons, forEach_cons, forEach_nil]
  have hv : ∀ v : Vector ChunkBuf 2, v = #v[v[0], v[1]] := by
    intro v
    apply Vector.ext
    intro i hi
    rcases i with _ | _ | i <;> simp at hi ⊢
  generalize ha : c.link.buf[0] = a
  generalize hb : c.link.buf[1] = b
  have hbuf : c.link.buf = #v[a, b] := by rw [hv c.link.buf, ha, hb]
  obtain ⟨ab, as⟩ := a
  obtain ⟨bb, bs⟩ := b
  have hup : ∀ d : Chip, d.control = c.control → d.pins = c.pins → d.linkUp = c.linkUp := by
    intro d h1 h2; unfold linkUp on; rw [h1, h2]
  rcases as with _ | _ | _ <;> rcases bs with _ | _ | _ <;>
    simp [hbuf, modLink, ChunkBuf.reset, hup]
  rw [← hbuf]

end Chip
end Sys2Proof.Machine
end

