-- ==== Sys2Proof/Laws/Calm.lean ====
section
/-! SUPPORT. From c to d the structure of the link's tables and of block resets rests as it was (`Chip.Calm`): one lemma
for each operation that leaves it so, whatever chip c the change is counted from. -/

namespace Sys2Proof.Machine

namespace Link

/-- Two links agree in what the structure of the tables rests on. -/
structure Like (l m : Link) : Prop where
  free : m.free = l.free
  receiver : m.receiver = l.receiver
  finishing : m.finishing = l.finishing
  desc : ∀ k : Fin 16, m.desc[k].map Descriptor.blocks = l.desc[k].map Descriptor.blocks
  peer : ∀ p : Fin 8, m.peer[p].map (fun x => (x.tag, x.driver)) = l.peer[p].map (fun x => (x.tag, x.driver))
  sub : ∀ k : Fin 4, m.sub[k].map (fun x => (x.slot, x.tag)) = l.sub[k].map (fun x => (x.slot, x.tag))
  limit : m.settings.driverLimit = l.settings.driverLimit

theorem Like.rfl' (l : Link) : Like l l := ⟨rfl, rfl, rfl, fun _ => rfl, fun _ => rfl, fun _ => rfl, rfl⟩
theorem Like.trans {l m n : Link} (h : Like l m) (k : Like m n) : Like l n :=
  ⟨k.free.trans h.free, k.receiver.trans h.receiver, k.finishing.trans h.finishing, fun i => (k.desc i).trans
      (h.desc i),
    fun i => (k.peer i).trans (h.peer i), fun i => (k.sub i).trans (h.sub i), k.limit.trans h.limit⟩

end Link

namespace Chip

/-- From c to d the link's tables, the link state's inputs and the block states stay, and no motor has come to a LINK
owner. -/
structure Calm (c d : Chip) : Prop where
  like : Link.Like c.link d.link
  ready : d.pins.linkReady = c.pins.linkReady
  block : d.control.block = c.control.block
  left : d.control.outstanding = c.control.outstanding
  owner : ∀ (m : Fin 4) (p : Fin 8), d.motor.ch[m].owner = .link p → c.motor.ch[m].owner = .link p

theorem Calm.refl (c : Chip) : Calm c c := ⟨.rfl' _, rfl, rfl, rfl, fun _ _ h => h⟩
theorem Calm.trans {c d e : Chip} (h : Calm c d) (k : Calm d e) : Calm c e :=
  ⟨h.like.trans k.like, k.ready.trans h.ready, k.block.trans h.block, k.left.trans h.left, fun m p x => h.owner m p
      (k.owner m p x)⟩
/-- A change elsewhere. -/
theorem Calm.same {c d : Chip} (e : Chip) (h : Calm c d) (hl : e.link = d.link) (hp : e.pins = d.pins)
    (hb : e.control.block = d.control.block) (ho : e.control.outstanding = d.control.outstanding)
    (hm : e.motor = d.motor) : Calm c e :=
  h.trans ⟨hl ▸ .rfl' _, by rw [hp], hb, ho, fun m p x => by rw [hm] at x; exact x⟩
/-- A change of motors that makes no LINK owner. -/
theorem Calm.motors {c d : Chip} (e : Chip) (h : Calm c d) (hl : e.link = d.link) (hp : e.pins = d.pins)
    (hb : e.control.block = d.control.block) (ho : e.control.outstanding = d.control.outstanding)
    (hm : ∀ (m : Fin 4) (p : Fin 8), e.motor.ch[m].owner = .link p → d.motor.ch[m].owner = .link p) : Calm c e :=
  h.trans ⟨hl ▸ .rfl' _, by rw [hp], hb, ho, hm⟩

variable {c d : Chip}

theorem calm_pins (x : Pins) (hx : x.linkReady = d.pins.linkReady) (h : Calm c d) : Calm c { d with pins := x } :=
  h.trans ⟨.rfl' _, hx, rfl, rfl, fun _ _ h => h⟩
@[simp] theorem calm_control (x : Control) (hx : x.block = d.control.block)
    (ho : x.outstanding = d.control.outstanding) (h : Calm c d) : Calm c { d with control := x } :=
  h.same _ rfl rfl hx ho rfl
@[simp] theorem calm_ring (x : Ring) (h : Calm c d) : Calm c { d with ring := x } := h.same _ rfl rfl rfl rfl rfl
@[simp] theorem calm_attention (x : Attention) (h : Calm c d) : Calm c { d with attention := x } :=
    h.same _ rfl rfl rfl rfl rfl
@[simp] theorem calm_path (x : Path) (h : Calm c d) : Calm c { d with path := x } := h.same _ rfl rfl rfl rfl rfl
@[simp] theorem calm_sense (x : Sense) (h : Calm c d) : Calm c { d with sense := x } := h.same _ rfl rfl rfl rfl rfl
@[simp] theorem calm_input (x : Inputs) (h : Calm c d) : Calm c { d with input := x } := h.same _ rfl rfl rfl rfl rfl
@[simp] theorem calm_reflex (x : Reflex) (h : Calm c d) : Calm c { d with reflex := x } := h.same _ rfl rfl rfl rfl rfl
@[simp] theorem calm_sound (x : Sound) (h : Calm c d) : Calm c { d with sound := x } := h.same _ rfl rfl rfl rfl rfl
@[simp] theorem calm_mem (x : Mem) (h : Calm c d) : Calm c { d with mem := x } := h.same _ rfl rfl rfl rfl rfl
@[simp] theorem calm_shadow (x : Mem) (h : Calm c d) : Calm c { d with shadow := x } := h.same _ rfl rfl rfl rfl rfl
@[simp] theorem publish_calm (r : RecId) (h : Calm c d) : Calm c (publish r d) :=
  h.same _ (by simp) (by simp) (by simp) (by simp) (by simp)
@[simp] theorem publishIf_calm (b : Bool) (r : RecId) (h : Calm c d) : Calm c (publishIf b r d) :=
  h.same _ (by simp) (by simp) (by simp) (by simp) (by simp)
@[simp] theorem markStale_calm (r : RecId) (h : Calm c d) : Calm c (markStale r d) :=
  h.same _ (by simp) (by simp) (by simp) (by simp) (by simp)
@[simp] theorem reportLatch_calm (o : Nat) (x : Code) (h : Calm c d) : Calm c (reportLatch o x d) :=
  h.same _ (by simp) (by simp) (by simp) (by simp) (by simp)
@[simp] theorem withdraw_calm (k : PartReq → Bool) (h : Calm c d) : Calm c (withdraw k d) :=
  h.same _ (by simp) (by simp) (by simp) (by simp) (by simp)
@[simp] theorem raiseCause_calm (k : Cause) (h : Calm c d) : Calm c (raiseCause k d) :=
  h.same _ (by simp) (by simp) (by simp) (by simp) (by simp)
@[simp] theorem takeCause_calm (k : Option (Fin 10)) (h : Calm c d) : Calm c (takeCause k d) :=
  h.same _ (by simp) (by simp) (by simp) (by simp) (by simp)
@[simp] theorem clearCauses_calm (h : Calm c d) : Calm c (clearCauses d) :=
  h.same _ (by simp) (by simp) (by simp) (by simp) (by simp)
@[simp] theorem setCauseEnables_calm (e : Vector Bool 10) (h : Calm c d) : Calm c (setCauseEnables e d) :=
  h.same _ (by simp) (by simp) (by simp) (by simp) (by simp)
@[simp] theorem append_calm (k : EventKind) (x y : Byte) (h : Calm c d) : Calm c (append k x y d) :=
  h.same _ (by simp) (by simp) (by simp) (by simp) (by simp)
@[simp] theorem flushRing_calm (h : Calm c d) : Calm c (flushRing d) :=
  h.same _ (by simp) (by simp) (by simp) (by simp) (by simp)
@[simp] theorem entryPublished_calm (i : Fin 32) (h : Calm c d) : Calm c (entryPublished i d) :=
  h.same _ (by simp) (by simp) (by simp) (by simp) (by simp)
@[simp] theorem popEvent_calm (i : Fin 32) (h : Calm c d) : Calm c (popEvent i d) :=
  h.same _ (by simp) (by simp) (by simp) (by simp) (by simp)
@[simp] theorem endSound_calm (x : Code) (h : Calm c d) : Calm c (endSound x d) :=
  h.same _ (by simp) (by simp) (by simp) (by simp) (by simp)
@[simp] theorem startTone_calm (o : Owner) (f v t : Nat) (h : Calm c d) : Calm c (startTone o f v t d) :=
  h.same _ (by simp) (by simp) (by simp) (by simp) (by simp)
@[simp] theorem startStream_calm (v : Nat) (f : Bool) (a : Word) (h : Calm c d) : Calm c (startStream v f a d) :=
  h.same _ (by simp) (by simp) (by simp) (by simp) (by simp)
@[simp] theorem answer_calm (b : Bool) (r : Response) (h : Calm c d) : Calm c (answer b r d) :=
  h.same _ (by simp) (by simp) (by simp) (by simp) (by simp)
@[simp] theorem storeRecord_calm (r : RecId) (bs : List Byte) (h : Calm c d) : Calm c (storeRecord r bs d) :=
  h.same _ (by simp) (by simp) (by simp) (by simp) (by simp)
@[simp] theorem writeMem_calm (a : Nat) (bs : List Byte) (h : Calm c d) : Calm c (writeMem a bs d) := calm_mem _ h
@[simp] theorem setShadow_calm (r : RecId) (bs : List Byte) (h : Calm c d) : Calm c (setShadow r bs d) :=
    calm_shadow _ h
@[simp] theorem place_calm (q : PartReq) (h : Calm c d) : Calm c (place q d) := calm_path _ h
@[simp] theorem modSlot_calm (k : Fin 8) (f : SampleSlot → SampleSlot) (h : Calm c d) : Calm c (modSlot k f d) :=
  calm_sense _ h
@[simp] theorem modInput_calm (n : Fin 11) (f : InputLine → InputLine) (h : Calm c d) : Calm c (modInput n f d) :=
  calm_input _ h
@[simp] theorem modEntry_calm (i : Fin 8) (f : ReflexEntry → ReflexEntry) (h : Calm c d) : Calm c (modEntry i f d) :=
  calm_reflex _ h
@[simp] theorem setVoice_calm (v : Voice) (h : Calm c d) : Calm c (setVoice v d) := calm_sound _ h

/-- A channel changes, and its owner with it stays or is no tablet. -/
theorem modCh_calm' (m : Fin 4) (f : Channel → Channel)
    (hf : ∀ p : Fin 8, (f d.motor.ch[m]).owner = .link p → d.motor.ch[m].owner = .link p) (h : Calm c d) :
    Calm c (modCh m f d) := by
  refine h.motors _ rfl rfl rfl rfl fun k p hk => ?_
  by_cases hmk : m = k
  · subst hmk; simp [modCh] at hk; exact hf p hk
  · have : (m : Nat) ≠ k := fun h => hmk (Fin.ext h)
    simpa [modCh, this] using hk


theorem modCh_calm (m : Fin 4) (f : Channel → Channel) (hf : ∀ x : Channel, (f x).owner = x.owner) (h : Calm c d) :
    Calm c (modCh m f d) := modCh_calm' m f (fun p hp => by rwa [hf] at hp) h

/-! ### Motors -/

end Chip

namespace Channel
@[simp] theorem reviewWatch_owner (now : Word) (x : Channel) : (x.reviewWatch now).owner = x.owner := rfl
@[simp] theorem setStage_owner (now : Word) (st : Stage) (x : Channel) : (x.setStage now st).owner = x.owner := rfl
@[simp] theorem retarget_owner (now : Word) (x : Channel) : (x.retarget now).owner = x.owner := by
  unfold retarget; split <;> rfl
@[simp] theorem setMode_owner (now : Word) (y : Mode) (x : Channel) : (x.setMode now y).owner = x.owner := by
  unfold setMode; simp
@[simp] theorem cool_owner (now : Word) (x : Channel) : (x.cool now).owner = x.owner := by
  unfold cool; split <;> rfl
@[simp] theorem takeSettings_owner (now : Word) (y : MotorSettings) (x : Channel) :
    (x.takeSettings now y).owner = x.owner := by
  unfold takeSettings; dsimp only; split <;> rfl
@[simp] theorem periodBoundary_owner (now : Word) (x : Channel) : (x.periodBoundary now).owner = x.owner := by
  unfold periodBoundary; dsimp only; (repeat' split) <;> rfl
@[simp] theorem passageEnd_owner (now : Word) (x : Channel) : (x.passageEnd now).owner = x.owner := by
  unfold passageEnd; (repeat' split) <;> rfl
end Channel

namespace Chip
variable {c d : Chip}

@[simp] theorem setMode_calm (m : Fin 4) (y : Mode) (h : Calm c d) : Calm c (setMode m y d) :=
  modCh_calm m _ (by simp) h
@[simp] theorem endOperation_calm (m : Fin 4) (x : Code) (h : Calm c d) : Calm c (endOperation m x d) :=
  h.same _ (by simp) (by simp) (by simp) (by simp) (by simp)
@[simp] theorem runDone_calm (m : Fin 4) (x : Code) (h : Calm c d) : Calm c (runDone m x d) := append_calm _ _ _ h
@[simp] theorem cool_calm (m : Fin 4) (now : Word) (h : Calm c d) : Calm c (modCh m (Channel.cool now) d) :=
  modCh_calm m _ (by simp) h
@[simp] theorem channelTakes_calm (m : Fin 4) (x : MotorCmd) (h : Calm c d) : Calm c (channelTakes m x d) := by
  have h1 : Calm c (modCh m (fun ch => { ch with count := 0 }) d) := modCh_calm m _ (fun _ => rfl) h
  cases x <;> unfold channelTakes <;> dsimp only
  case resetCount => split
                     · exact setMode_calm _ _ (endOperation_calm _ _ h1)
                     · exact h1
  all_goals (repeat' split) <;> simp (maxDischargeDepth := 30) [h]
@[simp] theorem claimLost_calm (m : Fin 4) (o : Owner) (x : Code) (h : Calm c d) : Calm c (claimLost m o x d) :=
  h.same _ (by simp) (by simp) (by simp) (by simp) (by simp)
@[simp] theorem releaseClaim_calm (m : Fin 4) (x : Code) (h : Calm c d) : Calm c (releaseClaim m x d) := by
  unfold releaseClaim
  have h1 : Calm c (modCh m (fun ch => { ch with owner := .none, deadline := none }) d) :=
    modCh_calm' m _ (fun p hp => by simp at hp) h
  dsimp only
  split
  · exact h
  · simp (maxDischargeDepth := 30) [h1]
/-- An act of PROC or of a reflex entry. -/
theorem motorAct_calm (q : Owner) (hq : ∀ p, q ≠ .link p) (w : Word) (x : MotorCmd) (m : Fin 4) (h : Calm c d) :
    Calm c (motorAct q w x m d) := by
  unfold motorAct
  have h1 : Calm c (modCh m (fun ch => { ch with owner := q, deadline := newDeadline q w d.control.ms }) d) :=
    modCh_calm' m _ (fun p hp => absurd hp (hq p)) h
  dsimp only
  (repeat' split) <;> simp (maxDischargeDepth := 30) [h, h1]
theorem forEach_calm {α : Type} (xs : List α) (f : α → Chip → Chip) (h : Calm c d)
    (hf : ∀ x ∈ xs, ∀ e : Chip, Calm c e → Calm c (f x e)) : Calm c (forEach xs f d) :=
  forEach_inv (fun e => Calm c e) d h hf
@[simp] theorem releaseClaimsOf_calm (o : Owner) (x : Code) (h : Calm c d) : Calm c (releaseClaimsOf o x d) :=
  forEach_calm _ _ h (fun m _ e he => by split <;> simp [he])

/-! ### Reflex -/

@[simp] theorem restartClaims_calm (h : Calm c d) : Calm c (restartClaims d) := by
  unfold restartClaims; split <;> simp [h]
@[simp] theorem restartSound_calm (h : Calm c d) : Calm c (restartSound d) := by
  unfold restartSound; split <;> simp [h]
@[simp] theorem pulseStart_calm (h : Calm c d) : Calm c (pulseStart d) :=
  restartSound_calm (restartClaims_calm (calm_path _ h))
@[simp] theorem restartRequest_calm (w : Nat) (h : Calm c d) : Calm c (restartRequest w d) := by
  unfold restartRequest
  split
  · exact h
  · exact pulseStart_calm (publish_calm _ (calm_control _ rfl rfl h))
  · exact publish_calm _ (calm_control _ rfl rfl h)
@[simp] theorem placeAlarm_calm (i : Fin 8) (h : Calm c d) : Calm c (placeAlarm i d) := by
  unfold placeAlarm
  split
  · exact h.trans ⟨⟨rfl, rfl, rfl, fun _ => rfl, fun _ => rfl, fun _ => rfl, rfl⟩, rfl, rfl, rfl, fun _ _ h => h⟩
  · exact h
@[simp] theorem fireStop_calm (i : Fin 8) (r : ReflexRec) (h : Calm c d) : Calm c (fireStop i r d) := by
  unfold fireStop; split
  · exact forEach_calm _ _ h (fun m _ e he => motorAct_calm _ (by simp) _ _ _ he)
  · exact h
@[simp] theorem fireTone_calm (i : Fin 8) (r : ReflexRec) (h : Calm c d) : Calm c (fireTone i r d) := by
  unfold fireTone; split <;> simp [h]
@[simp] theorem fireAlarm_calm (i : Fin 8) (r : ReflexRec) (h : Calm c d) : Calm c (fireAlarm i r d) := by
  unfold fireAlarm; split <;> simp [h]
@[simp] theorem fire_calm (i : Fin 8) (h : Calm c d) : Calm c (fire i d) := by
  unfold fire; dsimp only
  (repeat' split) <;> simp (maxDischargeDepth := 30) only [restartRequest_calm, raiseCause_calm, append_calm,
    fireAlarm_calm, fireTone_calm, fireStop_calm, publish_calm, modEntry_calm, h]
@[simp] theorem rejudge_calm (i : Fin 8) (h : Calm c d) : Calm c (rejudge i d) := by
  unfold rejudge; dsimp only; (repeat' split) <;> simp [h]
@[simp] theorem settle_calm (n : Nat) (h : Calm c d) : Calm c (settle n d) := by
  induction n generalizing d with
  | zero => exact h
  | succ n ih =>
    have h1 : Calm c (forEach (List.finRange 8) rejudge d) := forEach_calm _ _ h (fun i _ e he => rejudge_calm i he)
    simp only [settle]
    split
    · exact h1
    · exact ih (forEach_calm _ _ h1 (fun i _ e he => fire_calm i he))
@[simp] theorem handChange_calm (h : Calm c d) : Calm c (handChange d) := by
  unfold handChange; split <;> simp [h]
@[simp] theorem linkStateDown_calm (h : Calm c d) : Calm c (linkStateDown d) := handChange_calm (publish_calm _ h)
@[simp] theorem setProcQuiet_calm (b : Bool) (h : Calm c d) : Calm c (setProcQuiet b d) := by
  unfold setProcQuiet; split <;> simp [h]
@[simp] theorem touch_calm (h : Calm c d) : Calm c (touch d) := by
  unfold touch; simp [h]

end Chip
end Sys2Proof.Machine

namespace Sys2Proof.Machine.Chip
variable {c d : Chip}

/-! ### The motor unit -/

@[simp] theorem freePort_calm (h : Calm c d) : Calm c (freePort d) := calm_path _ h
@[simp] theorem motorResult_calm (m : Fin 4) (x : Code) (h : Calm c d) : Calm c (motorResult m x d) := by
  unfold motorResult
  have h1 : Calm c (modCh m (fun ch => { ch with latchResult := x }) d) := modCh_calm m _ (fun _ => rfl) h
  dsimp only
  (repeat' split) <;> simp [h, h1]
/-- A request of PROC. -/
theorem motorRequest_calm (q : Owner) (hq : ∀ p, q ≠ .link p) (w : Word) (x : MotorCmd) (m : Fin 4) (h : Calm c d) :
    Calm c (motorRequest q w x m d).1 := by
  unfold motorRequest
  dsimp only
  split
  · exact handChange_calm (motorAct_calm q hq _ _ _ h)
  · exact h
@[simp] theorem motorLatch_calm (m : Fin 4) (r : MotorSlot) (n : Nat) (h : Calm c d) : Calm c (motorLatch m r n d) := by
  unfold motorLatch
  (repeat' split) <;> try simp [h]
  exact motorResult_calm _ _ (motorRequest_calm _ (by simp) _ _ _ (modCh_calm m _ (by simp) h))
@[simp] theorem claimExpiry_calm (m : Fin 4) (h : Calm c d) : Calm c (claimExpiry m d) := by
  unfold claimExpiry; (repeat' split) <;> simp [h]
theorem stageEvent_calm (m : Fin 4) (f : Word → Channel → Channel) (hf : ∀ w x, (f w x).owner = x.owner)
    (h : Calm c d) :
    Calm c (stageEvent m f d) := by
  unfold stageEvent
  exact publishIf_calm _ _ (modCh_calm m _ (hf _) h)
@[simp] theorem pwmBoundary_calm (m : Fin 4) (h : Calm c d) : Calm c (pwmBoundary m d) := by
  unfold pwmBoundary; split
  · exact stageEvent_calm _ _ (by simp) h
  · exact h
@[simp] theorem passageEnd_calm (m : Fin 4) (h : Calm c d) : Calm c (passageEnd m d) := by
  unfold passageEnd; split
  · exact stageEvent_calm _ _ (by simp) h
  · exact h
@[simp] theorem countStep_calm (m : Fin 4) (x : Int) (h : Calm c d) : Calm c (countStep m x d) := by
  unfold countStep
  refine publish_calm _ ?_
  have h1 := modCh_calm (c := c) m (fun ch : Channel => { ch with
    count := ch.count + BitVec.ofInt 32 x
    tally := ch.tally + x
    watch := ch.watch.map (fun _ => d.control.ms) }) (fun _ => rfl) h
  split
  · split
    · exact runDone_calm _ _ (setMode_calm _ _ h1)
    · exact h1
  · exact h1
@[simp] theorem encoderLines_calm (m : Fin 4) (a b : Bool) (h : Calm c d) : Calm c (encoderLines m a b d) := by
  unfold encoderLines
  have h1 : Calm c { d with pins := { d.pins with encoder := d.pins.encoder.set m (a, b) } } := calm_pins _ rfl h
  have h2 := modCh_calm m (fun ch : Channel => { ch with levels := some (a, b) }) (fun _ => rfl) h1
  dsimp only
  (repeat' split) <;> first | exact h1 | exact h2 | exact countStep_calm _ _ h2
@[simp] theorem pulseExpiry_calm (m : Fin 4) (h : Calm c d) : Calm c (pulseExpiry m d) := by
  unfold pulseExpiry
  (repeat' split) <;> first | exact h | exact runDone_calm _ _ (publish_calm _ (setMode_calm _ _ h))
@[simp] theorem speedOf_calm (m : Fin 4) (h : Calm c d) : Calm c (speedOf m d) :=
  publishIf_calm _ _ (modCh_calm m _ (fun _ => rfl) h)
@[simp] theorem speedWindow_calm (h : Calm c d) : Calm c (speedWindow d) := by
  have h1 : Calm c (forEach (List.finRange 4) speedOf d) := forEach_calm _ _ h (fun m _ e he => speedOf_calm m he)
  unfold speedWindow; split
  · revert h1
    generalize forEach (List.finRange 4) speedOf d = e
    exact fun h1 => h1.motors _ rfl rfl rfl rfl (fun _ _ x => x)
  · exact h
@[simp] theorem stallExpiry_calm (m : Fin 4) (h : Calm c d) : Calm c (stallExpiry m d) := by
  unfold stallExpiry; split
  · refine handChange_calm (publish_calm _ (raiseCause_calm _ (append_calm _ _ _ ?_)))
    refine modCh_calm m _ (fun _ => rfl) (modCh_calm m _ (fun _ => rfl) (endOperation_calm _ _ ?_))
    exact modCh_calm m _ (fun _ => rfl) h
  · exact h
@[simp] theorem coolingEnd_calm (m : Fin 4) (h : Calm c d) : Calm c (coolingEnd m d) := by
  unfold coolingEnd
  (repeat' split) <;> first | exact h | exact publish_calm _ (modCh_calm m _ (fun _ => rfl) h)
/-- A channel that turns ON has no owner. -/
@[simp] theorem motorTurnOn_calm (h : Calm c d) : Calm c (motorTurnOn d) :=
  forEach_calm _ _ (h.motors _ rfl rfl rfl rfl (fun _ _ x => x)) (fun m _ e he =>
    publishIf_calm _ _ (modCh_calm' m _ (fun p hp => by simp [Channel.reset] at hp) he))
@[simp] theorem motorLeaveOn_calm (h : Calm c d) : Calm c (motorLeaveOn d) := by
  have h1 : Calm c (forEach (List.finRange 4) (fun m => endOperation m .off) d) :=
    forEach_calm _ _ h (fun m _ e he => endOperation_calm m _ he)
  have h2 := forEach_calm (List.finRange 4)
    (fun m e => e.modCh m (fun ch => { ch with mode := .coast, stage := .coast, lastDir := none })) h1
    (fun m _ e he => modCh_calm m _ (fun _ => rfl) he)
  have h3 := forEach_calm (List.finRange 4) (fun m e =>
    if e.motor.ch[m].owner = .none then e
    else (e.modCh m (fun ch => { ch with owner := .none, deadline := none })).claimLost m e.motor.ch[m].owner .off) h2
    (fun m _ e he => by
      split
      · exact he
      · exact claimLost_calm _ _ _ (modCh_calm' m _ (fun p hp => by simp at hp) he))
  unfold motorLeaveOn
  revert h3
  dsimp only
  generalize forEach (List.finRange 4) _ (forEach (List.finRange 4) _ (forEach (List.finRange 4) _ d)) = e
  exact fun h3 => h3.motors _ rfl rfl rfl rfl (fun m p x => by simp [Motor.reset, Channel.reset] at x)

/-! ### The sense unit -/

@[simp] theorem setScan_calm (x : ScanState) (p : Fin 8) (h : Calm c d) : Calm c (setScan x p d) := publish_calm _
    (calm_sense _ h)
@[simp] theorem convert_calm (k : Fin 8) (h : Calm c d) : Calm c (convert k d) := setScan_calm _ _ (calm_sense _ h)
@[simp] theorem storeSample_calm (k : Fin 8) (v : BitVec 12) (w : Word) (h : Calm c d) : Calm c
    (storeSample k v w d) := by
  unfold storeSample
  refine publish_calm _ ?_
  (repeat' split) <;> first | exact h | simp (maxDischargeDepth := 30) [h]
@[simp] theorem scanEnd_calm (h : Calm c d) : Calm c (scanEnd d) := by
  unfold scanEnd; dsimp only; (repeat' split) <;> first | exact h | simp (maxDischargeDepth := 30) [h]
@[simp] theorem scanOn_calm (k : Fin 8) (h : Calm c d) : Calm c (scanOn k d) := by
  unfold scanOn; dsimp only; (repeat' split) <;> first | exact h | simp (maxDischargeDepth := 30) [h]
@[simp] theorem countLoss_calm (k : Fin 8) (h : Calm c d) : Calm c (countLoss k d) := modSlot_calm _ _ h
@[simp] theorem completed_calm (k : Fin 8) (v : BitVec 12) (h : Calm c d) : Calm c (completed k v d) := by
  unfold completed; split <;> first | exact h | simp (maxDischargeDepth := 30) [h]
@[simp] theorem conversion_calm (v : BitVec 12) (h : Calm c d) : Calm c (conversion v d) := by
  unfold conversion; split <;> first | exact h | simp (maxDischargeDepth := 30) [h]
@[simp] theorem releaseHold_calm (k : Fin 8) (h : Calm c d) : Calm c (releaseHold k d) := by
  unfold releaseHold; (repeat' split) <;> first | exact h | simp (maxDischargeDepth := 30) [h]
@[simp] theorem consumeSample_calm (k : Fin 8) (w : List Byte) (h : Calm c d) : Calm c (consumeSample k w d) := by
  unfold consumeSample; dsimp only; (repeat' split) <;> first | exact h | simp (maxDischargeDepth := 30) [h]
@[simp] theorem scanResult_calm (x : Code) (h : Calm c d) : Calm c (scanResult x d) := by
  unfold scanResult; split <;> first | exact h | simp (maxDischargeDepth := 30) [h]
@[simp] theorem cutScan_calm (h : Calm c d) : Calm c (cutScan d) := by
  unfold cutScan; split <;> first | exact h | simp (maxDischargeDepth := 30) [h]
@[simp] theorem scanStart_calm (h : Calm c d) : Calm c (scanStart d) := convert_calm _ (calm_sense _ (cutScan_calm h))
@[simp] theorem scanHalt_calm (h : Calm c d) : Calm c (scanHalt d) := by
  unfold scanHalt; split <;> first | exact h | simp (maxDischargeDepth := 30) [h]
@[simp] theorem scanLatch_calm (r : ScanRec) (n : Nat) (h : Calm c d) : Calm c (scanLatch r n d) := by
  unfold scanLatch; (repeat' split) <;> first | exact h | simp (maxDischargeDepth := 30) [h]
@[simp] theorem channelLatch_calm (k : Fin 8) (r : ChannelRec) (h : Calm c d) : Calm c (channelLatch k r d) := by
  unfold channelLatch
  have h1 : Calm c { d with sense := { d.sense with settings := d.sense.settings.set k r.settings } } := calm_sense _ h
  dsimp only
  (repeat' split) <;> first | exact h | exact h1 | simp (maxDischargeDepth := 30) [h, h1]
@[simp] theorem intervalExpiry_calm (h : Calm c d) : Calm c (intervalExpiry d) := by
  unfold intervalExpiry; (repeat' split) <;> first | exact h | simp (maxDischargeDepth := 30) [h]
@[simp] theorem senseTurnOn_calm (h : Calm c d) : Calm c (senseTurnOn d) := publishIf_calm _ _ (calm_sense _ h)

/-! ### The sound unit -/

@[simp] theorem placeFetch_calm (h : Calm c d) : Calm c (placeFetch d) := by
  unfold placeFetch; (repeat' split) <;> first | exact h | simp (maxDischargeDepth := 30) [h]
@[simp] theorem setStream_calm (x : Stream) (h : Calm c d) : Calm c (setStream x d) := setVoice_calm _ h
@[simp] theorem notReady_calm (x : Stream) (h : Calm c d) : Calm c (notReady x d) := by
  unfold notReady; dsimp only; split <;> first | exact h | simp (maxDischargeDepth := 30) [h]
@[simp] theorem judgeDesc_calm (w : DescWords) (x : Stream) (h : Calm c d) : Calm c (judgeDesc w x d) := by
  unfold judgeDesc; dsimp only; (repeat' split) <;> first | exact h | simp (maxDischargeDepth := 30) [h]
@[simp] theorem descReadDone_calm (h : Calm c d) : Calm c (descReadDone d) := by
  unfold descReadDone; dsimp only; (repeat' split) <;> first | exact h | simp (maxDischargeDepth := 30) [h]
@[simp] theorem stage_calm (bs : List Byte) (x : Stream) (b : SoundBlock) (h : Calm c d) : Calm c (stage bs x b d) := by
  unfold stage; dsimp only; split <;> first | exact h | simp (maxDischargeDepth := 30) [h]
@[simp] theorem fetchDone_calm (h : Calm c d) : Calm c (fetchDone d) := by
  unfold fetchDone; dsimp only; (repeat' split) <;> first | exact h | simp (maxDischargeDepth := 30) [h]
@[simp] theorem placeDescRead_calm (a : Word) (h : Calm c d) : Calm c (placeDescRead a d) := place_calm _ h
@[simp] theorem blockDone_calm (x : Stream) (h : Calm c d) : Calm c (blockDone x d) := by
  unfold blockDone; (repeat' split) <;> first | exact h | simp (maxDischargeDepth := 30) [h]
@[simp] theorem doneWriteDone_calm (h : Calm c d) : Calm c (doneWriteDone d) := by
  unfold doneWriteDone; dsimp only; (repeat' split) <;> first | exact h | simp (maxDischargeDepth := 30) [h]
@[simp] theorem emptyPeriod_calm (x : Stream) (h : Calm c d) : Calm c (emptyPeriod x d) := by
  unfold emptyPeriod; (repeat' split) <;> first | exact h | simp (maxDischargeDepth := 30) [h]
@[simp] theorem period_calm (h : Calm c d) : Calm c (period d) := by
  unfold period; (repeat' split) <;> first | exact h | simp (maxDischargeDepth := 30) [h]
@[simp] theorem rereadDue_calm (h : Calm c d) : Calm c (rereadDue d) := by
  unfold rereadDue; (repeat' split) <;> first | exact h | simp (maxDischargeDepth := 30) [h]
@[simp] theorem starvedLimit_calm (h : Calm c d) : Calm c (starvedLimit d) := by
  unfold starvedLimit; (repeat' split) <;> first | exact h | simp (maxDischargeDepth := 30) [h]
@[simp] theorem toneEnd_calm (h : Calm c d) : Calm c (toneEnd d) := by
  unfold toneEnd; (repeat' split) <;> first | exact h | simp (maxDischargeDepth := 30) [h]
@[simp] theorem soundResult_calm (x : Code) (h : Calm c d) : Calm c (soundResult x d) := by
  unfold soundResult; split <;> first | exact h | simp (maxDischargeDepth := 30) [h]
@[simp] theorem soundRequest_calm (x : SoundCmd) (h : Calm c d) : Calm c (soundRequest x d).1 := by
  cases x <;> simp only [soundRequest, voiceStop] <;> (repeat' split) <;>
    first | exact h | exact startTone_calm _ _ _ _ h | exact startStream_calm _ _ _ h | exact endSound_calm _ h
@[simp] theorem soundLatch_calm (r : SoundRec) (n : Nat) (h : Calm c d) : Calm c (soundLatch r n d) := by
  unfold soundLatch; dsimp only; (repeat' split) <;> first | exact h | simp (maxDischargeDepth := 30) [h]
@[simp] theorem toneMessage_calm (s : Fin 8) (b : Bool) (bs : List Byte) (h : Calm c d) :
    Calm c (toneMessage s b bs d).1 := by
  unfold toneMessage; dsimp only; (repeat' split) <;> first | exact h | simp (maxDischargeDepth := 30) [h]
@[simp] theorem soundLeaveOn_calm (h : Calm c d) : Calm c (soundLeaveOn d) := calm_sound _ (endSound_calm _ h)
@[simp] theorem soundTurnOn_calm (h : Calm c d) : Calm c (soundTurnOn d) := publishIf_calm _ _ (calm_sound _ h)

/-! ### The input unit and the reflex unit -/

@[simp] theorem changeStable_calm (n : Fin 11) (h : Calm c d) : Calm c (changeStable n d) := by
  unfold changeStable
  refine handChange_calm ?_
  split <;> first | exact h | simp (maxDischargeDepth := 30) [h]
@[simp] theorem judgeEdge_calm (n : Fin 11) (h : Calm c d) : Calm c (judgeEdge n d) := by
  unfold judgeEdge; (repeat' split) <;> first | exact h | simp (maxDischargeDepth := 30) [h]
@[simp] theorem inputLine_calm (n : Fin 11) (b : Bool) (h : Calm c d) : Calm c (inputLine n b d) := by
  unfold inputLine
  have h1 : Calm c { d with pins := { d.pins with input := d.pins.input.set n b } } := calm_pins _ rfl h
  dsimp only
  (repeat' split) <;> first | exact h | exact h1 | simp (maxDischargeDepth := 30) [h1]
@[simp] theorem debounceExpiry_calm (n : Fin 11) (h : Calm c d) : Calm c (debounceExpiry n d) := by
  unfold debounceExpiry; split <;> first | exact h | simp (maxDischargeDepth := 30) [h]
@[simp] theorem takeInputSettings_calm (n : Fin 11) (x : InputSettings) (h : Calm c d) :
    Calm c (takeInputSettings n x d) := by
  unfold takeInputSettings; dsimp only; (repeat' split) <;> first | exact h | simp (maxDischargeDepth := 30) [h]
@[simp] theorem inputLatch_calm (n : Fin 11) (r : InputRec) (h : Calm c d) : Calm c (inputLatch n r d) := by
  unfold inputLatch; dsimp only; (repeat' split) <;> first | exact h | simp (maxDischargeDepth := 30) [h]
@[simp] theorem inputTurnOn_calm (h : Calm c d) : Calm c (inputTurnOn d) :=
  forEach_calm _ _ (calm_input _ h) (fun _ _ _ he => modInput_calm _ _ he)
@[simp] theorem judgeAllLevels_calm (h : Calm c d) : Calm c (judgeAllLevels d) :=
  forEach_calm _ _ h (fun _ _ _ he => judgeEdge_calm _ he)
@[simp] theorem takeEntry_calm (i : Fin 8) (r : ReflexRec) (h : Calm c d) : Calm c (takeEntry i r d) := by
  unfold takeEntry; dsimp only; split <;> first | exact h | simp (maxDischargeDepth := 30) [h]
@[simp] theorem reflexLatch_calm (i : Fin 8) (r : ReflexRec) (h : Calm c d) : Calm c (reflexLatch i r d) := by
  unfold reflexLatch; dsimp only; (repeat' split) <;> first | exact h | simp (maxDischargeDepth := 30) [h]
@[simp] theorem holdExpiryOf_calm (i : Fin 8) (h : Calm c d) : Calm c (holdExpiryOf i d) := by
  unfold holdExpiryOf; (repeat' split) <;> first | exact h | simp (maxDischargeDepth := 30) [h]
@[simp] theorem reflexTurnOn_calm (h : Calm c d) : Calm c (reflexTurnOn d) :=
  publishIf_calm _ _ (forEach_calm _ _ h (fun _ _ _ he => modEntry_calm _ _ he))

end Sys2Proof.Machine.Chip

namespace Sys2Proof.Machine.Chip
variable {c d : Chip}

/-! ### The link's other parts -/

/-- The link changes outside its structure. -/
theorem modLink_calm (f : Link → Link) (hf : Link.Like d.link (f d.link)) (h : Calm c d) : Calm c (modLink f d) :=
  h.trans ⟨hf, rfl, rfl, rfl, fun _ _ h => h⟩
/-- A change of the link outside its tables, by rfl. -/
theorem modLink_calm' (f : Link → Link) (hf : ∀ l : Link, (f l).free = l.free ∧ (f l).receiver = l.receiver ∧
    (f l).finishing = l.finishing ∧ (f l).desc = l.desc ∧ (f l).peer = l.peer ∧ (f l).sub = l.sub ∧
    (f l).settings = l.settings) (h : Calm c d) : Calm c (modLink f d) := by
  obtain ⟨h1, h2, h3, h4, h5, h6, h7⟩ := hf d.link
  exact modLink_calm f ⟨h1, h2, h3, fun k => by rw [h4], fun p => by rw [h5], fun k => by rw [h6], by rw [h7]⟩ h
@[simp] theorem modOut_calm (k : Fin 4) (f : OutSlot → OutSlot) (h : Calm c d) : Calm c (modOut k f d) :=
  modLink_calm' (fun l => { l with out := l.out.set k (f l.out[k]) }) (fun _ => ⟨rfl, rfl, rfl, rfl, rfl, rfl, rfl⟩) h
theorem modPeer_calm (p : Fin 8) (f : Peer → Peer) (hf : ∀ x, (f x).tag = x.tag ∧ (f x).driver = x.driver)
    (h : Calm c d) : Calm c (modPeer p f d) := by
  refine h.trans ⟨⟨rfl, rfl, rfl, fun _ => rfl, fun q => ?_, fun _ => rfl, rfl⟩, rfl, rfl, rfl, fun _ _ h => h⟩
  by_cases hpq : p = q
  · subst hpq
    cases hp : d.link.peer[p] <;> simp_all [modPeer]
  · have : (p : Nat) ≠ q := fun h => hpq (Fin.ext h)
    simp [modPeer, this]
theorem setSub_calm (k : Fin 4) (x y : Subscription) (hx : d.link.sub[k] = some x) (hs : y.slot = x.slot)
    (ht : y.tag = x.tag) (h : Calm c d) : Calm c (setSub k (some y) d) := by
  refine h.trans ⟨⟨rfl, rfl, rfl, fun _ => rfl, fun _ => rfl, fun j => ?_, rfl⟩, rfl, rfl, rfl, fun _ _ h => h⟩
  by_cases hkj : k = j
  · subst hkj
    simp_all [setSub]
  · have : (k : Nat) ≠ j := fun h => hkj (Fin.ext h)
    simp [setSub, this]
@[simp] theorem count_calm (k : Counter) (h : Calm c d) : Calm c (count k d) :=
  publish_calm _ (modLink_calm' _ (fun _ => by simp) h)
@[simp] theorem queueReply_calm (t : Word) (s : Byte) (k : FrameKind) (x : Code) (bs : List Byte) (h : Calm c d) :
    Calm c (queueReply t s k x bs d) := by
  unfold queueReply; split
  · exact count_calm _ h
  · exact modLink_calm' _ (fun _ => by simp) h
@[simp] theorem slotDone_calm (k : Fin 4) (x : Code) (h : Calm c d) : Calm c (slotDone k x d) :=
  raiseCause_calm _ (publish_calm _ (modOut_calm _ _ h))
@[simp] theorem countStorm_calm (p : Fin 8) (h : Calm c d) : Calm c (countStorm p d) := by
  unfold countStorm; split
  · exact h
  · exact publishIf_calm _ _ (modPeer_calm p _ (fun _ => ⟨rfl, rfl⟩) h)
@[simp] theorem hear_calm (p : Fin 8) (h : Calm c d) : Calm c (hear p d) :=
  publish_calm _ (modPeer_calm p _ (fun _ => ⟨rfl, rfl⟩) h)
@[simp] theorem holdPeer_calm (p : Fin 8) (h : Calm c d) : Calm c (holdPeer p d) :=
  publish_calm _ (modPeer_calm p _ (fun _ => ⟨rfl, rfl⟩) h)
@[simp] theorem endHold_calm (p : Fin 8) (h : Calm c d) : Calm c (endHold p d) := by
  unfold endHold; (repeat' split) <;>
    first | exact h | exact publish_calm _ (modPeer_calm p _ (fun _ => ⟨rfl, rfl⟩) h)
@[simp] theorem stormOf_calm (p : Fin 8) (h : Calm c d) : Calm c (stormOf p d) := by
  unfold stormOf; split
  · exact h
  · exact publishIf_calm _ _ (modPeer_calm p _ (fun _ => ⟨rfl, rfl⟩) h)
@[simp] theorem stormWindow_calm (h : Calm c d) : Calm c (stormWindow d) := by
  unfold stormWindow; split
  · exact modLink_calm' _ (fun _ => by simp) (forEach_calm _ _ h (fun p _ e he => stormOf_calm p he))
  · exact h
@[simp] theorem holdOver_calm (p : Fin 8) (h : Calm c d) : Calm c (holdOver p d) := by
  unfold holdOver; (repeat' split) <;> first | exact h | exact endHold_calm _ h
@[simp] theorem subDue_calm (k : Fin 4) (h : Calm c d) : Calm c (subDue k d) := by
  unfold subDue; split
  · split
    · rename_i x hx _; exact setSub_calm k x _ hx rfl rfl h
    · exact h
  · exact h
@[simp] theorem releaseResult_calm (v : Word) (x : Code) (h : Calm c d) : Calm c (releaseResult v x d) :=
  publish_calm _ (modLink_calm' _ (fun _ => by simp) h)
@[simp] theorem outResult_calm (k : Fin 4) (x : Code) (h : Calm c d) : Calm c (outResult k x d) := by
  unfold outResult; split
  · exact h
  · exact publish_calm _ (modOut_calm _ _ h)
@[simp] theorem outLatch_calm (k : Fin 4) (r : OutRec) (n : Nat) (h : Calm c d) : Calm c (outLatch k r n d) := by
  unfold outLatch
  (repeat' split) <;> try simp (maxDischargeDepth := 30) [h]
  exact outResult_calm _ _ (modLink_calm' _ (fun _ => by simp) (modOut_calm _ _ h))
@[simp] theorem abandonFrame_calm (h : Calm c d) : Calm c (abandonFrame d) :=
  modLink_calm' _ (fun _ => by simp) (withdraw_calm _ h)
@[simp] theorem endSlots_calm (x : Code) (h : Calm c d) : Calm c (endSlots x d) :=
  modLink_calm' _ (fun _ => by simp) (forEach_calm _ _ h (fun k _ e he => by split <;> simp [he]))

/-! ### The transmitter -/

@[simp] theorem beginFrame_calm (w : Word) (k : FrameKind) (bs : List Byte) (h : Calm c d) :
    Calm c (beginFrame w k bs d) := modLink_calm' _ (fun _ => by simp) h
@[simp] theorem beginReport_calm (k : Fin 4) (h : Calm c d) : Calm c (beginReport k d) := by
  unfold beginReport; split
  · exact h
  · rename_i x hx
    exact publish_calm _ (setSub_calm k x _ hx rfl rfl (beginFrame_calm _ _ _ h))
@[simp] theorem beginMail_calm (k : Fin 4) (h : Calm c d) : Calm c (beginMail k d) := by
  unfold beginMail; (repeat' split) <;>
    first | exact h | exact publish_calm _ (modOut_calm _ _ (modLink_calm' _ (fun _ => by simp) h))
@[simp] theorem placeBody_calm (h : Calm c d) : Calm c (placeBody d) := by
  unfold placeBody; (repeat' split) <;>
    first | exact h | exact place_calm _ (modLink_calm' _ (fun _ => by simp) h)
@[simp] theorem sendSlot_calm (k : Fin 4) (h : Calm c d) : Calm c (sendSlot k d) := by
  unfold sendSlot
  have h1 := modOut_calm k (fun o => { o with state := .sending }) h
  dsimp only
  split
  · exact beginMail_calm _ (modLink_calm' _ (fun _ => by simp) (publish_calm _ h1))
  · exact placeBody_calm (modLink_calm' _ (fun _ => by simp) (publish_calm _ h1))
@[simp] theorem transmitFrom_calm (n : Nat) (h : Calm c d) : Calm c (transmitFrom n d) := by
  induction n generalizing d with
  | zero => exact h
  | succ n ih =>
    unfold transmitFrom
    split
    · exact h
    · exact beginFrame_calm _ _ _ (modLink_calm' _ (fun _ => by simp) h)
    · split
      · exact beginFrame_calm _ _ _ (modLink_calm' _ (fun _ => by simp) h)
      · exact h
    · exact beginFrame_calm _ _ _ (modLink_calm' _ (fun _ => by simp) h)
    · rename_i k _
      have h1 : Calm c (d.modLink (fun l => { l with outOrder := l.outOrder.filter (fun j => j != k) })) :=
        modLink_calm' _ (fun _ => by simp) h
      dsimp only
      split
      · exact ih (slotDone_calm _ _ h1)
      · exact sendSlot_calm _ h1
    · exact beginReport_calm _ h
@[simp] theorem transmitBegin_calm (h : Calm c d) : Calm c (transmitBegin d) := by
  unfold transmitBegin; split <;> simp [h]
@[simp] theorem bodyFetchDone_calm (h : Calm c d) : Calm c (bodyFetchDone d) := by
  unfold bodyFetchDone
  split
  · dsimp only
    split
    · exact freePort_calm h
    · split
      · exact freePort_calm h
      · split
        · exact freePort_calm h
        · refine placeBody_calm ?_
          split
          · exact modLink_calm' _ (fun _ => by simp) (freePort_calm h)
          · exact beginMail_calm _ (modLink_calm' _ (fun _ => by simp) (freePort_calm h))
  · exact h
@[simp] theorem bodyBufferSent_calm (h : Calm c d) : Calm c (bodyBufferSent d) := by
  unfold bodyBufferSent; (repeat' split) <;>
    first | exact h | exact placeBody_calm (modLink_calm' _ (fun _ => by simp) h)
@[simp] theorem transmitEnd_calm (h : Calm c d) : Calm c (transmitEnd d) := by
  unfold transmitEnd
  split
  · exact h
  · split
    · exact h
    · rename_i t _ _
      have h1 : Calm c (d.modLink (fun l => { l with
          tx := none, lastFrame := frameBytes t.dest t.seq t.kind t.payload })) :=
        modLink_calm' _ (fun _ => by simp) h
      dsimp only
      split
      · exact h1
      · exact slotDone_calm _ _ h1

/-! ### The path unit -/

@[simp] theorem arrive_calm (t : Transaction) (h : Calm c d) : Calm c (arrive t d) := by
  unfold arrive; (repeat' split)
  · exact h
  · exact touch_calm (answer_calm _ _ (publish_calm _ (calm_control _ rfl rfl h)))
  · exact calm_path _ h
@[simp] theorem grantPart_calm (h : Calm c d) : Calm c (grantPart d) := by
  unfold grantPart; (repeat' split) <;> exact calm_path _ h
@[simp] theorem refuse_calm (h : Calm c d) : Calm c (refuse d) :=
  touch_calm (answer_calm _ _ (raiseCause_calm _ (publish_calm _ (h.same _ rfl rfl rfl rfl rfl))))
@[simp] theorem arbitrate_calm (h : Calm c d) : Calm c (arbitrate d) := by
  unfold arbitrate; (repeat' split)
  · exact h
  · exact grantPart_calm h
  · exact grantPart_calm h
  · exact grantPart_calm (refuse_calm h)
  · exact calm_path _ h
@[simp] theorem storeByte_calm (a : Nat) (b : Byte) (h : Calm c d) : Calm c (storeByte a b d) := by
  have h1 : Calm c { d with mem := d.mem.write a b } := calm_mem _ h
  unfold storeByte
  revert h1
  generalize ({ d with mem := d.mem.write a b } : Chip) = e
  intro h1
  dsimp only
  (repeat' split) <;> first | exact h1 | exact calm_shadow _ h1
@[simp] theorem storeWords_calm (ws : List (Word × BitVec 4)) (a : Nat) (h : Calm c d) :
    Calm c (storeWords ws a d) := by
  induction ws generalizing a d with
  | nil => exact h
  | cons w ws ih => exact ih _ (forEach_calm _ _ h (fun j _ e he => by split <;> simp [he]))
@[simp] theorem reportWord_calm (m : Mem) (o : Nat) (h : Calm c d) : Calm c (reportWord m o d) := by
  unfold reportWord reportConsuming; (repeat' split) <;> simp [h]
@[simp] theorem readDone_calm (h : Calm c d) : Calm c (readDone d) := by
  unfold readDone
  split
  · split
    · refine touch_calm ?_
      split
      · exact answer_calm _ _ (freePort_calm h)
      · exact forEach_calm _ _ (answer_calm _ _ (freePort_calm h)) (fun o _ e he => reportWord_calm _ o he)
    · exact h
  · exact h
theorem readRow_calm (r : RecId) (f : List Byte → Chip → Chip) (hf : ∀ bs e, Calm c e → Calm c (f bs e))
    (h : Calm c d) : Calm c (readRow r f d) := by
  unfold readRow
  split
  · exact h
  · refine touch_calm ?_
    split
    · exact answer_calm _ _ h
    · exact hf _ _ (answer_calm _ _ h)
@[simp] theorem ownerReport_calm (r : RecId) (h : Calm c d) : Calm c (ownerReport r d) := by
  unfold ownerReport
  split
  · exact entryPublished_calm _ h
  · split
    · rename_i k _ x hx
      refine publish_calm _ (modLink_calm _ ⟨rfl, rfl, rfl, fun j => ?_, fun _ => rfl, fun _ => rfl, rfl⟩ h)
      by_cases hkj : k = j
      · subst hkj; simp_all
      · have : (k : Nat) ≠ j := fun h => hkj (Fin.ext h)
        simp [this]
    · exact h
  · exact h
@[simp] theorem resetRelease_calm (h : Calm c d) : Calm c (resetRelease d) := by
  unfold resetRelease; split
  · exact h
  · exact h.trans ⟨.rfl' _, rfl, rfl, rfl, fun _ _ h => h⟩
@[simp] theorem initWriteDone_calm (h : Calm c d) : Calm c (initWriteDone d) := by
  unfold initWriteDone
  split
  · dsimp only
    split <;> split <;> exact h.same _ rfl rfl rfl rfl rfl
  · exact h

/-! ### The control unit and time -/

@[simp] theorem judgeQuiet_calm (h : Calm c d) : Calm c (judgeQuiet d) := setProcQuiet_calm _ h
@[simp] theorem setQuietPeriod_calm (n : Nat) (h : Calm c d) : Calm c (setQuietPeriod n d) :=
  judgeQuiet_calm (calm_control _ rfl rfl h)
@[simp] theorem storeControl_calm (n : Nat) (bs : List Byte) (h : Calm c d) : Calm c (storeControl n bs d) :=
  h.same _ rfl rfl rfl rfl rfl
@[simp] theorem pulseTimer_calm (h : Calm c d) : Calm c (pulseTimer d) := by
  unfold pulseTimer; (repeat' split) <;> first | exact h | exact calm_control _ rfl rfl h
@[simp] theorem quietExpiry_calm (h : Calm c d) : Calm c (quietExpiry d) := by
  unfold quietExpiry; split <;> simp [h]
@[simp] theorem attnGap_calm (h : Calm c d) : Calm c (attnGap d) := calm_attention _ h
@[simp] theorem tick_calm (h : Calm c d) : Calm c (tick d) := by
  unfold tick; split
  · exact h
  · refine h.trans ⟨⟨rfl, rfl, rfl, fun _ => rfl, fun p => ?_, fun k => ?_, rfl⟩, rfl, rfl, rfl, fun _ _ h => h⟩
    · rw [show List.finRange 8 = [0, 1, 2, 3, 4, 5, 6, 7] from rfl]
      have : ∀ x, (tickPeer x).map (fun x => (x.tag, x.driver)) = x.map (fun x => (x.tag, x.driver)) := by
        intro x; cases x <;> rfl
      fin_cases p <;> simp [List.foldl, this]
    · rw [show List.finRange 4 = [0, 1, 2, 3] from rfl]
      have : ∀ x, (tickSub x).map (fun x => (x.slot, x.tag)) = x.map (fun x => (x.slot, x.tag)) := by
        intro x
        cases x with
        | none => rfl
        | some x => simp only [tickSub]; split <;> rfl
      fin_cases k <;> simp [List.foldl, this]

end Sys2Proof.Machine.Chip
end

