-- ==== Sys2Proof/Laws/Pool.lean ====
section
/-! SUPPORT. The structure in the parts that operations change one by one (`Chip.Whole`), and what the receiver, the
descriptors and the release word do to the pool's blocks: each has one holder before and after (R149). -/

namespace Sys2Proof.Machine

/-- The blocks of a descriptor. -/
def descBlocks (x : Option Descriptor) : List (Fin 48) := match x with | some x => x.blocks | none => []
/-- The blocks of the finished frame. -/
def finBlocks (x : Option RxFrame) : List (Fin 48) := match x with | some x => x.blocks | none => []

/-- How often the link holds a block. -/
def Link.held (l : Link) (b : Fin 48) : Nat :=
  l.free.count b + l.receiver.blocks.count b + (finBlocks l.finishing).count b
  + ∑ k : Fin 16, (descBlocks l.desc[k]).count b

theorem Link.count_blocks (l : Link) (b : Fin 48) : l.blocks.count b = l.held b := by
  unfold Link.blocks Link.held
  rw [List.count_append, List.count_append, List.count_append, List.count_flatMap]
  congr 1

/-- A sum over a vector of which one entry is set. -/
theorem sum_set {α : Type} {n : Nat} (v : Vector α n) (k : Fin n) (x : α) (f : α → Nat) :
    (∑ j : Fin n, f (v.set k x)[j]) + f v[k] = (∑ j : Fin n, f v[j]) + f x := by
  have h1 := Finset.add_sum_erase Finset.univ (fun j : Fin n => f (v.set k x)[j]) (Finset.mem_univ k)
  have h2 := Finset.add_sum_erase Finset.univ (fun j : Fin n => f v[j]) (Finset.mem_univ k)
  have h3 : ∀ j ∈ Finset.univ.erase k, f (v.set k x)[j] = f v[j] := by
    intro j hj
    have : (k : Nat) ≠ j := fun h => (Finset.ne_of_mem_erase hj) (Fin.ext h).symm
    simp [this]
  rw [Finset.sum_congr rfl h3] at h1
  have h4 : f (v.set k x)[k] = f x := by simp
  rw [h4] at h1
  omega

/-- What a slot adds to the driver count. -/
def driverOne (x : Option Peer) : Nat := match x with | some x => x.driver.toNat | none => 0

theorem Link.driverCount_eq (l : Link) : l.driverCount = ∑ p : Fin 8, driverOne l.peer[p] := by
  have h : ∀ xs : List (Option Peer),
      (xs.filter (fun p => match p with | some p => p.driver | none => false)).length = (xs.map driverOne).sum := by
    intro xs
    induction xs with
    | nil => rfl
    | cons x xs ih =>
      cases x with
      | none => simpa [driverOne] using ih
      | some x => cases hx : x.driver <;> simp [driverOne, hx, ih]; omega
  refine (h l.peer.toList).trans ?_
  have h2 : l.peer.toList = (List.finRange 8).map (fun p => l.peer[p]) := by
    apply List.ext_getElem <;> simp
  rw [h2, List.map_map]
  rfl

namespace Chip

/-- Every block is held once, by the link or among the blocks `extra` of a frame that an operation has taken out of it. -/
def Parts (extra : List (Fin 48)) (c : Chip) : Prop := ∀ b, c.link.held b + extra.count b = 1
/-- While the link state is not UP no frame is under reception. -/
def Rx (c : Chip) : Prop := c.linkUp = false → c.link.receiver = .hunt ∧ c.link.finishing = none

/-- Tags, subscriptions and drivers, as in `Structured`. -/
structure Peers (c : Chip) : Prop where
  tags : ∀ (p : Fin 8) (x : Peer), c.link.peer[p] = some x → x.tag ≠ 0
      ∧ ∀ (q : Fin 8) (y : Peer), c.link.peer[q] = some y → y.tag = x.tag → q = p
  subs : ∀ (k : Fin 4) (x : Subscription), c.link.sub[k] = some x →
      (∃ y : Peer, c.link.peer[x.slot] = some y ∧ y.tag = x.tag)
      ∧ ∀ (j : Fin 4) (y : Subscription), c.link.sub[j] = some y → y.slot = x.slot → j = k
  drivers : c.link.driverCount ≤ c.link.settings.driverLimit

/-- Outstanding records are of units that are RESETTING. -/
def Left (c : Chip) : Prop := ∀ r ∈ c.control.outstanding, ∀ u, r.unit? = some u → c.control.block.get u = .resetting
/-- While the link state is not UP no peer is JOINED. -/
def Alone (c : Chip) : Prop := c.linkUp = false → ∀ p : Fin 8, c.link.peer[p] = none
/-- A tablet that owns a motor is a JOINED driver, and the motor unit is ON. -/
def Owners (c : Chip) : Prop := ∀ (m : Fin 4) (p : Fin 8), c.motor.ch[m].owner = .link p →
      c.on .motor = true ∧ ∃ x : Peer, c.link.peer[p] = some x ∧ x.driver = true

/-- From c to d the pool's side of the structure stays. -/
structure Still (c d : Chip) : Prop where
  free : d.link.free = c.link.free
  receiver : d.link.receiver = c.link.receiver
  finishing : d.link.finishing = c.link.finishing
  desc : ∀ k : Fin 16, d.link.desc[k].map Descriptor.blocks = c.link.desc[k].map Descriptor.blocks
  ready : d.pins.linkReady = c.pins.linkReady
  block : d.control.block = c.control.block

/-- From c to d the peers' side of the structure stays, and no motor has come to a tablet. -/
structure Near (c d : Chip) : Prop where
  peer : ∀ p : Fin 8, d.link.peer[p].map (fun x => (x.tag, x.driver)) = c.link.peer[p].map (fun x => (x.tag, x.driver))
  sub : ∀ k : Fin 4, d.link.sub[k].map (fun x => (x.slot, x.tag)) = c.link.sub[k].map (fun x => (x.slot, x.tag))
  limit : d.link.settings.driverLimit = c.link.settings.driverLimit
  ready : d.pins.linkReady = c.pins.linkReady
  block : d.control.block = c.control.block
  left : d.control.outstanding = c.control.outstanding
  owner : ∀ (m : Fin 4) (p : Fin 8), d.motor.ch[m].owner = .link p → c.motor.ch[m].owner = .link p

variable {c d e : Chip}

theorem Calm.still (h : Calm c d) : Still c d :=
  ⟨h.like.free, h.like.receiver, h.like.finishing, h.like.desc, h.ready, h.block⟩
theorem Calm.near (h : Calm c d) : Near c d := ⟨h.like.peer, h.like.sub, h.like.limit, h.ready, h.block, h.left,
    h.owner⟩
theorem Still.refl (c : Chip) : Still c c := (Calm.refl c).still
theorem Near.refl (c : Chip) : Near c c := (Calm.refl c).near
theorem Still.trans (h : Still c d) (k : Still d e) : Still c e :=
  ⟨k.free.trans h.free, k.receiver.trans h.receiver, k.finishing.trans h.finishing, fun i => (k.desc i).trans
      (h.desc i),
    k.ready.trans h.ready, k.block.trans h.block⟩
theorem Near.trans (h : Near c d) (k : Near d e) : Near c e :=
  ⟨fun i => (k.peer i).trans (h.peer i), fun i => (k.sub i).trans (h.sub i), k.limit.trans h.limit,
    k.ready.trans h.ready, k.block.trans h.block, k.left.trans h.left, fun m p x => h.owner m p (k.owner m p x)⟩
theorem on_eq (h : d.control.block = c.control.block) (u : BlockUnit) : d.on u = c.on u := by unfold on; rw [h]
theorem linkUp_eq (h1 : d.pins.linkReady = c.pins.linkReady) (h2 : d.control.block = c.control.block) :
    d.linkUp = c.linkUp := by unfold linkUp on; rw [h1, h2]
theorem Still.up (h : Still c d) : d.linkUp = c.linkUp := linkUp_eq h.ready h.block
theorem Near.up (h : Near c d) : d.linkUp = c.linkUp := linkUp_eq h.ready h.block

theorem descBlocks_map {x y : Option Descriptor} (h : x.map Descriptor.blocks = y.map Descriptor.blocks) :
    descBlocks x = descBlocks y := by
  cases x <;> cases y <;> simp_all [descBlocks]
theorem Still.held (h : Still c d) (b : Fin 48) : d.link.held b = c.link.held b := by
  unfold Link.held
  rw [h.free, h.receiver, h.finishing]
  have h1 : ∀ k : Fin 16, descBlocks d.link.desc[k] = descBlocks c.link.desc[k] := fun k => descBlocks_map (h.desc k)
  simp only [h1]
theorem Parts.still {x : List (Fin 48)} (p : Parts x c) (h : Still c d) : Parts x d :=
    fun b => by rw [h.held]; exact p b
theorem Rx.still (p : Rx c) (h : Still c d) : Rx d := fun hu => by
  rw [h.receiver, h.finishing]; exact p (h.up ▸ hu)

theorem Near.peerAt (h : Near c d) {p : Fin 8} {x : Peer} (hx : d.link.peer[p] = some x) :
    ∃ y : Peer, c.link.peer[p] = some y ∧ y.tag = x.tag ∧ y.driver = x.driver := by
  have := h.peer p
  rw [hx] at this
  cases hy : c.link.peer[p] with
  | none => rw [hy] at this; simp at this
  | some y => rw [hy] at this; simp at this; exact ⟨y, rfl, this.1.symm, this.2.symm⟩
theorem Near.peerAt' (h : Near c d) {p : Fin 8} {x : Peer} (hx : c.link.peer[p] = some x) :
    ∃ y : Peer, d.link.peer[p] = some y ∧ y.tag = x.tag ∧ y.driver = x.driver := by
  have := h.peer p
  rw [hx] at this
  cases hy : d.link.peer[p] with
  | none => rw [hy] at this; simp at this
  | some y => rw [hy] at this; simp at this; exact ⟨y, rfl, this.1, this.2⟩
theorem Near.subAt (h : Near c d) {k : Fin 4} {x : Subscription} (hx : d.link.sub[k] = some x) :
    ∃ y : Subscription, c.link.sub[k] = some y ∧ y.slot = x.slot ∧ y.tag = x.tag := by
  have := h.sub k
  rw [hx] at this
  cases hy : c.link.sub[k] with
  | none => rw [hy] at this; simp at this
  | some y => rw [hy] at this; simp at this; exact ⟨y, rfl, this.1.symm, this.2.symm⟩
theorem Near.drivers (h : Near c d) : d.link.driverCount = c.link.driverCount := by
  rw [Link.driverCount_eq, Link.driverCount_eq]
  refine Finset.sum_congr rfl fun p _ => ?_
  have := h.peer p
  cases hx : d.link.peer[p] <;> cases hy : c.link.peer[p] <;> simp_all [driverOne]
theorem Peers.near (s : Peers c) (h : Near c d) : Peers d where
  tags := fun p x hx => by
    obtain ⟨y, hy, ht, -⟩ := h.peerAt hx
    refine ⟨ht ▸ (s.tags p y hy).1, fun q z hz hzx => ?_⟩
    obtain ⟨w, hw, hwt, -⟩ := h.peerAt hz
    exact (s.tags p y hy).2 q w hw (by rw [hwt, hzx, ht])
  subs := fun k x hx => by
    obtain ⟨y, hy, hs, ht⟩ := h.subAt hx
    obtain ⟨⟨z, hz, hzt⟩, u⟩ := s.subs k y hy
    obtain ⟨w, hw, hwt, -⟩ := h.peerAt' hz
    have at_slot : ∀ a b : Fin 8, a = b → d.link.peer[a] = some w → d.link.peer[b] = some w :=
        by rintro _ _ rfl; exact id
    refine ⟨⟨w, at_slot _ _ hs hw, by rw [hwt, hzt, ht]⟩, fun j v hv hvs => ?_⟩
    obtain ⟨o, ho, hos, -⟩ := h.subAt hv
    exact u j o ho (by rw [hos, hvs, hs])
  drivers := by rw [h.drivers, h.limit]; exact s.drivers
theorem Alone.near (s : Alone c) (h : Near c d) : Alone d := fun hu p => by
  have := h.peer p
  rw [s (h.up ▸ hu) p] at this
  simpa using this
theorem Owners.near (s : Owners c) (h : Near c d) : Owners d := fun m p hp => by
  obtain ⟨h1, x, hx, hd⟩ := s m p (h.owner m p hp)
  obtain ⟨y, hy, -, hyd⟩ := h.peerAt' hx
  exact ⟨by rw [on_eq h.block]; exact h1, y, hy, by rw [hyd]; exact hd⟩

/-- `Structured` in parts: with the blocks `x` outside the link, and with what holds of a link that is not UP suspended
unless `w`. -/
structure Whole (w : Prop) (x : List (Fin 48)) (c : Chip) : Prop where
  parts : Parts x c
  rx : w → Rx c
  peers : Peers c
  alone : w → Alone c
  owners : Owners c
  left : Left c
theorem Left.of (s : Left c) (h : d.control.outstanding = c.control.outstanding)
    (k : d.control.block = c.control.block) : Left d := fun r hr u hu => by rw [k]; exact s r (h ▸ hr) u hu

variable {w : Prop}
theorem Whole.calm {x : List (Fin 48)} (s : Whole w x c) (h : Calm c d) : Whole w x d :=
  ⟨s.parts.still h.still, fun hw => (s.rx hw).still h.still, s.peers.near h.near, fun hw => (s.alone hw).near h.near,
    s.owners.near h.near, s.left.of h.left h.block⟩

/-! ### The pool side -/

theorem Near.calm (h : Near c d) (k : Calm d e) : Near c e := h.trans k.near
theorem Still.calm (h : Still c d) (k : Calm d e) : Still c e := h.trans k.still

/-- A new free list changes nothing else of the structure. -/
theorem setFree_near (xs : List (Fin 48)) (c : Chip) : Near c (c.setFree xs) ∧ (c.setFree xs).link.free = xs
    ∧ (c.setFree xs).link.receiver = c.link.receiver ∧ (c.setFree xs).link.finishing = c.link.finishing
    ∧ (c.setFree xs).link.desc = c.link.desc := by
  obtain ⟨p, -, h⟩ := setFree_eq xs c
  rw [h]
  exact ⟨⟨fun _ => rfl, fun _ => rfl, rfl, rfl, rfl, rfl, fun _ _ h => h⟩, rfl, rfl, rfl, rfl⟩

theorem Whole.returned {x : List (Fin 48)} (s : Whole w x c) : Whole w [] (c.returnBlocks x) := by
  obtain ⟨n, h1, h2, h3, h4⟩ := setFree_near (c.link.free ++ x) c
  refine ⟨fun b => ?_, fun hw hu => ?_, s.peers.near n, fun hw => (s.alone hw).near n, s.owners.near n,
      s.left.of n.left n.block⟩
  · have := s.parts b
    unfold returnBlocks Link.held at *
    rw [h1, h2, h3, h4]
    simp only [List.count_append, List.count_nil] at *
    omega
  · unfold returnBlocks; rw [h2, h3]; exact s.rx hw (n.up ▸ hu)

theorem dropFrame_near (side : FrameSide) (f : RxFrame) (c : Chip) : ∃ d, Calm c d
    ∧ c.dropFrame side f = d.returnBlocks f.blocks := by
  refine ⟨_, ?_, rfl⟩
  refine forEach_calm _ _ (Calm.refl c) (fun b _ e he => ?_)
  dsimp only
  split
  · exact modLink_calm' _ (fun _ => by simp) (withdraw_calm _ he)
  · split
    · exact modLink_calm' _ (fun _ => by simp) he
    · exact he

theorem Whole.dropped {side : FrameSide} {f : RxFrame} (s : Whole w f.blocks c) : Whole w [] (c.dropFrame side f) := by
  obtain ⟨d, h, e⟩ := dropFrame_near side f c
  rw [e]
  exact (s.calm h).returned
theorem Whole.discarded {side : FrameSide} {f : RxFrame} {k : Counter} (s : Whole w f.blocks c) :
    Whole w [] (c.discard k side f) := (s.calm (count_calm k (Calm.refl c))).dropped

end Chip
end Sys2Proof.Machine

namespace Sys2Proof.Machine.Chip
variable {c d e : Chip} {x y : List (Fin 48)} {w : Prop}

/-- The pool side changes, and nothing of the peers. -/
theorem Whole.pool (s : Whole w x c) (n : Near c d)
    (h : ∀ b, d.link.held b + y.count b = c.link.held b + x.count b)
    (r : c.linkUp = false → c.link.receiver = .hunt → c.link.finishing = none →
      d.link.receiver = .hunt ∧ d.link.finishing = none) : Whole w y d :=
  ⟨fun b => (h b).trans (s.parts b), fun hw hu => r (n.up ▸ hu) (s.rx hw (n.up ▸ hu)).1 (s.rx hw (n.up ▸ hu)).2,
    s.peers.near n, fun hw => (s.alone hw).near n, s.owners.near n, s.left.of n.left n.block⟩

theorem setReceiver_near (r : Receiver) (c : Chip) : Near c (c.setReceiver r) :=
  ⟨fun _ => rfl, fun _ => rfl, rfl, rfl, rfl, rfl, fun _ _ h => h⟩

theorem Whole.receive (s : Whole w x c) (r : Receiver)
    (h : ∀ b, r.blocks.count b + y.count b = c.link.receiver.blocks.count b + x.count b)
    (hr : c.linkUp = true ∨ r = .hunt) : Whole w y (c.setReceiver r) := by
  refine s.pool (setReceiver_near r c) (fun b => ?_) (fun hu _ h2 => ⟨?_, h2⟩)
  · have := h b
    simp only [Link.held, setReceiver, modLink] at this ⊢
    omega
  · rcases hr with hr | hr
    · rw [hr] at hu; simp at hu
    · exact hr

/-- A frame is given up, and then the receiver leaves it. -/
theorem Whole.droppedFrom (s : Whole w [] c) (side : FrameSide) (f : RxFrame) (r : Receiver)
    (hf : c.link.receiver.blocks = f.blocks) (hb : r.blocks = []) (hr : c.linkUp = true ∨ r = .hunt) :
    Whole w [] ((c.dropFrame side f).setReceiver r) := by
  obtain ⟨d, hc, e⟩ := dropFrame_near side f c
  rw [e]
  obtain ⟨n, h1, h2, h3, h4⟩ := setFree_near (d.link.free ++ f.blocks) d
  have n' : Near c ((d.returnBlocks f.blocks).setReceiver r) := (hc.near.trans n).trans (setReceiver_near _ _)
  refine s.pool n' (fun b => ?_) (fun hu _ h => ⟨?_, ?_⟩)
  · have := hc.still.held b
    have h5 : ((d.returnBlocks f.blocks).setReceiver r).link.desc = d.link.desc := h4
    have h6 : ((d.returnBlocks f.blocks).setReceiver r).link.free = d.link.free ++ f.blocks := h1
    have h7 : ((d.returnBlocks f.blocks).setReceiver r).link.finishing = d.link.finishing := h3
    have h8 : ((d.returnBlocks f.blocks).setReceiver r).link.receiver = r := rfl
    have h9 : d.link.receiver.blocks = f.blocks := by rw [hc.like.receiver, hf]
    rw [← this]
    simp only [Link.held, h5, h6, h7, h8, h9, hb, List.count_append, List.count_nil]
    omega
  · rcases hr with hr | hr
    · rw [hr] at hu; simp at hu
    · exact hr
  · have h7 : ((d.returnBlocks f.blocks).setReceiver r).link.finishing = d.link.finishing := h3
    rw [h7, hc.like.finishing, h]

theorem Whole.discardedFrom (s : Whole w [] c) (k : Counter) (side : FrameSide) (f : RxFrame) (r : Receiver)
    (hf : c.link.receiver.blocks = f.blocks) (hb : r.blocks = []) (hr : c.linkUp = true ∨ r = .hunt) :
    Whole w [] ((c.discard k side f).setReceiver r) := by
  have hc := count_calm k (Calm.refl c)
  exact (s.calm hc).droppedFrom side f r (by rw [hc.like.receiver, hf]) hb
      (by rw [linkUp_eq hc.ready hc.block]; exact hr)

theorem Whole.headerByte (s : Whole w [] c) (f : RxFrame) (b : Byte) (hf : c.link.receiver.blocks = f.blocks)
    (hu : c.linkUp = true) : Whole w [] (headerByte f b c) := by
  unfold Chip.headerByte
  dsimp only
  split
  · exact s.discardedFrom _ _ _ _ hf rfl (.inl hu)
  · split
    · refine s.receive _ (fun b => ?_) (.inl hu)
      rw [hf]; split <;> rfl
    · exact s.receive _ (fun b => by rw [hf]; rfl) (.inl hu)

theorem storeChunk_calm (f : RxFrame) (h : Calm c d) : Calm c (storeChunk f d) := by
  unfold storeChunk; exact modLink_calm' _ (fun _ => by simp) (place_calm _ h)

/-- A kept byte leaves the pool as it is, but for the receiver. -/
theorem keepByte_eq (f : RxFrame) (b : Byte) (c : Chip) : ∃ (e : Chip) (r : Receiver), Calm c e ∧ r.blocks = f.blocks
    ∧ c.keepByte f b = e.setReceiver r := by
  unfold keepByte
  refine ⟨_, _, ?_, ?_, rfl⟩
  · have h1 : Calm c (c.modLink (fun l => { l with buf := l.buf.set c.link.cur ⟨l.buf[c.link.cur].bytes ++ [b],
        none⟩ })) :=
      modLink_calm' _ (fun _ => by simp) (Calm.refl c)
    dsimp only
    (repeat' split) <;> first | exact storeChunk_calm _ h1 | exact h1
  · (repeat' split) <;> rfl

theorem Whole.payloadByte (s : Whole w [] c) (f : RxFrame) (b : Byte) (hf : c.link.receiver.blocks = f.blocks)
    (hu : c.linkUp = true) : Whole w [] (payloadByte f b c) := by
  unfold Chip.payloadByte discardInPayload
  split
  · exact s.discardedFrom _ _ _ _ hf rfl (.inl hu)
  · split
    · obtain ⟨e, r, hc, hr, he⟩ := keepByte_eq f b c
      rw [he]
      exact (s.calm hc).receive r (fun b => by rw [hr, hc.like.receiver, hf]) (.inl
          (by rw [linkUp_eq hc.ready hc.block, hu]))
    · split
      · exact s.discardedFrom _ _ _ _ hf rfl (.inl hu)
      · rename_i hne
        obtain ⟨x, rest, hx⟩ : ∃ x rest, c.link.free = x :: rest := by
          cases h : c.link.free with
          | nil => simp [h] at hne
          | cons x rest => exact ⟨x, rest, rfl⟩
        have ht : c.takeBlock f = ({ f with blocks := f.blocks ++ [x] }, c.setFree rest) := by
          unfold takeBlock; rw [hx]
        rw [ht]
        obtain ⟨n, h1, h2, h3, h4⟩ := setFree_near rest c
        obtain ⟨e, r, hc, hr, he⟩ := keepByte_eq { f with blocks := f.blocks ++ [x] } b (c.setFree rest)
        dsimp only
        rw [he]
        refine s.pool ((n.calm hc).trans (setReceiver_near _ _)) (fun b => ?_) (fun hd => by rw [hu] at hd; simp at hd)
        have h5 : (e.setReceiver r).link.desc = e.link.desc := rfl
        have h6 : (e.setReceiver r).link.free = e.link.free := rfl
        have h7 : (e.setReceiver r).link.finishing = e.link.finishing := rfl
        have h8 : (e.setReceiver r).link.receiver = r := rfl
        have h9 : ∀ k : Fin 16, descBlocks e.link.desc[k] = descBlocks c.link.desc[k] := fun k => by
          rw [descBlocks_map (hc.like.desc k), h4]
        simp only [Link.held, h5, h6, h7, h8, h9, hc.like.free, hc.like.finishing, h1, h3, hx, hr, hf,
            List.count_append,
          List.count_nil, List.count_cons]
        omega

theorem Whole.crcFieldByte (s : Whole w [] c) (f : RxFrame) (b : Byte) (hf : c.link.receiver.blocks = f.blocks)
    (hu : c.linkUp = true) : Whole w [] (crcFieldByte f b c) := by
  unfold Chip.crcFieldByte
  dsimp only
  split
  · exact s.receive _ (fun b => by rw [hf]; rfl) (.inl hu)
  · have s1 : Whole w f.blocks (c.setReceiver .hunt) := s.receive _ (fun b => by rw [hf]; simp [Receiver.blocks])
        (.inl hu)
    split
    · exact Whole.discarded (f := { f with crcField := f.crcField ++ [b] }) s1
    · rename_i hn
      have hn' : c.link.finishing = none := by
        have : (c.setReceiver .hunt).link.finishing = c.link.finishing := rfl
        rw [this] at hn
        cases h : c.link.finishing with
        | none => rfl
        | some _ => simp [h] at hn
      refine s1.pool ⟨fun _ => rfl, fun _ => rfl, rfl, rfl, rfl, rfl, fun _ _ h => h⟩ (fun b => ?_)
        (fun hd => by have h1 : c.linkUp = false := hd; rw [hu] at h1; simp at h1)
      simp only [Link.held, modLink, setReceiver, finBlocks, hn', List.count_nil]
      omega

theorem Whole.rxByte (s : Whole w [] c) (b : Byte) : Whole w [] (rxByte b c) := by
  unfold Chip.rxByte
  split
  · exact s
  · rename_i hu
    have hu : c.linkUp = true := by simpa using hu
    split
    · rename_i hr
      split
      · exact s.receive _ (fun b => by rw [hr]; simp [Receiver.blocks, RxFrame.new]) (.inl hu)
      · exact s
    · rename_i hr; exact s.headerByte _ _ (by rw [hr]; rfl) hu
    · rename_i hr; exact s.payloadByte _ _ (by rw [hr]; rfl) hu
    · rename_i hr; exact s.crcFieldByte _ _ (by rw [hr]; rfl) hu
    · rename_i hr
      exact s.receive _ (fun b => by rw [hr]; split <;> rfl) (.inl hu)
    · exact s

theorem Whole.lineGap (s : Whole w [] c) : Whole w [] (lineGap c) := by
  unfold Chip.lineGap
  split
  · exact s
  · rename_i hu
    have hu : c.linkUp = true := by simpa using hu
    split
    · exact s
    · rename_i hr; exact s.discardedFrom _ _ _ _ (by rw [hr]; rfl) rfl (.inl hu)
    · rename_i hr; exact s.discardedFrom _ _ _ _ (by rw [hr]; rfl) rfl (.inl hu)
    · rename_i hr; exact s.discardedFrom _ _ _ _ (by rw [hr]; rfl) rfl (.inl hu)
    · rename_i hr; exact s.receive _ (fun b => by rw [hr]; rfl) (.inl hu)

theorem chunkStoreDone_calm (h : Calm c d) : Calm c (chunkStoreDone d) := by
  unfold chunkStoreDone; split
  · dsimp only
    split
    · exact freePort_calm (writeMem_calm _ _ h)
    · exact modLink_calm' _ (fun _ => by simp) (freePort_calm (writeMem_calm _ _ h))
  · exact h

/-! ### Descriptors -/

theorem Whole.mail {f : RxFrame} (s : Whole w f.blocks c) (p : Fin 8) : Whole w [] (c.mail p f).1 := by
  unfold Chip.mail
  split
  · exact (s.calm (count_calm _ (Calm.refl c))).returned
  · rename_i k hk
    have hk : c.link.desc[k] = none := by
      have := List.find?_some hk
      simpa using this
    dsimp only
    have s1 : ∀ D : Descriptor, D.blocks = f.blocks → Whole w [] (c.modLink (fun l => { l with
        desc := l.desc.set k (some D), order := l.order ++ [k] })) := by
      intro D hD
      refine s.pool ⟨fun _ => rfl, fun _ => rfl, rfl, rfl, rfl, rfl, fun _ _ h => h⟩ (fun b => ?_) (fun _ h1 h2 =>
          ⟨h1, h2⟩)
      have := sum_set c.link.desc k (some D) (fun x => (descBlocks x).count b)
      simp only [hk, descBlocks, List.count_nil, hD] at this
      simp only [Link.held, modLink, descBlocks, List.count_nil]
      omega
    split
    · exact (s1 _ rfl).calm (raiseCause_calm _ (markStale_calm _ (publish_calm _ (Calm.refl _))))
    · exact (s1 _ rfl).calm (markStale_calm _ (publish_calm _ (Calm.refl _)))

theorem Whole.releaseLatch (s : Whole w [] c) (v : Word) : Whole w [] (releaseLatch v c) := by
  unfold Chip.releaseLatch
  split
  · exact s.calm (reportLatch_calm _ _ (Calm.refl c))
  · dsimp only
    split
    · exact s.calm (releaseResult_calm _ _ (count_calm _ (Calm.refl c)))
    · rename_i x hx
      have hk : c.link.desc[Fin.ofNat 16 v.toNat] = some x := by
        split at hx
        · exact hx
        · simp at hx
      obtain ⟨n, h1, h2, h3, h4⟩ := setFree_near (c.link.free ++ x.blocks) c
      have s1 : ∀ k : Fin 16, c.link.desc[k] = some x → Whole w [] ((c.returnBlocks x.blocks).modLink (fun l => { l with
          desc := l.desc.set k none, order := l.order.filter (fun e => e != k) })) := by
        intro k hk
        refine s.pool (n.trans ⟨fun _ => rfl, fun _ => rfl, rfl, rfl, rfl, rfl, fun _ _ h => h⟩) (fun b => ?_)
          (fun _ h5 h6 => ⟨h2.trans h5, h3.trans h6⟩)
        have := sum_set c.link.desc k none (fun x => (descBlocks x).count b)
        rw [hk] at this
        simp only [descBlocks, List.count_nil] at this
        simp only [Link.held, modLink, returnBlocks, h1, h2, h3, h4, List.count_append, List.count_nil]
        simp only [descBlocks]
        omega
      exact (s1 _ hk).calm (releaseResult_calm _ _ (publish_calm _ (Calm.refl _)))

end Sys2Proof.Machine.Chip
end

