-- ==== Sys2Proof/Laws/Peers.lean ====
section
/-! SUPPORT. What operations on peers, subscriptions and claims do to the structure, and the judgement of a frame. -/

namespace Sys2Proof.Machine.Chip
variable {c d e : Chip} {x y : List (Fin 48)} {v : Prop}

/-! ### Claims of tablets -/

theorem releaseClaim_owner (m : Fin 4) (z : Code) (d : Chip) (p : Fin 8) :
    (releaseClaim m z d).motor.ch[m].owner ≠ .link p := by
  intro h
  unfold releaseClaim at h
  dsimp only at h
  split at h
  · rename_i h0
    rw [h0] at h; simp at h
  · have hc : Calm (modCh m (fun ch => { ch with owner := .none, deadline := none }) d)
        (publish (.motorStatus m) (claimLost m d.motor.ch[m].owner z (publish (.motorStatus m)
          (modCh m (Channel.cool (setMode m .coast (endOperation m z (modCh m (fun ch => { ch with
            owner := .none, deadline := none }) d))).control.ms) (setMode m .coast (endOperation m z
              (modCh m (fun ch => { ch with owner := .none, deadline := none }) d))))))) := by
      exact publish_calm _ (claimLost_calm _ _ _ (publish_calm _ (cool_calm _ _ (setMode_calm _ _ (endOperation_calm _ _
        (Calm.refl _))))))
    have := hc.owner m p h
    simp [modCh] at this

/-- After a peer has stopped being a driver no motor is its own. -/
theorem releasePeerClaims_owner (p : Fin 8) (z : Code) (d : Chip) (hm : d.on .motor = true) (m : Fin 4) :
    (releasePeerClaims p z d).motor.ch[m].owner ≠ .link p := by
  unfold releasePeerClaims
  rw [if_pos hm]
  generalize hf : (fun (m : Fin 4) (c : Chip) =>
    if c.motor.ch[m].owner = .link p then (c.releaseClaim m z).handChange else c) = f
  have h1 : ∀ k (e : Chip), Calm e (f k e) := by
    intro k e
    subst hf
    dsimp only
    split
    · exact handChange_calm (releaseClaim_calm _ _ (Calm.refl e))
    · exact Calm.refl e
  have h2 : ∀ k (e : Chip), (f k e).motor.ch[k].owner ≠ .link p := by
    intro k e
    subst hf
    dsimp only
    split
    · intro h
      exact releaseClaim_owner k z e p ((handChange_calm (Calm.refl _)).owner k p h)
    · assumption
  have h3 : ∀ k e, (∀ j : Fin 4, e.motor.ch[j].owner ≠ .link p ∨ k ≤ j) →
      ∀ j : Fin 4, (f k e).motor.ch[j].owner ≠ .link p ∨ k < j := by
    intro k e h j
    rcases h j with h | h
    · exact .inl fun h4 => h ((h1 k e).owner j p h4)
    · rcases eq_or_lt_of_le h with h | h
      · subst h; exact .inl (h2 _ e)
      · exact .inr h
  rw [show List.finRange 4 = [0, 1, 2, 3] from rfl, forEach_cons, forEach_cons, forEach_cons, forEach_cons, forEach_nil]
  have a0 := h3 0 d (fun j => .inr (Fin.zero_le j))
  have a1 := h3 1 _ (fun j => (a0 j).imp id (fun h => by omega))
  have a2 := h3 2 _ (fun j => (a1 j).imp id (fun h => by omega))
  have a3 := h3 3 _ (fun j => (a2 j).imp id (fun h => by omega))
  rcases a3 m with h | h
  · exact h
  · omega

theorem releasePeerClaims_calm (p : Fin 8) (z : Code) (h : Calm c d) : Calm c (releasePeerClaims p z d) := by
  unfold releasePeerClaims; split
  · refine forEach_calm _ _ h (fun m _ e he => ?_)
    split
    · exact handChange_calm (releaseClaim_calm _ _ he)
    · exact he
  · exact h

/-- What an act does, from the channel with its new owner. -/
theorem motorAct_from (q : Owner) (w : Word) (z : MotorCmd) (m : Fin 4) (d : Chip) :
    Calm d (motorAct q w z m d) ∨
    Calm (modCh m (fun ch => { ch with owner := q, deadline := newDeadline q w d.control.ms }) d)
        (motorAct q w z m d) := by
  unfold motorAct
  have h1 := Calm.refl (modCh m (fun ch => { ch with owner := q, deadline := newDeadline q w d.control.ms }) d)
  split
  · exact .inl (Calm.refl d)
  · exact .inl (releaseClaim_calm _ _ (Calm.refl d))
  · right
    refine publish_calm _ ?_
    split
    · exact channelTakes_calm _ _ h1
    · exact claimLost_calm _ _ _ (channelTakes_calm _ _ h1)

theorem Whole.claim (s : Whole v x c) (m : Fin 4) (p : Fin 8) (f : Channel → Channel) (hf : ∀ ch,
    (f ch).owner = .link p)
    (hm : c.on .motor = true) (hd : c.isDriver p = true) : Whole v x (modCh m f c) := by
  refine ⟨s.parts, s.rx, ⟨s.peers.tags, s.peers.subs, s.peers.drivers⟩, s.alone, fun k q hq => ⟨hm, ?_⟩, s.left⟩
  by_cases hmk : m = k
  · subst hmk
    have : q = p := by simp [modCh, hf] at hq; exact hq.symm
    subst this
    unfold isDriver at hd
    split at hd
    · rename_i x hx; exact ⟨x, hx, hd⟩
    · simp at hd
  · have : (m : Nat) ≠ k := fun h => hmk (Fin.ext h)
    exact (s.owners k q (by simpa [modCh, this] using hq)).2

theorem Whole.motorMessage (s : Whole v x c) (p : Fin 8) (bs : List Byte) : Whole v x (c.motorMessage p
    (c.isDriver p) bs).1 := by
  unfold Chip.motorMessage
  dsimp only
  split
  · exact s
  · exact s
  · split
    · exact s
    · split
      · exact s
      · rename_i hm hd
        have hm : c.on .motor = true := by simpa using hm
        have hd : c.isDriver p = true := by simpa using hd
        unfold motorRequest
        dsimp only
        split
        · refine Whole.calm ?_ (handChange_calm (Calm.refl _))
          rcases motorAct_from (.link p) _ _ _ c with h | h
          · exact s.calm h
          · exact (s.claim _ p _ (fun _ => rfl) hm hd).calm h
        · exact s

/-! ### Subscriptions -/

theorem findSub_some {p : Fin 8} {k : Fin 4} (h : c.findSub p = some k) : ∃ z, c.link.sub[k] = some z ∧ z.slot = p := by
  have := List.find?_some h
  split at this
  · rename_i z hz; exact ⟨z, hz, by simpa using this⟩
  · simp at this
theorem findSub_none {p : Fin 8} (h : c.findSub p = none) (k : Fin 4) (z : Subscription) (hz : c.link.sub[k] = some z) :
    z.slot ≠ p := by
  have := List.find?_eq_none.mp h k (by simp)
  rw [hz] at this
  simpa using this

theorem setSub_get (k j : Fin 4) (z : Option Subscription) (c : Chip) :
    (setSub k z c).link.sub[j] = if k = j then z else c.link.sub[j] := by
  by_cases h : k = j
  · subst h; simp [setSub]
  · have : (k : Nat) ≠ j := fun h' => h (Fin.ext h')
    simp [setSub, this, h]

theorem Whole.cancelSub (s : Whole v x c) (p : Fin 8) : Whole v x (cancelSub p c) ∧
    (∀ (k : Fin 4) (z : Subscription), (cancelSub p c).link.sub[k] = some z → z.slot ≠ p) ∧
        (cancelSub p c).link.peer = c.link.peer
    ∧ (cancelSub p c).motor = c.motor ∧ (cancelSub p c).control = c.control := by
  unfold Chip.cancelSub
  split
  · rename_i k hk
    obtain ⟨z, hz, hzp⟩ := findSub_some hk
    have s1 : Whole v x (setSub k none c) := by
      refine ⟨s.parts, s.rx, ⟨s.peers.tags, fun j w hj => ?_, s.peers.drivers⟩, s.alone, s.owners, s.left⟩
      rw [setSub_get] at hj
      split at hj
      · simp at hj
      · refine ⟨(s.peers.subs j w hj).1, fun i v hi hv => ?_⟩
        rw [setSub_get] at hi
        split at hi
        · simp at hi
        · exact (s.peers.subs j w hj).2 i v hi hv
    refine ⟨s1.calm (publish_calm _ (Calm.refl _)), fun j w hj => ?_, by simp [setSub], by simp [setSub],
        by simp [setSub]⟩
    rw [show (publish (.subImage k) (setSub k none c)).link = (setSub k none c).link by simp, setSub_get] at hj
    split at hj
    · simp at hj
    · rename_i hkj
      intro hw
      exact hkj ((s.peers.subs j w hj).2 k z hz (by rw [hzp, hw]))
  · rename_i hk
    exact ⟨s, fun j w hj => findSub_none hk j w hj, rfl, rfl, rfl⟩

theorem Whole.subscribe (s : Whole v x c) (p : Fin 8) (f : RxFrame) (hp : ∃ z, c.link.peer[p] = some z
    ∧ z.tag = f.tag) :
    Whole v x (c.subscribe p f).1 := by
  unfold Chip.subscribe
  dsimp only
  split
  · exact (s.cancelSub p).1
  · split
    · exact s
    · split
      · rename_i k hk
        refine Whole.calm ?_ (publish_calm _ (Calm.refl _))
        refine ⟨s.parts, s.rx, ⟨s.peers.tags, fun j w hj => ?_, s.peers.drivers⟩, s.alone, s.owners, s.left⟩
        have hfree : ∀ i v, c.link.sub[i] = some v → v.slot = p → i = k := by
          intro i v hi hv
          split at hk
          · rename_i k' hk'
            obtain ⟨z, hz, hzp⟩ := findSub_some hk'
            have h1 := (s.peers.subs i v hi).2 k' z hz (by rw [hzp, hv])
            rw [← h1]; simpa using hk
          · rename_i hk'
            exact absurd hv (findSub_none hk' i v hi)
        rw [setSub_get] at hj
        split at hj
        · rename_i hkj
          subst hkj
          simp only [Option.some.injEq] at hj
          subst hj
          refine ⟨hp, fun i v hi hv => ?_⟩
          rw [setSub_get] at hi
          split at hi
          · rename_i h; exact h.symm
          · exact hfree i v hi hv
        · rename_i hkj
          refine ⟨(s.peers.subs j w hj).1, fun i v hi hv => ?_⟩
          rw [setSub_get] at hi
          split at hi
          · simp only [Option.some.injEq] at hi
            subst hi
            exact absurd (hfree j w hj hv.symm).symm hkj
          · exact (s.peers.subs j w hj).2 i v hi hv
      · exact s

/-! ### Peers -/

theorem peer_set (k j : Fin 8) (z : Option Peer) (v : Vector (Option Peer) 8) :
    (v.set k z)[j] = if k = j then z else v[j] := by
  by_cases h : k = j
  · subst h; simp
  · have : (k : Nat) ≠ j := fun h' => h (Fin.ext h')
    simp [this, h]

theorem Whole.leave (s : Whole v x c) (p : Fin 8) (h1 : ∀ (k : Fin 4) (z : Subscription),
    c.link.sub[k] = some z → z.slot ≠ p)
    (h2 : ∀ m : Fin 4, c.motor.ch[m].owner ≠ .link p) :
    Whole v x (c.modLink (fun l => { l with peer := l.peer.set p none })) := by
  have hget : ∀ (q : Fin 8), (c.modLink (fun l => { l with peer := l.peer.set p none })).link.peer[q]
      = if p = q then none else c.link.peer[q] := fun q => peer_set p q none _
  refine ⟨s.parts, s.rx, ⟨fun q z hz => ?_, fun k z hz => ?_, ?_⟩, fun hv hu q => ?_, fun m q hq => ?_, s.left⟩
  · rw [hget] at hz
    split at hz
    · simp at hz
    · refine ⟨(s.peers.tags q z hz).1, fun r w hw hwz => ?_⟩
      rw [hget] at hw
      split at hw
      · simp at hw
      · exact (s.peers.tags q z hz).2 r w hw hwz
  · refine ⟨?_, (s.peers.subs k z hz).2⟩
    rw [hget, if_neg (fun h => h1 k z hz h.symm)]
    exact (s.peers.subs k z hz).1
  · refine le_trans ?_ s.peers.drivers
    rw [Link.driverCount_eq, Link.driverCount_eq]
    have := sum_set c.link.peer p none driverOne
    rw [show driverOne none = 0 from rfl] at this
    simp only [modLink]
    omega
  · rw [hget]; split
    · rfl
    · exact s.alone hv hu q
  · obtain ⟨h3, z, hz, hzd⟩ := s.owners m q hq
    refine ⟨h3, z, ?_, hzd⟩
    rw [hget, if_neg (fun h => h2 m (by rw [h]; exact hq))]
    exact hz

theorem Whole.removePeer (s : Whole v x c) (p : Fin 8) (z : Code) : Whole v x (removePeer p z c) := by
  unfold Chip.removePeer
  split
  · exact s
  · rename_i w _
    have hno : ∀ m : Fin 4, (c.releasePeerClaims p .peerGone).motor.ch[m].owner ≠ .link p := by
      intro m
      cases hm : c.on .motor
      · intro h
        have := (s.owners m p ((releasePeerClaims_calm p .peerGone (Calm.refl c)).owner m p h)).1
        rw [hm] at this; simp at this
      · exact releasePeerClaims_owner p .peerGone c hm m
    have s1 := s.calm (releasePeerClaims_calm p .peerGone (Calm.refl c))
    obtain ⟨s2, h1, -, h2, -⟩ := s1.cancelSub p
    dsimp only
    revert hno s2 h1 h2
    generalize Chip.cancelSub p (c.releasePeerClaims p .peerGone) = e
    intro hno s2 h1 h2
    refine Whole.calm ?_ (handChange_calm (publish_calm _ (publish_calm _ (Calm.refl _))))
    have hc : Calm e (raiseCause .peer (append .peerLeave (Bytes.ofNat p.val) z.byte
        (e.modLink (fun l => { l with replies := l.replies.filter (fun r => r.tag != w.tag) })))) :=
      raiseCause_calm _ (append_calm _ _ _ (modLink_calm' _ (fun _ => by simp) (Calm.refl e)))
    refine (s2.calm hc).leave p (fun k v hv => ?_) (fun m hm => ?_)
    · obtain ⟨o, ho, hos, -⟩ := hc.near.subAt hv
      rw [← hos]; exact h1 k o ho
    · have := hc.owner m p hm
      rw [h2] at this
      exact hno m this

theorem Whole.removeAllPeers (s : Whole v x c) (z : Code) : Whole v x (removeAllPeers z c) :=
  forEach_inv (fun e => Whole v x e) c s (fun p _ _ he => he.removePeer p z)

theorem Whole.join (s : Whole v x c) (p : Fin 8) (t : Word) (b : Bool) (hp : c.link.peer[p] = none) (ht : t ≠ 0)
    (hn : ∀ (q : Fin 8) (z : Peer), c.link.peer[q] = some z → z.tag ≠ t) (hu : c.linkUp = true)
    (hd : b = true → c.link.driverCount < c.link.settings.driverLimit) : Whole v x (c.join p t b) := by
  unfold Chip.join
  dsimp only
  refine Whole.calm ?_ (handChange_calm (raiseCause_calm _ (append_calm _ _ _ (publish_calm _ (publish_calm _
    (Calm.refl _))))))
  generalize hx : (Peer.mk t b _ _ _ _ _ _) = z
  have hzt : z.tag = t := by rw [← hx]
  have hzd : z.driver = b := by rw [← hx]
  have hget : ∀ (q : Fin 8), (c.modLink (fun l => { l with peer := l.peer.set p (some z) })).link.peer[q]
      = if p = q then some z else c.link.peer[q] := fun q => peer_set p q _ _
  refine ⟨s.parts, s.rx, ⟨fun q w hw => ?_, fun k w hw => ?_, ?_⟩, fun _ h => ?_, fun m q hq => ?_, s.left⟩
  · rw [hget] at hw
    split at hw
    · rename_i hpq; subst hpq
      simp only [Option.some.injEq] at hw; subst hw
      refine ⟨by rw [hzt]; exact ht, fun r v hv hvz => ?_⟩
      rw [hget] at hv
      split at hv
      · rename_i h; exact h.symm
      · exact absurd (hvz.trans hzt) (hn r v hv)
    · refine ⟨(s.peers.tags q w hw).1, fun r v hv hvw => ?_⟩
      rw [hget] at hv
      split at hv
      · simp only [Option.some.injEq] at hv; subst hv
        exact absurd (hvw.symm.trans hzt) (hn q w hw)
      · exact (s.peers.tags q w hw).2 r v hv hvw
  · obtain ⟨⟨v, hv, hvt⟩, h2⟩ := s.peers.subs k w hw
    refine ⟨⟨v, ?_, hvt⟩, h2⟩
    rw [hget, if_neg]
    · exact hv
    · intro h
      have : ∀ q : Fin 8, p = q → c.link.peer[q] = none := by rintro _ rfl; exact hp
      rw [this _ h] at hv; simp at hv
  · show Link.driverCount _ ≤ c.link.settings.driverLimit
    have h0 := s.peers.drivers
    rw [Link.driverCount_eq] at hd h0 ⊢
    have := sum_set c.link.peer p (some z) driverOne
    rw [hp, show driverOne none = 0 from rfl, show driverOne (some z) = b.toNat by rw [← hzd]; rfl] at this
    simp only [modLink] at hd h0 ⊢
    cases b
    · simp only [Bool.toNat_false] at this; omega
    · have h1 := hd rfl; simp only [Bool.toNat_true] at this; omega
  · have h : c.linkUp = false := h
    rw [hu] at h; simp at h
  · obtain ⟨h3, w, hw, hwd⟩ := s.owners m q hq
    refine ⟨h3, w, ?_, hwd⟩
    rw [hget, if_neg]
    · exact hw
    · intro h
      subst h
      rw [hp] at hw; simp at hw

end Sys2Proof.Machine.Chip

namespace Sys2Proof.Machine.Chip
variable {c d e : Chip} {x y : List (Fin 48)} {v : Prop}

/-! ### Roles and HELLO -/

theorem setRole_get (p q : Fin 8) (b : Bool) (c : Chip) :
    (setRole p b c).link.peer[q] = if p = q then c.link.peer[q].map (fun z => { z with driver :=
        b }) else c.link.peer[q] := by
  have : (setRole p b c).link.peer = c.link.peer.set p (c.link.peer[p].map (fun z => { z with driver := b })) := by
    simp [setRole, modPeer]
  rw [this, peer_set]
  split
  · rename_i h; subst h; rfl
  · rfl

/-- A role changes; the owners are not looked at here. -/
theorem Whole.role (s : Whole v x c) (p : Fin 8) (b : Bool)
    (hd : b = true → c.isDriver p = false ∧ c.link.driverCount < c.link.settings.driverLimit) :
    Parts x (setRole p b c) ∧ (v → Rx (setRole p b c)) ∧ Peers (setRole p b c) ∧ (v → Alone (setRole p b c))
    ∧ Left (setRole p b c) := by
  have e1 : (setRole p b c).pins = c.pins := by simp [setRole, modPeer]
  have e2 : (setRole p b c).control = c.control := by simp [setRole, modPeer]
  have st : Still c (setRole p b c) :=
    ⟨by simp [setRole, modPeer], by simp [setRole, modPeer], by simp [setRole, modPeer],
      fun k => by simp [setRole, modPeer], by rw [e1], by rw [e2]⟩
  have back : ∀ (q : Fin 8) (z : Peer), (setRole p b c).link.peer[q] = some z →
      ∃ w : Peer, c.link.peer[q] = some w ∧ w.tag = z.tag := by
    intro q z hz
    rw [setRole_get] at hz
    split at hz
    · cases hw : c.link.peer[q] with
      | none => rw [hw] at hz; simp at hz
      | some w => rw [hw] at hz; simp at hz; exact ⟨w, rfl, by rw [← hz]⟩
    · exact ⟨z, hz, rfl⟩
  have forth : ∀ (q : Fin 8) (w : Peer), c.link.peer[q] = some w →
      ∃ z : Peer, (setRole p b c).link.peer[q] = some z ∧ z.tag = w.tag := by
    intro q w hw
    rw [setRole_get, hw]
    split
    · exact ⟨_, rfl, rfl⟩
    · exact ⟨w, rfl, rfl⟩
  have esub : (setRole p b c).link.sub = c.link.sub := by simp [setRole, modPeer]
  refine ⟨s.parts.still st, fun hv => (s.rx hv).still st, ⟨fun q z hz => ?_, fun k z hz => ?_, ?_⟩, fun hv hu q => ?_,
    s.left.of (by rw [e2]) (by rw [e2])⟩
  · obtain ⟨w, hw, hwz⟩ := back q z hz
    refine ⟨hwz ▸ (s.peers.tags q w hw).1, fun r u hu huz => ?_⟩
    obtain ⟨t, ht, htu⟩ := back r u hu
    exact (s.peers.tags q w hw).2 r t ht (by rw [htu, huz, hwz])
  · rw [esub] at hz
    obtain ⟨⟨u, hu, hut⟩, h2⟩ := s.peers.subs k z hz
    obtain ⟨t, ht, htu⟩ := forth _ u hu
    exact ⟨⟨t, ht, by rw [htu, hut]⟩, fun j w hw => h2 j w (by rw [esub] at hw; exact hw)⟩
  · have h0 := s.peers.drivers
    have h1 : (setRole p b c).link.settings = c.link.settings := by simp [setRole, modPeer]
    have h2 : (setRole p b c).link.peer = c.link.peer.set p (c.link.peer[p].map (fun z => { z with driver := b })) := by
      simp [setRole, modPeer]
    rw [Link.driverCount_eq] at hd h0 ⊢
    rw [h1, h2]
    have h3 := sum_set c.link.peer p (c.link.peer[p].map (fun z => { z with driver := b })) driverOne
    cases hp : c.link.peer[p] with
    | none => rw [hp] at h3; simp only [Option.map_none] at h3 ⊢; omega
    | some z =>
      rw [hp, show driverOne (some z) = z.driver.toNat from rfl] at h3
      have h4 : driverOne (Option.map (fun z : Peer => { z with driver := b }) (some z)) = b.toNat := rfl
      rw [h4] at h3
      cases b
      · simp only [Bool.toNat_false] at h3; omega
      · have h5 := (hd rfl).1
        unfold isDriver at h5
        rw [hp] at h5
        simp only at h5
        rw [h5] at h3
        have := (hd rfl).2
        simp only [Bool.toNat_true, Bool.toNat_false] at h3; omega
  · have hu' : c.linkUp = false := (linkUp_eq (c := c) (by rw [e1]) (by rw [e2])).symm.trans hu
    rw [setRole_get, s.alone hv hu' q]
    split <;> rfl

theorem Whole.helloJoined (s : Whole v x c) (p : Fin 8) (f : RxFrame) : Whole v x (c.helloJoined p f) := by
  unfold Chip.helloJoined
  dsimp only
  split
  · exact s.calm (queueReply_calm _ _ _ _ _ (Calm.refl c))
  · split
    · -- a driver that asks for another role
      refine Whole.calm ?_ (queueReply_calm _ _ _ _ _ (Calm.refl _))
      obtain ⟨h1, h2, h3, h4, h5⟩ := s.role p false (by simp)
      have hc := releasePeerClaims_calm p .notDriver (Calm.refl (setRole p false c))
      have e1 : (setRole p false c).motor = c.motor := by simp [setRole, modPeer]
      have e2 : (setRole p false c).control = c.control := by simp [setRole, modPeer]
      refine ⟨h1.still hc.still, fun hv => (h2 hv).still hc.still, h3.near hc.near, fun hv => (h4 hv).near hc.near,
        fun m q hq => ?_, h5.of hc.left hc.block⟩
      have hq0 := hc.owner m q hq
      rw [e1] at hq0
      obtain ⟨hm, z, hz, hzd⟩ := s.owners m q hq0
      have hm' : (setRole p false c).on .motor = true := (on_eq (c := c) (by rw [e2]) .motor).trans hm
      have hpq : p ≠ q := by
        intro h; subst h
        exact releasePeerClaims_owner p .notDriver _ hm' m hq
      refine ⟨by rw [on_eq hc.block]; exact hm', ?_⟩
      have hz' : (setRole p false c).link.peer[q] = some z := by rw [setRole_get, if_neg hpq]; exact hz
      obtain ⟨w, hw, -, hwd⟩ := hc.near.peerAt' hz'
      exact ⟨w, hw, by rw [hwd]; exact hzd⟩
    · rename_i hnd
      split
      · rename_i hlt
        refine Whole.calm ?_ (queueReply_calm _ _ _ _ _ (Calm.refl _))
        obtain ⟨h1, h2, h3, h4, h5⟩ := s.role p true (fun _ => ⟨hnd, hlt⟩)
        have e1 : (setRole p true c).motor = c.motor := by simp [setRole, modPeer]
        have e2 : (setRole p true c).control = c.control := by simp [setRole, modPeer]
        refine ⟨h1, h2, h3, h4, fun m q hq => ?_, h5⟩
        rw [e1] at hq
        obtain ⟨hm, z, hz, hzd⟩ := s.owners m q hq
        refine ⟨(on_eq (c := c) (by rw [e2]) .motor).trans hm, ?_⟩
        rw [setRole_get, hz]
        split
        · exact ⟨_, rfl, rfl⟩
        · exact ⟨z, rfl, hzd⟩
      · exact s.calm (queueReply_calm _ _ _ _ _ (Calm.refl c))
    · exact s.calm (queueReply_calm _ _ _ _ _ (Calm.refl c))
    · exact s.calm (queueReply_calm _ _ _ _ _ (Calm.refl c))

theorem Whole.helloUnknown (s : Whole v x c) (f : RxFrame) (ht : f.tag ≠ 0) (hn : c.findPeer f.tag = none)
    (hu : c.linkUp = true) : Whole v x (c.helloUnknown f) := by
  unfold Chip.helloUnknown
  dsimp only
  split
  · exact s.calm (queueReply_calm _ _ _ _ _ (Calm.refl c))
  · split
    · exact s.calm (queueReply_calm _ _ _ _ _ (count_calm _ (Calm.refl c)))
    · split
      · exact s.calm (queueReply_calm _ _ _ _ _ (Calm.refl c))
      · rename_i p hp
        split
        · exact s.calm (queueReply_calm _ _ _ _ _ (Calm.refl c))
        · rename_i hnd
          refine Whole.calm (s.join p f.tag (asksDriver f) ?_ ht ?_ hu ?_) (queueReply_calm _ _ _ _ _ (Calm.refl _))
          · have := List.find?_some hp
            simpa using this
          · intro q z hz hzt
            unfold findPeer at hn
            rw [if_neg ht] at hn
            have := List.find?_eq_none.mp hn q (by simp)
            rw [hz] at this
            simp [hzt] at this
          · intro h
            simp [h] at hnd
            exact hnd

theorem findPeer_some {t : Word} {p : Fin 8} (h : c.findPeer t = some p) : ∃ z, c.link.peer[p] = some z ∧ z.tag = t :=
    by
  unfold findPeer at h
  split at h
  · simp at h
  · have := List.find?_some h
    split at this
    · rename_i z hz; exact ⟨z, hz, by simpa using this⟩
    · simp at this

theorem Whole.service (s : Whole v x c) (k : FrameKind) (p : Fin 8) (f : RxFrame)
    (hp : ∃ z, c.link.peer[p] = some z ∧ z.tag = f.tag) : Whole v x (c.service k p f).1 := by
  unfold Chip.service
  split
  · exact s
  · split
    · exact s.motorMessage p f.first
    · exact s.calm (toneMessage_calm _ _ _ (Calm.refl c))
    · exact s
    · exact s.subscribe p f hp
    · exact s

theorem Whole.handle {f : RxFrame} (s : Whole v f.blocks c) (k : FrameKind) (p : Fin 8)
    (hp : ∃ z, c.link.peer[p] = some z ∧ z.tag = f.tag) : Whole v [] (c.handle k p f) := by
  unfold Chip.handle
  split
  · exact (s.helloJoined p f).returned
  · exact (s.removePeer p .ended).returned
  · exact (s.calm (holdPeer_calm p (Calm.refl c))).returned
  · exact (s.calm (endHold_calm p (Calm.refl c))).returned
  · exact (s.mail p).calm (queueReply_calm _ _ _ _ _ (Calm.refl _))
  · exact ((s.service _ p f hp).calm (queueReply_calm _ _ _ _ _ (Calm.refl _))).returned

theorem Whole.judgeFrame {f : RxFrame} (s : Whole v f.blocks c) (hu : c.linkUp = true) : Whole v []
    (judgeFrame f c) := by
  unfold Chip.judgeFrame
  split
  · exact s.discarded
  · dsimp only
    cases hp : c.findPeer f.tag with
    | none =>
      dsimp only
      split
      · exact s.discarded
      · split
        · exact s.discarded
        · split
          · rename_i h; exact (s.helloUnknown f h.1 hp hu).returned
          · exact s.discarded
    | some p =>
      dsimp only
      have hc := countStorm_calm p (Calm.refl c)
      have s1 := s.calm hc
      split
      · exact s1.discarded
      · split
        · exact s1.discarded
        · split
          · exact s1.discarded
          · have hc2 := hear_calm p hc
            refine (s.calm hc2).handle _ p ?_
            obtain ⟨z, hz, hzt⟩ := findPeer_some hp
            obtain ⟨w, hw, hwt, -⟩ := hc2.near.peerAt' hz
            exact ⟨w, hw, by rw [hwt, hzt]⟩

theorem Whole.frameJudge (s : Whole True [] c) : Whole True [] (frameJudge c) := by
  unfold Chip.frameJudge
  split
  · rename_i f hf
    have hf : c.link.finishing = some f := by
      unfold readyFrame at hf
      split at hf
      · simp at hf
      · exact hf
    have hu : c.linkUp = true := by
      cases h : c.linkUp
      · have := (s.rx trivial h).2; rw [hf] at this; simp at this
      · rfl
    have s1 : Whole True f.blocks (c.modLink (fun l => { l with finishing := none })) := by
      refine s.pool ⟨fun _ => rfl, fun _ => rfl, rfl, rfl, rfl, rfl, fun _ _ h => h⟩ (fun b => ?_)
        (fun h => by rw [hu] at h; simp at h)
      simp only [Link.held, modLink, finBlocks, hf, List.count_nil]
      omega
    exact s1.judgeFrame hu
  · exact s

end Sys2Proof.Machine.Chip
end

