-- ==== Sys2Proof/Laws/Records.lean ====
section
/-! SUPPORT. Reading a record's bytes: a 16-bit field and a word are what their bytes spell, and a padded list reads as the
list and then as its filling. -/

namespace Sys2Proof

namespace Bytes

/-- A 16-bit field reads as the value whose two bytes stand there. -/
theorem half_eq {bs : List Byte} {k : Nat} {h : Half} (h0 : get bs k = h.extractLsb' 0 8)
    (h1 : get bs (k + 1) = h.extractLsb' 8 8) : half bs k = h := by
  unfold half
  rw [h0, h1, BitVec.extractLsb'_append_extractLsb'_eq_extractLsb' (by decide)]
  exact BitVec.extractLsb'_eq_self

/-- A word reads as the value whose four bytes stand there. -/
theorem word_eq {bs : List Byte} {k : Nat} {w : Word} (h0 : get bs k = w.extractLsb' 0 8)
    (h1 : get bs (k + 1) = w.extractLsb' 8 8) (h2 : get bs (k + 2) = w.extractLsb' 16 8)
    (h3 : get bs (k + 3) = w.extractLsb' 24 8) : word bs k = w := by
  unfold word
  rw [h0, h1, h2, h3, BitVec.extractLsb'_append_extractLsb'_eq_extractLsb' (by decide),
    BitVec.extractLsb'_append_extractLsb'_eq_extractLsb' (by decide),
    BitVec.extractLsb'_append_extractLsb'_eq_extractLsb' (by decide)]
  exact BitVec.extractLsb'_eq_self

end Bytes

namespace Machine

@[simp] theorem padTo_length (n : Nat) (fill : Byte) (bs : List Byte) : (padTo n fill bs).length = n := by
  simp [padTo]; omega

/-- A byte of a padded list: of the list where it reaches, else the filling. -/
theorem padTo_getD {n k : Nat} (hk : k < n) (fill : Byte) (bs : List Byte) :
    (padTo n fill bs).getD k 0 = bs[k]?.getD fill := by
  unfold padTo
  by_cases h : k < bs.length
  · simp [List.getElem?_append, h, hk]
  · have : bs.length ≤ k := by omega
    simp [List.getElem?_append, List.getElem?_replicate, h, hk]
    rw [if_pos (by omega)]
    rfl

@[simp] theorem Mem.bytes_length (m : Mem) : ∀ n a, (m.bytes n a).length = n
  | 0, _ => rfl
  | n + 1, a => by simp [Mem.bytes, Mem.bytes_length m n]

@[simp] theorem Chip.shadowBytes_length (c : Chip) (r : RecId) : (c.shadowBytes r).length = r.size :=
  Mem.bytes_length _ _ _

end Machine
end Sys2Proof
end

