-- ==== Sys2Proof/Laws/Structure.lean ====
section
/-! SUPPORT. What the link state, the block states, the rows and the ports do to the structure, and that every command
keeps it. -/

namespace Sys2Proof.Machine.Chip
variable {c d e : Chip} {x y : List (Fin 48)} {v : Prop}

/-! ### The link's state and settings -/

theorem Whole.ageOut (s : Whole v x c) (p : Fin 8) : Whole v x (ageOut p c) := by
  unfold Chip.ageOut; split
  · exact s.removePeer p .expired
  · exact s

theorem Whole.linkLatch (s : Whole v [] c) (r : LinkRec) : Whole v [] (linkLatch r c) := by
  unfold Chip.linkLatch
  dsimp only
  split
  · exact s.calm (reportLatch_calm _ _ (Calm.refl c))
  · split
    · exact s.calm (reportLatch_calm _ _ (Calm.refl c))
    · split
      · exact s.calm (reportLatch_calm _ _ (Calm.refl c))
      · rename_i hd
        refine Whole.calm ?_ (reportLatch_calm _ _ (Calm.refl _))
        split
        · exact s
        · have s1 : Whole v [] (c.modLink (fun l => { l with settings := r.settings })) :=
            ⟨s.parts, s.rx, ⟨s.peers.tags, s.peers.subs, Nat.le_of_not_lt hd⟩, s.alone, s.owners, s.left⟩
          have s2 : Whole v [] ((c.modLink (fun l => { l with settings := r.settings })).forEach
              (List.finRange 8) Chip.ageOut) :=
            forEach_inv (fun e => Whole v [] e) _ s1 (fun p _ _ he => he.ageOut p)
          revert s2
          generalize forEach (List.finRange 8) Chip.ageOut _ = e
          intro s2
          obtain ⟨n, h1, h2, h3, h4⟩ := setFree_near e.link.free e
          refine s2.pool n (fun b => ?_) (fun _ h5 h6 => ⟨h2.trans h5, h3.trans h6⟩)
          simp only [Link.held, h1, h2, h3, h4]

theorem Whole.linkRise (s : Whole True [] c) : Whole True [] (linkRise c) := by
  unfold Chip.linkRise
  have hup : ({ c with pins := { c.pins with linkReady := true } } : Chip).linkUp = false → c.linkUp = false := by
    intro h
    simp only [linkUp, on, Bool.and_true] at h ⊢
    rw [h]; rfl
  have s1 : Whole True [] { c with pins := { c.pins with linkReady := true } } :=
    ⟨s.parts, fun _ h => s.rx trivial (hup h), ⟨s.peers.tags, s.peers.subs, s.peers.drivers⟩,
      fun _ h => s.alone trivial (hup h), s.owners, s.left⟩
  dsimp only
  split
  · exact s1
  · rename_i hw
    have hw : c.linkUp = false := by
      simp only [Bool.or_eq_true, not_or, Bool.not_eq_true] at hw; exact hw.1
    have hr := (s.rx trivial hw).1
    refine Whole.calm (s1.receive .hunt (fun b => ?_) (.inr rfl)) (handChange_calm (modLink_calm' _
        (fun _ => by simp) (publish_calm _
      (Calm.refl _))))
    show _ = c.link.receiver.blocks.count b + _
    rw [hr]

theorem forEach_all {n : Nat} (f : Fin n → Chip → Chip) (P : Fin n → Chip → Prop) (h1 : ∀ k e, P k (f k e))
    (h2 : ∀ k j e, P j e → P j (f k e)) (c : Chip) (k : Fin n) : P k (forEach (List.finRange n) f c) := by
  have h : ∀ (xs : List (Fin n)) (c : Chip), (k ∈ xs ∨ P k c) → P k (forEach xs f c) := by
    intro xs
    induction xs with
    | nil => intro c h; simpa using h
    | cons y ys ih =>
      intro c h
      rw [forEach_cons]
      apply ih
      rcases h with h | h
      · rcases List.mem_cons.mp h with h | h
        · subst h; exact .inr (h1 _ _)
        · exact .inl h
      · exact .inr (h2 _ _ _ h)
  exact h _ c (.inl (by simp))

theorem removePeer_none (p q : Fin 8) (z : Code) (c : Chip) (h : c.link.peer[q] = none ∨ p = q) :
    (removePeer p z c).link.peer[q] = none := by
  unfold removePeer
  split
  · rename_i hp
    rcases h with h | h
    · exact h
    · subst h; exact hp
  · rename_i w _
    dsimp only
    have hn : ∀ d e : Chip, Near d e → d.link.peer[q] = none → e.link.peer[q] = none := by
      intro d e hde hq
      have := hde.peer q
      rw [hq] at this
      simpa using this
    refine hn _ _ (handChange_calm (publish_calm _ (publish_calm _ (Calm.refl _)))).near ?_
    show (Vector.set _ p none)[q] = none
    rw [peer_set]
    split
    · rfl
    · rename_i hpq
      rcases h with h | h
      · refine hn _ _ (raiseCause_calm _ (append_calm _ _ _ (modLink_calm' _ (fun _ => by simp) (Calm.refl _)))).near ?_
        have : ∀ e : Chip, (cancelSub p e).link.peer = e.link.peer := by
          intro e; unfold cancelSub; split <;> simp [setSub]
        rw [this]
        exact hn _ _ (releasePeerClaims_calm p .peerGone (Calm.refl c)).near h
      · exact absurd h hpq

theorem removeAllPeers_none (z : Code) (c : Chip) (q : Fin 8) : (removeAllPeers z c).link.peer[q] = none := by
  have h1 : ∀ (k : Fin 8) (e : Chip), (removePeer k z e).link.peer[k] = none := fun k e =>
    removePeer_none k k z e (.inr rfl)
  have h2 : ∀ (k j : Fin 8) (e : Chip), e.link.peer[j] = none → (removePeer k z e).link.peer[j] = none := fun k j e h =>
    removePeer_none k j z e (.inl h)
  unfold removeAllPeers
  exact forEach_all (fun p : Fin 8 => removePeer p z) (fun q c => c.link.peer[q] = none) h1 h2 c q

theorem giveUpFrames_spec (s : Whole v [] c) : Whole v [] (giveUpFrames c) ∧ Near c (giveUpFrames c)
    ∧ (giveUpFrames c).link.receiver = .hunt ∧ (giveUpFrames c).link.finishing = none := by
  have key : ∀ e : Chip, Whole v [] e → Near c e → e.link.finishing = none →
      ∀ g, g = (match e.link.receiver with
        | .header f | .payload f | .crc f => e.dropFrame .receiving f
        | .hunt | .skip _ => e) →
      Whole v [] (g.setReceiver .hunt) ∧ Near c (g.setReceiver .hunt)
      ∧ (g.setReceiver .hunt).link.receiver = .hunt ∧ (g.setReceiver .hunt).link.finishing = none := by
    intro e se ne fe g hg
    have drop : ∀ f : RxFrame, e.link.receiver.blocks = f.blocks → g = e.dropFrame .receiving f →
        Whole v [] (g.setReceiver .hunt) ∧ Near c (g.setReceiver .hunt)
        ∧ (g.setReceiver .hunt).link.receiver = .hunt ∧ (g.setReceiver .hunt).link.finishing = none := by
      intro f hf hg
      subst hg
      refine ⟨se.droppedFrom _ f _ hf rfl (.inr rfl), ?_, rfl, ?_⟩
      · obtain ⟨d, hc, hd⟩ := dropFrame_near .receiving f e
        rw [hd]
        exact ((ne.calm hc).trans (setFree_near _ d).1).trans (setReceiver_near _ _)
      · obtain ⟨d, hc, hd⟩ := dropFrame_near .receiving f e
        rw [hd]
        exact ((setFree_near _ d).2.2.2.1).trans (hc.like.finishing.trans fe)
    split at hg
    · rename_i f hr; exact drop f (by rw [hr]; rfl) hg
    · rename_i f hr; exact drop f (by rw [hr]; rfl) hg
    · rename_i f hr; exact drop f (by rw [hr]; rfl) hg
    · rename_i hr
      subst hg
      exact ⟨se.receive _ (fun b => by rw [hr]) (.inr rfl), ne.trans (setReceiver_near _ _), rfl, fe⟩
    · rename_i hr
      subst hg
      exact ⟨se.receive _ (fun b => by rw [hr]; rfl) (.inr rfl), ne.trans (setReceiver_near _ _), rfl, fe⟩
  unfold giveUpFrames
  cases hf : c.link.finishing with
  | none => exact key c s (Near.refl c) hf _ rfl
  | some f =>
    have s1 : Whole v f.blocks (c.modLink (fun l => { l with finishing := none })) := by
      refine s.pool ⟨fun _ => rfl, fun _ => rfl, rfl, rfl, rfl, rfl, fun _ _ h => h⟩ (fun b => ?_) (fun _ h1 _ => ⟨h1,
          rfl⟩)
      simp only [Link.held, modLink, finBlocks, hf, List.count_nil]
      omega
    obtain ⟨d, hc, hd⟩ := dropFrame_near .finishing f (c.modLink (fun l => { l with finishing := none }))
    refine key _ s1.dropped ?_ ?_ _ rfl
    · rw [hd]
      have n0 : Near c (c.modLink (fun l => { l with finishing := none })) :=
        ⟨fun _ => rfl, fun _ => rfl, rfl, rfl, rfl, rfl, fun _ _ h => h⟩
      exact (n0.calm hc).trans (setFree_near _ d).1
    · rw [hd]
      exact ((setFree_near _ d).2.2.2.1).trans hc.like.finishing

theorem removePeer_block (p : Fin 8) (z : Code) (c : Chip) : (removePeer p z c).control.block = c.control.block := by
  unfold removePeer
  split
  · rfl
  · dsimp only
    refine (handChange_calm (publish_calm _ (publish_calm _ (Calm.refl _)))).block.trans ?_
    refine (raiseCause_calm _ (append_calm _ _ _ (modLink_calm' _ (fun _ => by simp) (Calm.refl _)))).block.trans ?_
    refine Eq.trans ?_ (releasePeerClaims_calm p .peerGone (Calm.refl c)).block
    unfold cancelSub
    split <;> simp [setSub]
theorem removeAllPeers_block (z : Code) (c : Chip) : (removeAllPeers z c).control.block = c.control.block := by
  unfold removeAllPeers
  exact forEach_inv (fun e => e.control.block = c.control.block) c rfl
    (fun p _ e he => (removePeer_block p z e).trans he)

/-- What is left after the link is lost. -/
theorem linkLost_spec (s : Whole False [] c) (z : Code) : Whole True [] (linkLost z c)
    ∧ (∀ p : Fin 8, (linkLost z c).link.peer[p] = none) ∧ (linkLost z c).control.block = c.control.block := by
  have s1 := s.removeAllPeers z
  obtain ⟨s2, n2, h1, h2⟩ := giveUpFrames_spec s1
  have hc : Calm (giveUpFrames (removeAllPeers z c)) (linkLost z c) := by
    unfold linkLost
    exact modLink_calm' _ (fun _ => by simp) (endSlots_calm z (abandonFrame_calm (Calm.refl _)))
  have hp : ∀ p : Fin 8, (linkLost z c).link.peer[p] = none := by
    intro p
    have := (n2.calm hc).peer p
    rw [removeAllPeers_none] at this
    simpa using this
  have s3 := s2.calm hc
  exact ⟨⟨s3.parts, fun _ _ => ⟨hc.like.receiver.trans h1, hc.like.finishing.trans h2⟩, s3.peers, fun _ _ => hp,
    s3.owners, s3.left⟩, hp, hc.block.trans (n2.block.trans (removeAllPeers_block z c))⟩

theorem Whole.open (s : Whole v x c) : Whole False x c := ⟨s.parts, fun h => h.elim, s.peers, fun h => h.elim,
    s.owners, s.left⟩

theorem Whole.linkFall (s : Whole True [] c) : Whole True [] (linkFall c) := by
  unfold Chip.linkFall
  dsimp only
  split
  · have s1 : Whole False [] { c with pins := { c.pins with linkReady := false } } :=
      ⟨s.parts, fun h => h.elim, ⟨s.peers.tags, s.peers.subs, s.peers.drivers⟩, fun h => h.elim, s.owners, s.left⟩
    exact (linkLost_spec (s1.calm (linkStateDown_calm (Calm.refl _))) _).1
  · rename_i hw
    have hw : c.linkUp = false := by simpa using hw
    exact ⟨s.parts, fun _ _ => s.rx trivial hw, ⟨s.peers.tags, s.peers.subs, s.peers.drivers⟩,
      fun _ _ => s.alone trivial hw, s.owners, s.left⟩

/-! ### Block states -/

theorem held_reset (b : Fin 48) : Link.reset.held b = 1 := by
  simp only [Link.held, Link.reset, Receiver.blocks, finBlocks, List.count_nil]
  rw [List.count_eq_one_of_mem (List.nodup_finRange 48) (List.mem_finRange b)]
  simp [descBlocks]

theorem Peers.empty (hp : ∀ p : Fin 8, c.link.peer[p] = none) (hs : ∀ k : Fin 4, c.link.sub[k] = none) : Peers c where
  tags := fun p x hx => by rw [hp] at hx; simp at hx
  subs := fun k x hx => by rw [hs] at hx; simp at hx
  drivers := by
    rw [Link.driverCount_eq, Finset.sum_congr rfl (fun p _ => by rw [hp p])]
    simp [driverOne]

/-- The link back at its reset values. -/
theorem Whole.linkReset (w : Prop) (l : Link) (hl : l.free = Link.reset.free ∧ l.receiver = Link.reset.receiver
    ∧ l.finishing = Link.reset.finishing
    ∧ l.desc = Link.reset.desc ∧ l.peer = Link.reset.peer ∧ l.sub = Link.reset.sub) (ho : ∀ (m : Fin 4) (p : Fin 8),
        c.motor.ch[m].owner ≠ .link p)
    (hs : Left c) : Whole w [] { c with link := l } := by
  obtain ⟨h1, h2, h3, h4, h5, h6⟩ := hl
  refine ⟨fun b => ?_, fun _ _ => ⟨h2, h3⟩, Peers.empty (fun p => ?_) (fun k => ?_), fun _ _ p => ?_,
      fun m p h => absurd h (ho m p), hs⟩
  · show l.held b + 0 = 1
    rw [← held_reset b]
    unfold Link.held
    rw [h1, h2, h3, h4, Nat.add_zero]
  · show l.peer[p] = none; rw [h5]; simp [Link.reset]
  · show l.sub[k] = none; rw [h6]; simp [Link.reset]
  · show l.peer[p] = none; rw [h5]; simp [Link.reset]

theorem Whole.noOwner (s : Whole v x c) (h : ∀ p : Fin 8, c.link.peer[p] = none) (m : Fin 4) (p : Fin 8) :
    c.motor.ch[m].owner ≠ .link p := by
  intro hq
  obtain ⟨-, z, hz, -⟩ := s.owners m p hq
  rw [h] at hz; simp at hz

theorem get_set (p : PerUnit BlockState) (u w : BlockUnit) (b : BlockState) :
    (p.set u b).get w = if u = w then b else p.get w := by
  cases u <;> cases w <;> simp [PerUnit.get, PerUnit.set]

theorem setBlock_block (u w : BlockUnit) (b : BlockState) (c : Chip) :
    (setBlock u b c).control.block.get w = if u = w then b else c.control.block.get w := by
  simp [setBlock, get_set]
theorem setBlock_keeps (u : BlockUnit) (b : BlockState) (c : Chip) : (setBlock u b c).link = c.link ∧
    (setBlock u b c).pins = c.pins ∧ (setBlock u b c).motor = c.motor
    ∧ (setBlock u b c).control.outstanding = c.control.outstanding := by
  simp [setBlock]

/-- A block state changes; the link's own may leave or reach ON, which the down clauses then do not survive. -/
theorem Whole.block (s : Whole v x c) (u : BlockUnit) (b : BlockState) (hm : u = .motor → b ≠ .on → ∀ (m : Fin 4)
    (p : Fin 8), c.motor.ch[m].owner ≠ .link p)
    (hl : u = .link → (w → v) → (b == .on) = c.on .link ∨ ¬ w) 
    (ho : ∀ r ∈ c.control.outstanding, r.unit? ≠ some u ∨ b = .resetting) (hwv : w → v) : Whole w x
        (setBlock u b c) := by
  obtain ⟨e1, e2, e3, e4⟩ := setBlock_keeps u b c
  have hup : w → (setBlock u b c).linkUp = c.linkUp := by
    intro hw
    unfold linkUp on
    rw [e2, setBlock_block]
    split
    · rename_i h
      rcases hl h hwv with h | h
      · rw [h]; rfl
      · exact absurd hw h
    · rfl
  refine ⟨fun b => by rw [e1]; exact s.parts b, fun hw hu => ?_, ⟨by rw [e1]; exact s.peers.tags,
      by rw [e1]; exact s.peers.subs, by rw [e1]; exact s.peers.drivers⟩,
    fun hw hu => ?_, fun m p hq => ?_, fun r hr t ht => ?_⟩
  · rw [e1]; exact s.rx (hwv hw) (by rw [← hup hw]; exact hu)
  · rw [e1]; exact s.alone (hwv hw) (by rw [← hup hw]; exact hu)
  · rw [e3] at hq
    obtain ⟨h1, h2⟩ := s.owners m p hq
    refine ⟨?_, by rw [e1]; exact h2⟩
    unfold on
    rw [setBlock_block]
    split
    · rename_i h
      by_cases hb : b = .on
      · subst hb; rfl
      · exact absurd hq (hm h hb m p)
    · exact h1
  · rw [setBlock_block]
    rw [e4] at hr
    split
    · rename_i h
      subst h
      rcases ho r hr with h | h
      · exact absurd ht h
      · exact h
    · exact s.left r hr t ht

end Sys2Proof.Machine.Chip

namespace Sys2Proof.Machine.Chip
variable {c d e : Chip} {x y : List (Fin 48)} {v : Prop}

theorem Whole.turnOn (s : Whole True [] c) (u : BlockUnit) (hn : c.control.block.get u ≠ .on)
    (ho : ∀ r ∈ c.control.outstanding, r.unit? ≠ some u) : Whole True [] (turnOn u c) := by
  have plain : u ≠ .link → Whole True [] (setBlock u .on c) := fun hu =>
    s.block u .on (fun _ h => absurd rfl h) (fun h => absurd h hu) (fun r hr => .inl (ho r hr)) (fun _ => trivial)
  have calm : u ≠ .link → Calm (setBlock u .on c) ((setBlock u .on c).startUnit u) → Whole True []
      ((setBlock u .on c).startUnit u).handChange :=
    fun hu h => (plain hu).calm (handChange_calm h)
  unfold Chip.turnOn
  cases u
  case motor => exact calm (by simp) (motorTurnOn_calm (Calm.refl _))
  case sense => exact calm (by simp) (senseTurnOn_calm (Calm.refl _))
  case input => exact (calm (by simp) (inputTurnOn_calm (Calm.refl _))).calm (judgeAllLevels_calm (Calm.refl _))
  case reflex => exact calm (by simp) (reflexTurnOn_calm (Calm.refl _))
  case sound => exact calm (by simp) (soundTurnOn_calm (Calm.refl _))
  case link =>
    have hdown : c.linkUp = false := by
      unfold linkUp on
      rw [Bool.and_eq_false_iff]
      left
      simpa using hn
    have hno := s.noOwner (s.alone trivial hdown)
    have s1 := s.block (w := False) .link .on (fun h => by simp at h) (fun _ _ => .inr id) (fun r hr => .inl
        (ho r hr)) (fun h => h.elim)
    refine Whole.calm ?_ (handChange_calm (Calm.refl _))
    unfold startUnit linkTurnOn
    dsimp only
    refine Whole.calm ?_ (forEach_calm _ _ (Calm.refl _) (fun k _ e he => publish_calm _ he))
    refine Whole.calm ?_ (publishIf_calm _ _ (Calm.refl _))
    exact Whole.linkReset True _ ⟨rfl, rfl, rfl, rfl, rfl, rfl⟩
        (fun m p => by rw [(setBlock_keeps .link .on c).2.2.1]; exact hno m p) s1.left

theorem motorLeaveOn_reset (c : Chip) : (motorLeaveOn c).motor = Motor.reset := rfl
theorem reset_owner (m : Fin 4) (p : Fin 8) : Motor.reset.ch[m].owner ≠ .link p := by
  simp [Motor.reset, Channel.reset]

/-- The link unit has left ON. -/
theorem linkLeaveOn_spec (s : Whole False [] c) :
    Whole True [] (linkLeaveOn c) ∧ (linkLeaveOn c).control.block = c.control.block := by
  have hc : Calm c (if c.pins.linkReady then c.linkStateDown else c) := by
    split
    · exact linkStateDown_calm (Calm.refl _)
    · exact Calm.refl _
  obtain ⟨s1, h1, h2⟩ := linkLost_spec (s.calm hc) .off
  rw [hc.block] at h2
  unfold linkLeaveOn
  dsimp only
  revert s1 h1 h2
  generalize linkLost .off _ = e
  exact fun s1 h1 h2 => ⟨Whole.linkReset True _ ⟨rfl, rfl, rfl, rfl, rfl, rfl⟩ (s1.noOwner h1) s1.left, h2⟩

/-- A unit has stopped. -/
theorem Whole.stopped (s : Whole True [] c) (u : BlockUnit) :
    Whole True [] ((setBlock u .resetting c).stopUnit u) ∧
    ((setBlock u .resetting c).stopUnit u).control.block.get u = .resetting := by
  have hb : (setBlock u .resetting c).control.block.get u = .resetting := by rw [setBlock_block, if_pos rfl]
  have calm : u ≠ .link → u ≠ .motor → Calm (setBlock u .resetting c) ((setBlock u .resetting c).stopUnit u) →
      Whole True [] ((setBlock u .resetting c).stopUnit u) ∧
      ((setBlock u .resetting c).stopUnit u).control.block.get u = .resetting :=
    fun h1 h2 h => ⟨(s.block u .resetting (fun h => absurd h h2) (fun h => absurd h h1) (fun _ _ => .inr rfl)
      (fun _ => trivial)).calm h, by rw [h.block]; exact hb⟩
  cases u
  case motor =>
    obtain ⟨k1, k2, k3, k4⟩ := setBlock_keeps .motor .resetting c
    have hc := motorLeaveOn_calm (Calm.refl (setBlock .motor .resetting c))
    have s0 : Whole True [] { c with motor := Motor.reset } :=
      ⟨s.parts, s.rx, ⟨s.peers.tags, s.peers.subs, s.peers.drivers⟩, s.alone, fun m p h => absurd h (reset_owner m p),
          s.left⟩
    have s1 := s0.block (w := True) .motor .resetting (fun _ _ m p => reset_owner m p) (fun h => by simp at h)
        (fun _ _ => .inr rfl)
      (fun _ => trivial)
    obtain ⟨j1, j2, j3, j4⟩ := setBlock_keeps .motor .resetting { c with motor := Motor.reset }
    have hblock : (setBlock .motor .resetting { c with motor := Motor.reset }).control.block
        = (setBlock .motor .resetting c).control.block := by simp [setBlock]
    refine ⟨s1.calm (d := (setBlock .motor .resetting c).motorLeaveOn) ⟨?_, ?_, ?_, ?_, fun m p h => ?_⟩,
        by rw [show Chip.stopUnit .motor _ = motorLeaveOn _ from rfl, hc.block]; exact hb⟩
    · rw [j1]; have := hc.like; rw [k1] at this; exact this
    · rw [j2]; have := hc.ready; rw [k2] at this; exact this
    · rw [hblock]; exact hc.block
    · rw [j4]; have := hc.left; rw [k4] at this; exact this
    · rw [motorLeaveOn_reset] at h; exact absurd h (reset_owner m p)
  case sense => exact calm (by simp) (by simp) (calm_sense _ (Calm.refl _))
  case input => exact calm (by simp) (by simp) (calm_input _ (Calm.refl _))
  case reflex => exact calm (by simp) (by simp) (calm_reflex _ (Calm.refl _))
  case sound => exact calm (by simp) (by simp) (soundLeaveOn_calm (Calm.refl _))
  case link =>
    have s1 := s.block (w := False) .link .resetting (fun h => by simp at h) (fun _ _ => .inr id)
        (fun _ _ => .inr rfl) (fun h => h.elim)
    obtain ⟨s2, h2⟩ := linkLeaveOn_spec s1
    exact ⟨s2, (congrArg (fun b => PerUnit.get b .link) h2).trans hb⟩

theorem Whole.enterResetting (s : Whole True [] c) (u : BlockUnit) : Whole True [] (enterResetting u c) := by
  obtain ⟨s1, h1⟩ := s.stopped u
  unfold Chip.enterResetting
  dsimp only
  have hc : Calm ((setBlock u .resetting c).stopUnit u) (forEach (RecId.ofUnit u) joinReset
      (forEach (RecId.processorOf u) (fun r => setShadow r r.defaultBytes)
          ((setBlock u .resetting c).stopUnit u).handChange)) :=
    forEach_calm _ _ (forEach_calm _ _ (handChange_calm (Calm.refl _)) (fun r _ e he => setShadow_calm _ _ he))
      (fun r _ e he => markStale_calm _ (publish_calm _ he))
  have s2 := s1.calm hc
  rw [← hc.block] at h1
  revert s2 h1
  generalize forEach (RecId.ofUnit u) joinReset _ = e
  intro h1 s2
  refine ⟨s2.parts, s2.rx, ⟨s2.peers.tags, s2.peers.subs, s2.peers.drivers⟩, s2.alone, s2.owners, fun r hr t ht => ?_⟩
  rcases List.mem_append.mp hr with hr | hr
  · exact s2.left r hr t ht
  · have : r.unit? = some u := by
      have := (List.mem_filter.mp hr).2
      simpa using this
    rw [this] at ht
    simp only [Option.some.injEq] at ht
    subst ht
    exact h1

theorem Whole.applyEnable (s : Whole True [] c) (u : BlockUnit) (b : Bool) : Whole True [] (applyEnable u b c) := by
  have s1 : ∀ x, Whole True [] { c with control := { c.control with enable := x } } :=
    fun x => s.calm (calm_control _ rfl rfl (Calm.refl c))
  unfold Chip.applyEnable
  dsimp only
  cases h : c.control.block.get u <;> cases b <;> dsimp only
  case off.true =>
    refine (s1 _).turnOn u (by rw [h]; simp) (fun r hr ht => ?_)
    have := (s1 c.control.enable).left r hr u ht
    rw [h] at this; simp at this
  case on.false => exact (s1 _).enterResetting u
  all_goals exact s1 _

theorem Whole.recordReported (s : Whole True [] c) (r : RecId) : Whole True [] (recordReported r c) := by
  unfold Chip.recordReported
  split
  · rename_i hr
    have s1 : Whole True [] { c with
        control := { c.control with outstanding := c.control.outstanding.filter (fun q => q != r) } } :=
      ⟨s.parts, s.rx, ⟨s.peers.tags, s.peers.subs, s.peers.drivers⟩, s.alone, s.owners,
        fun q hq t ht => s.left q (List.mem_filter.mp hq).1 t ht⟩
    dsimp only
    split
    · rename_i u hu
      have hb := s.left r hr u hu
      split
      · exact s1
      · rename_i hany
        have ho : ∀ q ∈ c.control.outstanding.filter (fun q => q != r), q.unit? ≠ some u := by
          intro q hq hqu
          exact hany (List.any_eq_true.mpr ⟨q, hq, by simp [hqu]⟩)
        split
        · exact s1.turnOn u (by show c.control.block.get u ≠ _; rw [hb]; simp) ho
        · refine s1.block u .off (fun h _ m p hq => ?_) (fun h _ => .inl ?_) (fun q hq => .inl (ho q hq))
              (fun _ => trivial)
          · subst h
            have := (s.owners m p hq).1
            unfold on at this
            rw [hb] at this; simp at this
          · subst h
            show _ = (c.control.block.get .link == .on)
            rw [hb]; rfl
    · exact s1
  · exact s

theorem Whole.applyEnables (s : Whole True [] c) (b : PerUnit Bool) : Whole True [] (applyEnables b c) :=
  forEach_inv (fun e => Whole True [] e) c s (fun u _ _ he => he.applyEnable u _)
theorem Whole.serviceReset (s : Whole True [] c) : Whole True [] (serviceReset c) := by
  unfold Chip.serviceReset
  refine Whole.calm ?_ (clearCauses_calm (flushRing_calm (Calm.refl _)))
  refine forEach_inv (fun e => Whole True [] e) c s (fun u _ e he => ?_)
  split
  · exact he.enterResetting u
  · exact he
theorem Whole.controlLatch (s : Whole True [] c) (r : ControlRec) (n : Nat) : Whole True [] (controlLatch r n c) := by
  unfold Chip.controlLatch
  split
  · refine Whole.calm ?_ (reportLatch_calm _ _ (Calm.refl _))
    have s1 : Whole True []
        (((c.applyEnables r.unitEnables).setCauseEnables r.causeEnables).setQuietPeriod r.quiet.toNat) :=
      (s.applyEnables _).calm (setQuietPeriod_calm _ (setCauseEnables_calm _ (Calm.refl _)))
    unfold controlCommand
    split
    · exact s1.serviceReset
    · exact s1.calm (flushRing_calm (Calm.refl _))
    · exact s1
  · exact s.calm (reportLatch_calm _ _ (Calm.refl c))

/-! ### Rows and the ports -/

theorem Whole.latchRow (s : Whole v x c) (r : RecId) (bs : List Byte) (f : Chip → Chip)
    (hf : ∀ e, Whole v x e → Whole v x (f e)) : Whole v x (latchRow r bs f c) := by
  unfold Chip.latchRow
  split
  · exact s
  · refine Whole.calm ?_ (touch_calm (Calm.refl _))
    exact hf _ (s.calm (answer_calm _ _ (storeRecord_calm _ _ (Calm.refl c))))
theorem Whole.takeLatch (s : Whole True [] c) (r : RecId) : Whole True [] (takeLatch r c) := by
  unfold Chip.takeLatch
  dsimp only
  split
  · exact s.controlLatch _ _
  · exact s.calm (motorLatch_calm _ _ _ (Calm.refl c))
  · exact s.calm (channelLatch_calm _ _ (Calm.refl c))
  · exact s.calm (scanLatch_calm _ _ (Calm.refl c))
  · exact s.calm (inputLatch_calm _ _ (Calm.refl c))
  · exact s.calm (reflexLatch_calm _ _ (Calm.refl c))
  · exact s.calm (soundLatch_calm _ _ (Calm.refl c))
  · exact s.linkLatch _
  · exact s.releaseLatch _
  · exact s.calm (outLatch_calm _ _ _ (Calm.refl c))
  all_goals exact s
theorem Whole.writeDone (s : Whole True [] c) : Whole True [] (writeDone c) := by
  unfold Chip.writeDone
  split
  · split
    · refine Whole.calm ?_ (touch_calm (Calm.refl _))
      refine forEach_inv (fun e => Whole True [] e) _ ?_ (fun r _ _ he => he.takeLatch r)
      exact s.calm (answer_calm _ _ (storeWords_calm _ _ (freePort_calm (Calm.refl c))))
    · exact s
  · exact s
theorem Whole.publicationDone (s : Whole True [] c) : Whole True [] (publicationDone c) := by
  unfold Chip.publicationDone
  split
  · rename_i r data stale _
    have h1 : Calm c (if r = .attention then (c.freePort.writeMem r.addr data).attentionPublished data
        else c.freePort.writeMem r.addr data) := by
      split
      · exact calm_attention _ (writeMem_calm _ _ (freePort_calm (Calm.refl c)))
      · exact writeMem_calm _ _ (freePort_calm (Calm.refl c))
    dsimp only
    split
    · exact s.calm h1
    · exact (s.calm (ownerReport_calm r h1)).recordReported r
  · exact s

theorem whole_poweredOn (p : Pins) (m : Mem) : Whole True [] (Chip.poweredOn p m) := by
  refine ⟨fun b => ?_, fun _ _ => ⟨rfl, rfl⟩, Peers.empty (fun q => ?_) (fun k => ?_), fun _ _ q => ?_,
    fun k q h => absurd h (reset_owner k q), fun r hr => ?_⟩
  · rw [show (Chip.poweredOn p m).link = Link.reset from rfl, held_reset]; rfl
  · simp [Chip.poweredOn, Link.reset]
  · simp [Chip.poweredOn, Link.reset]
  · simp [Chip.poweredOn, Link.reset]
  · simp [Chip.poweredOn, Control.reset] at hr

end Sys2Proof.Machine.Chip

namespace Sys2Proof.Machine
namespace Chip
variable {c d : Chip}
theorem Whole.controlPart (s : Whole True [] c) (f : Chip → Chip) (hf : Whole True [] c → Whole True [] (f c)) :
    Whole True [] (controlPart f c) := by
  unfold Chip.controlPart; split
  · exact s
  · exact hf s
theorem Whole.enablesPart (s : Whole True [] c) (b : PerUnit Bool) : Whole True [] (enablesPart b c) :=
  s.controlPart _ (fun s => (s.calm (storeControl_calm _ _ (Calm.refl c))).applyEnables b)
theorem Whole.causesPart (s : Whole True [] c) (b : Vector Bool 10) : Whole True [] (causesPart b c) :=
  s.controlPart _ (fun s => s.calm (setCauseEnables_calm _ (storeControl_calm _ _ (Calm.refl c))))
theorem Whole.quietPart (s : Whole True [] c) (w : Word) : Whole True [] (quietPart w c) := by
  refine s.controlPart _ (fun s => ?_)
  dsimp only
  split
  · exact s.calm (setQuietPeriod_calm _ (storeControl_calm _ _ (Calm.refl c)))
  · exact s.calm (reportLatch_calm _ _ (storeControl_calm _ _ (Calm.refl c)))

theorem act_whole {f : Chip → Chip} {s t : State} (s1 : Whole True [] s.hw)
    (hf : ∀ c, Whole True [] c → Whole True [] (f c)) (h : act f s = .next t) : Whole True [] t.hw := by
  simp only [act, Host.Outcome.next.injEq] at h
  subst h
  exact hf _ s1
theorem act_calm {f : Chip → Chip} {s t : State} (s1 : Whole True [] s.hw)
    (hf : ∀ c, Calm c (f c)) (h : act f s = .next t) : Whole True [] t.hw :=
  act_whole s1 (fun _ h => h.calm (hf _)) h
theorem row_calm {r : RecId} {bs : List Byte} {f : Chip → Chip} {s t : State} (s1 : Whole True [] s.hw)
    (hf : ∀ c, Calm c (f c)) (h : act (latchRow r bs f) s = .next t) : Whole True [] t.hw :=
  act_whole s1 (fun _ h => h.latchRow _ _ _ (fun e he => he.calm (hf e))) h
theorem row_whole {r : RecId} {bs : List Byte} {f : Chip → Chip} {s t : State} (s1 : Whole True [] s.hw)
    (hf : ∀ c, Whole True [] c → Whole True [] (f c)) (h : act (latchRow r bs f) s = .next t) : Whole True [] t.hw :=
  act_whole s1 (fun _ h => h.latchRow _ _ _ hf) h

theorem exec_whole (i : Instr) (s t : State) (s1 : Whole True [] s.hw)
    (h : exec i s = .next t) : Whole True [] t.hw := by
  cases i <;> simp only [exec] at h
  case powerOn => exact act_whole s1 (fun _ _ => whole_poweredOn _ _) h
  case processorTransaction x =>
    unfold execProcessorTransaction at h
    split at h
    · exact act_calm s1 (fun c => arrive_calm x (Calm.refl c)) h
    · simp at h
  case processorWrite => exact act_whole s1 (fun _ h => h.writeDone) h
  case publicationDone => exact act_whole s1 (fun _ h => h.publicationDone) h
  case blockEnables x => exact act_whole s1 (fun _ h => h.enablesPart x) h
  case attentionEnables x => exact act_whole s1 (fun _ h => h.causesPart x) h
  case quietPeriod x => exact act_whole s1 (fun _ h => h.quietPart x) h
  case controlNone x => exact row_whole s1 (fun _ h => h.controlLatch x 0) h
  case serviceReset x => exact row_whole s1 (fun _ h => h.controlLatch x 1) h
  case flushEvents x => exact row_whole s1 (fun _ h => h.controlLatch x 2) h
  case linkReadyRise => exact act_whole s1 (fun _ h => h.linkRise) h
  case linkReadyFall => exact act_whole s1 (fun _ h => h.linkFall) h
  case rxByte b => exact act_whole s1 (fun _ h => h.rxByte b) h
  case lineGap => exact act_whole s1 (fun _ h => h.lineGap) h
  case frameJudge => exact act_whole s1 (fun _ h => h.frameJudge) h
  case peerAged p => exact act_whole s1 (fun _ h => h.ageOut p) h
  case linkSettingsLatch r => exact row_whole s1 (fun _ h => h.linkLatch r) h
  case releaseWord w => exact row_whole s1 (fun _ h => h.releaseLatch w) h
  case attentionTake =>
    exact act_calm s1 (fun c => readRow_calm _ _ (fun _ _ he => takeCause_calm _ he) (Calm.refl c)) h
  case eventPop i =>
    exact act_calm s1 (fun c => readRow_calm _ _ (fun _ _ he => popEvent_calm i he) (Calm.refl c)) h
  case sampleConsume k =>
    exact act_calm s1 (fun c => readRow_calm _ _ (fun bs _ he => consumeSample_calm k bs he) (Calm.refl c)) h
  case resetRelease => exact act_calm s1 (fun c => resetRelease_calm (Calm.refl c)) h
  case initWriteDone => exact act_calm s1 (fun c => initWriteDone_calm (Calm.refl c)) h
  case arbiterGrant => exact act_calm s1 (fun c => arbitrate_calm (Calm.refl c)) h
  case processorRead => exact act_calm s1 (fun c => readDone_calm (Calm.refl c)) h
  case attnGapExpiry => exact act_calm s1 (fun c => attnGap_calm (Calm.refl c)) h
  case procQuietExpiry => exact act_calm s1 (fun c => quietExpiry_calm (Calm.refl c)) h
  case pulseTimerExpiry => exact act_calm s1 (fun c => pulseTimer_calm (Calm.refl c)) h
  case motorNone m r => exact row_calm s1 (fun c => motorLatch_calm m r _ (Calm.refl c)) h
  case coast m r => exact row_calm s1 (fun c => motorLatch_calm m r _ (Calm.refl c)) h
  case brake m r => exact row_calm s1 (fun c => motorLatch_calm m r _ (Calm.refl c)) h
  case drive m r => exact row_calm s1 (fun c => motorLatch_calm m r _ (Calm.refl c)) h
  case pulse m r => exact row_calm s1 (fun c => motorLatch_calm m r _ (Calm.refl c)) h
  case runTo m r => exact row_calm s1 (fun c => motorLatch_calm m r _ (Calm.refl c)) h
  case keep m r => exact row_calm s1 (fun c => motorLatch_calm m r _ (Calm.refl c)) h
  case resetCount m r => exact row_calm s1 (fun c => motorLatch_calm m r _ (Calm.refl c)) h
  case release m r => exact row_calm s1 (fun c => motorLatch_calm m r _ (Calm.refl c)) h
  case claimExpiry m => exact act_calm s1 (fun c => claimExpiry_calm m (Calm.refl c)) h
  case pwmPeriodBoundary m => exact act_calm s1 (fun c => pwmBoundary_calm m (Calm.refl c)) h
  case reversalPassageEnd m => exact act_calm s1 (fun c => passageEnd_calm m (Calm.refl c)) h
  case encoderStep m a b => exact act_calm s1 (fun c => encoderLines_calm m a b (Calm.refl c)) h
  case pulseExpiry m => exact act_calm s1 (fun c => pulseExpiry_calm m (Calm.refl c)) h
  case speedWindowEnd => exact act_calm s1 (fun c => speedWindow_calm (Calm.refl c)) h
  case stall m => exact act_calm s1 (fun c => stallExpiry_calm m (Calm.refl c)) h
  case coolingEnd m => exact act_calm s1 (fun c => coolingEnd_calm m (Calm.refl c)) h
  case scanNone r => exact row_calm s1 (fun c => scanLatch_calm r _ (Calm.refl c)) h
  case start r => exact row_calm s1 (fun c => scanLatch_calm r _ (Calm.refl c)) h
  case scanStop r => exact row_calm s1 (fun c => scanLatch_calm r _ (Calm.refl c)) h
  case step r => exact row_calm s1 (fun c => scanLatch_calm r _ (Calm.refl c)) h
  case conversionComplete v => exact act_calm s1 (fun c => conversion_calm v (Calm.refl c)) h
  case intervalExpiry => exact act_calm s1 (fun c => intervalExpiry_calm (Calm.refl c)) h
  case channelSettingsLatch k r => exact row_calm s1 (fun c => channelLatch_calm k r (Calm.refl c)) h
  case inputEdge n b => exact act_calm s1 (fun c => inputLine_calm n b (Calm.refl c)) h
  case debounceExpiry n => exact act_calm s1 (fun c => debounceExpiry_calm n (Calm.refl c)) h
  case inputSettingsLatch n r => exact row_calm s1 (fun c => inputLatch_calm n r (Calm.refl c)) h
  case reflexEntryLatch i r => exact row_calm s1 (fun c => reflexLatch_calm i r (Calm.refl c)) h
  case holdTimerExpiry i => exact act_calm s1 (fun c => holdExpiryOf_calm i (Calm.refl c)) h
  case soundNone r => exact row_calm s1 (fun c => soundLatch_calm r _ (Calm.refl c)) h
  case tone r => exact row_calm s1 (fun c => soundLatch_calm r _ (Calm.refl c)) h
  case stream r => exact row_calm s1 (fun c => soundLatch_calm r _ (Calm.refl c)) h
  case soundStop r => exact row_calm s1 (fun c => soundLatch_calm r _ (Calm.refl c)) h
  case toneExpiry => exact act_calm s1 (fun c => toneEnd_calm (Calm.refl c)) h
  case descriptorReadDone => exact act_calm s1 (fun c => descReadDone_calm (Calm.refl c)) h
  case sampleFetchDone => exact act_calm s1 (fun c => fetchDone_calm (Calm.refl c)) h
  case doneWriteDone => exact act_calm s1 (fun c => doneWriteDone_calm (Calm.refl c)) h
  case samplePeriod => exact act_calm s1 (fun c => period_calm (Calm.refl c)) h
  case rereadTime => exact act_calm s1 (fun c => rereadDue_calm (Calm.refl c)) h
  case starvedOut => exact act_calm s1 (fun c => starvedLimit_calm (Calm.refl c)) h
  case chunkStoreDone => exact act_calm s1 (fun c => chunkStoreDone_calm (Calm.refl c)) h
  case stormWindowEnd => exact act_calm s1 (fun c => stormWindow_calm (Calm.refl c)) h
  case holdExpiry p => exact act_calm s1 (fun c => holdOver_calm p (Calm.refl c)) h
  case subscriptionDue k => exact act_calm s1 (fun c => subDue_calm k (Calm.refl c)) h
  case outboundNone k r => exact row_calm s1 (fun c => outLatch_calm k r _ (Calm.refl c)) h
  case send k r => exact row_calm s1 (fun c => outLatch_calm k r _ (Calm.refl c)) h
  case transmitBegin => exact act_calm s1 (fun c => transmitBegin_calm (Calm.refl c)) h
  case bodyFetchDone => exact act_calm s1 (fun c => bodyFetchDone_calm (Calm.refl c)) h
  case transmitEnd => exact act_calm s1 (fun c => transmitEnd_calm (Calm.refl c)) h
  case bodyBufferSent => exact act_calm s1 (fun c => bodyBufferSent_calm (Calm.refl c)) h

/-- The structure is `Whole` with nothing suspended and no block outside the link. -/
theorem structured_iff (c : Chip) : c.Structured ↔ Whole True [] c := by
  have hp : ∀ b : Fin 48, c.link.held b + ([] : List (Fin 48)).count b = c.link.blocks.count b := fun b => by
    rw [Link.count_blocks, List.count_nil, Nat.add_zero]
  constructor
  · intro s
    exact ⟨fun b => (hp b).trans (s.pool b), fun _ hu => ⟨(s.down hu).1, (s.down hu).2.1⟩,
      ⟨s.tags, s.subs, s.drivers⟩, fun _ hu => (s.down hu).2.2, s.owners, s.resets⟩
  · intro s
    exact ⟨fun b => (hp b).symm.trans (s.parts b),
      fun hu => ⟨(s.rx trivial hu).1, (s.rx trivial hu).2, s.alone trivial hu⟩, s.peers.tags, s.peers.subs,
      s.peers.drivers, s.owners, s.left⟩

end Chip
end Sys2Proof.Machine
end

