-- ==== Sys2Proof/Tests/Slice0.lean ====
section
/-! SUPPORT. Tests: the well-formedness check refuses what is no transaction; the CRC's published check value; small single
steps. And for every statement with hypotheses a theorem `witness_<statement>`: concrete states and operands that meet
them, clause by clause, at the ends of the ranges. -/

namespace Sys2Proof.Tests
open Sys2Proof Sys2Proof.Machine

/-! ### States -/

/-- PRST released, every unit ON, the link UP, 5000 ms on the counter, nothing due. -/
def lab : Chip :=
  { Chip.poweredOn Pins.reset [] with
    pins := { Pins.reset with resetAsserted := false, linkReady := true }
    control := { Control.reset with gen := .idle, block := PerUnit.const .on, enable := PerUnit.const true, ms := 5000 }
    motor := { Motor.reset with windowEnd := 5100 }
    link := { Link.reset with stormEnd := 5050 }
    shadow := [] }

/-- The same with every unit in a block state. -/
def lab.blocks (b : BlockState) : Chip := { lab with control := { lab.control with block := PerUnit.const b } }

/-- The same with the restart generator in a state. -/
def lab.gen (g : RestartGen) : Chip := { lab with control := { lab.control with gen := g } }

/-- The same with an access in flight. -/
def lab.port (f : InFlight) : Chip := { lab with path := { lab.path with port := some f } }

/-- The same with a channel in motor port 0. -/
def lab.motor0 (x : Channel) : Chip := { lab with motor := { lab.motor with ch := lab.motor.ch.set 0 x } }

/-- The same with a scan unit. -/
def lab.scanning (x : Sense) : Chip := { lab with sense := x }

/-- The same with a voice. -/
def lab.voice (v : Voice) : Chip := { lab with sound := { lab.sound with voice := v } }

/-- The same with a link unit. -/
def lab.linked (l : Link) : Chip := { lab with link := l }

/-- The same with memory. -/
def lab.memory (m : Mem) : Chip := { lab with mem := m }

/-- A step of a command answers a next state with this property. -/
def runs (i : Instr) (c : Chip) (p : Chip → Bool) : Bool :=
  match step ⟨c, [i]⟩ with
  | .next t => t.pending == [] && p t.hw
  | _ => false

/-! ### Well-formedness (log 11) -/

def misaligned : Instr := .processorTransaction ⟨2, .read 1⟩
def emptyRead : Instr := .processorTransaction ⟨0, .read 0⟩
def emptyWrite : Instr := .processorTransaction ⟨0, .write []⟩
def tooLong : Instr := .processorTransaction ⟨0, .read 17⟩

theorem test_misaligned_refused : misaligned.wellFormed = false := by decide
theorem test_count_0_refused : emptyRead.wellFormed = false ∧ emptyWrite.wellFormed = false := by decide
theorem test_count_17_refused : tooLong.wellFormed = false := by decide
theorem test_count_1_and_16_accepted : (Instr.processorTransaction ⟨0xFFFFFC, .read 1⟩).wellFormed = true
    ∧ (Instr.processorTransaction ⟨0, .read 16⟩).wellFormed = true := by decide
theorem test_ill_formed_faults : step ⟨lab, [misaligned]⟩ = .fault .notATransaction
    ∧ step ⟨lab, [emptyRead]⟩ = .fault .notATransaction ∧ step ⟨lab, [emptyWrite]⟩ = .fault .notATransaction
    ∧ step ⟨lab, [tooLong]⟩ = .fault .notATransaction := ⟨rfl, rfl, rfl, rfl⟩

/-! ### Frames -/

/-- The CRC of "123456789" with polynomial 0x1021 and start 0xFFFF is 0x29B1 (R143). -/
theorem test_crc_check_value : crc16 [0x31, 0x32, 0x33, 0x34, 0x35, 0x36, 0x37, 0x38, 0x39] = 0x29B1 := by decide +kernel

/-! ### Single steps -/

theorem test_no_word_spells_a_command : decodeTableWord 32 0 = none ∧ decodeTableWord 0 0 = none := by decide
theorem test_reset_release_starts_initialisation :
    runs .resetRelease (Chip.poweredOn Pins.reset []) (fun d => d.path.port == some (.init 0)) = true := by decide +kernel
theorem test_init_write_goes_on :
    runs .initWriteDone (lab.port (.init 1)) (fun d => d.path.port == some (.init 2)) = true := by decide +kernel
theorem test_drive_waits_for_period :
    runs (.drive 1 { duty := 500 }) lab (fun d => d.motor.ch[1].mode == .drive 500 && d.motor.ch[1].stage == .coast
      && d.motor.ch[1].owner == .proc && d.path.response == some (.done [])) = true := by decide +kernel
theorem test_brake_acts_at_once :
    runs (.brake 3 {}) lab (fun d => d.motor.ch[3].stage == .brake) = true := by decide +kernel
theorem test_drive_out_of_range_is_bad_arg :
    runs (.drive 1 { duty := 1001 }) lab (fun d => d.motor.ch[1].latchResult == .badArg && d.motor.ch[1].owner == .none)
      = true := by decide +kernel
theorem test_pwm_boundary_drives :
    runs (.pwmPeriodBoundary 0) (lab.motor0 { Channel.reset with mode := .drive (-250) })
      (fun d => d.motor.ch[0].stage == .reverse 250) = true := by decide +kernel
theorem test_pwm_boundary_at_rest_takes_the_frequency :
    runs (.pwmPeriodBoundary 0) (lab.motor0 { Channel.reset with
        mode := .drive (-300), lastDir := some .forward, gap := true, reversing := true, settings := ⟨20, 300, 500⟩ })
      (fun d => d.motor.ch[0].periodPwm == 20 && d.motor.ch[0].stage == .coast && d.motor.ch[0].reversing) = true := by
  decide +kernel
theorem test_encoder_forward_step :
    runs (.encoderStep 0 true false) (lab.motor0 { Channel.reset with levels := some (false, false) })
      (fun d => d.motor.ch[0].count == 1 && d.motor.ch[0].tally == 1) = true := by decide +kernel
theorem test_start_converts_first_channel :
    runs (.start {}) lab (fun d => d.sense.scan == .converting && d.sense.conv == .running 0) = true := by decide +kernel
theorem test_sample_is_stored :
    runs (.conversionComplete 0xABC) (lab.scanning { Sense.reset with scan := .converting, conv := .running 0 })
      (fun d => d.sense.slots[0].value == 0xABC && d.sense.slots[0].state == .fresh && d.sense.position == 1)
      = true := by decide +kernel
theorem test_step_outside_step_wait_is_busy :
    runs (.step {}) lab (fun d => d.sense.latchResult == .busy && d.sense.scan == .stopped) = true := by decide +kernel
theorem test_tone_plays :
    runs (.tone { frequency := 440, volume := 100, duration := 60 }) lab
      (fun d => d.sound.voice == .tone .proc 440 100 5000 5060 && d.sound.output == 255) = true := by decide +kernel
/-- One millisecond is half of the period at 500 Hz. -/
theorem test_tone_wave_goes_low :
    (match step ⟨lab.voice (.tone .proc 500 100 5000 5060), []⟩ with
      | .next t => t.hw.control.ms == 5001 && t.hw.sound.output == 1
      | _ => false) = true := by decide +kernel
/-- A stage that stopped driving less than 50 us ago meets the opposite target, and drives at the end of the 50 us. -/
theorem test_opposite_target_waits_for_the_gap :
    let c := lab.motor0 { Channel.reset with owner := .proc, lastDir := some .forward, gap := true }
    runs (.drive 0 { duty := -300 }) c (fun d => d.motor.ch[0].reversing && d.motor.ch[0].stage == .coast
      && d.dueEvents == [.arbiterGrant, .reversalPassageEnd 0]
      && (d.passageEnd 0).motor.ch[0].stage == .reverse 300) = true := by decide +kernel
theorem test_turning_on_publishes_a_cleared_result :
    let c := lab.blocks .off
    let off : Chip := { c with sound := { c.sound with latchResult := .off } }
    runs (.blockEnables { PerUnit.const false with sound := true }) off
      (fun d => d.sound.latchResult == .ok && d.path.pubs.contains .soundStatus) = true
    ∧ runs (.blockEnables { PerUnit.const false with sound := true }) c
      (fun d => !d.path.pubs.contains .soundStatus) = true := by decide +kernel
theorem test_send_over_long_is_done_bad_arg :
    runs (.send 2 { length := 1001 }) lab (fun d => d.link.out[2].state == .done && d.link.out[2].doneResult == .badArg)
      = true := by decide +kernel
theorem test_sync_byte_begins_a_frame :
    runs (.rxByte 0x5A) lab (fun d => d.link.receiver == .header RxFrame.new) = true := by decide +kernel
theorem test_link_fall_clears_replies :
    runs .linkReadyFall (lab.linked { lab.link with replies := [⟨7, []⟩] })
      (fun d => d.link.replies == [] && !d.pins.linkReady) = true := by decide +kernel
theorem test_control_bad_arg :
    runs (.controlNone { quiet := 99 }) lab (fun d => d.control.latchCode == .badArg && d.control.latchOffset == 0
      && d.control.enable == PerUnit.const true) = true := by decide +kernel
theorem test_debounced_edge_starts_timer :
    runs (.inputEdge 10 false) lab (fun d => d.input.line[10].timer == some 5000 && !d.input.line[10].stable)
      = true := by decide +kernel

/-! ### Witnesses, chapters 1 and 2

Each conjunct group stands for one clause of the statement, in the statement's order. -/

theorem witness_IdleStep :
    -- a due event; nothing due while RESET is asserted; nothing due
    (lab.voice (.tone .proc 440 100 4900 5000)).dueEvents = [.toneExpiry]
    ∧ (State.reset.hw.dueEvents = [] ∧ State.reset.hw.pins.resetAsserted = true)
    ∧ (lab.dueEvents = [] ∧ lab.pins.resetAsserted = false)
    -- tones at the ends of the frequency range
    ∧ ((lab.voice (.tone .proc 50 100 4999 6000)).dueEvents = [] ∧ (lab.voice (.tone .proc 8000 0 5000 6000)).dueEvents = []
      ∧ (∀ m : Fin 4, lab.motor.ch[m].gap = false)) := by decide +kernel

/-- A driver with tag 7 JOINED in slot 7, subscribed, with the claim of motor 0 and a mail of one block. -/
def linkedDriver : Chip :=
  { lab with
    motor := { lab.motor with ch := lab.motor.ch.set 0 { lab.motor.ch[0] with owner := .link 7 } }
    link := { lab.link with
      peer := lab.link.peer.set 7 (some
        { tag := 7, driver := true, lastHeard := 0, silence := 0, window := 0, throttled := false, held := none,
          accepted := 1 })
      sub := lab.link.sub.set 0 (some
        { slot := 7, tag := 7, mask := 1, period := 20, due := false, dueTime := 6000, lateness := 0, begun := 0 })
      desc := lab.link.desc.set 0 (some
        { slot := 7, tag := 7, seq := 0, length := 1, time := 0, blocks := [47], shown := true })
      order := [0]
      free := (List.finRange 48).take 47 } }

theorem linkedDriver_peer (p : Fin 8) (x : Peer) (h : linkedDriver.link.peer[p] = some x) :
    p = 7 ∧ x.tag = 7 ∧ x.driver = true := by
  fin_cases p <;> simp [linkedDriver, lab, Link.reset] at h
  subst h
  exact ⟨rfl, rfl, rfl⟩

theorem linkedDriver_sub (k : Fin 4) (x : Subscription) (h : linkedDriver.link.sub[k] = some x) :
    k = 0 ∧ x.slot = 7 ∧ x.tag = 7 := by
  fin_cases k <;> simp [linkedDriver, lab, Link.reset] at h
  subst h
  exact ⟨rfl, rfl, rfl⟩

theorem linkedDriver_owner (m : Fin 4) (p : Fin 8) (h : linkedDriver.motor.ch[m].owner = .link p) : p = 7 := by
  fin_cases m <;> simp [linkedDriver, lab, Motor.reset, Channel.reset] at h
  exact h.symm

theorem linkedDriver_structured : linkedDriver.Structured where
  pool := by decide +kernel
  down := fun h => absurd h (by decide +kernel)
  tags := fun p x h => by
    obtain ⟨rfl, ht, -⟩ := linkedDriver_peer p x h
    exact ⟨by rw [ht]; decide, fun q y hy _ => (linkedDriver_peer q y hy).1⟩
  subs := fun k x h => by
    obtain ⟨rfl, hs, ht⟩ := linkedDriver_sub k x h
    refine ⟨?_, fun j y hy _ => (linkedDriver_sub j y hy).1⟩
    have joined : ∀ q : Fin 8, q = 7 → ∃ y : Peer, linkedDriver.link.peer[q] = some y ∧ y.tag = 7 := by
      rintro _ rfl
      exact ⟨_, rfl, rfl⟩
    rw [ht]
    exact joined _ hs
  drivers := by decide +kernel
  owners := fun m p h => by
    obtain rfl := linkedDriver_owner m p h
    exact ⟨by decide +kernel, _, rfl, rfl⟩
  resets := fun r h => by simp [linkedDriver, lab, Control.reset] at h

theorem witness_InvariantKeptByEveryStep :
    lab.inv = true ∧ (∃ t, step ⟨lab, []⟩ = .next t) ∧ linkedDriver.inv = true ∧ linkedDriver.Structured
    ∧ ∃ t, step ⟨linkedDriver, []⟩ = .next t :=
  ⟨by decide +kernel, ⟨_, rfl⟩, by decide +kernel, linkedDriver_structured, _, rfl⟩

/-- The first and the last initialisation write. -/
theorem witness_InitialisationRuns :
    State.reset.hw.pins.resetAsserted = true ∧ lab.pins.resetAsserted = false
    ∧ ((lab.port (.init 0)).mem.wf = true ∧ (lab.port (.init 0)).path.port = some (.init 0)
      ∧ Window.initWrites[0]? ≠ none ∧ 0 + 1 < Window.initWrites.length)
    ∧ ((lab.port (.init 40)).path.port = some (.init 40) ∧ Window.initWrites[40]? ≠ none
      ∧ ¬ 40 + 1 < Window.initWrites.length)
    ∧ 63 < RecId.control.size := by decide +kernel

theorem witness_InitialisationWritesEveryImage :
    let s : State := ⟨lab.port (.init 0), List.replicate 41 .initWriteDone⟩
    s.hw.mem.wf = true ∧ s.hw.path.port = some (.init 0) ∧ s.pending = List.replicate 41 .initWriteDone
    ∧ 63 < RecId.control.size ∧ (∀ r ∈ RecId.all, 0xFEFFFF < r.addr ∨ r.addr + r.size ≤ 0xFEFFFF) := by decide +kernel

theorem witness_TransactionArrives :
    let held : Chip := lab.port (.processor ⟨0, .read 1⟩ false)
    Transaction.wellFormed ⟨1, .read 1⟩ = false
    ∧ (Transaction.wellFormed ⟨0xFFFFC0, .read 16⟩ = true ∧ (lab.gen .holding).control.gen ≠ .idle
      ∧ held.heldTransaction = true)
    ∧ (lab.control.gen = .idle ∧ lab.heldTransaction = false ∧ lab.unwatched = true
      ∧ (0xFFFFC0 : Addr).toNat + 4 * Transaction.count ⟨0xFFFFC0, .read 16⟩ - 4 ≤ 0xFFFFFF
      ∧ Transaction.wellFormed ⟨0xFFFFC4, .read 16⟩ = true
      ∧ 0xFFFFFF < (0xFFFFC4 : Addr).toNat + 4 * Transaction.count ⟨0xFFFFC4, .read 16⟩ - 4)
    -- a discarded READ is in flight
    ∧ (lab.port (.processor ⟨0, .read 1⟩ true)).heldTransaction = false := by decide +kernel

/-- After the pulse a transaction waits while the discarded one is still in flight. -/
theorem test_transaction_after_the_pulse_waits :
    let c := lab.port (.processor ⟨0, .read 1⟩ true)
    runs (.processorTransaction ⟨4, .read 1⟩) c (fun d => d.path == { c.path with upstream := some ⟨4, .read 1⟩ }) = true := by
  decide +kernel

/-- The arbiter with a READ waiting or not, these part requests and publications, and this count. -/
def arbiter (x : Option Transaction) (parts : List PartReq) (pubs : List RecId) (count : Nat) : Chip :=
  { lab with path := { lab.path with upstream := x, parts := parts, pubs := pubs, count := count } }

theorem witness_ArbiterGrants :
    let x : Transaction := ⟨0, .read 1⟩
    (lab.port (.init 0)).path.port ≠ none
    ∧ ((arbiter x [] [] 0).path.port = none ∧ (arbiter x [] [] 0).refused x = false)
    ∧ ((arbiter x [.descRead 0] [] 3).refused x = false ∧ (arbiter x [.descRead 0] [] 3).path.count < 4)
    ∧ 4 ≤ (arbiter x [.descRead 0] [] 4).path.count ∧ (arbiter none [.descRead 0] [] 0).path.upstream = none
    -- a class 1 request behind one of class 2; one of class 2 alone; a publication alone; nothing
    ∧ ((arbiter none [.descRead 0, .chunkStore 0 0xFF4000 []] [] 0).path.parts
        = [.descRead 0] ++ PartReq.chunkStore 0 0xFF4000 [] :: []
      ∧ PartReq.chunkStore 0 0xFF4000 [] ∉ [PartReq.descRead 0] ∧ (PartReq.chunkStore 0 0xFF4000 []).cls = 1
      ∧ ∀ p ∈ [PartReq.descRead 0], p.cls ≠ 1)
    ∧ ((arbiter none [] [.status] 0).path.parts = [] ∧ (arbiter none [] [.status] 0).path.pubs = [.status])
    ∧ ((arbiter none [] [] 4).path.parts = [] ∧ (arbiter none [] [] 4).path.pubs = []) := by decide +kernel

theorem witness_GuardMapAndRefusal :
    let x : Transaction := ⟨0xFF0060, .write [(0, 15)]⟩
    63 < RecId.control.size ∧ 1023 < 1024 ∧ 127 < 128 ∧ 0xFEFFFF < 0xFF0000
    -- free window memory: the word behind the ring status record, and the last of the window
    ∧ (∀ a ∈ [0xFF0090, 0xFFFFFC], (∀ r ∈ RecId.all, a < r.addr ∨ r.addr + r.size ≤ a)
      ∧ (∀ k : Fin 4, a < outBodyAddr k ∨ outBodyAddr k + 1024 ≤ a)
      ∧ (∀ b : Fin 48, a < blockAddr b ∨ blockAddr b + 128 ≤ a))
    ∧ ((arbiter x [] [.status] 3).inv = true ∧ (arbiter x [] [.status] 3).unwatched = true
      ∧ (arbiter x [] [.status] 3).path.port = none ∧ (arbiter x [] [.status] 3).refused x = true
      ∧ (arbiter x [] [.status] 3).path.count < 4 ∧ (arbiter x [] [] 0).path.partWaiting = false) := by decide +kernel

/-- The last word of memory, and a word of the control record that is no latch word. -/
theorem witness_ProcessorWriteCompletes :
    let w : List (Word × BitVec 4) := [(0x11223344, 5)]
    (lab.port (.processor ⟨0xFFFFFC, .write w⟩ false)).inv = true
    ∧ (lab.port (.processor ⟨0xFFFFFC, .write w⟩ false)).unwatched = true
    ∧ (0xFFFFFC : Addr).toNat + 4 * w.length ≤ 0x1000000
    ∧ (Chip.windowWords ⟨0xFFFFFC, .write w⟩).filterMap Window.latchAt = []
    ∧ (Chip.windowWords ⟨0xFF0000, .write w⟩).filterMap Window.latchAt = []
    -- a burst over the latch words of two motor slots
    ∧ (let b : List (Word × BitVec 4) := List.replicate 16 (0, 15)
      let c := lab.port (.processor ⟨0xFF0200, .write b⟩ true)
      c.inv = true ∧ c.path.port = some (.processor ⟨0xFF0200, .write b⟩ true)
      ∧ (0xFF0200 : Addr).toNat + 4 * b.length ≤ 0x1000000 ∧ (0xFF0200 : Addr).toNat % 4 = 0
      ∧ (Chip.windowWords ⟨0xFF0200, .write b⟩).filterMap Window.latchAt = [.motorSlot 0, .motorSlot 1]) := by
  decide +kernel

theorem witness_LatchRowStores :
    rowRecord (.releaseWord 16) = some (.releaseWord, Bytes.ofWord 16) ∧ (lab.gen .holding).control.gen = .holding
    ∧ lab.control.gen ≠ .holding ∧ lab.inv = true := by decide +kernel

theorem witness_LatchRowIsItsWrite :
    let f : InFlight := .processor ⟨BitVec.ofNat 24 RecId.releaseWord.addr, .write (fullWords (Bytes.ofWord 16))⟩ false
    rowRecord (.releaseWord 16) = some (.releaseWord, Bytes.ofWord 16) ∧ (lab.port f).inv = true
    ∧ (lab.port f).control.gen ≠ .holding ∧ (lab.port f).path.port = some (.processor
        ⟨BitVec.ofNat 24 RecId.releaseWord.addr, .write (fullWords (Bytes.ofWord 16))⟩ (lab.port f).prst) := by
  decide +kernel

theorem witness_ProcessorReadAnswered :
    let plain : InFlight := .processor ⟨0xFEFFC0, .read 16⟩ false
    let whole : RecId → Nat → InFlight := fun r n => .processor ⟨BitVec.ofNat 24 r.addr, .read n⟩ false
    ((lab.port plain).unwatched = true
      ∧ (Chip.windowWords ⟨0xFEFFC0, .read 16⟩).filterMap Window.consumingAt = [])
    -- a READ of the last eight ring entries
    ∧ ((lab.port (.processor ⟨0xFF01C0, .read 16⟩ false)).path.port = some (.processor ⟨0xFF01C0, .read 16⟩ false)
      ∧ ((Chip.windowWords ⟨0xFF01C0, .read 16⟩).filterMap Window.consumingAt).length = 8)
    ∧ (lab.control.gen ≠ .holding ∧ lab.prst = false
      ∧ (lab.port (whole .attention 8)).path.port
        = some (.processor ⟨BitVec.ofNat 24 RecId.attention.addr, .read 8⟩ lab.prst)
      ∧ (lab.port (whole (.ringEntry 31) 2)).path.port
        = some (.processor ⟨BitVec.ofNat 24 (RecId.ringEntry 31).addr, .read 2⟩ lab.prst)
      ∧ (lab.port (whole (.sampleSlot 7) 4)).path.port
        = some (.processor ⟨BitVec.ofNat 24 (RecId.sampleSlot 7).addr, .read 4⟩ lab.prst)) := by decide +kernel

/-- A publication of zeros in flight. -/
def publishing (r : RecId) (stale : Bool) : Chip := lab.port (.publication r (Bytes.zeros r.size) stale)

theorem witness_PublicationCompletes :
    -- another unit is RESETTING meanwhile
    let resetting : Control := { lab.control with
      block := lab.control.block.set .sound .resetting, outstanding := [.soundRequest, .soundStatus] }
    let ring : Chip := { publishing (.ringEntry 0) false with ring := { Ring.reset with held := 1 }, control := resetting }
    let attention : Chip := { publishing .attention false with control := resetting }
    let mail : Chip := { publishing (.inboundDesc 15) false with
      control := resetting
      link := { lab.link with desc := lab.link.desc.set 15 (some ⟨0, 7, 1, 0, 0, [], false⟩), order := [15] } }
    ((publishing .status false).mem.wf = true ∧ (Bytes.zeros RecId.status.size).length = RecId.status.size
      ∧ RecId.status ≠ .attention ∧ (∀ i, RecId.status ≠ .ringEntry i) ∧ (∀ k, RecId.status ≠ .inboundDesc k)
      ∧ RecId.status ∉ lab.control.outstanding)
    ∧ (ring.inv = true ∧ .ringEntry 0 ∉ ring.control.outstanding ∧ ring.ring.holds 0 = true)
    ∧ (mail.inv = true ∧ .inboundDesc 15 ∉ mail.control.outstanding ∧ mail.link.desc[(15 : Fin 16)] ≠ none)
    ∧ (attention.inv = true ∧ .attention ∉ attention.control.outstanding) := by
  decide +kernel

theorem witness_ResettingEnds :
    let c : Chip := { publishing .soundStatus false with
      control := { (lab.blocks .resetting).control with outstanding := [.soundRequest, .soundStatus] } }
    let last : BlockUnit → RecId → Bool → Chip := fun u r on => { publishing r false with
      control := { (lab.blocks .resetting).control with outstanding := [r], enable := lab.control.enable.set u on } }
    c.mem.wf = true ∧ c.unwatched = true ∧ RecId.soundStatus.unit? = some .sound
    ∧ RecId.soundStatus ∈ c.control.outstanding ∧ c.control.block.get .sound = .resetting
    ∧ (∃ q ∈ c.control.outstanding, q ≠ .soundStatus ∧ q.unit? = some .sound)
    -- the last outstanding record is an inbound descriptor, with the enable 1 and 0
    ∧ (∀ on : Bool, (last .link (.inboundDesc 15) on).mem.wf = true ∧ (last .link (.inboundDesc 15) on).unwatched = true
      ∧ RecId.unit? (.inboundDesc 15) = some .link
      ∧ (∀ q ∈ (last .link (.inboundDesc 15) on).control.outstanding, q ≠ .inboundDesc 15 → q.unit? ≠ some .link)
      ∧ (last .link (.inboundDesc 15) on).control.enable.get .link = on)
    ∧ c.path.port = some (.publication .soundStatus (Bytes.zeros 32) false)
    ∧ (publishing .soundStatus true).path.port = some (.publication .soundStatus (Bytes.zeros 32) true) := by
  decide +kernel

/-- The elapsed time equal to the period and one less; the periods at the ends of the range and beyond. -/
theorem witness_QuietTimerJudged :
    let c : Nat → Chip := fun n => { lab with path := { lab.path with quietElapsed := n } }
    ((c 2000).unwatched = true ∧ (c 2000).control.gen ≠ .holding ∧ (c 2000).path.procQuiet = false
      ∧ (c 2000).control.quietPeriod ≤ (c 2000).path.quietElapsed
      ∧ ¬ (c 1999).control.quietPeriod ≤ (c 1999).path.quietElapsed)
    ∧ (lab.inv = true ∧ lab.unwatched = true ∧ 100 ≤ (100 : Word).toNat ∧ (10000 : Word).toNat ≤ 10000
      ∧ ¬ 100 ≤ (99 : Word).toNat ∧ ¬ (10001 : Word).toNat ≤ 10000) := by decide +kernel

/-- The chip whose reflex entry 7 is "PROC_QUIET", ARMED with a hold time of 1 ms. -/
def quietWatched : Chip :=
  let r : ReflexRec := { enable := 1, term1 := ⟨6, 0, 0⟩, hold := 1, attention := 1 }
  { lab with reflex := ⟨lab.reflex.entry.set 7 ⟨r, .armed, 0⟩⟩, path := { lab.path with quietElapsed := 2000 } }

theorem witness_QuietTimerJudged_watching :
    quietWatched.control.gen ≠ .holding ∧ quietWatched.path.procQuiet = false
    ∧ quietWatched.control.quietPeriod ≤ quietWatched.path.quietElapsed ∧ quietWatched.on .reflex = true
    ∧ Chip.noneFires { quietWatched with path := { quietWatched.path with procQuiet := true } } := by
  refine ⟨by decide, by decide, by decide, by decide, ?_⟩
  unfold Chip.noneFires
  decide +kernel

/-- The turn starts the hold of the entry. -/
theorem test_quiet_turn_starts_a_hold :
    runs .procQuietExpiry quietWatched (fun d => d.path.procQuiet && d.reflex.entry[7].state == .timing 5001) = true := by
  decide +kernel

theorem witness_RecordsRoundTrip : 2 ^ 32 - 1 < 2 ^ 32 := by decide

theorem witness_BlockEnablesAndResetting :
    let e : PerUnit Bool := { PerUnit.const true with link := false }
    lab.control.gen ≠ .holding ∧ lab.inv = true ∧ (∀ u ∈ BlockUnit.all, lab.settled (PerUnit.const true) u = true)
    ∧ (lab.unwatched = true ∧ lab.control.block.get .link = .on ∧ e.get .link = false
      ∧ ∀ v ∈ BlockUnit.all, v ≠ .link → lab.settled e v = true)
    ∧ (RecId.outStatus 3).unit? = some .link := by decide +kernel

/-- The link unit leaves ON with two peers, one of which drives motor 0, and a slot that is QUEUED. -/
def leaving : Chip :=
  { linkedDriver with
    motor := { linkedDriver.motor with
      ch := linkedDriver.motor.ch.set 0 { linkedDriver.motor.ch[0] with mode := .pulse 5 9000 .brake, stage := .forward 5 } }
    link := { linkedDriver.link with
      peer := linkedDriver.link.peer.set 2 (linkedDriver.link.peer[7].map (fun x => { x with tag := 9 }))
      out := linkedDriver.link.out.set 1 { OutSlot.reset with state := .queued } } }

theorem witness_BlockEnablesAndResetting_left :
    leaving.inv = true ∧ leaving.unwatched = true ∧ leaving.control.block.get .link = .on
    ∧ (leaving.on .motor = true ∧ leaving.motor.ch[(0 : Fin 4)].owner = .link 7 ∧ leaving.link.peer[(7 : Fin 8)] ≠ none)
    ∧ leaving.link.out[(1 : Fin 4)].state = .queued
    ∧ (lab.voice (.tone .proc 440 100 4900 6000)).inv = true
    ∧ (lab.voice (.tone .proc 440 100 4900 6000)).sound.voice ≠ .silent ∧ lab.sound.voice = .silent := by decide +kernel

/-- The link status record joins first, as the link state falls first (R160 step 1). -/
theorem test_link_leaves_on :
    runs (.blockEnables { PerUnit.const true with link := false }) leaving (fun d =>
      d.path.pubs.take 2 == [.status, .linkStatus] && (d.ring.slots.toList.take 4).map (fun x => (x.kind, x.source, x.detail))
        == [(8, 2, 9), (3, 0, 18), (5, 0, 18), (8, 7, 9)] && d.motor.ch[0].owner == .none) = true := by decide +kernel

theorem witness_UnitTurnsOn :
    let c := lab.blocks .off
    let e : PerUnit Bool := { PerUnit.const false with reflex := true }
    c.control.gen ≠ .holding ∧ c.inv = true ∧ c.unwatched = true ∧ c.control.block.get .reflex = .off
    ∧ e.get .reflex = true ∧ (∀ v ∈ BlockUnit.all, v ≠ .reflex → c.settled e v = true)
    ∧ (∀ u ∈ BlockUnit.all, c.control.block.get u = .off)
    -- the results of latches to units that were OFF
    ∧ (let d : Chip := { c with
        motor := { c.motor with ch := c.motor.ch.set 3 { Channel.reset with latchResult := .off } }
        sense := { c.sense with latchResult := .off }, sound := { c.sound with latchResult := .off }
        link := { c.link with out := c.link.out.set 3 { OutSlot.reset with latchResult := .off } } }
      d.inv = true ∧ d.unwatched = true ∧ d.motor.ch[(3 : Fin 4)].latchResult ≠ .ok ∧ d.sense.latchResult ≠ .ok
      ∧ d.sound.latchResult ≠ .ok ∧ d.link.out[(3 : Fin 4)].latchResult ≠ .ok) := by decide +kernel

/-- The reflex unit is OFF, and the shadow of entry 7 holds a valid and enabled "NO_PEERS" with this hold time. -/
def waking (hold : Half) : Chip :=
  let r : ReflexRec := { enable := 1, term1 := ⟨4, 0, 0⟩, hold := hold, attention := 1 }
  let c : Chip := { lab with control := { lab.control with block := lab.control.block.set .reflex .off } }
  c.setShadow (.reflexEntry 7) r.toBytes

theorem waking_alone : ∀ k ∈ List.finRange 8, k ≠ 7 → ((waking 0).entryRead k).state = .disabled := by decide +kernel

theorem witness_UnitTurnsOn_watching :
    ((waking 0).inv = true ∧ (waking 0).unwatched = true ∧ (waking 0).control.block.get .reflex = .off
      ∧ ((waking 0).entryRead 7).state = .armed ∧ ((waking 0).entryRead 7).record.hold = 0
      ∧ (waking 0).woken.condition ((waking 0).entryRead 7).record = true)
    ∧ ((waking 1).inv = true ∧ ((waking 1).entryRead 7).state = .armed
      ∧ (waking 1).woken.condition ((waking 1).entryRead 7).record = true)
    ∧ (∀ k : Fin 8, k ≠ 7 → ((waking 0).entryRead k).state = .disabled) ∧ (waking 1).woken.noneFires := by
  refine ⟨by decide +kernel, by decide +kernel, fun k => waking_alone k (List.mem_finRange k), ?_⟩
  unfold Chip.noneFires
  decide +kernel

/-- With hold time 0 the entry fires at once, else its hold begins. -/
theorem test_reflex_turns_on :
    runs (.blockEnables (PerUnit.const true)) (waking 0) (fun d => d.reflex.entry[7].state == .fired
      && d.reflex.entry[7].fires == 1 && d.attention.pending[Cause.reflex.idx]) = true
    ∧ runs (.blockEnables (PerUnit.const true)) (waking 1) (fun d => d.reflex.entry[7].state == .timing 5001) = true := by
  decide +kernel

/-- Attention with the line high for cause 0, all causes enabled. -/
def attentive : Attention :=
  { Attention.reset with
    pending := Attention.reset.pending.set 0 true, enabled := Vector.replicate 10 true, published := some 0, line := true }

theorem witness_AttentionFlags :
    let c : Chip := { lab with attention := attentive }
    let taking : Chip := { c with mem := [⟨0xFF0040, 1⟩] }
    let last : Chip := { lab.memory [⟨0xFF0040, 10⟩] with
      attention := { Attention.reset with pending := Attention.reset.pending.set 9 true } }
    (c.control.gen ≠ .holding ∧ c.inv = true)
    ∧ (c.attention.line = true ∧ c.attention.publishedEligible = true
      ∧ { c.attention with enabled := Vector.replicate 10 false }.publishedEligible = false ∧ lab.attention.line = false)
    ∧ attentive.selected = some 0
    ∧ (c.attention.pending[Cause.guard.idx] = false ∧ c.attention.pending[Cause.reflex.idx] = true)
    ∧ ({ lab.attention with gap := true }.gap = true ∧ lab.attention.gap = false)
    ∧ (taking.inv = true ∧ taking.unwatched = true ∧ taking.control.gen = .idle
      ∧ (taking.mem.read 0xFF0040).toNat = (0 : Fin 10).val + 1 ∧ taking.attention.pending[(0 : Fin 10)] = true
      ∧ taking.attention.line = true ∧ taking.attention.published = some 0)
    ∧ (last.inv = true ∧ (last.mem.read 0xFF0040).toNat = (9 : Fin 10).val + 1
      ∧ last.attention.pending[(9 : Fin 10)] = true ∧ last.attention.published ≠ some 9)
    ∧ (∀ k : Fin 10, (lab.mem.read 0xFF0040).toNat = k.val + 1 → lab.attention.pending[k] = false)
    ∧ ((lab.gen (.pulsing 9)).control.gen ≠ .idle ∧ (lab.gen (.pulsing 9)).control.gen ≠ .holding) := by decide +kernel

theorem witness_EventRingAppendsAndPops :
    let c : Nat → Byte → Chip := fun n lost => { lab with ring := { Ring.reset with held := n, lostPending := lost } }
    let p : Chip := { lab with ring := { Ring.reset with held := 1, published := Ring.reset.published.set 0 true } }
    ((c 31 0).inv = true ∧ (c 31 0).ring.held < 32 ∧ (c 31 0).ring.lostPending = 0)
    ∧ ((c 32 0).inv = true ∧ (c 32 0).ring.held = 32)
    ∧ ((c 31 1).inv = true ∧ (c 31 1).ring.held < 32 ∧ (c 31 1).ring.lostPending ≠ 0)
    ∧ (p.unwatched = true ∧ p.control.gen = .idle ∧ p.ring.head = 0 ∧ 0 < p.ring.held
      ∧ p.ring.published[(0 : Fin 32)] = true)
    ∧ ¬ (lab.ring.head = 0 ∧ 0 < lab.ring.held ∧ lab.ring.published[(0 : Fin 32)] = true)
    ∧ ((lab.gen (.pulsing 9)).unwatched = true ∧ (lab.gen (.pulsing 9)).control.gen ≠ .holding
      ∧ (lab.gen (.pulsing 9)).control.gen ≠ .idle) := by decide +kernel

/-- A control record that keeps every unit ON, with this quiet period. -/
def keepOn (quiet : Word) : ControlRec := { enables := Vector.replicate 6 1, quiet := quiet }

theorem witness_ControlLatchTakenOrBadArg :
    lab.ready = true
    ∧ ((keepOn 100).valid = true ∧ ∀ u ∈ BlockUnit.all, lab.settled (keepOn 100).unitEnables u = true)
    ∧ ((keepOn 99).valid = false ∧ (keepOn 10001).valid = false ∧ (keepOn 10000).valid = true
      ∧ ({ enables := Vector.replicate 6 2 } : ControlRec).valid = false) := by decide +kernel

theorem witness_ServiceResetAndFlush :
    lab.control.gen ≠ .holding ∧ lab.inv = true ∧ (keepOn 10000).valid = true ∧ lab.unwatched = true
    ∧ (∀ u ∈ BlockUnit.all, lab.settled (keepOn 10000).unitEnables u = true) ∧ lab.ready = true
    ∧ (keepOn 10000).causeEnables = lab.attention.enabled := by decide +kernel

theorem witness_RestartGeneratorMoves :
    (lab.gen (.pulsing 5000)).control.gen = .pulsing 5000 ∧ reached lab.control.ms 5000 = true
    ∧ reached lab.control.ms 5001 = false ∧ lab.control.gen = .idle ∧ (lab.gen .holding).control.gen = .holding
    ∧ (lab.port (.processor ⟨0, .read 1⟩ false)).path.port = some (.processor ⟨0, .read 1⟩ false)
    ∧ lab.on .motor = true ∧ lab.on .sound = true ∧ (lab.blocks .off).on .motor = false
    ∧ (lab.motor0 { Channel.reset with owner := .reflex 7 }).motor.ch[(0 : Fin 4)].owner ≠ .proc
    ∧ (lab.voice (.tone .proc 440 100 5000 6000)).sound.voice.source = .proc ∧ lab.sound.voice.source ≠ .proc := by
  decide +kernel

/-! ### Witnesses, chapters 3 and 4 -/

theorem witness_ClaimTableJudges :
    let q : Owner := .reflex 0
    (q ≠ .none ∧ (Owner.proc).level < q.level) ∧ (Owner.proc ≠ .none ∧ Owner.proc ≠ .link 0
      ∧ (Owner.link 0).level ≤ Owner.proc.level ∧ ¬ ∃ i j, Owner.proc = .reflex i ∧ Owner.link 0 = .reflex j)
    -- a STOP against a running RUN_TO of PROC, and at a mode that does not run
    ∧ (let c := lab.motor0 { Channel.reset with owner := .proc, mode := .runTo 1 9 .brake .forward }
      c.inv = true ∧ c.motor.ch[(0 : Fin 4)].mode.running = true ∧ lab.motor.ch[(0 : Fin 4)].mode.running = false) := by
  decide +kernel

/-- The events and the cause of that pre-emption. -/
theorem test_stop_preempts_a_run :
    let c := lab.motor0 { Channel.reset with owner := .proc, mode := .runTo 1 9 .brake .forward }
    let d := c.motorAct (.reflex 7) 0 .brake 0
    d.ring.held = 2 ∧ d.ring.slots[(0 : Fin 32)] = ⟨3, 0, 13, 0, 5000⟩ ∧ d.ring.slots[(1 : Fin 32)] = ⟨5, 0, 13, 1, 5000⟩
    ∧ d.attention.pending[Cause.claim.idx] = true := by decide +kernel

/-- A slot with every field at the end of its range. -/
def fullSlot : MotorSlot :=
  { duty := 1000, endAction := 1, param := 60000, freshness := 10000, pwm := 20, stallTime := 200, threshold := 1000 }

theorem witness_MotorDrivesAccepted :
    let back : Chip := lab.motor0 { Channel.reset with owner := .proc, count := 0x7FFFFFFF }
    let linked : Chip := lab.motor0 { Channel.reset with
      owner := .link 7, mode := .pulse 1 6000 .coast, lastDir := some .reverse, gap := true }
    lab.ready = true ∧ lab.on .motor = true ∧ fullSlot.settingsOk = true ∧ fullSlot.freshOk = true
    ∧ lab.motor.ch[(0 : Fin 4)].owner = .none ∧ lab.motor.ch[(0 : Fin 4)].stall = .normal
    ∧ lab.motor.ch[(0 : Fin 4)].mode.running = false
    ∧ fullSlot.dutyOk = true ∧ fullSlot.durationOk = true ∧ fullSlot.endOk = true ∧ fullSlot.magnitudeOk = true
    ∧ 0 < (fullSlot.param - lab.motor.ch[(0 : Fin 4)].count).toInt
    ∧ (back.ready = true ∧ back.motor.ch[(0 : Fin 4)].owner = .proc
      ∧ (fullSlot.param - back.motor.ch[(0 : Fin 4)].count).toInt < 0)
    -- a PULSE of a LINK owner, and a stage at rest that meets the direction opposite to its last
    ∧ (linked.ready = true ∧ linked.motor.ch[(0 : Fin 4)].stall = .normal ∧ fullSlot.duty.toInt = 1000
      ∧ (Mode.drive 1000).target.dir? = some .forward ∧ linked.motor.ch[(0 : Fin 4)].stage.driving = false
      ∧ linked.motor.ch[(0 : Fin 4)].gap = true ∧ linked.motor.ch[(0 : Fin 4)].lastDir = some .reverse) := by
  decide +kernel

theorem witness_MotorRestsAccepted :
    let c : Chip := lab.motor0 { Channel.reset with owner := .proc, stall := .stalled }
    let linked : Chip := lab.motor0 { Channel.reset with owner := .link 0, mode := .runTo 1 9 .brake .forward }
    let at0 : MotorSlot := { fullSlot with param := 0 }
    c.ready = true ∧ c.on .motor = true ∧ fullSlot.settingsOk = true ∧ fullSlot.freshOk = true
    ∧ c.motor.ch[(0 : Fin 4)].owner = .proc ∧ linked.ready = true ∧ linked.motor.ch[(0 : Fin 4)].owner = .link 0
    ∧ (at0.settingsOk = true ∧ at0.freshOk = true ∧ at0.magnitudeOk = true ∧ at0.endOk = true
      ∧ at0.param = lab.motor.ch[(0 : Fin 4)].count ∧ lab.motor.ch[(0 : Fin 4)].stall = .normal) := by decide +kernel

theorem witness_MotorKeepResetNone :
    let owned : Chip := lab.motor0 { Channel.reset with owner := .proc }
    let running : Chip := lab.motor0 { Channel.reset with owner := .proc, mode := .runTo 1 9 .brake .forward }
    (owned.ready = true ∧ owned.on .motor = true ∧ fullSlot.settingsOk = true ∧ fullSlot.freshOk = true
      ∧ owned.motor.ch[(0 : Fin 4)].owner = .proc ∧ owned.motor.ch[(0 : Fin 4)].mode.running = false)
    ∧ (running.ready = true ∧ running.motor.ch[(0 : Fin 4)].owner = .proc
      ∧ running.motor.ch[(0 : Fin 4)].mode = .runTo 1 9 .brake .forward)
    ∧ (∀ i, (Owner.link 7) ≠ .reflex i) := by decide +kernel

theorem witness_ClaimReleased :
    let c : Chip := lab.motor0 { Channel.reset with owner := .link 7, deadline := some 5000 }
    c.ready = true ∧ c.on .motor = true ∧ fullSlot.settingsOk = true
    ∧ (c.motor.ch[(0 : Fin 4)].owner ≠ .none ∧ lab.motor.ch[(0 : Fin 4)].owner = .none)
    ∧ (c.motor.ch[(0 : Fin 4)].deadline = some 5000 ∧ reached c.control.ms 5000 = true
      ∧ reached c.control.ms 5001 = false) := by decide +kernel

theorem witness_MotorLatchRefused :
    let a : Channel := { Channel.reset with owner := .reflex 0 }
    lab.ready = true
    ∧ (({ fullSlot with duty := 1001 }).command 3 = none ∧ lab.resetting .motor = false
      ∧ ({ fullSlot with stallTime := 201 }).settingsOk = false)
    ∧ (fullSlot.command 3 = some (.drive 1000) ∧ fullSlot.settingsOk = true ∧ (lab.blocks .off).ready = true
      ∧ (lab.blocks .off).on .motor = false ∧ (lab.blocks .off).resetting .motor = false)
    ∧ (lab.on .motor = true ∧ motorVerdict .proc (.drive 1000) { Channel.reset with stall := .stalled } = .stalled
      ∧ (lab.motor0 { Channel.reset with stall := .stalled }).ready = true)
    ∧ (motorVerdict .proc (.drive 1000) a = .refusedClaim ∧ (lab.motor0 a).ready = true
      ∧ (lab.motor0 a).on .motor = true) := by decide +kernel

theorem witness_StageAtPeriodAndPassage :
    let a : Channel := { Channel.reset with mode := .drive 1000 }
    let turning : Channel := { a with lastDir := some .reverse, stage := .reverse 1000 }
    let waiting : Channel := { a with lastDir := some .reverse, gap := true }
    (lab.motor0 a).on .motor = true ∧ ({ waiting with reversing := true }).reversing = true
    ∧ (a.reversing = false ∧ Channel.reset.target.driving = false ∧ a.target.dir? = some .forward ∧ a.lastDir = none)
    ∧ (turning.reversing = false ∧ turning.target.dir? = some .forward ∧ turning.stage.driving = true)
    ∧ (waiting.reversing = false ∧ waiting.target.dir? = some .forward ∧ waiting.stage.driving = false
      ∧ waiting.gap = true) ∧ a.gap = false := by decide +kernel

theorem witness_EncoderStepCounted :
    let run : Word → Chip := fun n =>
      lab.motor0 { Channel.reset with levels := some (false, false), mode := .runTo 1 n .coast .forward }
    (lab.inv = true ∧ (lab.blocks .off).on .motor = false ∧ (lab.blocks .off).inv = true)
    ∧ (lab.on .motor = true ∧ quadStep (false, false) (true, true) = none)
    ∧ (quadStep (false, false) (true, false) = some 1 ∧ quadStep (false, false) (false, true) = some (-1)
      ∧ (run 1).inv = true ∧ (run 1).motor.ch[(0 : Fin 4)].levels = some (false, false)
      ∧ runReached .forward 2 1 = false ∧ runReached .forward 1 1 = true ∧ runReached .reverse 1 1 = true) := by
  decide +kernel

theorem witness_PulseAndWindowEnd :
    let p : Word → Chip := fun t => lab.motor0 { Channel.reset with mode := .pulse 1 t .brake }
    (lab.inv = true ∧ lab.on .motor = true ∧ (p 5000).inv = true ∧ reached (p 5000).control.ms 5000 = true
      ∧ reached (p 5001).control.ms 5001 = false ∧ (p 5000).motor.ch[(0 : Fin 4)].mode = .pulse 1 5000 .brake)
    ∧ reached lab.control.ms ({ lab.motor with windowEnd := 5000 } : Motor).windowEnd = true := by decide +kernel

theorem witness_StallAndCooling :
    let w : Word → Chip := fun t => lab.motor0 { Channel.reset with watch := some t, mode := .drive 1000 }
    let k : Chip := lab.motor0 { Channel.reset with stall := .cooling 5000 }
    ((w 4500).on .motor = true ∧ (w 4500).inv = true ∧ (w 4500).unwatched = true
      ∧ (w 4500).motor.ch[(0 : Fin 4)].watch = some 4500
      ∧ (w 4500).motor.ch[(0 : Fin 4)].settings.stallTime ≤ (lab.control.ms - 4500).toNat
      ∧ (lab.control.ms - 4501).toNat < (w 4501).motor.ch[(0 : Fin 4)].settings.stallTime)
    ∧ (k.inv = true ∧ k.motor.ch[(0 : Fin 4)].stall = .cooling 5000 ∧ reached k.control.ms 5000 = true
      ∧ reached k.control.ms 5001 = false) := by decide +kernel

/-! ### Witnesses, chapters 5 to 7 -/

theorem witness_ScanNoneStoresProgram :
    lab.ready = true ∧ lab.on .sense = true
    ∧ ({ first := 7, last := 7, mode := 1, interval := 1000 } : ScanRec).valid = true := by decide +kernel

theorem witness_StepAcceptedOnlyInStepWait :
    let c : Converter → Chip := fun x => lab.scanning { Sense.reset with scan := .stepWait, conv := x }
    (c .free).ready = true ∧ (c .free).on .sense = true ∧ (c .free).sense.scan = .stepWait
    ∧ (c (.discarding none)).ready = true ∧ (c (.discarding none)).sense.conv = .discarding none
    ∧ lab.ready = true ∧ lab.sense.scan ≠ .stepWait := by decide +kernel

theorem witness_ScanStartStopRefused :
    let r : ScanRec := { first := 7, last := 7, mode := 2 }
    lab.ready = true ∧ lab.on .sense = true ∧ lab.sense.scan = .stopped
    ∧ (lab.scanning { Sense.reset with scan := .converting, conv := .running 0 }).ready = true
    ∧ ((lab.blocks .off).ready = true ∧ (lab.blocks .off).on .sense = false ∧ (lab.blocks .off).resetting .sense = false
      ∧ r.valid = true)
    ∧ (({ r with last := 8 }).valid = false ∧ ({ r with last := 6 }).valid = false
      ∧ ({ r with mode := 3 }).valid = false ∧ ({ r with mode := 1, interval := 1001 }).valid = false) := by
  decide +kernel

theorem witness_SampleStoredHeldOrDiscarded :
    let p : Program := { mode := .continuous, interval := 1 }
    let c : Fin 8 → SlotState → Chip := fun ch x => lab.scanning { Sense.reset with
      scan := .converting, conv := .running ch, active := p
      slots := Sense.reset.slots.set ch { SampleSlot.reset with state := x }
      settings := Sense.reset.settings.set ch { protect := true } }
    let waiting : Word → Chip := fun t => lab.scanning { Sense.reset with scan := .waiting t }
    ((c 7 .fresh).inv = true ∧ (c 7 .fresh).unwatched = true ∧ (c 7 .fresh).sense.conv = .running 7
      ∧ (c 7 .fresh).sense.settings[(7 : Fin 8)].protect = true ∧ (c 7 .fresh).sense.slots[(7 : Fin 8)].state = .fresh)
    ∧ ((c 0 .empty).inv = true ∧ (c 0 .empty).sense.slots[(0 : Fin 8)].state ≠ .fresh
      ∧ (0 : Fin 8) < (c 0 .empty).sense.active.last ∧ p.mode ≠ .stepped)
    ∧ ((c 7 .consumed).sense.slots[(7 : Fin 8)].state ≠ .fresh ∧ (c 7 .consumed).sense.active.last ≤ 7
      ∧ p.mode = .continuous ∧ p.interval ≠ 0)
    ∧ ((lab.scanning { Sense.reset with conv := .discarding (some 7) }).inv = true ∧ lab.sense.conv = .free)
    ∧ ((waiting 5000).inv = true ∧ (waiting 5000).on .sense = true ∧ (waiting 5000).sense.conv = .free
      ∧ reached lab.control.ms 5000 = true ∧ reached lab.control.ms 5001 = false) := by decide +kernel

theorem witness_SampleConsumedAndChannelSettings :
    let slots := Sense.reset.slots.set 7 { SampleSlot.reset with state := .fresh }
    let c : ScanState → Chip := fun x => { lab.memory [⟨0xFF0472, 1⟩] with
      sense := { Sense.reset with slots := slots, scan := x, position := 7 } }
    let taken : Chip → Prop := fun d => d.on .sense = true ∧ Bytes.get (d.mem.bytes 16 0xFF0470) 2 = 1
      ∧ d.sense.slots[(7 : Fin 8)].state = .fresh
      ∧ d.sense.slots[(7 : Fin 8)].seq = Bytes.half (d.mem.bytes 16 0xFF0470) 0
    let r : ChannelRec := { lower := 4095 }
    let short : Chip := { c (.held 0 1) with sense := { (c (.held 0 1)).sense with active := { last := 6 } } }
    let low : Chip := { lab.memory [⟨0xFF0402, 1⟩] with sense := { Sense.reset with
      slots := Sense.reset.slots.set 0 { SampleSlot.reset with state := .fresh }, scan := .held 0xFFF 4000
      conv := .discarding none } }
    ((c .stopped).ready = true ∧ taken (c .stopped) ∧ ¬ taken lab)
    -- a hold at the last channel, past it, and below it
    ∧ ((c (.held 0xFFF 4000)).sense.active.last ≤ (7 : Fin 8) ∧ short.ready = true ∧ short.sense.active.last ≤ (7 : Fin 8)
      ∧ low.ready = true ∧ low.on .sense = true ∧ (0 : Fin 8) < low.sense.active.last ∧ low.sense.position = 0
      ∧ Bytes.get (low.mem.bytes 16 0xFF0400) 2 = 1 ∧ low.sense.slots[(0 : Fin 8)].state = .fresh
      ∧ low.sense.slots[(0 : Fin 8)].seq = Bytes.half (low.mem.bytes 16 0xFF0400) 0)
    ∧ ((c (.held 0xFFF 4000)).ready = true ∧ taken (c (.held 0xFFF 4000)) ∧ (c (.held 0xFFF 4000)).sense.position = 7)
    ∧ (r.valid = true ∧ ({ r with consume := 1 }).valid = true ∧ r.consume = 0)
    ∧ (({ r with upper := 4096 }).valid = false ∧ ({ r with upper := 4094 }).valid = false
      ∧ (lab.blocks .off).ready = true ∧ (lab.blocks .off).on .sense = false) := by decide +kernel

theorem witness_InputEdgesDebounced :
    let line : InputLine → Chip := fun x => { lab with input := { lab.input with line := lab.input.line.set 10 x } }
    let quick : InputLine := ⟨false, none, { debounce := 0 }⟩
    (lab.inv = true ∧ lab.unwatched = true ∧ lab.pins.input[(10 : Fin 11)] = true)
    ∧ (lab.blocks .off).on .input = false
    ∧ (lab.on .input = true ∧ (false == lab.input.line[(10 : Fin 11)].settings.activeHigh) ≠ lab.input.line[(10 : Fin 11)].stable
      ∧ lab.input.line[(10 : Fin 11)].settings.debounce ≠ 0)
    ∧ ((line quick).inv = true ∧ (false == quick.settings.activeHigh) ≠ quick.stable ∧ quick.settings.debounce = 0
      ∧ (false == ({ quick with stable := true }).settings.activeHigh) = ({ quick with stable := true }).stable)
    ∧ ((line ⟨false, some 4995, {}⟩).inv = true ∧ (line ⟨false, some 4995, {}⟩).on .input = true
      ∧ ({} : InputSettings).debounce ≤ (lab.control.ms - 4995).toNat
      ∧ (lab.control.ms - 4996).toNat < ({} : InputSettings).debounce)
    ∧ lab.input.line[(10 : Fin 11)].timer = none := by decide +kernel

/-- An input that is INACTIVE while its raw level says ACTIVE after a turn of polarity, with its timer running or not. -/
theorem witness_InputSettingsTaken :
    let line : Word → Chip := fun t => { lab with
      input := { lab.input with line := lab.input.line.set 10 ⟨false, some t, { activeHigh := true }⟩ } }
    let r : InputRec := { debounce := 3, polarity := 1, event := 3 }
    (lab.ready = true ∧ lab.on .input = true ∧ r.valid = true)
    ∧ (({} : InputRec).valid = true ∧ ({} : InputRec).settings = lab.input.line[(10 : Fin 11)].settings)
    ∧ (({ polarity := 0, event := 3 } : InputRec).settings ≠ lab.input.line[(10 : Fin 11)].settings
      ∧ (lab.pins.input[(10 : Fin 11)] == false) = lab.input.line[(10 : Fin 11)].stable)
    ∧ ((line 4981).ready = true ∧ r.settings ≠ (line 4981).input.line[(10 : Fin 11)].settings
      ∧ (lab.pins.input[(10 : Fin 11)] == r.settings.activeHigh) ≠ (line 4981).input.line[(10 : Fin 11)].stable
      ∧ (lab.control.ms - 4981).toNat < r.settings.debounce ∧ r.settings.debounce ≤ (lab.control.ms - 4980).toNat
      ∧ (line 4980).ready = true)
    ∧ (({ r with debounce := 4 }).valid = false ∧ (lab.blocks .off).ready = true
      ∧ (lab.blocks .off).on .input = false) := by decide +kernel

/-- An entry whose condition is "input 10 is ACTIVE", inverted or not, and whose action is ATTENTION. -/
def watchInput (enable invert : Byte) (hold : Half) : ReflexRec :=
  { enable := enable, term1 := ⟨1, 10, invert⟩, hold := hold, attention := 1 }

theorem witness_ReflexEntryLatched :
    (lab.ready = true ∧ lab.on .reflex = true ∧ lab.path.procQuiet = false)
    ∧ ((watchInput 0 0 0).valid = true ∧ (watchInput 0 0 0).enable = 0)
    ∧ ((watchInput 1 0 0).valid = true ∧ (watchInput 1 0 0).enable = 1 ∧ lab.condition (watchInput 1 0 0) = false)
    ∧ ((watchInput 1 1 10000).valid = true ∧ lab.condition (watchInput 1 1 10000) = true
      ∧ (watchInput 1 1 10000).hold ≠ 0)
    ∧ ((watchInput 1 1 10001).valid = false ∧ (lab.blocks .off).ready = true ∧ (lab.blocks .off).on .reflex = false)
    -- a latch to an entry that watches; hold time 0
    ∧ (let c : Chip := { lab with reflex := ⟨lab.reflex.entry.set 7 ⟨watchInput 1 0 0, .armed, 3⟩⟩ }
      c.inv = true ∧ c.control.gen = .idle ∧ c.path.procQuiet = false ∧ c.on .reflex = true ∧ c.unwatched = false
      ∧ (∀ k : Fin 8, k ≠ 7 → c.reflex.entry[k].state = .disabled) ∧ (watchInput 1 1 0).valid = true
      ∧ (watchInput 1 1 0).hold = 0 ∧ c.condition (watchInput 1 1 0) = true) := by
  decide +kernel

/-- A latch of a true condition with hold time 0 to a watching entry fires it at once, with fire count 1. -/
theorem test_relatch_fires_at_once :
    let c : Chip := { lab with reflex := ⟨lab.reflex.entry.set 7 ⟨watchInput 1 0 0, .armed, 3⟩⟩ }
    runs (.reflexEntryLatch 7 (watchInput 1 1 0)) c (fun d => d.reflex.entry[7].fires == 1
      && d.reflex.entry[7].state == .fired && d.ring.held == 1 && d.attention.pending[Cause.reflex.idx]) = true := by
  decide +kernel

theorem witness_EntryFiresAtHoldExpiry :
    let r : ReflexRec := { watchInput 1 1 1 with
      rearm := 1, stop := 1, motors := Vector.replicate 4 1, tone := 1, frequency := 50, duration := 1, alarm := 1,
      restart := 1, pulse := 100 }
    let c : Chip := { lab with reflex := ⟨lab.reflex.entry.set 7 ⟨r, .timing 5000, 255⟩⟩ }
    c.inv = true ∧ c.on .reflex = true ∧ c.reflex.entry[(7 : Fin 8)].state = .timing 5000
    ∧ reached c.control.ms 5000 = true ∧ reached c.control.ms 5001 = false
    ∧ (∀ k : Fin 8, k ≠ 7 → c.reflex.entry[k].state = .disabled)
    ∧ c.on .motor = true ∧ c.on .sound = true ∧ c.linkUp = true ∧ c.control.gen = .idle ∧ r.valid = true := by
  decide +kernel

theorem witness_EntryFiresAtHoldExpiry_handed : quietWatched.on .reflex = true ∧ quietWatched.noneFires :=
  ⟨by decide, by unfold Chip.noneFires; decide +kernel⟩

/-! ### Witnesses, chapter 8 -/

/-- A stream of one block, from its start. -/
def playing : Stream :=
  { fast := true, volume := 100, addr := 0x100, block := some ⟨0x1000, 4096, 0⟩, fetched := 0, staging := [],
    lastBlock := true, chainDone := false, starved := none, tookSample := true }

theorem witness_SoundRequestsTaken :
    let entry : Chip := lab.voice (.tone (.reflex 7) 50 100 5000 6000)
    let resetting : Chip := lab.blocks .resetting
    (lab.ready = true ∧ lab.on .sound = true ∧ (∀ i, lab.sound.voice.source ≠ .reflex i))
    ∧ (50 ≤ (50 : Half).toNat ∧ (8000 : Half).toNat ≤ 8000 ∧ (100 : Byte).toNat ≤ 100 ∧ 1 ≤ (1 : Word).toNat
      ∧ (60000 : Word).toNat ≤ 60000 ∧ ¬ 50 ≤ (49 : Half).toNat)
    ∧ ((0xFFFFFC : Word).toNat % 4 = 0 ∧ (0xFFFFFC : Word) ≠ 0 ∧ (0xFFFFFC : Word).toNat < 0x1000000
      ∧ ¬ (0x1000000 : Word).toNat < 0x1000000)
    ∧ (entry.ready = true ∧ entry.on .sound = true ∧ entry.sound.voice.source = .reflex 7)
    ∧ ((lab.blocks .off).ready = true ∧ (lab.blocks .off).on .sound = false ∧ (lab.blocks .off).resetting .sound = false)
    ∧ (resetting.ready = true ∧ resetting.resetting .sound = true) := by decide +kernel

theorem witness_StopActsOnTheVoice :
    (lab.ready = true ∧ lab.on .sound = true ∧ lab.sound.voice = .silent)
    ∧ ((lab.voice (.stream playing)).ready = true ∧ (lab.voice (.stream playing)).sound.voice.source = .proc)
    ∧ ((lab.voice (.tone (.link 7) 50 0 5000 6000)).ready = true
      ∧ (lab.voice (.tone (.link 7) 50 0 5000 6000)).sound.voice.source = .link 7)
    ∧ ((lab.voice (.tone (.reflex 0) 50 0 5000 6000)).ready = true
      ∧ (lab.voice (.tone (.reflex 0) 50 0 5000 6000)).sound.voice.source = .reflex 0) := by decide +kernel

theorem witness_SoundTimersAndPeriods :
    let starved : Stream := { playing with block := none, starved := some ⟨5000, some 5000⟩ }
    ((lab.voice (.tone .proc 50 0 4900 5000)).inv = true ∧ reached lab.control.ms 5000 = true
      ∧ reached lab.control.ms 5001 = false)
    ∧ ((lab.voice (.stream starved)).inv = true ∧ starved.starved = some ⟨5000, some 5000⟩)
    ∧ ((lab.voice (.stream { playing with staging := [255] })).inv = true ∧ playing.block ≠ none ∧ starved.block = none)
    ∧ (starved.staging = [] ∧ starved.starved ≠ none)
    ∧ (playing.staging = [] ∧ playing.starved = none ∧ ({ playing with chainDone := true }).chainDone = true
      ∧ playing.chainDone = false ∧ playing.tookSample = true ∧ ({ playing with tookSample := false }).tookSample = false) := by
  decide +kernel

theorem witness_StreamWalked :
    let read : Mem → Stream → Chip := fun m st => { lab.port (.part (.descRead 0x100) false) with
      mem := m, sound := { lab.sound with voice := .stream st } }
    let m : Mem := [⟨0x105, 0x10⟩, ⟨0x10C, 1⟩]
    let word : Mem → Nat → Word := fun m k => Bytes.word (m.bytes 16 0x100) k
    ((read [] playing).inv = true ∧ word [] 12 = 0 ∧ playing.starved = none
      ∧ (lab.port (.part (.descRead 0x100) true)).inv = true)
    ∧ ((read m playing).inv = true ∧ word m 12 ≠ 0 ∧ (word m 0).toNat % 4 = 0 ∧ (word m 0).toNat < 0x1000000
      ∧ (word m 4).toNat = 4096 ∧ word m 8 = 0)
    -- a ready descriptor with length 0 is not valid
    ∧ ((read [⟨0x10C, 1⟩] playing).inv = true ∧ word [⟨0x10C, 1⟩] 12 ≠ 0 ∧ ¬ 1 ≤ (word [⟨0x10C, 1⟩] 4).toNat)
    ∧ ((lab.port (.part (.sampleFetch 0x1000) false)).inv = true ∧ (lab.port (.part (.sampleFetch 0x1000) true)).inv = true
      ∧ playing.block = some ⟨0x1000, 4096, 0⟩)
    ∧ ((lab.port (.part (.doneWrite 0xFFFFFF) false)).inv = true ∧ (lab.port (.part (.doneWrite 0xFFFFFF) true)).inv = true
      ∧ playing.lastBlock = true ∧ ({ playing with lastBlock := false }).lastBlock = false) := by decide +kernel

/-! ### Witnesses, chapters 9 and 10 -/

/-- A frame of this kind, length and first payload bytes from tag 7, with a good CRC. -/
def frame (kind : Byte) (length : Nat) (first : List Byte) : RxFrame :=
  { header := Bytes.ofHalf (BitVec.ofNat 16 length) ++ Bytes.ofWord 7 ++ [1, kind], received := length, first := first,
    blocks := [], crc := 0, crcField := [0, 0] }

/-- A joined DRIVER with tag 7. -/
def driver7 : Peer :=
  { tag := 7, driver := true, lastHeard := 0, silence := 0, window := 0, throttled := false, held := none, accepted := 1 }

/-- The chip with the peer in slot 7 alone, and a finished frame. -/
def judged (x : Option Peer) (f : RxFrame) : Chip :=
  lab.linked { lab.link with peer := lab.link.peer.set 7 x, finishing := some f }

theorem judged_joinedAs (x : Peer) (f : RxFrame) (h : x.tag = 7) : (judged (some x) f).joinedAs 7 7 x := by
  refine ⟨by decide, rfl, h, fun q hq y hy => ?_⟩
  have none_below : ∀ q : Fin 8, q < 7 → (judged (some x) f).link.peer[q] = none := by
    intro q hq
    match q, hq with
    | 0, _ | 1, _ | 2, _ | 3, _ | 4, _ | 5, _ | 6, _ => rfl
  rw [none_below q hq] at hy
  cases hy

theorem judged_judging (x : Option Peer) (f : RxFrame) : (judged x f).judging f :=
  ⟨rfl, fun b => match b with | 0 | 1 => nofun⟩

theorem judged_stranger (f : RxFrame) (tag : Word) : (judged none f).stranger tag := by
  refine Or.inr fun q x hx => ?_
  have all_none : ∀ q : Fin 8, (judged none f).link.peer[q] = none := by
    intro q
    match q with
    | 0 | 1 | 2 | 3 | 4 | 5 | 6 | 7 => rfl
  rw [all_none q] at hx
  cases hx

theorem frame_crcOk (kind : Byte) (length : Nat) (first : List Byte) : (frame kind length first).crcOk := by
  show Bytes.half [0, 0] 0 = (0 : Half)
  decide

theorem witness_LinkReadyMovesTheLink :
    let low : Chip := { lab with pins := { lab.pins with linkReady := false } }
    let full : Chip := lab.linked { (judged (some driver7) RxFrame.new).link with
      receiver := .header RxFrame.new, sub := lab.link.sub.set 3 (some ⟨7, 7, 1, 20, false, 0, 0, 0⟩)
      out := lab.link.out.set 3 { OutSlot.reset with state := .queued } }
    (lab.inv = true ∧ lab.unwatched = true ∧ lab.on .link = true ∧ lab.pins.linkReady = true)
    ∧ (low.inv = true ∧ low.unwatched = true ∧ low.on .link = true ∧ low.pins.linkReady = false)
    ∧ ((lab.blocks .off).inv = true ∧ (lab.blocks .off).on .link = false)
    ∧ (full.inv = true ∧ full.unwatched = true ∧ full.link.peer[(7 : Fin 8)] ≠ none
      ∧ full.link.out[(3 : Fin 4)].state = .queued ∧ full.link.sub[(0 : Fin 4)] = none) := by decide +kernel

theorem witness_ReceiverTakesBytes :
    let c : Receiver → Chip := fun r => lab.linked { lab.link with receiver := r }
    let headed : List Byte → Receiver := fun bs => .header { RxFrame.new with header := bs }
    (lab.inv = true ∧ lab.linkUp = true ∧ lab.link.receiver = .hunt)
    -- the second byte: lengths 1000 and 1001; the eighth byte
    ∧ ((c (headed [0xE8])).inv = true ∧ (c (headed [0xE8])).linkUp = true ∧ (Bytes.half [0xE8, 3] 0).toNat = 1000
      ∧ (Bytes.half [0xE9, 3] 0).toNat = 1001 ∧ ([0, 0, 7, 0, 0, 0, 1] ++ [(0x30 : Byte)]).length = 8)
    ∧ ((c (.crc (frame 0x30 0 []))).inv = true ∧ (frame 0x30 0 []).crcField ≠ [] ∧ RxFrame.new.crcField = []
      ∧ (c (.crc RxFrame.new)).link.finishing = none ∧ (judged none RxFrame.new).link.finishing ≠ none)
    ∧ ((c (.skip (some 1))).inv = true ∧ (c (.skip none)).inv = true)
    ∧ (lab.blocks .off).linkUp = false := by decide +kernel

/-- Payload byte 0 with and without a free block, the last byte, a busy buffer. -/
theorem witness_PayloadStoredInChunks :
    let f : RxFrame := { frame 0x20 1 [] with received := 0 }
    let c : List (Fin 48) → ChunkBuf → Chip := fun free x =>
      lab.linked { lab.link with receiver := .payload f, free := free, buf := lab.link.buf.set 0 x }
    let g : RxFrame := { frame 0x20 1000 [] with received := 127, blocks := [5] }
    let store : Chip := lab.port (.part (.chunkStore 1 0xFF57C0 (Bytes.zeros 64)) false)
    ((c [] ⟨[], some .receiving⟩).inv = true ∧ (c [] ⟨[], some .receiving⟩).linkUp = true
      ∧ (c [] ⟨[], some .receiving⟩).link.buf[lab.link.cur].store ≠ none)
    ∧ ((c [] ChunkBuf.reset).inv = true ∧ f.received % 128 = 0 ∧ (c [] ChunkBuf.reset).link.free = [])
    ∧ ((c [47] ChunkBuf.reset).inv = true ∧ (c [47] ChunkBuf.reset).link.buf[lab.link.cur].store = none
      ∧ (c [47] ChunkBuf.reset).link.free ≠ [] ∧ f.received + 1 = f.length
      ∧ (f.blocks ++ [(47 : Fin 48)])[f.received / 128]? = some 47)
    ∧ (g.received + 1 ≠ g.length ∧ g.received % 128 ≠ 0 ∧ (Bytes.zeros 63 ++ [(0 : Byte)]).length = 64
      ∧ g.blocks[g.received / 128]? = some 5)
    ∧ (store.inv = true ∧ 0xFF57C0 + (Bytes.zeros 64).length ≤ 0x1000000) := by decide +kernel

theorem witness_FrameDiscardedAtJudgement :
    let bad : RxFrame := { frame 0x30 0 [] with crc := 1 }
    let storming : Peer := { driver7 with window := 40 }
    (∀ x f, (judged x f).judging f) ∧ (∀ f, (judged none f).stranger 7)
    ∧ (judged (some storming) (frame 0x11 1 [1])).joinedAs 7 7 storming
    ∧ ¬ bad.crcOk ∧ (frame 0x40 0 []).crcOk
    ∧ ((judged none bad).inv = true ∧ (judged none (frame 0x40 0 [])).inv = true
      ∧ (judged (some storming) (frame 0x11 1 [1])).inv = true)
    ∧ ((frame 0x40 0 []).kind = 0x40 ∧ (frame 0x20 0 []).tag = 7 ∧ (storming.stormed 40).throttled = true
      ∧ ({ storming with window := 39 }.stormed 40).throttled = false) ∧ lab.link.finishing = none :=
  ⟨judged_judging, fun f => judged_stranger f 7, judged_joinedAs _ _ rfl,
    by unfold RxFrame.crcOk; decide, frame_crcOk _ _ _, by decide +kernel, by decide, rfl⟩

theorem witness_HelloJudged :
    let hello : Nat → Byte → RxFrame := fun n role => frame 0x01 n [role]
    let fits : RxFrame → Prop := fun f => 1 ≤ f.length ∧ f.length ≤ 16 ∧ (Bytes.get f.first 0).toNat ≤ 1
    let watcher : Peer := { driver7 with driver := false }
    let c : LinkSettings → Chip := fun x =>
      lab.linked { (judged none (hello 16 1)).link with settings := x }
    (∀ x f, (judged x f).judging f) ∧ (∀ f, (judged none f).stranger 7)
    ∧ (judged (some watcher) (hello 16 1)).joinedAs 7 7 watcher ∧ (judged (some driver7) (hello 1 0)).joinedAs 7 7 driver7
    ∧ (∀ n role, (hello n role).crcOk)
    ∧ ((judged none (hello 16 1)).inv = true ∧ (judged none (hello 16 1)).unwatched = true ∧ lab.link.replies.length < 8
      ∧ (hello 16 1).kind = 0x01 ∧ (hello 16 1).tag = 7 ∧ (7 : Word) ≠ 0)
    ∧ (fits (hello 16 1) ∧ fits (hello 1 0) ∧ ¬ fits (hello 0 0) ∧ ¬ fits (hello 17 0) ∧ ¬ fits (hello 1 2))
    ∧ ((c { lock := true }).inv = true ∧ (c {}).inv = true ∧ (c {}).link.settings.lock = false
      ∧ ((∀ p : Fin 8, (lab.link.peer.map (fun _ => some driver7))[p] ≠ none) ∧ lab.link.peer[(0 : Fin 8)] = none))
    ∧ ((c { driverLimit := 0 }).link.settings.driverLimit ≤ (c { driverLimit := 0 }).link.driverCount
      ∧ (c {}).link.driverCount < (c {}).link.settings.driverLimit)
    ∧ ((driver7.stormed 40).throttled = false ∧ (judged (some watcher) (hello 16 1)).inv = true
      ∧ (judged (some driver7) (hello 1 0)).inv = true) := by
  refine ⟨judged_judging, fun f => judged_stranger f 7, judged_joinedAs _ _ rfl, judged_joinedAs _ _ rfl, fun _ _ => frame_crcOk _ _ _,
    by decide +kernel, by decide, by decide +kernel, by decide +kernel, by decide +kernel⟩

/-- The OK of a joined peer's HELLO carries its slot (log 38). -/
theorem test_joined_hello_reply_carries_the_slot :
    runs .frameJudge (judged (some driver7) (frame 0x01 1 [1])) (fun d => d.link.replies == [⟨7, [1, 1, 0, 7]⟩]) = true := by
  decide +kernel

/-- MAIL with the last descriptor free and with none free; each of the other kinds. -/
theorem witness_MailAndHoldsJudged :
    let busy : Option Descriptor := some ⟨7, 7, 1, 0, 0, [], false⟩
    let c : Vector (Option Descriptor) 16 → Chip := fun d =>
      lab.linked { (judged (some driver7) (frame 0x20 0 [])).link with desc := d }
    (∀ x f, (judged x f).judging f) ∧ (∀ f, (judged (some driver7) f).joinedAs 7 7 driver7)
    ∧ (∀ kind, (frame kind 0 []).crcOk)
    ∧ ((judged (some driver7) (frame 0x30 0 [])).inv = true ∧ (judged (some driver7) (frame 0x30 0 [])).unwatched = true
      ∧ (frame 0x30 0 []).kind = 0x30 ∧ (frame 0x31 0 []).kind = 0x31 ∧ (frame 0x02 0 []).kind = 0x02
      ∧ (frame 0x20 0 []).kind = 0x20 ∧ (frame 0x20 0 []).tag = 7)
    ∧ ((driver7.stormed 40).throttled = false
      ∧ (c ((Vector.replicate 16 busy).set 15 none)).inv = true
      ∧ (c ((Vector.replicate 16 busy).set 15 none)).link.desc[(15 : Fin 16)] = none
      ∧ (∀ j : Fin 16, j < 15 → (c ((Vector.replicate 16 busy).set 15 none)).link.desc[j] ≠ none)
      ∧ (c (Vector.replicate 16 busy)).inv = true ∧ (∀ k : Fin 16, (c (Vector.replicate 16 busy)).link.desc[k] ≠ none)) :=
  ⟨judged_judging, fun f => judged_joinedAs _ f rfl, fun _ => frame_crcOk _ _ _, by decide +kernel, by decide +kernel⟩

/-- A MOTOR payload: motor, command code, duty, parameter, freshness, end action. -/
def motorPayload (m code : Byte) (duty : Half) : List Byte :=
  [m, code] ++ Bytes.ofHalf duty ++ Bytes.ofWord 0 ++ Bytes.ofWord 0 ++ [0]

/-- A MOTOR message's fields with this duty. -/
def paid (duty : Half) : MotorSlot := { duty := duty, param := 60, freshness := 0, endAction := 1 }

theorem witness_ServicesAnswered :
    let sub : Subscription := ⟨7, 7, 1, 20, false, 0, 0, 0⟩
    let tone : Half → List Byte := fun hz => Bytes.ofHalf hz ++ Bytes.ofWord 60000 ++ [100]
    let slot : List Byte → MotorSlot := fun b => { duty := Bytes.half b 2 }
    (∀ x f, (judged x f).judging f) ∧ (∀ x f, x.tag = 7 → (judged (some x) f).joinedAs 7 7 x)
    ∧ (∀ kind n bs, (frame kind n bs).crcOk)
    ∧ ((judged (some driver7) (frame 0x10 13 (motorPayload 3 3 1000))).inv = true
      ∧ (judged (some driver7) (frame 0x10 13 (motorPayload 3 3 1000))).unwatched = true
      ∧ lab.link.replies.length < 8 ∧ (driver7.stormed 40).throttled = false)
    ∧ ((frame 0x10 12 []).length < 13 ∧ 16 < (frame 0x13 17 []).length ∧ (frame 0x11 16 [0x80]).length ≤ 16
      ∧ Bytes.get [0x80] 0 ≠ 0 ∧ lab.on .sense = true ∧ (lab.blocks .off).on .sense = false)
    ∧ ((Bytes.half [1, 20, 0] 1).toNat = 20 ∧ (Bytes.half [1, 0xE8, 3] 1).toNat = 1000 ∧ (Bytes.half [1, 19, 0] 1).toNat < 20
      ∧ 1000 < (Bytes.half [1, 0xE9, 3] 1).toNat ∧ sub.slot = 7 ∧ (∀ k : Fin 4, lab.link.sub[k] = none)
      ∧ (∀ k : Fin 4, (Vector.replicate 4 (some { sub with slot := 6 }))[k] ≠ none))
    ∧ (50 ≤ (Bytes.half (tone 50) 0).toNat ∧ (Bytes.half (tone 8000) 0).toNat ≤ 8000
      ∧ (Bytes.word (tone 50) 2).toNat = 60000 ∧ (Bytes.get (tone 50) 6).toNat = 100 ∧ ¬ 50 ≤ (Bytes.half (tone 49) 0).toNat
      ∧ lab.on .sound = true ∧ lab.sound.voice = .silent ∧ 2 ≤ (Owner.proc).level)
    ∧ ((Bytes.get (motorPayload 3 3 1000) 0).toNat = (3 : Fin 4).val ∧ 3 < (Bytes.get (motorPayload 4 3 0) 0).toNat
      ∧ (slot (motorPayload 3 3 1000)).command 3 = some (.drive 1000) ∧ (slot (motorPayload 3 3 1001)).command 3 = none
      ∧ lab.on .motor = true ∧ driver7.driver = true ∧ lab.motor.ch[(3 : Fin 4)].stall = .normal
      ∧ lab.motor.ch[(3 : Fin 4)].mode.running = false ∧ lab.motor.ch[(3 : Fin 4)].owner = .none
      ∧ motorVerdict (.link 7) (.drive 1000) { Channel.reset with owner := .proc } = .refusedClaim)
    -- the accepted commands, on a free claim and on the peer's own; a sound of another tablet
    ∧ ((∀ n ∈ [1, 2, 3, 4, 5, 7], (paid 50).command n ≠ none) ∧ (paid 50).command 6 = some .keep
      ∧ (paid 50).command 8 = some .release
      ∧ (∀ cmd ∈ [MotorCmd.coast, .brake, .drive 50, .pulse 50 60 .brake, .runTo 50 60 .brake, .resetCount],
        motorVerdict (.link 7) cmd Channel.reset = .ok)
      ∧ (∀ cmd ∈ [MotorCmd.keep, .release], motorVerdict (.link 7) cmd { Channel.reset with owner := .link 7 } = .ok)
      ∧ (0 < ((paid 50).param - 50).toInt ∧ ((paid 50).param - 70).toInt < 0 ∧ (paid 50).param = 60))
    ∧ (lab.voice (.tone (.link 6) 440 100 4900 6000)).sound.voice.source = .link 6 :=
  ⟨judged_judging, judged_joinedAs, frame_crcOk, by decide +kernel, by decide +kernel, by decide +kernel,
    by decide +kernel, by decide +kernel, by decide +kernel, rfl⟩

/-- A tablet's PULSE pre-empts its own RUN_TO; its tone ends the sound of another tablet. -/
theorem test_tablet_preempts :
    let c := judged (some driver7) (frame 0x10 13 ([3, 4] ++ Bytes.ofHalf 9 ++ Bytes.ofWord 700 ++ Bytes.ofWord 0 ++ [1]))
    let own : Channel := { Channel.reset with owner := .link 7, mode := .runTo 5 100 .brake .forward }
    let t := judged (some driver7) (frame 0x13 7 (Bytes.ofHalf 440 ++ Bytes.ofWord 600 ++ [50]))
    runs .frameJudge { c with motor := { c.motor with ch := c.motor.ch.set 3 own } } (fun d =>
      d.motor.ch[3].mode == .pulse 9 5700 .brake && d.ring == (c.append .runDone 3 Code.preempted.byte).ring) = true
    ∧ runs .frameJudge { t with sound := { t.sound with voice := .tone (.link 6) 440 100 4900 6000 } } (fun d =>
      d.sound.voice.source == .link 7 && d.sound.lastEnd == .preempted) = true := by decide +kernel

theorem witness_PeerTimersReached :
    let c : Peer → Chip := fun x => lab.linked { lab.link with peer := lab.link.peer.set 7 (some x) }
    let subbed : Word → Chip := fun t => lab.linked { lab.link with
      sub := lab.link.sub.set 3 (some ⟨7, 7, 1, 20, false, t, 0, 0⟩) }
    (lab.inv = true ∧ lab.unwatched = true ∧ lab.on .link = true)
    ∧ ((c { driver7 with silence := 30000 }).inv = true ∧ lab.link.settings.aging ≠ 0
      ∧ 1000 * lab.link.settings.aging ≤ ({ driver7 with silence := 30000 }).silence
      ∧ ¬ 1000 * lab.link.settings.aging ≤ ({ driver7 with silence := 29999 }).silence)
    ∧ (reached lab.control.ms 5000 = true ∧ reached lab.control.ms lab.link.stormEnd = false
      ∧ (lab.linked { lab.link with stormEnd := 5000 }).inv = true ∧ (5000 : Word).toNat + 50 < 2 ^ 32)
    ∧ ((c { driver7 with held := some 5000 }).inv = true ∧ reached lab.control.ms 5001 = false)
    ∧ ((subbed 5000).inv = true ∧ (subbed 5000).link.sub[(3 : Fin 4)] = some ⟨7, 7, 1, 20, false, 5000, 0, 0⟩)
    ∧ ((lab.blocks .off).inv = true ∧ (lab.blocks .off).on .link = false) := by decide +kernel

theorem witness_LinkLatchesTaken :
    let r : LinkRec := ⟨1, 8, 255, 255, 254, 47, 48, 2000⟩
    let desc : Chip := lab.linked { lab.link with
      desc := lab.link.desc.set 15 (some ⟨0, 7, 1, 0, 0, [47], true⟩), order := [15] }
    (lab.ready = true ∧ lab.on .link = true ∧ r.valid = true ∧ ({ r with driverLimit := 9 }).valid = false
      ∧ ({ r with falling := 255 }).valid = false ∧ ({ r with low := 48 }).valid = false
      ∧ ({ r with holdTimeout := 99 }).valid = false)
    ∧ ((lab.blocks .off).ready = true ∧ (lab.blocks .off).on .link = false)
    ∧ ((judged (some driver7) RxFrame.new).ready = true ∧ 0 < (judged (some driver7) RxFrame.new).link.driverCount
      ∧ (judged (some driver7) RxFrame.new).link.driverCount ≤ 8)
    ∧ (r.settings ≠ lab.link.settings ∧ ({} : LinkRec).settings = lab.link.settings)
    ∧ ((∀ k : Fin 16, (16 : Word).toNat ≠ k.val) ∧ lab.link.desc[(15 : Fin 16)] = none)
    ∧ (desc.ready = true ∧ desc.on .link = true ∧ (15 : Word).toNat = (15 : Fin 16).val
      ∧ desc.link.desc[(15 : Fin 16)] ≠ none) := by decide +kernel

theorem witness_OutboundSlotLatched :
    let queued : Chip := lab.linked { lab.link with out := lab.link.out.set 3 { OutSlot.reset with state := .queued } }
    let down : Chip := { lab with pins := { lab.pins with linkReady := false } }
    (lab.ready = true ∧ lab.on .link = true ∧ lab.pins.linkReady = true ∧ lab.link.out[(3 : Fin 4)].state = .free)
    ∧ (queued.ready = true ∧ queued.link.out[(3 : Fin 4)].state = .queued)
    ∧ (1000 < (1001 : Half).toNat ∧ (1000 : Half).toNat ≤ 1000)
    ∧ (down.ready = true ∧ down.on .link = true ∧ down.pins.linkReady = false)
    ∧ ((lab.blocks .off).ready = true ∧ (lab.blocks .off).on .link = false ∧ (lab.blocks .off).resetting .link = false)
    ∧ ((lab.blocks .resetting).ready = true ∧ (lab.blocks .resetting).resetting .link = true) := by decide +kernel

/-- A peer of this chip, in slot 7 alone, is held by no tag. -/
theorem judged_notHeld (f : RxFrame) (tag : Word) (q : Fin 8) (y : Peer)
    (hy : (judged (some driver7) f).link.peer[q] = some y) : ¬ (y.tag = tag ∧ y.held ≠ none) := by
  match q with
  | 0 | 1 | 2 | 3 | 4 | 5 | 6 => exact nomatch hy
  | 7 => cases hy; exact fun h => h.2 rfl

/-- Each source alone in the transmitter's order, with the peer of slot 7 joined and not held. -/
theorem witness_TransmitterChooses :
    let base : Link := { (judged (some driver7) RxFrame.new).link with finishing := none }
    let sub : Subscription := ⟨7, 7, 1, 20, true, 0, 1000, 0⟩
    let slot : Word → Nat → Link := fun dest n => { base with
      out := base.out.set 3 { OutSlot.reset with state := .queued, dest := dest, length := n }, outOrder := [3] }
    (lab.linked base).inv = true ∧ (lab.linked base).linkUp = true ∧ base.tx = none ∧ (lab.blocks .off).linkUp = false
    ∧ (∀ (q : Fin 8) (y : Peer) (tag : Word), base.peer[q] = some y → ¬ (y.tag = tag ∧ y.held ≠ none))
    ∧ ((lab.linked { base with poolFrame := .hold }).inv = true ∧ base.poolFrame = .none)
    ∧ ((lab.linked { base with replies := [⟨7, [1]⟩] }).inv = true ∧ base.replies = [])
    ∧ ((lab.linked { base with alarms := [7] }).inv = true ∧ base.alarms = [])
    ∧ ((lab.linked (slot 7 1000)).inv = true ∧ (lab.linked (slot 0 0)).inv = true
      ∧ (slot 8 0).outOrder = [] ++ 3 :: [] ∧ (slot 8 0).out[(3 : Fin 4)].dest ≠ 0)
    ∧ ((lab.linked { base with sub := base.sub.set 3 (some sub) }).inv = true ∧ sub.due = true
      ∧ base.outOrder = [] ∧ (∀ k : Fin 4, base.sub[k] = none)) :=
  ⟨by decide +kernel, by decide, rfl, by decide, fun q y tag => judged_notHeld RxFrame.new tag q y, by decide +kernel,
    by decide +kernel, by decide +kernel, by decide +kernel, by decide +kernel⟩

/-- A MAIL of 65 bytes whose first stretch is fetched, begun or not; one whose body is sent; a frame of no slot. -/
theorem witness_FrameBodySentAndEnded :
    let x : MailTx := ⟨3, 65, true, 1, 0, false⟩
    let t : Option MailTx → Sending := fun m => ⟨7, 0x20, 0, [], m⟩
    let c : Option MailTx → Chip := fun m => { lab.port (.part (.bodyFetch 0xFF1C40 1) false) with
      link := { lab.link with tx := some (t m) } }
    ((c (some x)).inv = true ∧ (c (some x)).link.tx = some (t (some x)) ∧ (t (some x)).mail = some x ∧ x.begun = true)
    ∧ (({ x with begun := false }).begun = false ∧ (c (some { x with begun := false })).inv = true
      ∧ (lab.port (.part (.bodyFetch 0xFF1C40 1) true)).inv = true)
    ∧ (x.sent < x.fetched ∧ x.sent ≠ (x.length + 63) / 64 ∧ ({ x with sent := 1 }).fetched ≤ ({ x with sent := 1 }).sent)
    ∧ ((c none).inv = true ∧ (t none).mail = none ∧ ({ x with fetched := 2, sent := 2 }).sent = (x.length + 63) / 64
      ∧ (c (some { x with fetched := 2, sent := 2 })).inv = true) ∧ lab.link.tx = none := by decide +kernel

end Sys2Proof.Tests
end

section
namespace Sys2Proof.Machine.Chip

/-! ## What a command does not touch

From c to d the invariant is kept, and memory, shadows, lines, response and counter stay (`Rest`): one lemma for each
operation that is no store, whatever chip c the change is counted from. -/

/-- From c to d the invariant is kept, and memory, shadows, lines, the last response and the counter stay. -/
structure Rest (c d : Chip) : Prop where
  inv : c.inv = true → d.inv = true
  mem : d.mem = c.mem
  shadow : d.shadow = c.shadow
  pins : d.pins = c.pins
  response : d.path.response = c.path.response
  ms : d.control.ms = c.control.ms

theorem Rest.refl (c : Chip) : Rest c c := ⟨id, rfl, rfl, rfl, rfl, rfl⟩

variable {c d e : Chip}

/-- A further change that keeps the invariant and touches none of the rest. -/
theorem Rest.step (h : Rest c d) (hi : d.inv = true → e.inv = true) (hm : e.mem = d.mem) (hs : e.shadow = d.shadow)
    (hp : e.pins = d.pins) (hr : e.path.response = d.path.response) (ht : e.control.ms = d.control.ms) : Rest c e :=
  ⟨fun h' => hi (h.inv h'), hm.trans h.mem, hs.trans h.shadow, hp.trans h.pins, hr.trans h.response, ht.trans h.ms⟩

theorem Rest.trans (h : Rest c d) (k : Rest d e) : Rest c e := h.step k.inv k.mem k.shadow k.pins k.response k.ms

theorem ite_rest {p : Prop} [Decidable p] (h : Rest c d) (k : Rest c e) : Rest c (if p then d else e) := by
  split_ifs
  · exact h
  · exact k

/-! ### Updates of one part -/

@[simp] theorem rest_control (x : Control) (hx : x.ms = d.control.ms) (h : Rest c d) :
    Rest c { d with control := x } := h.step id rfl rfl rfl rfl hx
@[simp] theorem rest_motor (x : Motor) (h : Rest c d) : Rest c { d with motor := x } := h.step id rfl rfl rfl rfl rfl
@[simp] theorem rest_sense (x : Sense) (h : Rest c d) : Rest c { d with sense := x } := h.step id rfl rfl rfl rfl rfl
@[simp] theorem rest_input (x : Inputs) (h : Rest c d) : Rest c { d with input := x } := h.step id rfl rfl rfl rfl rfl
@[simp] theorem rest_reflex (x : Reflex) (h : Rest c d) : Rest c { d with reflex := x } :=
  h.step id rfl rfl rfl rfl rfl
@[simp] theorem rest_sound (x : Sound) (h : Rest c d) : Rest c { d with sound := x } := h.step id rfl rfl rfl rfl rfl
theorem rest_path (x : Path) (hp : x.pubs = d.path.pubs) (hc : x.count = d.path.count)
    (hq : x.quietElapsed = d.path.quietElapsed) (hr : x.response = d.path.response) (h : Rest c d) :
    Rest c { d with path := x } := h.step (inv_path d x hp hc hq).trans rfl rfl rfl hr rfl
theorem inv_replies (h : d.inv = true) : d.link.replies.length ≤ Config.replyQueueSize :=
  ((inv_iff d).mp h).2.2.2.2.2.2.1
/-- The link changes, and its reply queue grows no longer. -/
theorem rest_link (x : Link) (hx : x.replies.length ≤ d.link.replies.length) (h : Rest c d) :
    Rest c { d with link := x } :=
  h.step (fun hi => inv_link d x (hx.trans (inv_replies hi)) hi) rfl rfl rfl rfl rfl
theorem modLink_rest (f : Link → Link) (hf : ∀ l : Link, (f l).replies.length ≤ l.replies.length) (h : Rest c d) :
    Rest c (modLink f d) := rest_link _ (hf _) h
@[simp] theorem modCh_rest (m : Fin 4) (f : Channel → Channel) (h : Rest c d) : Rest c (modCh m f d) := rest_motor _ h
@[simp] theorem modSlot_rest (k : Fin 8) (f : SampleSlot → SampleSlot) (h : Rest c d) : Rest c (modSlot k f d) :=
  rest_sense _ h
@[simp] theorem modInput_rest (n : Fin 11) (f : InputLine → InputLine) (h : Rest c d) : Rest c (modInput n f d) :=
  rest_input _ h
@[simp] theorem modEntry_rest (i : Fin 8) (f : ReflexEntry → ReflexEntry) (h : Rest c d) : Rest c (modEntry i f d) :=
  rest_reflex _ h
@[simp] theorem modPeer_rest (p : Fin 8) (f : Peer → Peer) (h : Rest c d) : Rest c (modPeer p f d) :=
  rest_link _ le_rfl h
@[simp] theorem setSub_rest (k : Fin 4) (x : Option Subscription) (h : Rest c d) : Rest c (setSub k x d) :=
  rest_link _ le_rfl h
@[simp] theorem modOut_rest (k : Fin 4) (f : OutSlot → OutSlot) (h : Rest c d) : Rest c (modOut k f d) :=
  rest_link _ le_rfl h
@[simp] theorem setVoice_rest (v : Voice) (h : Rest c d) : Rest c (setVoice v d) := rest_sound _ h
@[simp] theorem setMode_rest (m : Fin 4) (x : Mode) (h : Rest c d) : Rest c (setMode m x d) := rest_motor _ h
@[simp] theorem place_rest (q : PartReq) (h : Rest c d) : Rest c (place q d) := rest_path _ rfl rfl rfl rfl h
@[simp] theorem freePort_rest (h : Rest c d) : Rest c (freePort d) := rest_path _ rfl rfl rfl rfl h

/-! ### Shared operations -/

@[simp] theorem publish_rest (r : RecId) (h : Rest c d) : Rest c (publish r d) :=
  h.step (publish_inv r d) (by simp) (by simp) (by simp) (by rw [publish_path]; rfl) (by simp)
@[simp] theorem publishIf_rest (b : Bool) (r : RecId) (h : Rest c d) : Rest c (publishIf b r d) :=
  h.step (publishIf_inv b r d) (by simp) (by simp) (by simp) (by simp) (by simp)
@[simp] theorem markStale_rest (r : RecId) (h : Rest c d) : Rest c (markStale r d) :=
  h.step (markStale_inv r d) (by simp) (by simp) (by simp) (by simp) (by simp)
@[simp] theorem reportLatch_rest (o : Nat) (x : Code) (h : Rest c d) : Rest c (reportLatch o x d) :=
  h.step (reportLatch_inv o x d) (by simp) (by simp) (by simp) (by simp) (by simp)
@[simp] theorem withdraw_rest (k : PartReq → Bool) (h : Rest c d) : Rest c (withdraw k d) :=
  h.step (withdraw_inv k d) (by simp) (by simp) (by simp) (by simp) (by simp)
@[simp] theorem raiseCause_rest (k : Cause) (h : Rest c d) : Rest c (raiseCause k d) :=
  h.step (raiseCause_inv k d) (by simp) (by simp) (by simp) (by simp) (by simp)
@[simp] theorem takeCause_rest (k : Option (Fin 10)) (h : Rest c d) : Rest c (takeCause k d) :=
  h.step (takeCause_inv k d) (by simp) (by simp) (by simp) (by simp) (by simp)
@[simp] theorem clearCauses_rest (h : Rest c d) : Rest c (clearCauses d) :=
  h.step (clearCauses_inv d) (by simp) (by simp) (by simp) (by simp) (by simp)
@[simp] theorem setCauseEnables_rest (x : Vector Bool 10) (h : Rest c d) : Rest c (setCauseEnables x d) :=
  h.step (setCauseEnables_inv x d) (by simp) (by simp) (by simp) (by simp) (by simp)
@[simp] theorem append_rest (k : EventKind) (x y : Byte) (h : Rest c d) : Rest c (append k x y d) :=
  h.step (append_inv k x y d) (by simp) (by simp) (by simp) (by simp) (by simp)
@[simp] theorem flushRing_rest (h : Rest c d) : Rest c (flushRing d) :=
  h.step (flushRing_inv d) (by simp) (by simp) (by simp) (by simp) (by simp)
@[simp] theorem entryPublished_rest (i : Fin 32) (h : Rest c d) : Rest c (entryPublished i d) :=
  h.step (entryPublished_inv i d) (by simp) (by simp) (by simp) (by simp) (by simp)
@[simp] theorem popEvent_rest (i : Fin 32) (h : Rest c d) : Rest c (popEvent i d) :=
  h.step (popEvent_inv i d) (by simp) (by simp) (by simp) (by simp) (by simp)
@[simp] theorem runDone_rest (m : Fin 4) (x : Code) (h : Rest c d) : Rest c (runDone m x d) := append_rest _ _ _ h
@[simp] theorem endOperation_rest (m : Fin 4) (x : Code) (h : Rest c d) : Rest c (endOperation m x d) :=
  h.step (endOperation_inv m x d) (by simp) (by simp) (by simp) (by simp) (by simp)
@[simp] theorem claimLost_rest (m : Fin 4) (o : Owner) (x : Code) (h : Rest c d) : Rest c (claimLost m o x d) :=
  h.step (claimLost_inv m o x d) (by simp) (by simp) (by simp) (by simp) (by simp)
@[simp] theorem releaseClaim_rest (m : Fin 4) (x : Code) (h : Rest c d) : Rest c (releaseClaim m x d) :=
  h.step (releaseClaim_inv m x d) (by simp) (by simp) (by simp) (by simp) (by simp)
@[simp] theorem motorAct_rest (o : Owner) (w : Word) (x : MotorCmd) (m : Fin 4) (h : Rest c d) :
    Rest c (motorAct o w x m d) :=
  h.step (motorAct_inv o w x m d) (by simp) (by simp) (by simp) (by simp) (by simp)
@[simp] theorem endSound_rest (x : Code) (h : Rest c d) : Rest c (endSound x d) :=
  h.step (endSound_inv x d) (by simp) (by simp) (by simp) (by simp) (by simp)
@[simp] theorem startTone_rest (o : Owner) (f v t : Nat) (h : Rest c d) : Rest c (startTone o f v t d) :=
  h.step (startTone_inv o f v t d) (by simp) (by simp) (by simp) (by simp) (by simp)
@[simp] theorem placeDescRead_rest (a : Word) (h : Rest c d) : Rest c (placeDescRead a d) := place_rest _ h
@[simp] theorem startStream_rest (v : Nat) (f : Bool) (a : Word) (h : Rest c d) : Rest c (startStream v f a d) :=
  h.step (startStream_inv v f a d) (by simp) (by simp) (by simp) (by simp) (by simp)
@[simp] theorem fire_rest (i : Fin 8) (h : Rest c d) : Rest c (fire i d) :=
  h.step (fire_inv i d) (by simp) (by simp) (by simp) (by simp) (by simp)
@[simp] theorem handChange_rest (h : Rest c d) : Rest c (handChange d) :=
  h.step (handChange_inv d) (by simp) (by simp) (by simp) (by simp) (by simp)
@[simp] theorem setProcQuiet_rest (b : Bool) (h : Rest c d) : Rest c (setProcQuiet b d) :=
  h.step (setProcQuiet_inv b d) (by simp) (by simp) (by simp) (by simp) (by simp)
theorem touch_rest (h : Rest c d) : Rest c (touch d) :=
  h.step (touch_inv d) (by simp) (by simp) (by simp) (by simp) (by simp)

theorem forEach_rest {α : Type} (xs : List α) (f : α → Chip → Chip) (h : Rest c d)
    (hf : ∀ x ∈ xs, ∀ e : Chip, Rest c e → Rest c (f x e)) : Rest c (forEach xs f d) :=
  forEach_inv (fun e => Rest c e) d h hf

/-! ### The motor unit -/

@[simp] theorem motorResult_rest (m : Fin 4) (x : Code) (h : Rest c d) : Rest c (motorResult m x d) := by
  unfold motorResult; dsimp only; split_ifs <;> simp (maxDischargeDepth := 9) [h]
theorem motorRequest_rest (q : Owner) (w : Word) (x : MotorCmd) (m : Fin 4) (h : Rest c d) :
    Rest c (motorRequest q w x m d).1 := by
  unfold motorRequest; dsimp only; split_ifs <;> simp (maxDischargeDepth := 9) [h]
@[simp] theorem motorLatch_rest (m : Fin 4) (r : MotorSlot) (n : Nat) (h : Rest c d) : Rest c (motorLatch m r n d) := by
  unfold motorLatch
  cases r.command n with
  | none => exact motorResult_rest _ _ h
  | some x =>
    dsimp only
    split_ifs
    · exact motorResult_rest _ _ h
    · exact motorResult_rest _ _ h
    · exact motorResult_rest _ _ (motorRequest_rest _ _ _ _ (modCh_rest _ _ h))
@[simp] theorem claimExpiry_rest (m : Fin 4) (h : Rest c d) : Rest c (claimExpiry m d) := by
  unfold claimExpiry; split
  · split_ifs <;> simp (maxDischargeDepth := 9) [h]
  · exact h
theorem stageEvent_rest (m : Fin 4) (f : Word → Channel → Channel) (h : Rest c d) : Rest c (stageEvent m f d) :=
  publishIf_rest _ _ (modCh_rest _ _ h)
@[simp] theorem pwmBoundary_rest (m : Fin 4) (h : Rest c d) : Rest c (pwmBoundary m d) := by
  unfold pwmBoundary; split_ifs
  · exact stageEvent_rest _ _ h
  · exact h
@[simp] theorem passageEnd_rest (m : Fin 4) (h : Rest c d) : Rest c (passageEnd m d) := by
  unfold passageEnd; split_ifs
  · exact stageEvent_rest _ _ h
  · exact h
@[simp] theorem countStep_rest (m : Fin 4) (x : Int) (h : Rest c d) : Rest c (countStep m x d) := by
  unfold countStep
  refine publish_rest _ ?_
  split
  · split_ifs <;> simp (maxDischargeDepth := 9) [h]
  · exact modCh_rest _ _ h
@[simp] theorem pulseExpiry_rest (m : Fin 4) (h : Rest c d) : Rest c (pulseExpiry m d) := by
  unfold pulseExpiry; split
  · split_ifs <;> simp (maxDischargeDepth := 9) [h]
  · exact h
@[simp] theorem speedWindow_rest (h : Rest c d) : Rest c (speedWindow d) := by
  unfold speedWindow; split_ifs
  · exact rest_motor _ (forEach_rest _ _ h (fun _ _ _ he => publishIf_rest _ _ (modCh_rest _ _ he)))
  · exact h
@[simp] theorem stallExpiry_rest (m : Fin 4) (h : Rest c d) : Rest c (stallExpiry m d) := by
  unfold stallExpiry enterStalled; split_ifs
  · simp (maxDischargeDepth := 9) [h]
  · exact h
@[simp] theorem coolingEnd_rest (m : Fin 4) (h : Rest c d) : Rest c (coolingEnd m d) := by
  unfold coolingEnd; split
  · split_ifs <;> simp (maxDischargeDepth := 9) [h]
  · exact h
@[simp] theorem motorTurnOn_rest (h : Rest c d) : Rest c (motorTurnOn d) :=
  forEach_rest _ _ (rest_motor _ h) (fun _ _ _ he => publishIf_rest _ _ (modCh_rest _ _ he))
@[simp] theorem motorLeaveOn_rest (h : Rest c d) : Rest c (motorLeaveOn d) := by
  unfold motorLeaveOn
  refine rest_motor _ (forEach_rest _ _ (forEach_rest _ _ (forEach_rest _ _ h ?_) ?_) ?_)
  · exact fun _ _ _ he => endOperation_rest _ _ he
  · exact fun _ _ _ he => modCh_rest _ _ he
  · intro m _ e he
    dsimp only
    split_ifs <;> simp (maxDischargeDepth := 9) [he]
@[simp] theorem releasePeerClaims_rest (p : Fin 8) (x : Code) (h : Rest c d) : Rest c (releasePeerClaims p x d) := by
  unfold releasePeerClaims; split_ifs
  · exact forEach_rest _ _ h (fun m _ e he => by split_ifs <;> simp (maxDischargeDepth := 9) [he])
  · exact h
theorem motorMessage_rest (p : Fin 8) (b : Bool) (bs : List Byte) (h : Rest c d) :
    Rest c (motorMessage p b bs d).1 := by
  unfold motorMessage
  dsimp only
  split
  · exact h
  · exact h
  · split_ifs
    · exact h
    · exact h
    · exact motorRequest_rest _ _ _ _ h

/-! ### The sense unit -/

@[simp] theorem setScan_rest (x : ScanState) (p : Fin 8) (h : Rest c d) : Rest c (setScan x p d) :=
  publish_rest _ (rest_sense _ h)
@[simp] theorem convert_rest (k : Fin 8) (h : Rest c d) : Rest c (convert k d) := setScan_rest _ _ (rest_sense _ h)
@[simp] theorem storeSample_rest (k : Fin 8) (v : BitVec 12) (w : Word) (h : Rest c d) :
    Rest c (storeSample k v w d) := by
  unfold storeSample; dsimp only; split_ifs <;> simp (maxDischargeDepth := 9) [h]
@[simp] theorem scanEnd_rest (h : Rest c d) : Rest c (scanEnd d) := by
  unfold scanEnd
  dsimp only
  split
  · simp (maxDischargeDepth := 9) [h]
  · simp (maxDischargeDepth := 9) [h]
  · split_ifs <;> simp (maxDischargeDepth := 9) [h]
@[simp] theorem scanOn_rest (k : Fin 8) (h : Rest c d) : Rest c (scanOn k d) := by
  unfold scanOn; dsimp only; split_ifs <;> simp (maxDischargeDepth := 9) [h]
@[simp] theorem countLoss_rest (k : Fin 8) (h : Rest c d) : Rest c (countLoss k d) := modSlot_rest _ _ h
@[simp] theorem completed_rest (k : Fin 8) (v : BitVec 12) (h : Rest c d) : Rest c (completed k v d) := by
  unfold completed; split_ifs <;> simp (maxDischargeDepth := 9) [h]
@[simp] theorem conversion_rest (v : BitVec 12) (h : Rest c d) : Rest c (conversion v d) := by
  unfold conversion; split <;> simp (maxDischargeDepth := 9) [h]
@[simp] theorem releaseHold_rest (k : Fin 8) (h : Rest c d) : Rest c (releaseHold k d) := by
  unfold releaseHold; split
  · split_ifs <;> simp (maxDischargeDepth := 9) [h]
  · exact h
@[simp] theorem consumeSample_rest (k : Fin 8) (w : List Byte) (h : Rest c d) : Rest c (consumeSample k w d) := by
  unfold consumeSample; dsimp only; split_ifs <;> simp (maxDischargeDepth := 9) [h]
@[simp] theorem scanResult_rest (x : Code) (h : Rest c d) : Rest c (scanResult x d) := by
  unfold scanResult; split_ifs <;> simp (maxDischargeDepth := 9) [h]
@[simp] theorem cutScan_rest (h : Rest c d) : Rest c (cutScan d) := by
  unfold cutScan; split_ifs <;> simp (maxDischargeDepth := 9) [h]
@[simp] theorem scanStart_rest (h : Rest c d) : Rest c (scanStart d) := convert_rest _ (rest_sense _ (cutScan_rest h))
@[simp] theorem scanHalt_rest (h : Rest c d) : Rest c (scanHalt d) := by
  unfold scanHalt; split_ifs <;> simp (maxDischargeDepth := 9) [h]
@[simp] theorem scanLatch_rest (r : ScanRec) (n : Nat) (h : Rest c d) : Rest c (scanLatch r n d) := by
  unfold scanLatch
  split
  · simp (maxDischargeDepth := 9) [h]
  · split
    · simp (maxDischargeDepth := 9) [h]
    · split
      · simp (maxDischargeDepth := 9) [h]
      · simp (maxDischargeDepth := 9) [h]
      · simp (maxDischargeDepth := 9) [h]
      · split <;> simp (maxDischargeDepth := 9) [h]
@[simp] theorem channelLatch_rest (k : Fin 8) (r : ChannelRec) (h : Rest c d) : Rest c (channelLatch k r d) := by
  unfold channelLatch; dsimp only; split_ifs <;> simp (maxDischargeDepth := 9) [h]
@[simp] theorem intervalExpiry_rest (h : Rest c d) : Rest c (intervalExpiry d) := by
  unfold intervalExpiry; split
  · split_ifs <;> simp (maxDischargeDepth := 9) [h]
  · exact h
@[simp] theorem senseTurnOn_rest (h : Rest c d) : Rest c (senseTurnOn d) := publishIf_rest _ _ (rest_sense _ h)

/-! ### The sound unit -/

@[simp] theorem placeFetch_rest (h : Rest c d) : Rest c (placeFetch d) := by
  unfold placeFetch; split
  · split
    · split_ifs <;> simp (maxDischargeDepth := 9) [h]
    · exact h
  · exact h
@[simp] theorem setStream_rest (x : Stream) (h : Rest c d) : Rest c (setStream x d) := setVoice_rest _ h
@[simp] theorem notReady_rest (x : Stream) (h : Rest c d) : Rest c (notReady x d) := by
  unfold notReady; dsimp only; split <;> simp (maxDischargeDepth := 9) [h]
@[simp] theorem judgeDesc_rest (w : DescWords) (x : Stream) (h : Rest c d) : Rest c (judgeDesc w x d) := by
  unfold judgeDesc; dsimp only; split_ifs <;> simp (maxDischargeDepth := 9) [h]
@[simp] theorem descReadDone_rest (h : Rest c d) : Rest c (descReadDone d) := by
  unfold descReadDone; dsimp only; split
  · split_ifs
    · exact freePort_rest h
    · split <;> simp (maxDischargeDepth := 9) [h]
  · exact h
@[simp] theorem stage_rest (bs : List Byte) (x : Stream) (b : SoundBlock) (h : Rest c d) : Rest c (stage bs x b d) := by
  unfold stage; dsimp only; split_ifs <;> simp (maxDischargeDepth := 9) [h]
@[simp] theorem fetchDone_rest (h : Rest c d) : Rest c (fetchDone d) := by
  unfold fetchDone; dsimp only; split
  · split_ifs
    · exact freePort_rest h
    · split
      · split <;> simp (maxDischargeDepth := 9) [h]
      · exact freePort_rest h
  · exact h
@[simp] theorem blockDone_rest (x : Stream) (h : Rest c d) : Rest c (blockDone x d) := by
  unfold blockDone; split
  · exact h
  · split_ifs <;> simp (maxDischargeDepth := 9) [h]
@[simp] theorem emptyPeriod_rest (x : Stream) (h : Rest c d) : Rest c (emptyPeriod x d) := by
  unfold emptyPeriod; split_ifs <;> simp (maxDischargeDepth := 9) [h]
@[simp] theorem period_rest (h : Rest c d) : Rest c (period d) := by
  unfold period; split
  · split <;> simp (maxDischargeDepth := 9) [h]
  · exact h
@[simp] theorem rereadDue_rest (h : Rest c d) : Rest c (rereadDue d) := by
  unfold rereadDue; split
  · split
    · split_ifs <;> simp (maxDischargeDepth := 9) [h]
    · exact h
  · exact h
@[simp] theorem starvedLimit_rest (h : Rest c d) : Rest c (starvedLimit d) := by
  unfold starvedLimit; split
  · split
    · split_ifs <;> simp (maxDischargeDepth := 9) [h]
    · exact h
  · exact h
@[simp] theorem toneEnd_rest (h : Rest c d) : Rest c (toneEnd d) := by
  unfold toneEnd; split
  · split_ifs <;> simp (maxDischargeDepth := 9) [h]
  · exact h
@[simp] theorem soundResult_rest (x : Code) (h : Rest c d) : Rest c (soundResult x d) := by
  unfold soundResult; split_ifs <;> simp (maxDischargeDepth := 9) [h]
@[simp] theorem soundRequest_rest (x : SoundCmd) (h : Rest c d) : Rest c (soundRequest x d).1 := by
  cases x <;> dsimp only [soundRequest]
  case none => exact h
  case tone => split_ifs <;> simp (maxDischargeDepth := 9) [h]
  case stream => split_ifs <;> simp (maxDischargeDepth := 9) [h]
  case stop => unfold voiceStop; split <;> simp (maxDischargeDepth := 9) [h]
@[simp] theorem soundLatch_rest (r : SoundRec) (n : Nat) (h : Rest c d) : Rest c (soundLatch r n d) := by
  unfold soundLatch; dsimp only; split
  · simp (maxDischargeDepth := 9) [h]
  · split_ifs <;> simp (maxDischargeDepth := 9) [h]
theorem toneMessage_rest (p : Fin 8) (b : Bool) (bs : List Byte) (h : Rest c d) : Rest c (toneMessage p b bs d).1 := by
  unfold toneMessage; dsimp only; split_ifs <;> simp (maxDischargeDepth := 9) [h]
@[simp] theorem soundLeaveOn_rest (h : Rest c d) : Rest c (soundLeaveOn d) := rest_sound _ (endSound_rest _ h)
@[simp] theorem soundTurnOn_rest (h : Rest c d) : Rest c (soundTurnOn d) := publishIf_rest _ _ (rest_sound _ h)

/-! ### The input unit and the reflex unit -/

@[simp] theorem changeStable_rest (n : Fin 11) (h : Rest c d) : Rest c (changeStable n d) := by
  unfold changeStable; dsimp only; split_ifs <;> simp (maxDischargeDepth := 9) [h]
@[simp] theorem judgeEdge_rest (n : Fin 11) (h : Rest c d) : Rest c (judgeEdge n d) := by
  unfold judgeEdge; split_ifs <;> simp (maxDischargeDepth := 9) [h]
@[simp] theorem debounceExpiry_rest (n : Fin 11) (h : Rest c d) : Rest c (debounceExpiry n d) := by
  unfold debounceExpiry; split_ifs <;> simp (maxDischargeDepth := 9) [h]
@[simp] theorem takeInputSettings_rest (n : Fin 11) (x : InputSettings) (h : Rest c d) :
    Rest c (takeInputSettings n x d) := by
  unfold takeInputSettings
  dsimp only
  split_ifs
  · simp (maxDischargeDepth := 9) [h]
  · split
    · simp (maxDischargeDepth := 9) [h]
    · split_ifs <;> simp (maxDischargeDepth := 9) [h]
@[simp] theorem inputLatch_rest (n : Fin 11) (r : InputRec) (h : Rest c d) : Rest c (inputLatch n r d) := by
  unfold inputLatch; dsimp only; split_ifs <;> simp (maxDischargeDepth := 9) [h]
@[simp] theorem inputTurnOn_rest (h : Rest c d) : Rest c (inputTurnOn d) :=
  forEach_rest _ _ (rest_input _ h) (fun _ _ _ he => modInput_rest _ _ he)
@[simp] theorem judgeAllLevels_rest (h : Rest c d) : Rest c (judgeAllLevels d) :=
  forEach_rest _ _ h (fun _ _ _ he => judgeEdge_rest _ he)
@[simp] theorem takeEntry_rest (i : Fin 8) (r : ReflexRec) (h : Rest c d) : Rest c (takeEntry i r d) := by
  unfold takeEntry; dsimp only; split_ifs <;> simp (maxDischargeDepth := 9) [h]
@[simp] theorem reflexLatch_rest (i : Fin 8) (r : ReflexRec) (h : Rest c d) : Rest c (reflexLatch i r d) := by
  unfold reflexLatch; dsimp only; split_ifs <;> simp (maxDischargeDepth := 9) [h]
@[simp] theorem holdExpiryOf_rest (i : Fin 8) (h : Rest c d) : Rest c (holdExpiryOf i d) := by
  unfold holdExpiryOf; split
  · split_ifs <;> simp (maxDischargeDepth := 9) [h]
  · exact h
@[simp] theorem reflexTurnOn_rest (h : Rest c d) : Rest c (reflexTurnOn d) :=
  publishIf_rest _ _ (forEach_rest _ _ h (fun _ _ _ he => modEntry_rest _ _ he))

/-! ### The link's tables -/

@[simp] theorem count_rest (k : Counter) (h : Rest c d) : Rest c (count k d) :=
  publish_rest _ (modLink_rest _ (fun _ => le_rfl) h)
theorem setFree_rest (free : List (Fin 48)) (h : Rest c d) : Rest c (setFree free d) :=
  publishIf_rest _ _ (modLink_rest _ (fun _ => le_rfl) h)
@[simp] theorem returnBlocks_rest (bs : List (Fin 48)) (h : Rest c d) : Rest c (returnBlocks bs d) := setFree_rest _ h
@[simp] theorem dropFrame_rest (x : FrameSide) (f : RxFrame) (h : Rest c d) : Rest c (dropFrame x f d) := by
  refine returnBlocks_rest _ (forEach_rest _ _ h fun b _ e he => ?_)
  dsimp only
  split_ifs
  · exact modLink_rest _ (fun _ => le_rfl) (withdraw_rest _ he)
  · exact modLink_rest _ (fun _ => le_rfl) he
  · exact he
@[simp] theorem discard_rest (k : Counter) (x : FrameSide) (f : RxFrame) (h : Rest c d) : Rest c (discard k x f d) :=
  dropFrame_rest _ _ (count_rest _ h)
/-- A reply is queued behind fewer than eight, or dropped (R170). -/
@[simp] theorem queueReply_rest (t : Word) (s : Byte) (k : FrameKind) (x : Code) (bs : List Byte) (h : Rest c d) :
    Rest c (queueReply t s k x bs d) := by
  unfold queueReply
  split_ifs with hq
  · exact count_rest _ h
  · refine h.step (fun hi => modLink_inv _ _ ?_ hi) rfl rfl rfl rfl rfl
    simp only [List.length_append, List.length_singleton]
    omega
@[simp] theorem cancelSub_rest (p : Fin 8) (h : Rest c d) : Rest c (cancelSub p d) := by
  unfold cancelSub; split
  · exact publish_rest _ (setSub_rest _ _ h)
  · exact h
@[simp] theorem removePeer_rest (p : Fin 8) (x : Code) (h : Rest c d) : Rest c (removePeer p x d) := by
  unfold removePeer
  split
  · exact h
  · refine handChange_rest (publish_rest _ (publish_rest _ (modLink_rest _ (fun _ => le_rfl) ?_)))
    refine raiseCause_rest _ (append_rest _ _ _ (modLink_rest _ (fun l => List.length_filter_le _ _) ?_))
    exact cancelSub_rest _ (releasePeerClaims_rest _ _ h)
theorem removeAllPeers_rest (x : Code) (h : Rest c d) : Rest c (removeAllPeers x d) :=
  forEach_rest _ _ h (fun _ _ _ he => removePeer_rest _ _ he)
@[simp] theorem slotDone_rest (k : Fin 4) (x : Code) (h : Rest c d) : Rest c (slotDone k x d) :=
  raiseCause_rest _ (publish_rest _ (modOut_rest _ _ h))

/-! ### Services -/

@[simp] theorem join_rest (p : Fin 8) (t : Word) (b : Bool) (h : Rest c d) : Rest c (join p t b d) :=
  handChange_rest (raiseCause_rest _ (append_rest _ _ _ (publish_rest _ (publish_rest _
    (modLink_rest _ (fun _ => le_rfl) h)))))
@[simp] theorem helloUnknown_rest (f : RxFrame) (h : Rest c d) : Rest c (helloUnknown f d) := by
  unfold helloUnknown
  dsimp only
  split
  · exact queueReply_rest _ _ _ _ _ h
  · split
    · exact queueReply_rest _ _ _ _ _ (count_rest _ h)
    · split
      · exact queueReply_rest _ _ _ _ _ h
      · split
        · exact queueReply_rest _ _ _ _ _ h
        · exact queueReply_rest _ _ _ _ _ (join_rest _ _ _ h)
@[simp] theorem setRole_rest (p : Fin 8) (b : Bool) (h : Rest c d) : Rest c (setRole p b d) :=
  publish_rest _ (publish_rest _ (modPeer_rest _ _ h))
@[simp] theorem helloJoined_rest (p : Fin 8) (f : RxFrame) (h : Rest c d) : Rest c (helloJoined p f d) := by
  unfold helloJoined
  dsimp only
  split
  · exact queueReply_rest _ _ _ _ _ h
  · split
    · exact queueReply_rest _ _ _ _ _ (releasePeerClaims_rest _ _ (setRole_rest _ _ h))
    · split <;> simp [h]
    · exact queueReply_rest _ _ _ _ _ h
    · exact queueReply_rest _ _ _ _ _ h
@[simp] theorem holdPeer_rest (p : Fin 8) (h : Rest c d) : Rest c (holdPeer p d) := publish_rest _ (modPeer_rest _ _ h)
@[simp] theorem endHold_rest (p : Fin 8) (h : Rest c d) : Rest c (endHold p d) := by
  unfold endHold; split
  · split_ifs <;> simp [h]
  · exact h
theorem subscribe_rest (p : Fin 8) (f : RxFrame) (h : Rest c d) : Rest c (subscribe p f d).1 := by
  unfold subscribe
  dsimp only
  split
  · exact cancelSub_rest _ h
  · split
    · exact h
    · split
      · exact publish_rest _ (setSub_rest _ _ h)
      · exact h
theorem service_rest (k : FrameKind) (p : Fin 8) (f : RxFrame) (h : Rest c d) : Rest c (service k p f d).1 := by
  unfold service
  split
  · exact h
  · split
    · exact motorMessage_rest _ _ _ h
    · exact toneMessage_rest _ _ _ h
    · exact h
    · exact subscribe_rest _ _ h
    · exact h
theorem mail_rest (p : Fin 8) (f : RxFrame) (h : Rest c d) : Rest c (mail p f d).1 := by
  unfold mail
  split
  · exact returnBlocks_rest _ (count_rest _ h)
  · dsimp only
    split_ifs
    · exact raiseCause_rest _ (markStale_rest _ (publish_rest _ (modLink_rest _ (fun _ => le_rfl) h)))
    · exact markStale_rest _ (publish_rest _ (modLink_rest _ (fun _ => le_rfl) h))
@[simp] theorem countStorm_rest (p : Fin 8) (h : Rest c d) : Rest c (countStorm p d) := by
  unfold countStorm; split
  · exact h
  · exact publishIf_rest _ _ (modPeer_rest _ _ h)
@[simp] theorem hear_rest (p : Fin 8) (h : Rest c d) : Rest c (hear p d) := publish_rest _ (modPeer_rest _ _ h)
theorem handle_rest (k : FrameKind) (p : Fin 8) (f : RxFrame) (h : Rest c d) : Rest c (handle k p f d) := by
  unfold handle
  split
  · exact returnBlocks_rest _ (helloJoined_rest _ _ h)
  · exact returnBlocks_rest _ (removePeer_rest _ _ h)
  · exact returnBlocks_rest _ (holdPeer_rest _ h)
  · exact returnBlocks_rest _ (endHold_rest _ h)
  · exact queueReply_rest _ _ _ _ _ (mail_rest _ _ h)
  · exact returnBlocks_rest _ (queueReply_rest _ _ _ _ _ (service_rest _ _ _ h))
theorem judgeFrame_rest (f : RxFrame) (h : Rest c d) : Rest c (judgeFrame f d) := by
  unfold judgeFrame
  split
  · exact discard_rest _ _ _ h
  · cases d.findPeer f.tag with
    | none =>
      dsimp only
      split
      · exact discard_rest _ _ _ h
      · split_ifs
        · exact discard_rest _ _ _ h
        · exact returnBlocks_rest _ (helloUnknown_rest _ h)
        · exact discard_rest _ _ _ h
    | some p =>
      have h1 := countStorm_rest p h
      dsimp only
      split
      · exact discard_rest _ _ _ h1
      · split_ifs
        · exact discard_rest _ _ _ h1
        · exact discard_rest _ _ _ h1
        · exact handle_rest _ _ _ (hear_rest _ h1)
@[simp] theorem frameJudge_rest (h : Rest c d) : Rest c (frameJudge d) := by
  unfold frameJudge; split
  · exact judgeFrame_rest _ (modLink_rest _ (fun _ => le_rfl) h)
  · exact h

/-! ### The receiver -/

@[simp] theorem setReceiver_rest (x : Receiver) (h : Rest c d) : Rest c (setReceiver x d) :=
  modLink_rest _ (fun _ => le_rfl) h
theorem headerByte_rest (f : RxFrame) (b : Byte) (h : Rest c d) : Rest c (headerByte f b d) := by
  unfold headerByte; dsimp only; split_ifs <;> simp (maxDischargeDepth := 9) [h]
theorem storeChunk_rest (f : RxFrame) (h : Rest c d) : Rest c (storeChunk f d) := by
  unfold storeChunk
  exact modLink_rest _ (fun _ => le_rfl) (place_rest _ h)
theorem keepByte_rest (f : RxFrame) (b : Byte) (h : Rest c d) : Rest c (keepByte f b d) :=
  setReceiver_rest _ (ite_rest (storeChunk_rest _ (modLink_rest _ (fun _ => le_rfl) h))
    (modLink_rest _ (fun _ => le_rfl) h))
theorem payloadByte_rest (f : RxFrame) (b : Byte) (h : Rest c d) : Rest c (payloadByte f b d) := by
  unfold payloadByte discardInPayload takeBlock
  split_ifs
  · exact setReceiver_rest _ (discard_rest _ _ _ h)
  · exact keepByte_rest _ _ h
  · exact setReceiver_rest _ (discard_rest _ _ _ h)
  · split
    · exact keepByte_rest _ _ (setFree_rest _ h)
    · exact keepByte_rest _ _ h
theorem crcFieldByte_rest (f : RxFrame) (b : Byte) (h : Rest c d) : Rest c (crcFieldByte f b d) := by
  unfold crcFieldByte
  dsimp only
  split_ifs
  · exact setReceiver_rest _ h
  · exact discard_rest _ _ _ (setReceiver_rest _ h)
  · exact modLink_rest _ (fun _ => le_rfl) (setReceiver_rest _ h)
@[simp] theorem rxByte_rest (b : Byte) (h : Rest c d) : Rest c (rxByte b d) := by
  unfold rxByte
  split
  · exact h
  · split
    · split
      · exact setReceiver_rest _ h
      · exact h
    · exact headerByte_rest _ _ h
    · exact payloadByte_rest _ _ h
    · exact crcFieldByte_rest _ _ h
    · exact setReceiver_rest _ h
    · exact h
@[simp] theorem lineGap_rest (h : Rest c d) : Rest c (lineGap d) := by
  unfold lineGap; split_ifs
  · exact h
  · split <;> simp [h]

/-! ### The transmitter -/

@[simp] theorem beginFrame_rest (w : Word) (k : FrameKind) (bs : List Byte) (h : Rest c d) :
    Rest c (beginFrame w k bs d) := modLink_rest _ (fun _ => le_rfl) h
@[simp] theorem beginReport_rest (k : Fin 4) (h : Rest c d) : Rest c (beginReport k d) := by
  unfold beginReport; split
  · exact h
  · exact publish_rest _ (setSub_rest _ _ (beginFrame_rest _ _ _ h))
@[simp] theorem beginMail_rest (k : Fin 4) (h : Rest c d) : Rest c (beginMail k d) := by
  unfold beginMail; split
  · exact h
  · split
    · exact h
    · exact publish_rest _ (modOut_rest _ _ (modLink_rest _ (fun _ => le_rfl) h))
@[simp] theorem placeBody_rest (h : Rest c d) : Rest c (placeBody d) := by
  unfold placeBody; split
  · exact h
  · split
    · exact h
    · split_ifs
      · exact place_rest _ (modLink_rest _ (fun _ => le_rfl) h)
      · exact h
@[simp] theorem sendSlot_rest (k : Fin 4) (h : Rest c d) : Rest c (sendSlot k d) := by
  unfold sendSlot
  dsimp only
  split_ifs
  · exact beginMail_rest _ (modLink_rest _ (fun _ => le_rfl) (publish_rest _ (modOut_rest _ _ h)))
  · exact placeBody_rest (modLink_rest _ (fun _ => le_rfl) (publish_rest _ (modOut_rest _ _ h)))
@[simp] theorem transmitFrom_rest (n : Nat) (h : Rest c d) : Rest c (transmitFrom n d) := by
  induction n generalizing d with
  | zero => exact h
  | succ n ih =>
    unfold transmitFrom
    split
    · exact h
    · exact beginFrame_rest _ _ _ (modLink_rest _ (fun _ => le_rfl) h)
    · split
      · exact beginFrame_rest _ _ _ (modLink_rest _ (fun l => List.length_eraseIdx_le _ _) h)
      · exact h
    · exact beginFrame_rest _ _ _ (modLink_rest _ (fun _ => le_rfl) h)
    · dsimp only
      split_ifs
      · exact ih (slotDone_rest _ _ (modLink_rest _ (fun _ => le_rfl) h))
      · exact sendSlot_rest _ (modLink_rest _ (fun _ => le_rfl) h)
    · exact beginReport_rest _ h
@[simp] theorem transmitBegin_rest (h : Rest c d) : Rest c (transmitBegin d) := by
  unfold transmitBegin; split_ifs <;> simp [h]
@[simp] theorem bodyFetchDone_rest (h : Rest c d) : Rest c (bodyFetchDone d) := by
  unfold bodyFetchDone
  split
  · dsimp only
    split_ifs
    · exact freePort_rest h
    · split
      · exact freePort_rest h
      · split
        · exact freePort_rest h
        · refine placeBody_rest ?_
          split_ifs
          · exact modLink_rest _ (fun _ => le_rfl) (freePort_rest h)
          · exact beginMail_rest _ (modLink_rest _ (fun _ => le_rfl) (freePort_rest h))
  · exact h
@[simp] theorem bodyBufferSent_rest (h : Rest c d) : Rest c (bodyBufferSent d) := by
  unfold bodyBufferSent; split
  · exact h
  · split
    · exact h
    · split_ifs
      · exact placeBody_rest (modLink_rest _ (fun _ => le_rfl) h)
      · exact h
@[simp] theorem transmitEnd_rest (h : Rest c d) : Rest c (transmitEnd d) := by
  unfold transmitEnd; split
  · exact h
  · dsimp only
    split_ifs
    · exact h
    · split
      · exact modLink_rest _ (fun _ => le_rfl) h
      · exact slotDone_rest _ _ (modLink_rest _ (fun _ => le_rfl) h)

/-! ### The link's state, timers and latches -/

theorem giveUpFrames_rest (h : Rest c d) : Rest c (giveUpFrames d) := by
  unfold giveUpFrames
  have h1 : Rest c (match d.link.finishing with
      | some f => (d.modLink (fun l => { l with finishing := none })).dropFrame .finishing f
      | none => d) := by
    split
    · exact dropFrame_rest _ _ (modLink_rest _ (fun _ => le_rfl) h)
    · exact h
  refine setReceiver_rest _ ?_
  split
  · exact dropFrame_rest _ _ h1
  · exact dropFrame_rest _ _ h1
  · exact dropFrame_rest _ _ h1
  · exact h1
  · exact h1
theorem endSlots_rest (x : Code) (h : Rest c d) : Rest c (endSlots x d) :=
  modLink_rest _ (fun _ => le_rfl) (forEach_rest _ _ h fun _ _ _ he => by split_ifs <;> simp [he])
theorem linkStateDown_rest (h : Rest c d) : Rest c (linkStateDown d) := handChange_rest (publish_rest _ h)
theorem abandonFrame_rest (h : Rest c d) : Rest c (abandonFrame d) :=
  modLink_rest _ (fun _ => le_rfl) (withdraw_rest _ h)
theorem linkLost_rest (x : Code) (h : Rest c d) : Rest c (linkLost x d) := by
  unfold linkLost
  exact modLink_rest _ (fun _ => Nat.zero_le _)
    (endSlots_rest _ (abandonFrame_rest (giveUpFrames_rest (removeAllPeers_rest _ h))))
@[simp] theorem ageOut_rest (p : Fin 8) (h : Rest c d) : Rest c (ageOut p d) := by
  unfold ageOut; split_ifs <;> simp [h]
@[simp] theorem stormOf_rest (p : Fin 8) (h : Rest c d) : Rest c (stormOf p d) := by
  unfold stormOf; split
  · exact h
  · exact publishIf_rest _ _ (modPeer_rest _ _ h)
@[simp] theorem stormWindow_rest (h : Rest c d) : Rest c (stormWindow d) := by
  unfold stormWindow; split_ifs
  · exact modLink_rest _ (fun _ => le_rfl) (forEach_rest _ _ h fun _ _ _ he => stormOf_rest _ he)
  · exact h
@[simp] theorem holdOver_rest (p : Fin 8) (h : Rest c d) : Rest c (holdOver p d) := by
  unfold holdOver; split
  · split
    · split_ifs <;> simp [h]
    · exact h
  · exact h
@[simp] theorem subDue_rest (k : Fin 4) (h : Rest c d) : Rest c (subDue k d) := by
  unfold subDue; split
  · split_ifs <;> simp [h]
  · exact h
@[simp] theorem linkLatch_rest (r : LinkRec) (h : Rest c d) : Rest c (linkLatch r d) := by
  unfold linkLatch
  dsimp only
  split_ifs
  · exact reportLatch_rest _ _ h
  · exact reportLatch_rest _ _ h
  · exact reportLatch_rest _ _ h
  · exact reportLatch_rest _ _ h
  · exact reportLatch_rest _ _ (setFree_rest _ (forEach_rest _ _ (modLink_rest _ (fun _ => le_rfl) h)
      fun _ _ _ he => ageOut_rest _ he))
theorem releaseResult_rest (v : Word) (x : Code) (h : Rest c d) : Rest c (releaseResult v x d) :=
  publish_rest _ (modLink_rest _ (fun _ => le_rfl) h)
@[simp] theorem releaseLatch_rest (v : Word) (h : Rest c d) : Rest c (releaseLatch v d) := by
  unfold releaseLatch
  split
  · exact reportLatch_rest _ _ h
  · dsimp only
    split
    · exact releaseResult_rest _ _ (count_rest _ h)
    · exact releaseResult_rest _ _ (publish_rest _ (modLink_rest _ (fun _ => le_rfl) (returnBlocks_rest _ h)))
@[simp] theorem outResult_rest (k : Fin 4) (x : Code) (h : Rest c d) : Rest c (outResult k x d) := by
  unfold outResult; split_ifs <;> simp [h]
@[simp] theorem outLatch_rest (k : Fin 4) (r : OutRec) (n : Nat) (h : Rest c d) : Rest c (outLatch k r n d) := by
  unfold outLatch
  split_ifs
  case pos => exact outResult_rest _ _ h
  case pos => exact outResult_rest _ _ h
  case pos => exact outResult_rest _ _ h
  case pos => exact outResult_rest _ _ h
  case pos => exact outResult_rest _ _ (slotDone_rest _ _ h)
  case pos => exact outResult_rest _ _ (slotDone_rest _ _ h)
  case neg => exact outResult_rest _ _ (modLink_rest _ (fun _ => le_rfl) (modOut_rest _ _ h))
theorem linkLeaveOn_rest (h : Rest c d) : Rest c (linkLeaveOn d) := by
  unfold linkLeaveOn
  refine rest_link _ (Nat.zero_le _) (linkLost_rest _ ?_)
  split_ifs
  · exact linkStateDown_rest h
  · exact h
theorem linkTurnOn_rest (h : Rest c d) : Rest c (linkTurnOn d) :=
  forEach_rest _ _ (publishIf_rest _ _ (modLink_rest _ (fun _ => Nat.zero_le _) h)) fun _ _ _ he => publish_rest _ he

/-! ### Block states -/

theorem setBlock_rest (u : BlockUnit) (b : BlockState) (h : Rest c d) : Rest c (setBlock u b d) :=
  publish_rest _ (rest_control _ rfl h)
theorem startUnit_rest (u : BlockUnit) (h : Rest c d) : Rest c (startUnit u d) := by
  cases u
  · exact motorTurnOn_rest h
  · exact senseTurnOn_rest h
  · exact inputTurnOn_rest h
  · exact reflexTurnOn_rest h
  · exact soundTurnOn_rest h
  · exact linkTurnOn_rest h
theorem turnOn_rest (u : BlockUnit) (h : Rest c d) : Rest c (turnOn u d) := by
  have h1 := handChange_rest (startUnit_rest u (setBlock_rest u .on h))
  cases u
  case input => exact judgeAllLevels_rest h1
  all_goals exact h1
theorem stopUnit_rest (u : BlockUnit) (h : Rest c d) : Rest c (stopUnit u d) := by
  cases u
  · exact motorLeaveOn_rest h
  · exact rest_sense _ h
  · exact rest_input _ h
  · exact rest_reflex _ h
  · exact soundLeaveOn_rest h
  · exact linkLeaveOn_rest h
theorem recordReported_rest (r : RecId) (h : Rest c d) : Rest c (recordReported r d) := by
  unfold recordReported
  dsimp only
  split_ifs
  · split
    · split_ifs
      · exact rest_control _ rfl h
      · exact turnOn_rest _ (rest_control _ rfl h)
      · exact setBlock_rest _ _ (rest_control _ rfl h)
    · exact rest_control _ rfl h
  · exact h
theorem setQuietPeriod_rest (n : Nat) (h : Rest c d) : Rest c (setQuietPeriod n d) :=
  setProcQuiet_rest _ (rest_control _ rfl h)
theorem pulseTimer_rest (h : Rest c d) : Rest c (pulseTimer d) := by
  unfold pulseTimer; split
  · split_ifs
    · exact rest_control _ rfl h
    · exact h
  · exact h
  · exact h
theorem quietExpiry_rest (h : Rest c d) : Rest c (quietExpiry d) := by
  unfold quietExpiry; split_ifs <;> simp [h]
theorem ownerReport_rest (r : RecId) (h : Rest c d) : Rest c (ownerReport r d) := by
  unfold ownerReport
  split
  · exact entryPublished_rest _ h
  · split
    · exact publish_rest _ (modLink_rest _ (fun _ => le_rfl) h)
    · exact h
  · exact h
theorem reportConsuming_rest (x : Window.Consuming) (bs : List Byte) (h : Rest c d) :
    Rest c (reportConsuming x bs d) := by
  cases x
  · exact takeCause_rest _ h
  · exact popEvent_rest _ h
  · exact consumeSample_rest _ _ h

end Sys2Proof.Machine.Chip
end

section
namespace Sys2Proof

/-! ## Processor records read back

The bytes of a processor record mean its fields, and its last word the command. -/

/-- A command code of 32 bits reads back from its word. -/
theorem Bytes.word_code {bs : List Byte} {k n : Nat} (h : Bytes.word bs k = BitVec.ofNat 32 n) (hn : n < 2 ^ 32) :
    (Bytes.word bs k).toNat = n := by
  rw [h, BitVec.toNat_ofNat, Nat.mod_eq_of_lt hn]

theorem ControlRec.ofBytes_toBytes (r : ControlRec) (n : Nat) : ControlRec.ofBytes (r.toBytes n) = r := by
  obtain ⟨enables, attention, quiet⟩ := r
  have he : enables = #v[enables[0], enables[1], enables[2], enables[3], enables[4], enables[5]] := by
    apply Vector.ext
    intro i hi
    interval_cases i <;> rfl
  have ha : attention = #v[attention[0], attention[1], attention[2], attention[3], attention[4], attention[5],
      attention[6], attention[7], attention[8], attention[9]] := by
    apply Vector.ext
    intro i hi
    interval_cases i <;> rfl
  rw [he, ha]
  simp only [ControlRec.ofBytes, ControlRec.mk.injEq]
  exact ⟨rfl, rfl, Bytes.word_eq rfl rfl rfl rfl⟩
theorem ControlRec.code_toBytes (r : ControlRec) {n : Nat} (hn : n < 2 ^ 32) :
    (Bytes.word (r.toBytes n) 60).toNat = n := by
  refine Bytes.word_code (Bytes.word_eq ?_ ?_ ?_ ?_) hn <;>
    simp [ControlRec.toBytes, Bytes.get, Bytes.ofWord, Bytes.zeros]

theorem MotorSlot.ofBytes_toBytes (r : MotorSlot) (n : Nat) : MotorSlot.ofBytes (r.toBytes n) = r := by
  cases r
  simp only [MotorSlot.ofBytes, MotorSlot.mk.injEq]
  exact ⟨Bytes.half_eq rfl rfl, rfl, Bytes.word_eq rfl rfl rfl rfl, Bytes.word_eq rfl rfl rfl rfl, rfl, rfl,
    Bytes.half_eq rfl rfl⟩
theorem MotorSlot.code_toBytes (r : MotorSlot) {n : Nat} (hn : n < 2 ^ 32) :
    (Bytes.word (r.toBytes n) 28).toNat = n := Bytes.word_code (Bytes.word_eq rfl rfl rfl rfl) hn

theorem ScanRec.ofBytes_toBytes (r : ScanRec) (n : Nat) : ScanRec.ofBytes (r.toBytes n) = r := by
  cases r
  simp only [ScanRec.ofBytes, ScanRec.mk.injEq]
  exact ⟨rfl, rfl, rfl, Bytes.half_eq rfl rfl⟩
theorem ScanRec.code_toBytes (r : ScanRec) {n : Nat} (hn : n < 2 ^ 32) :
    (Bytes.word (r.toBytes n) 12).toNat = n := Bytes.word_code (Bytes.word_eq rfl rfl rfl rfl) hn

theorem ChannelRec.ofBytes_toBytes (r : ChannelRec) : ChannelRec.ofBytes r.toBytes = r := by
  cases r
  simp only [ChannelRec.ofBytes, ChannelRec.mk.injEq]
  exact ⟨rfl, rfl, rfl, rfl, Bytes.half_eq rfl rfl, Bytes.half_eq rfl rfl⟩

theorem InputRec.ofBytes_toBytes (r : InputRec) : InputRec.ofBytes r.toBytes = r := rfl

theorem ReflexRec.ofBytes_toBytes (r : ReflexRec) : ReflexRec.ofBytes r.toBytes = r := by
  obtain ⟨_, _, _, _, _, _, _, _, _, _, _, _, _, _, motors, _, _⟩ := r
  obtain ⟨m0, m1, m2, m3, rfl⟩ : ∃ m0 m1 m2 m3 : Byte, motors = #v[m0, m1, m2, m3] := by
    refine ⟨motors[0], motors[1], motors[2], motors[3], Vector.ext fun i hi => ?_⟩
    interval_cases i <;> rfl
  simp only [ReflexRec.ofBytes, ReflexRec.mk.injEq, ReflexRec.toBytes, TermRec.toBytes, TermRec.ofBytes,
    List.cons_append, List.nil_append, Bytes.ofHalf, Vector.toList_mk, Bytes.get, List.getD_cons_zero,
    List.getD_cons_succ, true_and]
  exact ⟨Bytes.half_eq rfl rfl, Bytes.half_eq rfl rfl, Bytes.half_eq rfl rfl⟩

theorem SoundRec.ofBytes_toBytes (r : SoundRec) (n : Nat) : SoundRec.ofBytes (r.toBytes n) = r := by
  cases r
  simp only [SoundRec.ofBytes, SoundRec.mk.injEq]
  exact ⟨Bytes.half_eq rfl rfl, rfl, rfl, Bytes.word_eq rfl rfl rfl rfl, Bytes.word_eq rfl rfl rfl rfl⟩
theorem SoundRec.code_toBytes (r : SoundRec) {n : Nat} (hn : n < 2 ^ 32) :
    (Bytes.word (r.toBytes n) 28).toNat = n := Bytes.word_code (Bytes.word_eq rfl rfl rfl rfl) hn

theorem LinkRec.ofBytes_toBytes (r : LinkRec) : LinkRec.ofBytes r.toBytes = r := by
  cases r
  simp only [LinkRec.ofBytes, LinkRec.mk.injEq]
  exact ⟨rfl, rfl, rfl, rfl, rfl, rfl, rfl, Bytes.half_eq rfl rfl⟩

theorem OutRec.ofBytes_toBytes (r : OutRec) (n : Nat) : OutRec.ofBytes (r.toBytes n) = r := by
  cases r
  simp only [OutRec.ofBytes, OutRec.mk.injEq]
  exact ⟨Bytes.word_eq rfl rfl rfl rfl, Bytes.half_eq rfl rfl⟩
theorem OutRec.code_toBytes (r : OutRec) {n : Nat} (hn : n < 2 ^ 32) :
    (Bytes.word (r.toBytes n) 12).toNat = n := Bytes.word_code (Bytes.word_eq rfl rfl rfl rfl) hn

theorem Bytes.word_ofWord (v : Word) : Bytes.word (Bytes.ofWord v) 0 = v := Bytes.word_eq rfl rfl rfl rfl

end Sys2Proof

namespace Sys2Proof.Machine.Chip

/-! ## Latch rows -/

/-- The owner of a processor record takes these bytes as the record's whole content (R7). -/
def takeRecord (r : RecId) (bs : List Byte) (c : Chip) : Chip :=
  let code := (Bytes.word bs (r.size - 4)).toNat
  match r with
  | .control => c.controlLatch (ControlRec.ofBytes bs) code
  | .motorSlot m => c.motorLatch m (MotorSlot.ofBytes bs) code
  | .channelSettings ch => c.channelLatch ch (ChannelRec.ofBytes bs)
  | .scanProgram => c.scanLatch (ScanRec.ofBytes bs) code
  | .inputSettings n => c.inputLatch n (InputRec.ofBytes bs)
  | .reflexEntry i => c.reflexLatch i (ReflexRec.ofBytes bs)
  | .soundRequest => c.soundLatch (SoundRec.ofBytes bs) code
  | .linkSettings => c.linkLatch (LinkRec.ofBytes bs)
  | .releaseWord => c.releaseLatch (Bytes.word bs 0)
  | .outHeader k => c.outLatch k (OutRec.ofBytes bs) code
  | _ => c

theorem takeLatch_eq (r : RecId) (c : Chip) : takeLatch r c = takeRecord r (c.shadowBytes r) c := by cases r <;> rfl

theorem takeRecord_control (r : ControlRec) {n : Nat} (hn : n < 2 ^ 32) :
    takeRecord .control (r.toBytes n) = controlLatch r n := by
  funext c
  have : takeRecord .control (r.toBytes n) c
    = controlLatch (ControlRec.ofBytes (r.toBytes n)) (Bytes.word (r.toBytes n) 60).toNat c := rfl
  rw [this, r.ofBytes_toBytes, r.code_toBytes hn]
theorem takeRecord_motorSlot (m : Fin 4) (r : MotorSlot) {n : Nat} (hn : n < 2 ^ 32) :
    takeRecord (.motorSlot m) (r.toBytes n) = motorLatch m r n := by
  funext c
  have : takeRecord (.motorSlot m) (r.toBytes n) c
    = motorLatch m (MotorSlot.ofBytes (r.toBytes n)) (Bytes.word (r.toBytes n) 28).toNat c := rfl
  rw [this, r.ofBytes_toBytes, r.code_toBytes hn]
theorem takeRecord_scanProgram (r : ScanRec) {n : Nat} (hn : n < 2 ^ 32) :
    takeRecord .scanProgram (r.toBytes n) = scanLatch r n := by
  funext c
  have : takeRecord .scanProgram (r.toBytes n) c
    = scanLatch (ScanRec.ofBytes (r.toBytes n)) (Bytes.word (r.toBytes n) 12).toNat c := rfl
  rw [this, r.ofBytes_toBytes, r.code_toBytes hn]
theorem takeRecord_soundRequest (r : SoundRec) {n : Nat} (hn : n < 2 ^ 32) :
    takeRecord .soundRequest (r.toBytes n) = soundLatch r n := by
  funext c
  have : takeRecord .soundRequest (r.toBytes n) c
    = soundLatch (SoundRec.ofBytes (r.toBytes n)) (Bytes.word (r.toBytes n) 28).toNat c := rfl
  rw [this, r.ofBytes_toBytes, r.code_toBytes hn]
theorem takeRecord_outHeader (k : Fin 4) (r : OutRec) {n : Nat} (hn : n < 2 ^ 32) :
    takeRecord (.outHeader k) (r.toBytes n) = outLatch k r n := by
  funext c
  have : takeRecord (.outHeader k) (r.toBytes n) c
    = outLatch k (OutRec.ofBytes (r.toBytes n)) (Bytes.word (r.toBytes n) 12).toNat c := rfl
  rw [this, r.ofBytes_toBytes, r.code_toBytes hn]
theorem takeRecord_channelSettings (ch : Fin 8) (r : ChannelRec) :
    takeRecord (.channelSettings ch) r.toBytes = channelLatch ch r := by
  funext c
  have : takeRecord (.channelSettings ch) r.toBytes c = channelLatch ch (ChannelRec.ofBytes r.toBytes) c := rfl
  rw [this, r.ofBytes_toBytes]
theorem takeRecord_inputSettings (n : Fin 11) (r : InputRec) :
    takeRecord (.inputSettings n) r.toBytes = inputLatch n r := rfl
theorem takeRecord_reflexEntry (i : Fin 8) (r : ReflexRec) :
    takeRecord (.reflexEntry i) r.toBytes = reflexLatch i r := by
  funext c
  have : takeRecord (.reflexEntry i) r.toBytes c = reflexLatch i (ReflexRec.ofBytes r.toBytes) c := rfl
  rw [this, r.ofBytes_toBytes]
theorem takeRecord_linkSettings (r : LinkRec) : takeRecord .linkSettings r.toBytes = linkLatch r := by
  funext c
  have : takeRecord .linkSettings r.toBytes c = linkLatch (LinkRec.ofBytes r.toBytes) c := rfl
  rw [this, r.ofBytes_toBytes]
theorem takeRecord_releaseWord (v : Word) : takeRecord .releaseWord (Bytes.ofWord v) = releaseLatch v := by
  funext c
  have : takeRecord .releaseWord (Bytes.ofWord v) c = releaseLatch (Bytes.word (Bytes.ofWord v) 0) c := rfl
  rw [this, Bytes.word_ofWord]

/-- A command that stands for a latch stores its record, and the record's owner takes those bytes (log 5). -/
theorem exec_row {i : Instr} {r : RecId} {bs : List Byte} (h : rowRecord i = some (r, bs)) (s : State) :
    exec i s = act (latchRow r bs (takeRecord r bs)) s := by
  cases i <;> simp only [rowRecord, reduceCtorEq, Option.some.injEq, Prod.mk.injEq] at h <;> obtain ⟨rfl, rfl⟩ := h
  case controlNone | serviceReset | flushEvents => rw [takeRecord_control _ (by omega)]; rfl
  case motorNone | coast | brake | drive | pulse | runTo | keep | resetCount | release =>
    rw [takeRecord_motorSlot _ _ (by omega)]; rfl
  case scanNone | start | scanStop | step => rw [takeRecord_scanProgram _ (by omega)]; rfl
  case channelSettingsLatch => rw [takeRecord_channelSettings]; rfl
  case inputSettingsLatch => rw [takeRecord_inputSettings]; rfl
  case reflexEntryLatch => rw [takeRecord_reflexEntry]; rfl
  case soundNone | tone | stream | soundStop => rw [takeRecord_soundRequest _ (by omega)]; rfl
  case linkSettingsLatch => rw [takeRecord_linkSettings]; rfl
  case releaseWord => rw [takeRecord_releaseWord]; rfl
  case outboundNone | send => rw [takeRecord_outHeader _ _ (by omega)]; rfl

/-- The bytes of a latch row have the record's length, and the record is a processor record. -/
theorem rowRecord_spec {i : Instr} {r : RecId} {bs : List Byte} (h : rowRecord i = some (r, bs)) :
    bs.length = r.size ∧ r.isPart = false := by
  cases i <;> simp only [rowRecord, reduceCtorEq, Option.some.injEq, Prod.mk.injEq] at h <;> obtain ⟨rfl, rfl⟩ := h
  case controlNone | serviceReset | flushEvents => exact ⟨ControlRec.length_toBytes _ _, rfl⟩
  case motorNone | coast | brake | drive | pulse | runTo | keep | resetCount | release =>
    exact ⟨MotorSlot.length_toBytes _ _ _, rfl⟩
  case scanNone | start | scanStop | step => exact ⟨ScanRec.length_toBytes _ _, rfl⟩
  case channelSettingsLatch => exact ⟨ChannelRec.length_toBytes _ _, rfl⟩
  case inputSettingsLatch => exact ⟨InputRec.length_toBytes _ _, rfl⟩
  case reflexEntryLatch => exact ⟨ReflexRec.length_toBytes _ _, rfl⟩
  case soundNone | tone | stream | soundStop => exact ⟨SoundRec.length_toBytes _ _, rfl⟩
  case linkSettingsLatch => exact ⟨LinkRec.length_toBytes _, rfl⟩
  case releaseWord => exact ⟨Bytes.length_ofWord _, rfl⟩
  case outboundNone | send => exact ⟨OutRec.length_toBytes _ _ _, rfl⟩

end Sys2Proof.Machine.Chip
end

section
namespace Sys2Proof.Machine.Chip
variable {c d e : Chip}

/-! ## Block resets

A unit's reset sets its shadows to their defaults, and all but those stays as in `Rest`. -/

/-- As `Rest`, with the shadows of the switchable units' records set anew: the control record's is as it was. -/
structure Mild (c d : Chip) : Prop where
  inv : c.inv = true → d.inv = true
  mem : d.mem = c.mem
  shadow : c.inv = true → ∀ o, o < RecId.control.size → d.shadow.read o = c.shadow.read o
  pins : d.pins = c.pins
  response : d.path.response = c.path.response
  ms : d.control.ms = c.control.ms

theorem Rest.mild (h : Rest c d) : Mild c d :=
  ⟨h.inv, h.mem, fun _ _ _ => by rw [h.shadow], h.pins, h.response, h.ms⟩

theorem Mild.trans (h : Mild c d) (k : Mild d e) : Mild c e :=
  ⟨fun hi => k.inv (h.inv hi), k.mem.trans h.mem, fun hi o ho => (k.shadow (h.inv hi) o ho).trans (h.shadow hi o ho),
    k.pins.trans h.pins, k.response.trans h.response, k.ms.trans h.ms⟩

theorem Mild.rest (h : Mild c d) (k : Rest d e) : Mild c e := h.trans k.mild

/-- Only the control record stands below 0x40, and it belongs to no switchable unit. -/
theorem size_control_le_offset {r : RecId} {u : BlockUnit} (h : r.unit? = some u) : RecId.control.size ≤ r.offset := by
  cases r <;> simp only [RecId.unit?, RecId.offset, RecId.size, reduceCtorEq] at h ⊢ <;> omega

theorem unit?_of_mem_processorOf {r : RecId} {u : BlockUnit} (h : r ∈ RecId.processorOf u) : r.unit? = some u := by
  simpa using (List.mem_filter.mp (List.mem_filter.mp h).1).2

/-- A shadow of a unit's record is set. -/
theorem setShadow_mild {r : RecId} {u : BlockUnit} (hu : r.unit? = some u) (bs : List Byte) (h : Mild c d) :
    Mild c (setShadow r bs d) := by
  refine h.trans ⟨setShadow_inv r bs d, rfl, fun hi o ho => ?_, rfl, rfl, rfl⟩
  rw [setShadow_stored r bs d (inv_shadow hi) o, if_neg]
  have := size_control_le_offset hu
  omega

theorem forEach_mild {α : Type} (xs : List α) (f : α → Chip → Chip) (h : Mild c d)
    (hf : ∀ x ∈ xs, ∀ e : Chip, Mild c e → Mild c (f x e)) : Mild c (forEach xs f d) :=
  forEach_inv (fun e => Mild c e) d h hf

theorem enterResetting_mild (u : BlockUnit) (h : Mild c d) : Mild c (enterResetting u d) := by
  unfold enterResetting
  have h1 : Mild c ((setBlock u .resetting d).stopUnit u).handChange :=
    h.rest (handChange_rest (stopUnit_rest u (setBlock_rest u _ (Rest.refl d))))
  have h2 := forEach_mild (RecId.processorOf u) (fun r => setShadow r r.defaultBytes) h1
    (fun r hr _ he => setShadow_mild (unit?_of_mem_processorOf hr) _ he)
  exact h2.rest (rest_control _ rfl (forEach_rest _ _ (Rest.refl _) fun _ _ _ he => markStale_rest _ (publish_rest _ he)))

theorem applyEnable_mild (u : BlockUnit) (b : Bool) (h : Mild c d) : Mild c (applyEnable u b d) := by
  have h1 : Mild c { d with control := { d.control with enable := d.control.enable.set u b } } :=
    h.rest (rest_control _ rfl (Rest.refl d))
  unfold applyEnable
  dsimp only
  split
  · exact h1.rest (turnOn_rest u (Rest.refl _))
  · exact enterResetting_mild u h1
  all_goals exact h1

theorem applyEnables_mild (b : PerUnit Bool) (h : Mild c d) : Mild c (applyEnables b d) :=
  forEach_mild _ _ h (fun u _ _ he => applyEnable_mild u _ he)

theorem serviceReset_mild (h : Mild c d) : Mild c (serviceReset d) :=
  (forEach_mild BlockUnit.all _ h fun u _ e he => by
    split_ifs
    · exact enterResetting_mild u he
    · exact he).rest (clearCauses_rest (flushRing_rest (Rest.refl _)))

theorem controlCommand_mild (n : Nat) (h : Mild c d) : Mild c (controlCommand n d) := by
  unfold controlCommand
  split
  · exact serviceReset_mild h
  · exact h.rest (flushRing_rest (Rest.refl d))
  · exact h

theorem controlLatch_mild (r : ControlRec) (n : Nat) (h : Mild c d) : Mild c (controlLatch r n d) := by
  unfold controlLatch
  dsimp only
  split_ifs
  · refine Mild.rest (controlCommand_mild n ?_) (reportLatch_rest _ _ (Rest.refl _))
    exact (applyEnables_mild _ h).rest (setQuietPeriod_rest _ (setCauseEnables_rest _ (Rest.refl _)))
  · exact h.rest (reportLatch_rest _ _ (Rest.refl d))

/-- Taking any record but the control record leaves all shadows as they are. -/
theorem takeRecord_rest (r : RecId) (bs : List Byte) (hr : r ≠ .control) (h : Rest c d) :
    Rest c (takeRecord r bs d) := by
  unfold takeRecord
  dsimp only
  split
  · exact absurd rfl hr
  · exact motorLatch_rest _ _ _ h
  · exact channelLatch_rest _ _ h
  · exact scanLatch_rest _ _ h
  · exact inputLatch_rest _ _ h
  · exact reflexLatch_rest _ _ h
  · exact soundLatch_rest _ _ h
  · exact linkLatch_rest _ h
  · exact releaseLatch_rest _ h
  · exact outLatch_rest _ _ _ h
  all_goals exact h

theorem takeRecord_mild (r : RecId) (bs : List Byte) (h : Mild c d) : Mild c (takeRecord r bs d) := by
  by_cases hr : r = .control
  · subst hr
    exact controlLatch_mild _ _ h
  · exact h.rest (takeRecord_rest r bs hr (Rest.refl d))

/-! ## The invariant through every command -/

theorem takeLatch_inv (r : RecId) (h : c.inv = true) : (takeLatch r c).inv = true := by
  rw [takeLatch_eq]
  exact (takeRecord_mild r _ (Rest.refl c).mild).inv h

theorem latchRow_inv {r : RecId} {bs : List Byte} {f : Chip → Chip} (hf : ∀ e : Chip, e.inv = true → (f e).inv = true)
    (h : c.inv = true) : (latchRow r bs f c).inv = true := by
  unfold latchRow
  split_ifs
  · exact h
  · exact touch_inv _ (hf _ (answer_inv _ _ _ (storeRecord_inv _ _ _ h)))

theorem readRow_inv {r : RecId} {f : List Byte → Chip → Chip}
    (hf : ∀ bs (e : Chip), e.inv = true → (f bs e).inv = true) (h : c.inv = true) : (readRow r f c).inv = true := by
  unfold readRow
  dsimp only
  split_ifs
  · exact h
  · exact touch_inv _ (answer_inv _ _ _ h)
  · exact touch_inv _ (hf _ _ (answer_inv _ _ _ h))

/-! ### Arrival and arbitration -/

theorem arrive_inv (t : Transaction) (h : c.inv = true) : (arrive t c).inv = true := by
  unfold arrive
  split_ifs
  · exact h
  · exact touch_inv _ (answer_inv _ _ _ (publish_inv _ _ h))
  · exact (inv_path c _ rfl rfl rfl).trans h

/-- An update of the path that brings no record twice onto the list, no count above 4 and no longer quiet time. -/
theorem inv_path_of (x : Path) (hp : x.pubs.Nodup) (hc : x.count ≤ 4) (hq : x.quietElapsed ≤ Config.quietHeld)
    (h : c.inv = true) : inv { c with path := x } = true := by
  obtain ⟨hm, hs, -, -, -, hrest⟩ := (inv_iff c).mp h
  exact (inv_iff _).mpr ⟨hm, hs, hp, hc, hq, hrest⟩

theorem inv_pubs (h : c.inv = true) : c.path.pubs.Nodup := ((inv_iff c).mp h).2.2.1
theorem inv_count (h : c.inv = true) : c.path.count ≤ 4 := ((inv_iff c).mp h).2.2.2.1
theorem inv_quiet (h : c.inv = true) : c.path.quietElapsed ≤ Config.quietHeld := ((inv_iff c).mp h).2.2.2.2.1

theorem grantPart_inv (h : c.inv = true) : (grantPart c).inv = true := by
  have hp := inv_pubs h
  unfold grantPart
  split
  · exact inv_path_of _ hp (Nat.zero_le _) (inv_quiet h) h
  · split
    · next r rest hl => exact inv_path_of _ ((List.nodup_cons.mp (hl ▸ hp)).2) (Nat.zero_le _) (inv_quiet h) h
    · exact inv_path_of _ hp (Nat.zero_le _) (inv_quiet h) h

theorem refuse_inv (h : c.inv = true) : (refuse c).inv = true := by
  unfold refuse
  exact touch_inv _ (answer_inv _ _ _ (raiseCause_inv _ _ (publish_inv _ _
    ((inv_path c { c.path with upstream := none } rfl rfl rfl).trans h))))

theorem arbitrate_inv (h : c.inv = true) : (arbitrate c).inv = true := by
  unfold arbitrate
  split
  · exact h
  · split
    · exact grantPart_inv h
    · split
      · exact grantPart_inv h
      · split
        · exact grantPart_inv (refuse_inv h)
        · next hc _ =>
          refine inv_path_of _ (inv_pubs h) ?_ (inv_quiet h) h
          simp only [Bool.and_eq_true, decide_eq_true_eq, not_and, not_le] at hc
          split_ifs with hw
          · exact hc hw
          · exact Nat.zero_le _

/-! ### Completions -/

theorem inv_mem_write (a : Nat) (b : Byte) (h : c.inv = true) : inv { c with mem := c.mem.write a b } = true := by
  obtain ⟨hm, hrest⟩ := (inv_iff c).mp h
  exact (inv_iff _).mpr ⟨Mem.wf_write a b _ hm, hrest⟩
theorem inv_shadow_write (a : Nat) (b : Byte) (h : c.inv = true) :
    inv { c with shadow := c.shadow.write a b } = true := by
  obtain ⟨hm, hs, hrest⟩ := (inv_iff c).mp h
  exact (inv_iff _).mpr ⟨hm, Mem.wf_write a b _ hs, hrest⟩

theorem storeByte_inv (a : Nat) (b : Byte) (h : c.inv = true) : (storeByte a b c).inv = true := by
  have h1 := inv_mem_write a b h
  unfold storeByte
  dsimp only
  split
  · exact h1
  · split
    · split
      · exact h1
      · exact inv_shadow_write (c := { c with mem := c.mem.write a b }) _ b h1
    · exact h1

theorem storeWord_inv (a : Nat) (w : Word × BitVec 4) (h : c.inv = true) : (storeWord a w c).inv = true :=
  forEach_inv_inv _ _ _ h (fun j _ d hd => by
    split_ifs
    · exact storeByte_inv _ _ hd
    · exact hd)

theorem storeWords_inv (ws : List (Word × BitVec 4)) (a : Nat) (h : c.inv = true) : (storeWords ws a c).inv = true := by
  induction ws generalizing a c with
  | nil => exact h
  | cons w ws ih => exact ih _ (storeWord_inv _ _ h)

theorem freePort_inv (h : c.inv = true) : (freePort c).inv = true := (inv_path c _ rfl rfl rfl).trans h

theorem writeDone_inv (h : c.inv = true) : (writeDone c).inv = true := by
  unfold writeDone
  split
  · split
    · exact touch_inv _ (forEach_inv_inv _ _ _ (answer_inv _ _ _ (storeWords_inv _ _ (freePort_inv h)))
        fun r _ d hd => takeLatch_inv r hd)
    · exact h
  · exact h

theorem reportWord_rest (m : Mem) (o : Nat) (h : Rest c d) : Rest c (reportWord m o d) := by
  unfold reportWord
  split
  · exact reportConsuming_rest _ _ h
  · exact h

theorem readDone_inv (h : c.inv = true) : (readDone c).inv = true := by
  have h1 := freePort_inv h
  unfold readDone
  split
  · split
    · dsimp only
      split_ifs
      · exact touch_inv _ (answer_inv _ _ _ h1)
      · exact touch_inv _ (forEach_inv_inv _ _ _ (answer_inv _ _ _ h1) fun o _ d hd =>
          (reportWord_rest _ o (Rest.refl d)).inv hd)
    · exact h
  · exact h

theorem lineOk_completePublication (now : Word) (x : Option (Fin 10)) (a : Attention) :
    (a.completePublication now x).lineOk = true := by
  unfold Attention.completePublication
  dsimp only
  split
  · next he =>
    have hp : ∀ b : Attention, b.publishedEligible = true → b.lineOk = true := fun b hb => by
      simp [Attention.lineOk, hb]
    split_ifs <;> exact hp _ he
  · exact lineOk_review _ _

theorem inv_attention (x : Attention) (hx : x.lineOk = true) (h : c.inv = true) :
    inv { c with attention := x } = true := by
  obtain ⟨hm, hs, hp, hc, hq, hr, hl, -⟩ := (inv_iff c).mp h
  exact (inv_iff _).mpr ⟨hm, hs, hp, hc, hq, hr, hl, hx⟩

theorem publicationDone_inv (h : c.inv = true) : (publicationDone c).inv = true := by
  unfold publicationDone
  split
  · next r data stale _ =>
    have h1 := writeMem_inv r.addr data _ (freePort_inv h)
    have h2 : (if r = .attention then (c.freePort.writeMem r.addr data).attentionPublished data
        else c.freePort.writeMem r.addr data).inv = true := by
      split_ifs
      · exact inv_attention _ (lineOk_completePublication _ _ _) h1
      · exact h1
    dsimp only
    split
    · exact h2
    · exact (recordReported_rest r (ownerReport_rest r (Rest.refl _))).inv h2
  · exact h

theorem chunkStoreDone_inv (h : c.inv = true) : (chunkStoreDone c).inv = true := by
  unfold chunkStoreDone
  split
  · next b addr data w _ =>
    have h1 := freePort_inv (writeMem_inv addr data _ h)
    dsimp only
    split_ifs
    · exact h1
    · exact (modLink_rest _ (fun _ => le_rfl) (Rest.refl _)).inv h1
  · exact h

theorem doneWriteDone_inv (h : c.inv = true) : (doneWriteDone c).inv = true := by
  unfold doneWriteDone
  split
  · next addr w _ =>
    have h1 := freePort_inv (writeMem_inv addr (Bytes.zeros 4) _ h)
    dsimp only
    split
    · exact h1
    · split
      · exact (blockDone_rest _ (Rest.refl _)).inv h1
      · exact h1
  · exact h

/-! ### Power-on, initialisation, time and lines -/

theorem defaultShadow_wf : defaultShadow.wf = true := by
  unfold defaultShadow
  generalize RecId.all.filter (fun r => !r.isPart) = rs
  suffices H : ∀ m : Mem, m.wf = true →
      (rs.foldl (fun m r => m.writeCells (cellsAt r.offset r.defaultBytes)) m).wf = true from H [] rfl
  induction rs with
  | nil => exact fun _ h => h
  | cons r rs ih => exact fun m h => ih _ (Mem.wf_writeCells _ _ h)

theorem poweredOn_inv (p : Pins) (m : Mem) (h : m.wf = true) : (Chip.poweredOn p m).inv = true := by
  have hs : (Chip.poweredOn p m).shadow = defaultShadow := by rw [Chip.poweredOn]
  have ha : (Chip.poweredOn p m).attention.lineOk = true := rfl
  rw [inv_iff, hs]
  exact ⟨h, defaultShadow_wf, List.nodup_nil, Nat.zero_le _, Nat.zero_le _, Nat.zero_le _, Nat.zero_le _, ha⟩

theorem resetRelease_inv (h : c.inv = true) : (resetRelease c).inv = true := by
  unfold resetRelease
  split_ifs
  · exact h
  · exact (inv_path c { c.path with port := some (.init 0) } rfl rfl rfl).trans h

theorem initWriteDone_inv (h : c.inv = true) : (initWriteDone c).inv = true := by
  unfold initWriteDone
  split
  · next k _ =>
    have h1 : (match Window.initWrites[k]? with
        | some w => c.writeMem (Config.windowBase + w.1) (initBytes c w)
        | none => c).inv = true := by
      split
      · exact writeMem_inv _ _ _ h
      · exact h
    dsimp only
    split
    · exact (inv_path _ _ rfl rfl rfl).trans h1
    · exact inv_path_of _ (inv_pubs h1) (inv_count h1) (Nat.zero_le _) h1
  · exact h

theorem lineOk_gapExpiry (a : Attention) (h : a.lineOk = true) : a.gapExpiry.lineOk = true := by
  unfold Attention.gapExpiry
  split
  · show (!(a.line || (a.riseWaiting && a.publishedEligible)) || a.publishedEligible) = true
    unfold Attention.lineOk at h
    cases hp : a.publishedEligible <;> simp_all
  · exact h

theorem attnGap_inv (h : c.inv = true) : (attnGap c).inv = true :=
  inv_attention _ (lineOk_gapExpiry _ (inv_lineOk h)) h

theorem tick_inv (h : c.inv = true) : (tick c).inv = true := by
  unfold tick
  split
  · exact h
  · obtain ⟨hm, hs, hp, hc, hq, hrest⟩ := (inv_iff c).mp h
    refine (inv_iff _).mpr ⟨hm, hs, hp, hc, ?_, hrest⟩
    dsimp only
    split
    · exact hq
    · exact Nat.min_le_left _ _

theorem inputLine_inv (n : Fin 11) (b : Bool) (h : c.inv = true) : (inputLine n b c).inv = true := by
  unfold inputLine
  dsimp only
  split_ifs
  · exact h
  · exact (judgeEdge_rest n (Rest.refl _)).inv h
  · exact h

theorem encoderLines_inv (m : Fin 4) (a b : Bool) (h : c.inv = true) : (encoderLines m a b c).inv = true := by
  unfold encoderLines
  dsimp only
  split
  · exact h
  · split
    · exact h
    · split
      · exact h
      · exact (countStep_rest m _ (modCh_rest m _ (Rest.refl _))).inv h

theorem linkRise_inv (h : c.inv = true) : (linkRise c).inv = true := by
  unfold linkRise
  dsimp only
  split_ifs
  · exact h
  · refine Rest.inv (c := { c with pins := { c.pins with linkReady := true } }) ?_ h
    exact handChange_rest (modLink_rest _ (fun _ => le_rfl) (publish_rest _ (setReceiver_rest _ (Rest.refl _))))

theorem linkFall_inv (h : c.inv = true) : (linkFall c).inv = true := by
  unfold linkFall
  dsimp only
  split_ifs
  · exact (linkLost_rest _ (linkStateDown_rest (Rest.refl _))).inv h
  · exact h

theorem storeControl_inv (n : Nat) (bs : List Byte) (h : c.inv = true) : (storeControl n bs c).inv = true := by
  obtain ⟨hm, hs, hrest⟩ := (inv_iff _).mp (writeMem_inv (RecId.control.addr + n) bs c h)
  exact (inv_iff _).mpr ⟨hm, Mem.wf_writeCells _ _ hs, hrest⟩

theorem controlPart_inv (f : Chip → Chip) (hf : ∀ e : Chip, e.inv = true → (f e).inv = true) (h : c.inv = true) :
    (controlPart f c).inv = true := by
  unfold controlPart
  split_ifs
  · exact h
  · exact hf _ h

theorem quietPart_inv (p : Word) (h : c.inv = true) : (quietPart p c).inv = true :=
  controlPart_inv _ (fun e he => by
    have h1 := storeControl_inv 0x14 (Bytes.ofWord p) he
    dsimp only
    split_ifs
    · exact (setQuietPeriod_rest _ (Rest.refl _)).inv h1
    · exact reportLatch_inv _ _ _ h1) h

/-! ### Commands and steps -/

theorem act_inv {f : Chip → Chip} {s t : State} (hf : ∀ e : Chip, e.inv = true → (f e).inv = true)
    (hs : s.hw.inv = true) (h : act f s = .next t) : t.hw.inv = true := by
  simp only [act, Host.Outcome.next.injEq] at h
  subst h
  exact hf _ hs

theorem act_rest {f : Chip → Chip} {s t : State} (hf : ∀ e : Chip, Rest e (f e)) (hs : s.hw.inv = true)
    (h : act f s = .next t) : t.hw.inv = true := act_inv (fun e => (hf e).inv) hs h


end Sys2Proof.Machine.Chip
end

section
namespace Sys2Proof.Machine.Chip

/-! ## The invariant through every step (O3, O4) -/

theorem controlRecord_inv {c : Chip} {f : Chip → Chip} {n : Nat} {bs : List Byte} (hf : ∀ e : Chip, Mild e (f e))
    (h : c.inv = true) : (controlPart (fun d => f (d.storeControl n bs)) c).inv = true :=
  controlPart_inv _ (fun _ he => (hf _).inv (storeControl_inv n bs he)) h

/-- A command that stands for a latch keeps the invariant. -/
theorem exec_row_inv {i : Instr} {r : RecId} {bs : List Byte} {s t : State} (hr : rowRecord i = some (r, bs))
    (hs : s.hw.inv = true) (h : exec i s = .next t) : t.hw.inv = true := by
  rw [exec_row hr] at h
  exact act_inv (fun _ => latchRow_inv fun e => (takeRecord_mild r bs (Rest.refl e).mild).inv) hs h

/-- Every command keeps the invariant. -/
theorem exec_inv (i : Instr) (s t : State) (hs : s.hw.inv = true) (h : exec i s = .next t) : t.hw.inv = true := by
  cases hr : rowRecord i with
  | some p => exact exec_row_inv (r := p.1) (bs := p.2) hr hs h
  | none =>
  cases i <;> simp only [exec] at h
  case powerOn => exact act_inv (fun e he => poweredOn_inv _ _ (inv_mem he)) hs h
  case processorTransaction x =>
    unfold execProcessorTransaction at h
    split at h
    · exact act_inv (fun _ => arrive_inv x) hs h
    · simp at h
  case processorWrite => exact act_inv (fun _ => writeDone_inv) hs h
  case publicationDone => exact act_inv (fun _ => publicationDone_inv) hs h
  case blockEnables x =>
    exact act_inv (fun _ => controlRecord_inv fun e => applyEnables_mild x (Rest.refl e).mild) hs h
  case attentionEnables x =>
    exact act_inv (fun _ => controlRecord_inv fun e => (setCauseEnables_rest x (Rest.refl e)).mild) hs h
  case quietPeriod x => exact act_inv (fun _ => quietPart_inv x) hs h
  case linkReadyRise => exact act_inv (fun _ => linkRise_inv) hs h
  case linkReadyFall => exact act_inv (fun _ => linkFall_inv) hs h
  case attentionTake =>
    exact act_inv (fun _ => readRow_inv fun _ e => (takeCause_rest _ (Rest.refl e)).inv) hs h
  case eventPop i => exact act_inv (fun _ => readRow_inv fun _ e => (popEvent_rest i (Rest.refl e)).inv) hs h
  case sampleConsume k =>
    exact act_inv (fun _ => readRow_inv fun bs e => (consumeSample_rest k bs (Rest.refl e)).inv) hs h
  case resetRelease => exact act_inv (fun _ => resetRelease_inv) hs h
  case initWriteDone => exact act_inv (fun _ => initWriteDone_inv) hs h
  case arbiterGrant => exact act_inv (fun _ => arbitrate_inv) hs h
  case processorRead => exact act_inv (fun _ => readDone_inv) hs h
  case attnGapExpiry => exact act_inv (fun _ => attnGap_inv) hs h
  case encoderStep m a b => exact act_inv (fun _ => encoderLines_inv m a b) hs h
  case inputEdge n b => exact act_inv (fun _ => inputLine_inv n b) hs h
  case doneWriteDone => exact act_inv (fun _ => doneWriteDone_inv) hs h
  case chunkStoreDone => exact act_inv (fun _ => chunkStoreDone_inv) hs h
  case rxByte b => exact act_rest (fun c => rxByte_rest b (Rest.refl c)) hs h
  case lineGap => exact act_rest (fun c => lineGap_rest (Rest.refl c)) hs h
  case frameJudge => exact act_rest (fun c => frameJudge_rest (Rest.refl c)) hs h
  case peerAged p => exact act_rest (fun c => ageOut_rest p (Rest.refl c)) hs h
  case procQuietExpiry => exact act_rest (fun c => quietExpiry_rest (Rest.refl c)) hs h
  case pulseTimerExpiry => exact act_rest (fun c => pulseTimer_rest (Rest.refl c)) hs h
  case claimExpiry m => exact act_rest (fun c => claimExpiry_rest m (Rest.refl c)) hs h
  case pwmPeriodBoundary m => exact act_rest (fun c => pwmBoundary_rest m (Rest.refl c)) hs h
  case reversalPassageEnd m => exact act_rest (fun c => passageEnd_rest m (Rest.refl c)) hs h
  case pulseExpiry m => exact act_rest (fun c => pulseExpiry_rest m (Rest.refl c)) hs h
  case speedWindowEnd => exact act_rest (fun c => speedWindow_rest (Rest.refl c)) hs h
  case stall m => exact act_rest (fun c => stallExpiry_rest m (Rest.refl c)) hs h
  case coolingEnd m => exact act_rest (fun c => coolingEnd_rest m (Rest.refl c)) hs h
  case conversionComplete v => exact act_rest (fun c => conversion_rest v (Rest.refl c)) hs h
  case intervalExpiry => exact act_rest (fun c => intervalExpiry_rest (Rest.refl c)) hs h
  case debounceExpiry n => exact act_rest (fun c => debounceExpiry_rest n (Rest.refl c)) hs h
  case holdTimerExpiry i => exact act_rest (fun c => holdExpiryOf_rest i (Rest.refl c)) hs h
  case toneExpiry => exact act_rest (fun c => toneEnd_rest (Rest.refl c)) hs h
  case descriptorReadDone => exact act_rest (fun c => descReadDone_rest (Rest.refl c)) hs h
  case sampleFetchDone => exact act_rest (fun c => fetchDone_rest (Rest.refl c)) hs h
  case samplePeriod => exact act_rest (fun c => period_rest (Rest.refl c)) hs h
  case rereadTime => exact act_rest (fun c => rereadDue_rest (Rest.refl c)) hs h
  case starvedOut => exact act_rest (fun c => starvedLimit_rest (Rest.refl c)) hs h
  case stormWindowEnd => exact act_rest (fun c => stormWindow_rest (Rest.refl c)) hs h
  case holdExpiry p => exact act_rest (fun c => holdOver_rest p (Rest.refl c)) hs h
  case subscriptionDue k => exact act_rest (fun c => subDue_rest k (Rest.refl c)) hs h
  case transmitBegin => exact act_rest (fun c => transmitBegin_rest (Rest.refl c)) hs h
  case bodyFetchDone => exact act_rest (fun c => bodyFetchDone_rest (Rest.refl c)) hs h
  case transmitEnd => exact act_rest (fun c => transmitEnd_rest (Rest.refl c)) hs h
  case bodyBufferSent => exact act_rest (fun c => bodyBufferSent_rest (Rest.refl c)) hs h
  -- what is left stands for a latch
  all_goals exact absurd hr (by simp [rowRecord])

end Sys2Proof.Machine.Chip

namespace Sys2Proof.Machine
open Chip

/-- A step is a command, whichever one, or one millisecond. -/
theorem step_cases {s t : State} (h : step s = .next t) :
    (∃ (i : Instr) (s' : State), s'.hw = s.hw ∧ exec i s' = .next t) ∨ t.hw = s.hw.tick := by
  unfold step at h
  split at h
  · next i rest _ => exact .inl ⟨i, { s with pending := rest }, rfl, h⟩
  · unfold idle at h
    split at h
    · next i _ _ => exact .inl ⟨i, s, rfl, h⟩
    · injection h with h
      exact .inr (h ▸ rfl)

/-- Settles O4: a step is a command or a millisecond, and each keeps the invariant and the structure. -/
theorem invariantKeptByEveryStep : Obligations.InvariantKeptByEveryStep := by
  unfold Obligations.InvariantKeptByEveryStep
  intro s t h
  rw [structured_iff, structured_iff]
  rcases step_cases h with ⟨i, s', hw, h⟩ | hw
  · rw [← hw]
    exact ⟨fun hs => exec_inv i s' t hs h, fun hs => exec_whole i s' t hs h⟩
  · rw [hw]
    exact ⟨tick_inv, fun hs => hs.calm (tick_calm (Calm.refl _))⟩

/-- Settles O3. -/
theorem invariantHoldsAtReset : Obligations.InvariantHoldsAtReset := by
  unfold Obligations.InvariantHoldsAtReset
  exact ⟨poweredOn_inv _ _ rfl, (structured_iff _).mpr (whole_poweredOn _ _), rfl⟩

end Sys2Proof.Machine
end

section
namespace Sys2Proof.RecId

/-! ## The window map

Which record covers an offset, which latch word or consuming word starts there, which slot's body lies there. -/

theorem four_le_size (r : RecId) : 4 ≤ r.size := by cases r <;> simp [size]
theorem four_dvd_size (r : RecId) : 4 ∣ r.size := by cases r <;> simp only [size] <;> omega
theorem four_dvd_offset (r : RecId) : 4 ∣ r.offset := by cases r <;> simp only [offset] <;> omega

end Sys2Proof.RecId

namespace Sys2Proof.Window

theorem nth_add {n : Nat} [NeZero n] (i : Fin n) (base : Nat) {size j : Nat} (hj : j < size) :
    nth n base size (base + size * i.val + j) = i := by
  have hq : (base + size * i.val + j - base) / size = i.val := by
    rw [show base + size * i.val + j - base = j + size * i.val by omega, Nat.add_mul_div_left _ _ (by omega),
      Nat.div_eq_of_lt hj, Nat.zero_add]
  rw [nth, hq, Fin.ofNat_val_eq_self]

/-- Every byte of a record finds it: the areas before it end at or below its offset. -/
theorem recordAt_add (r : RecId) {j : Nat} (hj : j < r.size) : recordAt (r.offset + j) = some r := by
  cases r <;> simp only [RecId.offset, RecId.size] at hj ⊢ <;> unfold recordAt <;>
    (repeat rw [if_neg (by omega)]) <;> rw [if_pos (by omega)] <;> rw [nth_add _ _ hj]

/-- A record, if there is one, covers the offset. -/
def Covers (o : Nat) (r : Option RecId) : Prop := ∀ q, r = some q → q.offset ≤ o ∧ o < q.offset + q.size

theorem covers_none (o : Nat) : Covers o none := fun _ h => nomatch h
theorem covers_some {o : Nat} {r : RecId} (h : r.offset ≤ o ∧ o < r.offset + r.size) : Covers o (some r) := by
  intro q hq
  injection hq with hq
  exact hq ▸ h
theorem covers_ite {p : Prop} [Decidable p] {o : Nat} {x y : Option RecId} (hx : p → Covers o x) (hy : ¬ p → Covers o y) :
    Covers o (if p then x else y) := by
  by_cases hp : p
  · rw [if_pos hp]
    exact hx hp
  · rw [if_neg hp]
    exact hy hp

/-- The record at an offset covers it: the areas of the map, one after the other. -/
theorem covers_recordAt (o : Nat) : Covers o (recordAt o) := by
  have hn (k : Nat) [NeZero k] (base size : Nat) : (nth k base size o).val = (o - base) / size % k := rfl
  unfold recordAt
  repeat' refine covers_ite (fun _ => ?_) (fun _ => ?_)
  all_goals try exact covers_none o
  all_goals
    refine covers_some ?_
    simp only [RecId.offset, RecId.size, hn]
    omega

theorem covers_of_recordAt {o : Nat} {r : RecId} (h : recordAt o = some r) : r.offset ≤ o ∧ o < r.offset + r.size :=
  covers_recordAt o r h

theorem recordAt_eq_some {o : Nat} {r : RecId} : recordAt o = some r ↔ r.offset ≤ o ∧ o < r.offset + r.size := by
  refine ⟨covers_of_recordAt, fun ⟨h1, h2⟩ => ?_⟩
  obtain ⟨j, rfl⟩ := Nat.exists_eq_add_of_le h1
  exact recordAt_add r (by omega)

/-- A record is told by any byte of it. -/
theorem eq_of_covers {o : Nat} {r q : RecId} (hr : r.offset ≤ o ∧ o < r.offset + r.size)
    (hq : q.offset ≤ o ∧ o < q.offset + q.size) : r = q :=
  Option.some.inj ((recordAt_eq_some.mpr hr).symm.trans (recordAt_eq_some.mpr hq))

theorem end_le (r : RecId) : r.offset + r.size ≤ 0xBC0 := by
  cases r <;> simp only [RecId.offset, RecId.size] <;> omega

theorem latchAt_eq_some {o : Nat} {r : RecId} : latchAt o = some r ↔ r.isPart = false ∧ r.offset + r.size - 4 = o := by
  have h4 := r.four_le_size
  unfold latchAt
  constructor
  · intro h
    split at h
    · next q _ =>
      split_ifs at h with hq
      injection h with h
      subst h
      simpa [RecId.lastWord] using hq
    · simp at h
  · rintro ⟨hp, rfl⟩
    rw [(recordAt_eq_some (r := r)).mpr ⟨by omega, by omega⟩]
    simp [hp, RecId.lastWord]

theorem bodyAt_eq_some {o : Nat} {k : Fin 4} :
    bodyAt o = some k ↔ 0x1000 + 1024 * k.val ≤ o ∧ o < 0x1000 + 1024 * k.val + 1024 := by
  unfold bodyAt
  constructor
  · intro h
    split_ifs at h with ho
    injection h with h
    subst h
    simp only [nth, Fin.val_ofNat]
    omega
  · rintro ⟨h1, h2⟩
    obtain ⟨j, rfl⟩ := Nat.exists_eq_add_of_le h1
    rw [if_pos (by omega), nth_add k _ (by omega)]

theorem consumingAt_attention {o : Nat} : consumingAt o = some .attention ↔ o = 0x40 := by
  unfold consumingAt
  constructor
  · intro h
    split at h
    · split_ifs at h with ho
      simpa [RecId.offset] using ho
    all_goals simp at h
  · rintro rfl
    rfl

theorem consumingAt_ringEntry {o : Nat} (i : Fin 32) :
    consumingAt o = some (.ringEntry i) ↔ o = 0x104 + 8 * i.val := by
  unfold consumingAt
  constructor
  · intro h
    split at h
    · simp at h
    · split_ifs at h with ho
      simp only [Option.some.injEq, Consuming.ringEntry.injEq] at h
      subst h
      simp only [RecId.offset, beq_iff_eq] at ho
      omega
    all_goals simp at h
  · rintro rfl
    rw [(recordAt_eq_some (r := .ringEntry i)).mpr (by simp only [RecId.offset, RecId.size]; omega)]
    dsimp only
    rw [if_pos (by simp [RecId.offset]; omega)]

theorem consumingAt_sampleSlot {o : Nat} (ch : Fin 8) :
    consumingAt o = some (.sampleSlot ch) ↔ o = 0x400 + 16 * ch.val := by
  unfold consumingAt
  constructor
  · intro h
    split at h
    · simp at h
    · simp at h
    · split_ifs at h with ho
      simp only [Option.some.injEq, Consuming.sampleSlot.injEq] at h
      subst h
      simpa [RecId.offset] using ho
    · simp at h
  · rintro rfl
    rw [(recordAt_eq_some (r := .sampleSlot ch)).mpr (by simp only [RecId.offset, RecId.size]; omega)]
    dsimp only
    rw [if_pos (by simp [RecId.offset])]

end Sys2Proof.Window
end

section
namespace Sys2Proof.Machine

/-! ## Bytes read back -/

/-- A byte of a list, read from the front. -/
theorem Bytes_get_cons_succ (b : Byte) (bs : List Byte) (j : Nat) : Bytes.get (b :: bs) (j + 1) = Bytes.get bs j := rfl

/-- Bytes that stand below the end of the space are what is read there. -/
theorem Mem.bytes_eq_of_read (m : Mem) : ∀ (bs : List Byte) (a : Nat), a + bs.length ≤ Config.addressSpace →
    (∀ j, j < bs.length → m.read (a + j) = Bytes.get bs j) → m.bytes bs.length a = bs
  | [], _, _, _ => rfl
  | b :: bs, a, hle, h => by
    simp only [List.length_cons] at hle h ⊢
    have h0 : m.read a = b := h 0 (by omega)
    rw [Mem.bytes, Nat.mod_eq_of_lt (by omega), h0, m.bytes_eq_of_read bs (a + 1) (by omega) fun j hj => by
      rw [show a + 1 + j = a + (j + 1) by omega, h (j + 1) (by omega), Bytes_get_cons_succ]]

theorem Stored.read_add {a : Nat} {bs : List Byte} {m m' : Mem} (h : Stored a bs m m') {j : Nat} (hj : j < bs.length) :
    m'.read (a + j) = Bytes.get bs j := by
  rw [h, if_pos (by omega), Nat.add_sub_cancel_left]

/-- Two stores of the same bytes leave the same memory. -/
theorem Stored.unique {a : Nat} {bs : List Byte} {m n n' : Mem} (h : Stored a bs m n) (h' : Stored a bs m n')
    (hn : n.wf = true) (hn' : n'.wf = true) : n = n' := Mem.ext n n' hn hn' fun k => (h k).trans (h' k).symm

namespace Chip

theorem shadowBytes_eq_of_read {c : Chip} {r : RecId} {bs : List Byte} (hl : bs.length = r.size)
    (h : ∀ j, j < r.size → c.shadow.read (r.offset + j) = Bytes.get bs j) : c.shadowBytes r = bs := by
  have hr := addr_add_size_le r
  unfold shadowBytes
  rw [← hl] at h ⊢
  exact Mem.bytes_eq_of_read _ _ _ (by simp only [RecId.addr] at hr; omega) h

/-! ## The words of a WRITE -/

/-- The byte that the first word puts down, and the bytes of the words after it. -/
theorem writtenByte_cons (w : Word × BitVec 4) (ws : List (Word × BitVec 4)) (a k : Nat) (x : Byte) :
    (writtenByte (w :: ws) a k).getD x = (writtenByte ws (a + 4) k).getD ((writtenByte [w] a k).getD x) := by
  unfold writtenByte
  rcases Nat.lt_or_ge k a with hk | hk
  · rw [if_neg (by omega), if_neg (by omega), if_neg (by omega)]
    rfl
  · rw [if_pos hk, if_pos hk]
    rcases Nat.lt_or_ge k (a + 4) with hk4 | hk4
    · rw [if_neg (by omega), show (k - a) / 4 = 0 by omega]
      rfl
    · obtain ⟨j, rfl⟩ := Nat.exists_eq_add_of_le hk4
      rw [if_pos (by omega), show (a + 4 + j - a) / 4 = j / 4 + 1 by omega, show a + 4 + j - (a + 4) = j by omega,
        show (a + 4 + j - a) % 4 = j % 4 by omega]
      rfl

theorem inProcessorRecord_some {o : Nat} {r : RecId} (h : Window.recordAt o = some r) :
    inProcessorRecord o = !r.isPart := by rw [inProcessorRecord, h]
theorem inProcessorRecord_none {o : Nat} (h : Window.recordAt o = none) : inProcessorRecord o = false := by
  rw [inProcessorRecord, h]

/-- What one byte of a WRITE changes. -/
theorem storeByte_eq (a : Nat) (b : Byte) (c : Chip) :
    storeByte a b c = { c with
      mem := c.mem.write a b
      shadow := if Config.windowBase ≤ a ∧ inProcessorRecord (a - Config.windowBase) = true
        then c.shadow.write (a - Config.windowBase) b else c.shadow } := by
  unfold storeByte
  by_cases ha : a < Config.windowBase
  · rw [if_pos ha, if_neg fun h => by omega]
  · rw [if_neg ha]
    have ha' : Config.windowBase ≤ a := by omega
    generalize a - Config.windowBase = o
    cases hr : Window.recordAt o with
    | none => rw [inProcessorRecord_none hr, if_neg (by simp)]
    | some r => cases hp : r.isPart <;> simp [inProcessorRecord_some hr, hp, ha']

/-- A WRITE changes memory and shadows alone. -/
theorem storeWord_parts (a : Nat) (w : Word × BitVec 4) (c : Chip) :
    storeWord a w c = { c with mem := (storeWord a w c).mem, shadow := (storeWord a w c).shadow } := by
  refine forEach_inv (fun d : Chip => d = { c with mem := d.mem, shadow := d.shadow }) c rfl fun j _ d hd => ?_
  split_ifs
  · rw [storeByte_eq, hd]
  · exact hd

theorem storeWords_parts (ws : List (Word × BitVec 4)) (a : Nat) (c : Chip) :
    storeWords ws a c = { c with mem := (storeWords ws a c).mem, shadow := (storeWords ws a c).shadow } := by
  induction ws generalizing a c with
  | nil => rfl
  | cons w ws ih =>
    rw [storeWords, ih, storeWord_parts]

/-- R reads the byte at address k, and a WRITE reaches that byte if the byte is let through. -/
structure Reading (R : Chip → Byte) (k : Nat) (through : Bool) : Prop where
  store : ∀ (a : Nat) (b : Byte) (c : Chip), c.inv = true →
    R (storeByte a b c) = if a = k ∧ through = true then b else R c

/-- Memory takes every byte. -/
theorem reading_mem (k : Nat) : Reading (fun c => c.mem.read k) k true := by
  refine ⟨fun a b c hi => ?_⟩
  rw [storeByte_eq, Mem.read_write _ _ _ _ (inv_mem hi)]
  simp [eq_comm]

/-- The shadows take the bytes of processor records. -/
theorem reading_shadow (o : Nat) : Reading (fun c => c.shadow.read o) (Config.windowBase + o) (inProcessorRecord o) := by
  refine ⟨fun a b c hi => ?_⟩
  rw [storeByte_eq]
  by_cases ha : Config.windowBase ≤ a
  · obtain ⟨p, rfl⟩ := Nat.exists_eq_add_of_le ha
    rw [Nat.add_sub_cancel_left]
    by_cases hp : p = o
    · subst hp
      split_ifs <;> simp_all [Mem.read_write _ _ _ _ (inv_shadow hi)]
    · have hne : o ≠ p := fun h => hp h.symm
      split_ifs <;> simp_all [Mem.read_write _ _ _ _ (inv_shadow hi)]
  · rw [if_neg fun h => ha h.1, if_neg fun h => by omega]

variable {R : Chip → Byte} {k : Nat} {through : Bool}

/-- One byte of a word, stored where it is enabled. -/
def storeLane (a : Nat) (w : Word × BitVec 4) (j : Nat) (c : Chip) : Chip :=
  if w.2.getLsbD j then storeByte (a + j) (w.1.extractLsb' (8 * j) 8) c else c

theorem storeWord_eq (a : Nat) (w : Word × BitVec 4) (c : Chip) :
    storeWord a w c = storeLane a w 3 (storeLane a w 2 (storeLane a w 1 (storeLane a w 0 c))) := rfl

theorem storeLane_inv (a : Nat) (w : Word × BitVec 4) (j : Nat) {c : Chip} (hi : c.inv = true) :
    (storeLane a w j c).inv = true := by
  unfold storeLane
  split_ifs
  · exact storeByte_inv _ _ hi
  · exact hi

theorem Reading.lane (h : Reading R k through) (a : Nat) (w : Word × BitVec 4) (j : Nat) {c : Chip} (hi : c.inv = true) :
    R (storeLane a w j c)
      = if (a + j = k ∧ through = true) ∧ w.2.getLsbD j = true then w.1.extractLsb' (8 * j) 8 else R c := by
  unfold storeLane
  split_ifs with h1 h2 h2 <;> simp_all [h.store]

theorem writtenByte_other (w : Word × BitVec 4) {a : Nat} (hk : ¬ (a ≤ k ∧ k < a + 4)) : writtenByte [w] a k = none := by
  unfold writtenByte
  split_ifs
  · rw [List.getElem?_eq_none (by simp; omega)]
  · rfl

theorem Reading.word (h : Reading R k through) (a : Nat) (w : Word × BitVec 4) {c : Chip} (hi : c.inv = true) :
    R (storeWord a w c) = (if through then writtenByte [w] a k else none).getD (R c) := by
  have h0 := storeLane_inv a w 0 hi
  have h1 := storeLane_inv a w 1 h0
  have h2 := storeLane_inv a w 2 h1
  rw [storeWord_eq, h.lane a w 3 h2, h.lane a w 2 h1, h.lane a w 1 h0, h.lane a w 0 hi]
  cases through with
  | false => simp
  | true =>
    by_cases hk : a ≤ k ∧ k < a + 4
    · obtain ⟨j, rfl⟩ := Nat.exists_eq_add_of_le hk.1
      have hj : j < 4 := by omega
      interval_cases j <;> simp [writtenByte] <;> split_ifs <;> rfl
    · rw [writtenByte_other w hk, if_neg (by omega), if_neg (by omega), if_neg (by omega), if_neg (by omega)]
      rfl

theorem writtenByte_nil (a k : Nat) : writtenByte [] a k = none := by
  unfold writtenByte
  split_ifs <;> rfl

theorem Reading.words (h : Reading R k through) (ws : List (Word × BitVec 4)) (a : Nat) {c : Chip} (hi : c.inv = true) :
    R (storeWords ws a c) = (if through then writtenByte ws a k else none).getD (R c) := by
  induction ws generalizing a c with
  | nil =>
    rw [writtenByte_nil]
    split_ifs <;> rfl
  | cons w ws ih =>
    rw [storeWords, ih _ (storeWord_inv a w hi), h.word a w hi]
    split_ifs
    · exact (writtenByte_cons w ws a k _).symm
    · rfl

theorem storeWords_mem (ws : List (Word × BitVec 4)) (a : Nat) {c : Chip} (hi : c.inv = true) (k : Nat) :
    (storeWords ws a c).mem.read k = (writtenByte ws a k).getD (c.mem.read k) := (reading_mem k).words ws a hi

theorem storeWords_shadow (ws : List (Word × BitVec 4)) (a : Nat) {c : Chip} (hi : c.inv = true) (o : Nat) :
    (storeWords ws a c).shadow.read o
      = (if inProcessorRecord o then writtenByte ws a (0xFF0000 + o) else none).getD (c.shadow.read o) :=
  (reading_shadow o).words ws a hi

/-! ## A burst of a whole record -/

theorem getElem?_fullWords (bs : List Byte) (j : Nat) :
    (fullWords bs)[j]? = if j < bs.length / 4 then some (Bytes.word bs (4 * j), BitVec.allOnes 4) else none := by
  unfold fullWords wordsOf
  split_ifs with h <;> simp [h]

/-- A byte of the word at 4 j. -/
theorem extract_word (bs : List Byte) (j i : Nat) (hi : i < 4) :
    (Bytes.word bs j).extractLsb' (8 * i) 8 = Bytes.get bs (j + i) := by
  unfold Bytes.word
  interval_cases i
  · rw [BitVec.extractLsb'_append_eq_of_add_le (by omega), BitVec.extractLsb'_append_eq_of_add_le (by omega)]
    exact BitVec.extractLsb'_eq_self
  · rw [BitVec.extractLsb'_append_eq_of_add_le (by omega), BitVec.extractLsb'_append_eq_of_le (by omega)]
    exact BitVec.extractLsb'_eq_self
  · rw [BitVec.extractLsb'_append_eq_of_le (by omega), BitVec.extractLsb'_append_eq_of_add_le (by omega)]
    exact BitVec.extractLsb'_eq_self
  · rw [BitVec.extractLsb'_append_eq_of_le (by omega), BitVec.extractLsb'_append_eq_of_le (by omega)]
    exact BitVec.extractLsb'_eq_self

theorem writtenByte_fullWords {bs : List Byte} (h4 : 4 ∣ bs.length) (a k : Nat) :
    writtenByte (fullWords bs) a k = if a ≤ k ∧ k < a + bs.length then some (Bytes.get bs (k - a)) else none := by
  unfold writtenByte
  rcases Nat.lt_or_ge k a with hk | hk
  · rw [if_neg (by omega), if_neg (by omega)]
  · obtain ⟨j, rfl⟩ := Nat.exists_eq_add_of_le hk
    rw [if_pos hk, Nat.add_sub_cancel_left, getElem?_fullWords]
    have hm : j % 4 < 4 := Nat.mod_lt _ (by omega)
    by_cases hj : j < bs.length
    · rw [if_pos (by omega), if_pos (by omega)]
      simp only
      rw [extract_word _ _ _ hm, Nat.div_add_mod, if_pos (by simpa only [BitVec.getLsbD_allOnes, decide_eq_true_eq] using hm)]
    · rw [if_neg (by omega), if_neg (by omega)]

/-- The burst WRITE of a whole processor record stores that record. -/
theorem storeWords_fullWords {r : RecId} {bs : List Byte} (hl : bs.length = r.size) (hp : r.isPart = false) {c : Chip}
    (hi : c.inv = true) : storeWords (fullWords bs) r.addr c = storeRecord r bs c := by
  have h4 : 4 ∣ bs.length := hl ▸ r.four_dvd_size
  obtain ⟨hm, hs⟩ := storeRecord_stored r bs c (inv_mem hi) (inv_shadow hi) hl
  have hw := storeWords_inv (fullWords bs) r.addr hi
  have hr := storeRecord_inv r bs c hi
  have mem_eq : (storeWords (fullWords bs) r.addr c).mem = (storeRecord r bs c).mem := by
    refine Stored.unique (fun k => ?_) hm (inv_mem hw) (inv_mem hr)
    rw [storeWords_mem _ _ hi, writtenByte_fullWords h4]
    split_ifs <;> rfl
  have shadow_eq : (storeWords (fullWords bs) r.addr c).shadow = (storeRecord r bs c).shadow := by
    refine Stored.unique (fun o => ?_) hs (inv_shadow hw) (inv_shadow hr)
    rw [storeWords_shadow _ _ hi, writtenByte_fullWords h4]
    have hin : r.addr ≤ 0xFF0000 + o ∧ 0xFF0000 + o < r.addr + bs.length ↔ r.offset ≤ o ∧ o < r.offset + bs.length := by
      simp only [RecId.addr, Config.windowBase]
      omega
    by_cases ho : r.offset ≤ o ∧ o < r.offset + bs.length
    · have hrec : inProcessorRecord o = true := by
        rw [inProcessorRecord_some (Window.recordAt_eq_some.mpr (hl ▸ ho)), hp]
        rfl
      rw [if_pos hrec, if_pos (hin.mpr ho), if_pos ho]
      simp only [RecId.addr, Config.windowBase, Option.getD_some]
      congr 1
      omega
    · rw [if_neg (hin.not.mpr ho), if_neg ho]
      split_ifs <;> rfl
  rw [storeWords_parts, mem_eq, shadow_eq]
  rfl

/-! ## The words of a transaction in the window -/

theorem mem_windowWords {t : Transaction} {o : Nat} :
    o ∈ windowWords t ↔ ∃ k, k < t.count ∧ t.addr.toNat + 4 * k = 0xFF0000 + o := by
  unfold windowWords
  simp only [List.mem_filterMap, List.mem_map, List.mem_range]
  constructor
  · rintro ⟨_, ⟨k, hk, rfl⟩, h⟩
    split_ifs at h with hb
    injection h with h
    simp only [Config.windowBase] at hb h
    exact ⟨k, hk, by omega⟩
  · rintro ⟨k, hk, h⟩
    refine ⟨_, ⟨k, hk, rfl⟩, ?_⟩
    rw [h, if_pos (Nat.le_add_right _ _), Nat.add_sub_cancel_left]

theorem windowWords_pairwise (t : Transaction) : (windowWords t).Pairwise (· < ·) := by
  unfold windowWords
  refine List.Pairwise.filterMap _ (R := (· < ·)) (fun a b hab x hx y hy => ?_) ?_
  · split_ifs at hx hy
    injection hx with hx
    injection hy with hy
    simp only [Config.windowBase] at *
    omega
  · exact (List.pairwise_map.mpr (List.pairwise_lt_range.imp fun h => by omega))

/-- The records that a completed transaction latches, in order. -/
def latched (t : Transaction) : List RecId := (windowWords t).filterMap Window.latchAt

theorem mem_latched {t : Transaction} {r : RecId} :
    r ∈ latched t ↔ r.isPart = false ∧ ∃ k, k < t.count ∧ t.addr.toNat + 4 * k = r.addr + r.size - 4 := by
  have h4 := r.four_le_size
  simp only [latched, List.mem_filterMap, mem_windowWords, Window.latchAt_eq_some, RecId.addr, Config.windowBase]
  constructor
  · rintro ⟨o, ⟨k, hk, ho⟩, hp, rfl⟩
    exact ⟨hp, k, hk, by omega⟩
  · rintro ⟨hp, k, hk, ho⟩
    exact ⟨_, ⟨k, hk, by omega⟩, hp, rfl⟩

theorem latched_pairwise (t : Transaction) : (latched t).Pairwise (fun x y => x.offset < y.offset) := by
  refine List.Pairwise.filterMap _ (R := (· < ·)) (fun o p hop x hx y hy => ?_) (windowWords_pairwise t)
  obtain ⟨-, hxo⟩ := Window.latchAt_eq_some.mp hx
  obtain ⟨-, hyp⟩ := Window.latchAt_eq_some.mp hy
  have hx4 := x.four_le_size
  have hy4 := y.four_le_size
  by_contra hlt
  have hxy : x = y := Window.eq_of_covers (o := o) ⟨by omega, by omega⟩ ⟨by omega, by omega⟩
  subst hxy
  omega

end Chip
end Sys2Proof.Machine
end

section
namespace Sys2Proof.Machine

theorem Mem.get_bytes (m : Mem) : ∀ (n a j : Nat), j < n → a + n ≤ Config.addressSpace →
    Bytes.get (m.bytes n a) j = m.read (a + j)
  | n + 1, a, 0, _, hle => by
    rw [Mem.bytes, Nat.mod_eq_of_lt (by omega)]
    rfl
  | n + 1, a, j + 1, hj, hle => by
    rw [Mem.bytes, Bytes_get_cons_succ, m.get_bytes n (a + 1) j (by omega) (by omega), Nat.add_right_comm, Nat.add_assoc]

namespace Chip
variable {c : Chip}

/-! ## Latch rows and processor WRITEs (O11, O12, O13) -/

theorem touch_times (c : Chip) : (touch c).path.lastTime = c.control.ms ∧ (touch c).path.quietElapsed = 0 := by
  simp [touch]

theorem touch_procQuiet (c : Chip) : (touch c).path.procQuiet = false := by
  unfold touch setProcQuiet
  split_ifs with h
  · exact h
  · simp

theorem holding_iff (c : Chip) : c.holding = true ↔ c.control.gen = .holding := beq_iff_eq
theorem prst_iff (c : Chip) : c.prst = false ↔ c.control.gen = .idle := by
  unfold prst
  cases c.control.gen <;> simp

theorem answer_response (b : Bool) (x : Response) (c : Chip) :
    (answer b x c).path.response = if b then c.path.response else some x := by
  unfold answer
  split_ifs <;> rfl

theorem answer_path (b : Bool) (x : Response) (c : Chip) :
    (answer b x c).path = { c.path with response := if b then c.path.response else some x } := by
  unfold answer
  split_ifs <;> rfl

theorem latchRow_of_holding {r : RecId} {bs : List Byte} {f : Chip → Chip} (h : c.control.gen = .holding) :
    latchRow r bs f c = c := if_pos ((holding_iff c).mpr h)

theorem latchRow_eq {r : RecId} {bs : List Byte} {f : Chip → Chip} (h : c.control.gen ≠ .holding) :
    latchRow r bs f c = touch (f (answer c.prst (.done []) (storeRecord r bs c))) :=
  if_neg fun hh => h ((holding_iff c).mp hh)

/-- The shadow of a record that has just been stored reads as the stored bytes. -/
theorem shadowBytes_storeRecord {r : RecId} {bs : List Byte} (hi : c.inv = true) (hl : bs.length = r.size) :
    (storeRecord r bs c).shadowBytes r = bs :=
  shadowBytes_eq_of_read hl fun _ hj =>
    (storeRecord_stored r bs c (inv_mem hi) (inv_shadow hi) hl).2.read_add (hl ▸ hj)

theorem shadowBytes_congr {d : Chip} (h : d.shadow = c.shadow) (r : RecId) : d.shadowBytes r = c.shadowBytes r := by
  rw [shadowBytes, shadowBytes, h]

/-- What a record's owner does leaves the record's shadow: a reset clears the switchable units' records alone. -/
theorem shadowBytes_takeRecord (r : RecId) (bs : List Byte) (hi : c.inv = true) :
    (takeRecord r bs c).shadowBytes r = c.shadowBytes r := by
  by_cases hr : r = .control
  · subst hr
    have hm := takeRecord_mild .control bs (Rest.refl c).mild
    refine shadowBytes_eq_of_read (shadowBytes_length _ _) fun j hj => ?_
    rw [hm.shadow hi _ (by simpa [RecId.offset] using hj), shadowBytes, Mem.get_bytes _ _ _ _ hj (by decide)]
  · exact shadowBytes_congr (takeRecord_rest r bs hr (Rest.refl c)).shadow r

/-- Settles O12: the row stores its record and answers, and what the record's owner then does touches neither that store
nor the answer (`takeRecord_mild`, `takeRecord_rest`). -/
theorem latchRowStores : Obligations.LatchRowStores := by
  unfold Obligations.LatchRowStores
  intro i r bs s hrow
  obtain ⟨hl, -⟩ := rowRecord_spec hrow
  have hexec := exec_row hrow s
  refine ⟨fun hh => act_same hexec (latchRow_of_holding hh), fun hh hi => act_answers hexec ?_⟩
  rw [latchRow_eq hh]
  have hstored := storeRecord_stored r bs s.hw (inv_mem hi) (inv_shadow hi) hl
  have hbytes := shadowBytes_storeRecord hi hl
  have hinv := answer_inv s.hw.prst (.done []) _ (storeRecord_inv r bs s.hw hi)
  generalize he : answer s.hw.prst (.done []) (storeRecord r bs s.hw) = e at hinv
  have htouch := touch_rest (Rest.refl (takeRecord r bs e))
  have htake := (takeRecord_mild r bs (Rest.refl e).mild).rest htouch
  have hshadow : e.shadow = (storeRecord r bs s.hw).shadow := by simp [← he]
  refine ⟨?_, ?_, fun hr => ?_, ?_, (touch_times _).2, touch_procQuiet _, ?_, ?_⟩
  · rw [htake.mem, show e.mem = (storeRecord r bs s.hw).mem by simp [← he]]
    exact hstored.1
  · rw [shadowBytes_congr htouch.shadow, shadowBytes_takeRecord r bs hinv, shadowBytes_congr hshadow, hbytes]
  · rw [(touch_rest (takeRecord_rest r bs hr (Rest.refl e))).shadow, hshadow]
    exact hstored.2
  · rw [(touch_times _).1, ← htouch.ms, htake.ms]
    simp [← he]
  · rw [htake.response, ← he, answer_response]
    cases hp : s.hw.prst with
    | false =>
      rw [if_pos ((prst_iff _).mp hp)]
      rfl
    | true =>
      rw [if_neg fun h => Bool.noConfusion (((prst_iff _).mpr h).symm.trans hp)]
      simp
  · rw [htake.pins]
    simp [← he]

theorem writeDone_eq {a : Addr} {words : List (Word × BitVec 4)} {discarded : Bool}
    (h : c.path.port = some (.processor ⟨a, .write words⟩ discarded)) :
    writeDone c = touch ((latched ⟨a, .write words⟩).foldl (fun d r => d.takeLatch r)
      (answer discarded (.done []) (storeWords words a.toNat c.freePort))) := by
  unfold writeDone
  rw [h]
  rfl

theorem toNat_addr (r : RecId) : (BitVec.ofNat 24 r.addr).toNat = r.addr := by
  have hr := addr_add_size_le r
  have h4 := r.four_le_size
  exact Nat.mod_eq_of_lt (by simp only [Config.addressSpace] at hr; omega)

theorem length_fullWords (bs : List Byte) : (fullWords bs).length = bs.length / 4 := by simp [fullWords, wordsOf]

/-- The burst WRITE of a whole processor record latches that record alone. -/
theorem latched_fullWords {r : RecId} {bs : List Byte} (hl : bs.length = r.size) (hp : r.isPart = false) :
    latched ⟨BitVec.ofNat 24 r.addr, .write (fullWords bs)⟩ = [r] := by
  have h4 := r.four_le_size
  have hd := r.four_dvd_size
  have hnodup : (latched ⟨BitVec.ofNat 24 r.addr, .write (fullWords bs)⟩).Nodup :=
    (latched_pairwise _).imp fun h he => by subst he; omega
  refine List.perm_singleton.mp ((List.perm_ext_iff_of_nodup hnodup (List.nodup_singleton r)).mpr fun q => ?_)
  rw [mem_latched, List.mem_singleton]
  simp only [Transaction.count, length_fullWords, toNat_addr, hl]
  constructor
  · rintro ⟨-, k, hk, h⟩
    have hq4 := q.four_le_size
    simp only [RecId.addr, Config.windowBase] at h
    exact Window.eq_of_covers (o := q.offset + q.size - 4) ⟨by omega, by omega⟩ ⟨by omega, by omega⟩
  · rintro rfl
    exact ⟨hp, q.size / 4 - 1, by omega, by omega⟩

/-- Settles O13: the burst stores the record (`storeWords_fullWords`), latches it alone (`latched_fullWords`), and the
record's owner takes the bytes of the shadow, which are the ones just stored. -/
theorem latchRowIsItsWrite : Obligations.LatchRowIsItsWrite := by
  unfold Obligations.LatchRowIsItsWrite
  intro i r bs s hrow hi hh hport
  obtain ⟨hl, hp⟩ := rowRecord_spec hrow
  have hi' : s.hw.freePort.inv = true := freePort_inv hi
  have hwrite : writeDone s.hw = latchRow r bs (takeRecord r bs) s.hw.freePort := by
    rw [writeDone_eq hport, latched_fullWords hl hp, toNat_addr, storeWords_fullWords hl hp hi',
      latchRow_eq (c := s.hw.freePort) hh]
    have hbytes : (answer s.hw.prst (.done []) (storeRecord r bs s.hw.freePort)).shadowBytes r = bs :=
      (shadowBytes_congr (by simp) r).trans (shadowBytes_storeRecord hi' hl)
    simp only [List.foldl_cons, List.foldl_nil]
    rw [takeLatch_eq, hbytes]
    rfl
  rw [exec_row hrow]
  show act writeDone s = _
  rw [act, hwrite]
  rfl

/-! ### The completion of any WRITE -/

theorem count_write (a : Addr) (words : List (Word × BitVec 4)) :
    Transaction.count ⟨a, .write words⟩ = words.length := rfl

/-- The chip of which a completed WRITE's records are latched: the bytes stored, the port free, the answer given. -/
def stored (words : List (Word × BitVec 4)) (a : Addr) (discarded : Bool) (c : Chip) : Chip :=
  answer discarded (.done []) (storeWords words a.toNat c.freePort)

theorem stored_spec (words : List (Word × BitVec 4)) (a : Addr) (discarded : Bool) (hi : c.inv = true) :
    (∀ k, (stored words a discarded c).mem.read k = (writtenByte words a.toNat k).getD (c.mem.read k))
    ∧ (∀ o, (stored words a discarded c).shadow.read o
        = (if inProcessorRecord o then writtenByte words a.toNat (0xFF0000 + o) else none).getD (c.shadow.read o))
    ∧ (stored words a discarded c).path = { c.path with
        port := none, response := if discarded then c.path.response else some (.done []) }
    ∧ KeptBut [.path, .mem, .shadow] c (stored words a discarded c) := by
  have hi' : c.freePort.inv = true := freePort_inv hi
  unfold stored
  refine ⟨fun k => ?_, fun o => ?_, ?_, fun p hp => ?_⟩
  · refine Eq.trans ?_ (storeWords_mem words a.toNat hi' k)
    simp
  · refine Eq.trans ?_ (storeWords_shadow words a.toNat hi' o)
    simp
  · rw [answer_path, storeWords_parts]
    rfl
  · rw [storeWords_parts]
    cases p <;> simp at hp <;> simp [Part.same, freePort]

/-- Settles O11: the stores are read back by address (`stored_spec`), and the records latched are those whose last word the
WRITE covers (`mem_latched`, `latched_pairwise`). -/
theorem processorWriteCompletes : Obligations.ProcessorWriteCompletes := by
  unfold Obligations.ProcessorWriteCompletes
  refine ⟨fun s a words discarded hi hu hport _ hlatch => ?_, fun s a words discarded hi hport _ ha => ?_⟩
  · obtain ⟨hmem, hshadow, hpath, hkept⟩ := stored_spec words a discarded hi
    refine act_answers rfl ?_
    have hd : writeDone s.hw = (stored words a discarded s.hw).timed := by
      rw [writeDone_eq hport, latched, hlatch]
      exact touch_of_unwatched _ ((unwatched_congr s.hw _ (congrArg Control.block (hkept .control (by simp)))
        (hkept .reflex (by simp))).trans hu)
    rw [hd]
    refine ⟨hmem, hshadow, ?_, fun p hp => ?_⟩
    · have hms : (stored words a discarded s.hw).control = s.hw.control := hkept .control (by simp)
      simp [timed, hpath, hms]
    · have := hkept p hp
      cases p <;> simp at hp <;> exact this
  · obtain ⟨hmem, hshadow, hpath, hkept⟩ := stored_spec words a discarded hi
    refine act_answers rfl ⟨latched ⟨a, .write words⟩, stored words a discarded s.hw, fun r => ?_, latched_pairwise _,
      hmem, hshadow, hpath, hkept, writeDone_eq hport⟩
    have h4 := r.four_le_size
    have hd := r.four_dvd_size
    have ho := r.four_dvd_offset
    rw [mem_latched, count_write]
    simp only [RecId.addr, Config.windowBase]
    constructor
    · rintro ⟨hp, k, hk, h⟩
      exact ⟨hp, by omega, by omega⟩
    · rintro ⟨hp, h1, h2⟩
      exact ⟨hp, (0xFF0000 + r.offset + r.size - 4 - a.toNat) / 4, by omega, by omega⟩

end Chip
end Sys2Proof.Machine
end

section
namespace Sys2Proof.Machine.Chip
variable {c : Chip}

/-! ## Arrival and arbitration (O8, O9) -/

/-- An update of the path alone. -/
theorem keptBut_path (c : Chip) (x : Path) : KeptBut [.path] c { c with path := x } := by
  intro p hp
  cases p
  case path => exact absurd (by simp) hp
  all_goals rfl

theorem prst_eq_true : c.prst = true ↔ c.control.gen ≠ .idle := by
  rw [← not_iff_not, Bool.not_eq_true, prst_iff, not_not]

theorem arrive_of_held {x : Transaction} (h : c.control.gen ≠ .idle ∨ c.heldTransaction = true) : arrive x c = c :=
  if_pos (by rw [Bool.or_eq_true, prst_eq_true]; exact h)

theorem arrive_waits {x : Transaction} (hg : c.control.gen = .idle) (hh : c.heldTransaction = false)
    (hx : x.addr.toNat + 4 * x.count - 4 ≤ 0xFFFFFF) :
    arrive x c = { c with path := { c.path with upstream := some x } } := by
  have hb : beyondEnd x = false := decide_eq_false (by simp only [Config.addressSpace]; omega)
  unfold arrive
  rw [(prst_iff c).mpr hg, hh, hb]
  rfl

theorem arrive_beyond {x : Transaction} (hg : c.control.gen = .idle) (hh : c.heldTransaction = false)
    (hu : c.unwatched = true) (hx : 0xFFFFFF < x.addr.toNat + 4 * x.count - 4) :
    arrive x c = { c with
      control := { c.control with badTransactions := satInc c.control.badTransactions }
      path := (c.path.join .status).served .fault c.control.ms } := by
  have hb : beyondEnd x = true := decide_eq_true (by simp only [Config.addressSpace]; omega)
  unfold arrive
  rw [(prst_iff c).mpr hg, hh, hb, publish_eq]
  refine (touch_of_unwatched _ ?_).trans rfl
  exact (unwatched_congr c _ rfl rfl).trans hu

theorem heldTransaction_iff (c : Chip) :
    c.heldTransaction = true ↔ c.path.upstream ≠ none ∨ ∃ y, c.path.port = some (.processor y false) := by
  unfold heldTransaction
  rw [Bool.or_eq_true, Option.isSome_iff_ne_none]
  refine or_congr Iff.rfl ?_
  split
  · next y discarded h => cases discarded <;> simp [h]
  · next h =>
    refine ⟨fun hf => Bool.noConfusion hf, fun ⟨y, hy⟩ => absurd hy (h y false)⟩

/-- Settles O8: `arrive` by its three branches. -/
theorem transactionArrives : Obligations.TransactionArrives := by
  unfold Obligations.TransactionArrives
  intro s x
  have hexec (hw : x.wellFormed = true) : exec (.processorTransaction x) s = act (arrive x) s := if_pos hw
  refine ⟨fun hw => ?_, fun hw hh => act_same (hexec hw) (arrive_of_held hh),
    fun hw hg hh hx => act_answers (hexec hw) ?_, fun hw hg hh hu hx => act_answers (hexec hw) ?_, heldTransaction_iff _⟩
  · exact if_neg (by simp [hw])
  · rw [arrive_waits hg hh hx]
    exact ⟨rfl, keptBut_path _ _⟩
  · rw [arrive_beyond hg hh hu hx]
    refine ⟨rfl, rfl, fun p hp => ?_⟩
    cases p <;> simp at hp <;> rfl

theorem arbitrate_of_busy (h : c.path.port ≠ none) : arbitrate c = c :=
  if_pos (Option.isSome_iff_ne_none.mpr h)

theorem partWaiting_iff (p : Path) : p.partWaiting = true ↔ p.parts ≠ [] ∨ p.pubs ≠ [] := by
  unfold Path.partWaiting
  cases p.parts <;> cases p.pubs <;> simp

/-- With the port free and no processor transaction before the parts, a part request gets it. -/
theorem arbitrate_part (hport : c.path.port = none)
    (h : c.path.upstream = none ∨ (c.path.partWaiting = true ∧ 4 ≤ c.path.count)) : arbitrate c = grantPart c := by
  unfold arbitrate
  rw [hport]
  simp only [Option.isSome_none, Bool.false_eq_true, if_false]
  split
  · rfl
  · next t ht =>
    rw [if_pos (by simpa [ht] using h)]

theorem arbitrate_upstream {x : Transaction} (hport : c.path.port = none) (hx : c.path.upstream = some x)
    (h : c.path.partWaiting = false ∨ c.path.count < 4) :
    arbitrate c = if c.refused x then c.refuse.grantPart else c.grantProcessor x := by
  unfold arbitrate
  rw [hport, hx]
  simp only [Option.isSome_none, Bool.false_eq_true, if_false]
  rw [if_neg fun hc => ?_]
  simp only [Bool.and_eq_true, decide_eq_true_eq] at hc
  rcases h with h | h
  · simp [h] at hc
  · omega

theorem grantPart_of_nextPart {q : PartReq} (h : nextPart c.path = some q) :
    grantPart c = { c with path := { c.path with
      parts := c.path.parts.erase q, port := some (.part q false), count := 0 } } := by
  unfold grantPart
  rw [h]

/-- The oldest request of class 1 goes first. -/
theorem grantPart_class1 {q : PartReq} {older younger : List PartReq} (h : c.path.parts = older ++ q :: younger)
    (hq : q ∉ older) (h1 : q.cls = 1) (ho : ∀ p ∈ older, p.cls ≠ 1) :
    grantPart c = { c with path := { c.path with
      parts := older ++ younger, port := some (.part q false), count := 0 } } := by
  have hn : nextPart c.path = some q := by
    unfold nextPart
    rw [h, List.find?_append, List.find?_eq_none.mpr (by simpa using ho)]
    simp [h1]
  rw [grantPart_of_nextPart hn, h, List.erase_append_right _ hq, List.erase_cons_head]

/-- With none of class 1 the oldest request of class 2 goes first. -/
theorem grantPart_class2 {q : PartReq} {younger : List PartReq} (h : c.path.parts = q :: younger)
    (hn : ∀ p ∈ c.path.parts, p.cls ≠ 1) :
    grantPart c = { c with path := { c.path with parts := younger, port := some (.part q false), count := 0 } } := by
  have hq : nextPart c.path = some q := by
    unfold nextPart
    rw [List.find?_eq_none.mpr (by simpa using hn), h]
    rfl
  rw [grantPart_of_nextPart hq, h, List.erase_cons_head]

theorem nextPart_of_nil {p : Path} (h : p.parts = []) : nextPart p = none := by
  unfold nextPart
  rw [h]
  rfl

/-- With no request of classes 1 and 2 the head of the publication list goes. -/
theorem grantPart_publication {r : RecId} {rest : List RecId} (h : c.path.parts = []) (hp : c.path.pubs = r :: rest) :
    grantPart c = { c with path := { c.path with
      pubs := rest, port := some (.publication r (recordBytes c r) false), count := 0 } } := by
  unfold grantPart
  rw [nextPart_of_nil h, hp]

theorem grantPart_nothing (h : c.path.parts = []) (hp : c.path.pubs = []) :
    grantPart c = { c with path := { c.path with count := 0 } } := by
  unfold grantPart
  rw [nextPart_of_nil h, hp]

/-- Settles O9: `arbitrate` by who waits, and `grantPart` by the classes that wait. -/
theorem arbiterGrants : Obligations.ArbiterGrants := by
  unfold Obligations.ArbiterGrants
  intro s
  have hexec : exec .arbiterGrant s = act arbitrate s := rfl
  have grants (x : Path) (h : arbitrate s.hw = { s.hw with path := x }) :
      Answers .arbiterGrant s fun d => d.path = x ∧ KeptBut [.path] s.hw d :=
    act_answers hexec (h ▸ ⟨rfl, keptBut_path _ _⟩)
  refine ⟨fun h => act_same hexec (arbitrate_of_busy h), fun hport => ⟨fun x hx hr hp hq => grants _ ?_,
    fun x hx hr hw hc => grants _ ?_, fun hup => ⟨fun q older younger h hq h1 ho => grants _ ?_,
      fun q younger h hn => grants _ ?_, fun r rest h hp => grants _ ?_⟩, fun hup h hp => grants _ ?_⟩⟩
  · have hw : s.hw.path.partWaiting = false := by simp [Path.partWaiting, hp, hq]
    rw [arbitrate_upstream hport hx (.inl hw), hr]
    simp [grantProcessor, hw]
  · have hw : s.hw.path.partWaiting = true := (partWaiting_iff _).mpr hw
    rw [arbitrate_upstream hport hx (.inr hc), hr]
    simp [grantProcessor, hw]
  · rw [arbitrate_part hport (hup.imp_right fun hc => ⟨(partWaiting_iff _).mpr (.inl (by simp [h])), hc⟩)]
    exact grantPart_class1 h hq h1 ho
  · rw [arbitrate_part hport (hup.imp_right fun hc => ⟨(partWaiting_iff _).mpr (.inl (by simp [h])), hc⟩)]
    exact grantPart_class2 h hn
  · rw [arbitrate_part hport (hup.imp_right fun hc => ⟨(partWaiting_iff _).mpr (.inr (by simp [hp])), hc⟩)]
    exact grantPart_publication h hp
  · rw [arbitrate_part hport (.inl hup)]
    exact grantPart_nothing h hp

/-! ## The guard map and a refused WRITE (O10) -/

theorem recordAt_of_end {o : Nat} (h : 0xBC0 ≤ o) : Window.recordAt o = none := by
  refine Option.eq_none_iff_forall_ne_some.mpr fun r hr => ?_
  obtain ⟨-, hlt⟩ := Window.covers_of_recordAt hr
  have := Window.end_le r
  omega

theorem slotGuarded_iff (c : Chip) (k : Fin 4) :
    c.slotGuarded k = true ↔ c.link.out[k].state = .queued ∨ c.link.out[k].state = .sending := by
  simp [slotGuarded]

theorem recordGuarded_iff (c : Chip) (r : RecId) : c.recordGuarded r = true ↔
    r.isPart = true ∨ (∃ u, r.unit? = some u ∧ c.control.block.get u = .resetting)
    ∨ (∃ k, r = .outHeader k ∧ (c.link.out[k].state = .queued ∨ c.link.out[k].state = .sending)) := by
  unfold recordGuarded
  rw [Bool.or_eq_true, Bool.or_eq_true, or_assoc]
  refine or_congr Iff.rfl (or_congr ?_ ?_)
  · cases r.unit? <;> simp [resetting]
  · cases r <;> simp [slotGuarded_iff]

/-- A word of the window, by its offset. -/
theorem wordGuarded_add (c : Chip) (o : Nat) : c.wordGuarded (0xFF0000 + o) = c.offsetGuarded o := by
  unfold wordGuarded
  rw [Nat.add_sub_cancel_left, decide_eq_true (Nat.le_add_right _ _), Bool.true_and]

theorem wordGuarded_below (c : Chip) {a : Nat} (h : a < 0xFF0000) : c.wordGuarded a = false := by
  unfold wordGuarded
  rw [decide_eq_false (by simp only [Config.windowBase]; omega), Bool.false_and]

theorem inPool_iff (o : Nat) : Window.inPool o = true ↔ 0x4000 ≤ o ∧ o < 0x5800 := by simp [Window.inPool]

theorem bodyAt_eq_none {o : Nat} (h : ¬ (0x1000 ≤ o ∧ o < 0x2000)) : Window.bodyAt o = none := if_neg h

theorem offsetGuarded_record (c : Chip) (r : RecId) {o : Nat} (h : Window.recordAt o = some r) :
    c.offsetGuarded o = c.recordGuarded r := by
  have hend := Window.end_le r
  obtain ⟨-, hlt⟩ := Window.covers_of_recordAt h
  unfold offsetGuarded
  rw [h, bodyAt_eq_none (by omega), Bool.eq_false_iff.mpr ((inPool_iff o).not.mpr (by omega))]
  rfl

theorem offsetGuarded_body (c : Chip) (k : Fin 4) {o : Nat} (h : Window.bodyAt o = some k) :
    c.offsetGuarded o = c.slotGuarded k := by
  obtain ⟨h1, h2⟩ := Window.bodyAt_eq_some.mp h
  have hk := k.isLt
  unfold offsetGuarded
  rw [h, recordAt_of_end (by omega), Bool.eq_false_iff.mpr ((inPool_iff o).not.mpr (by omega))]
  simp

theorem offsetGuarded_pool (c : Chip) {o : Nat} (h : Window.inPool o = true) : c.offsetGuarded o = true := by
  unfold offsetGuarded
  rw [h]
  rfl

theorem offsetGuarded_free (c : Chip) {o : Nat} (hr : Window.recordAt o = none) (hb : Window.bodyAt o = none)
    (hp : Window.inPool o = false) : c.offsetGuarded o = false := by
  unfold offsetGuarded
  rw [hr, hb, hp]
  rfl

theorem guardMap_record (c : Chip) (r : RecId) {j : Nat} (hj : j < r.size) :
    c.wordGuarded (r.addr + j) = c.recordGuarded r := by
  rw [RecId.addr, Nat.add_assoc, wordGuarded_add, offsetGuarded_record c r (Window.recordAt_add r hj)]

/-- A word outside every record, body and pool buffer is not guarded. -/
theorem guardMap_free (c : Chip) (a : Nat) (hr : ∀ r : RecId, a < r.addr ∨ r.addr + r.size ≤ a)
    (hk : ∀ k : Fin 4, a < outBodyAddr k ∨ outBodyAddr k + 1024 ≤ a)
    (hb : ∀ b : Fin 48, a < blockAddr b ∨ blockAddr b + 128 ≤ a) : c.wordGuarded a = false := by
  rcases Nat.lt_or_ge a 0xFF0000 with ha | ha
  · exact wordGuarded_below c ha
  · obtain ⟨o, rfl⟩ := Nat.exists_eq_add_of_le ha
    rw [wordGuarded_add]
    refine offsetGuarded_free c (Option.eq_none_iff_forall_ne_some.mpr fun r h => ?_)
      (Option.eq_none_iff_forall_ne_some.mpr fun k h => ?_) (Bool.eq_false_iff.mpr fun h => ?_)
    · obtain ⟨h1, h2⟩ := Window.covers_of_recordAt h
      have := hr r
      simp only [RecId.addr, Config.windowBase] at this
      omega
    · obtain ⟨h1, h2⟩ := Window.bodyAt_eq_some.mp h
      have := hk k
      simp only [outBodyAddr] at this
      omega
    · obtain ⟨h1, h2⟩ := (inPool_iff o).mp h
      have := hb ⟨(o - 0x4000) / 128, by omega⟩
      simp only [blockAddr] at this
      omega

theorem refused_write (c : Chip) (a : Addr) (words : List (Word × BitVec 4)) :
    c.refused ⟨a, .write words⟩ = true ↔ ∃ k, k < words.length ∧ c.wordGuarded (a.toNat + 4 * k) = true := by
  simp [refused]

/-- What a refusal leaves, where no reflex entry watches the quiet flag. -/
theorem refuse_spec (hi : c.inv = true) (hu : c.unwatched = true) :
    (refuse c).control = { c.control with guardRefusals := satInc c.control.guardRefusals }
    ∧ (refuse c).attention = c.attention.raised .guard
    ∧ .status ∈ (refuse c).path.pubs
    ∧ (refuse c).path.response = some .fault ∧ (refuse c).path.upstream = none
    ∧ (refuse c).path.lastTime = c.control.ms ∧ (refuse c).path.quietElapsed = 0 ∧ (refuse c).path.procQuiet = false
    ∧ KeptBut [.control, .attention, .path] c (refuse c) := by
  have hline := inv_lineOk hi
  have hatt (x : Control) (y : Path) : (raiseCause .guard { c with control := x, path := y }).attention
      = c.attention.raised .guard := raiseCause_attention _ _ hline
  have hpubs : RecId.status ∈ (c.path.join .status).pubs := by simp [Path.join, mem_joins]
  unfold refuse
  simp only [publish_eq]
  rw [touch_of_unwatched _ (Eq.trans (unwatched_congr c _ (by simp) (by simp)) hu)]
  refine ⟨by simp, ?_, ?_, answer_response .., by simp [Path.join], by simp, rfl, rfl, fun p hp => ?_⟩
  · simp only [answer_keeps]
    exact hatt _ _
  · simp only [answer_keeps]
    exact mem_pubs_raiseCause _ _ _ hpubs
  · cases p <;> simp at hp <;> simp [Part.same]

/-- A grant among the parts where a publication waits: a part request gets the port, and all but the path stays. -/
theorem grantPart_spec {r : RecId} (h : r ∈ c.path.pubs) :
    ((∃ q, (grantPart c).path.port = some (.part q false))
      ∨ (∃ r data, (grantPart c).path.port = some (.publication r data false)))
    ∧ (grantPart c).path.count = 0 ∧ (grantPart c).path.response = c.path.response
    ∧ (grantPart c).path.upstream = c.path.upstream ∧ (grantPart c).path.lastTime = c.path.lastTime
    ∧ (grantPart c).path.quietElapsed = c.path.quietElapsed ∧ (grantPart c).path.procQuiet = c.path.procQuiet
    ∧ KeptBut [.path] c (grantPart c) := by
  cases hn : nextPart c.path with
  | some q =>
    rw [grantPart_of_nextPart hn]
    exact ⟨.inl ⟨q, rfl⟩, rfl, rfl, rfl, rfl, rfl, rfl, keptBut_path _ _⟩
  | none =>
    have hparts : c.path.parts = [] := by
      unfold nextPart at hn
      split at hn
      · simp at hn
      · exact List.head?_eq_none_iff.mp hn
    obtain ⟨q, rest, hp⟩ := List.exists_cons_of_ne_nil (List.ne_nil_of_mem h)
    rw [grantPart_publication hparts hp]
    exact ⟨.inr ⟨q, _, rfl⟩, rfl, rfl, rfl, rfl, rfl, rfl, keptBut_path _ _⟩

/-- Settles O10: the guard map by the area an address lies in, and the refusal followed by the grant of a part. -/
theorem guardMapAndRefusal : Obligations.GuardMapAndRefusal := by
  unfold Obligations.GuardMapAndRefusal
  refine ⟨⟨fun c r j hj => ?_, fun c k j hj => ?_, fun c b j hj => ?_, fun c a => wordGuarded_below c, guardMap_free,
    fun c j hj => ?_⟩, fun s x hi hu hport hx hr hw => act_answers rfl ?_, refused_write, fun _ _ _ => rfl⟩
  · rw [guardMap_record c r hj, recordGuarded_iff]
  · rw [show outBodyAddr k + j = 0xFF0000 + (0x1000 + 1024 * k.val + j) by simp only [outBodyAddr]; omega, wordGuarded_add,
      offsetGuarded_body c k (Window.bodyAt_eq_some.mpr ⟨by omega, by omega⟩), slotGuarded_iff]
  · rw [show blockAddr b + j = 0xFF0000 + (0x4000 + 128 * b.val + j) by simp only [blockAddr]; omega, wordGuarded_add]
    exact offsetGuarded_pool c ((inPool_iff _).mpr ⟨by omega, by omega⟩)
  · rw [guardMap_record c .control hj]
    rfl
  · obtain ⟨hcontrol, hatt, hpubs, hresp, hup, hlast, hquiet, hproc, hkept⟩ := refuse_spec hi hu
    obtain ⟨gport, gcount, gresp, gup, glast, gquiet, gproc, gkept⟩ := grantPart_spec hpubs
    rw [arbitrate_upstream hport hx hw, if_pos hr]
    refine ⟨(gkept .control (by simp)).trans hcontrol, (gkept .attention (by simp)).trans hatt, gresp.trans hresp,
      gup.trans hup, glast.trans hlast, gquiet.trans hquiet, gproc.trans hproc, gcount, gport, fun p hp => ?_⟩
    have h1 := gkept p (by simp at hp ⊢; exact hp.2.2)
    have h2 := hkept p hp
    cases p <;> exact Eq.trans h1 h2

end Sys2Proof.Machine.Chip
end

section
namespace Sys2Proof.Machine.Chip
variable {c : Chip}

/-! ## Processor READs (O14) -/

theorem readDone_eq {a : Addr} {n : Nat} {discarded : Bool}
    (h : c.path.port = some (.processor ⟨a, .read n⟩ discarded)) :
    readDone c = touch (if discarded
      then answer discarded (.done (wordsOf (c.mem.bytes (4 * n) a.toNat))) c.freePort
      else forEach (windowWords ⟨a, .read n⟩) (reportWord c.mem)
        (answer discarded (.done (wordsOf (c.mem.bytes (4 * n) a.toNat))) c.freePort)) := by
  unfold readDone
  rw [h]

theorem reportWord_none {m : Mem} {o : Nat} (h : Window.consumingAt o = none) : reportWord m o c = c := by
  unfold reportWord
  rw [h]

theorem reportWord_some {m : Mem} {o : Nat} {x : Window.Consuming} (h : Window.consumingAt o = some x) :
    reportWord m o c = reportConsuming x (m.bytes 4 (Config.windowBase + o)) c := by
  unfold reportWord
  rw [h]

/-- Words that are not consuming are not reported. -/
theorem forEach_reportWord_none {m : Mem} {os : List Nat} (h : ∀ o ∈ os, Window.consumingAt o = none) (c : Chip) :
    forEach os (reportWord m) c = c := by
  induction os with
  | nil => rfl
  | cons o os ih =>
    rw [forEach_cons, reportWord_none (h o List.mem_cons_self), ih fun p hp => h p (List.mem_cons_of_mem _ hp)]

/-- One consuming word among others is reported alone. -/
theorem forEach_reportWord_one {m : Mem} {os : List Nat} {o : Nat} {x : Window.Consuming} (hs : os.Pairwise (· < ·))
    (ho : o ∈ os) (hx : Window.consumingAt o = some x) (hn : ∀ p ∈ os, p ≠ o → Window.consumingAt p = none) (c : Chip) :
    forEach os (reportWord m) c = reportConsuming x (m.bytes 4 (Config.windowBase + o)) c := by
  induction os generalizing c with
  | nil => simp at ho
  | cons p os ih =>
    obtain ⟨hp, hs⟩ := List.pairwise_cons.mp hs
    rw [forEach_cons]
    by_cases hpo : p = o
    · subst hpo
      rw [reportWord_some hx]
      exact forEach_reportWord_none (fun q hq => hn q (List.mem_cons_of_mem _ hq) (Nat.ne_of_gt (hp q hq))) _
    · rw [reportWord_none (hn p List.mem_cons_self hpo)]
      exact ih hs ((List.mem_cons.mp ho).resolve_left fun h => hpo h.symm)
        (fun q hq => hn q (List.mem_cons_of_mem _ hq)) c

/-- The place of a consuming word. -/
def wordOf : Window.Consuming → Nat
  | .attention => 0x40
  | .ringEntry i => 0x104 + 8 * i.val
  | .sampleSlot ch => 0x400 + 16 * ch.val

theorem consumingAt_iff {o : Nat} {x : Window.Consuming} : Window.consumingAt o = some x ↔ o = wordOf x := by
  cases x with
  | attention => exact Window.consumingAt_attention
  | ringEntry i => exact Window.consumingAt_ringEntry i
  | sampleSlot ch => exact Window.consumingAt_sampleSlot ch

theorem readRow_eq {r : RecId} {f : List Byte → Chip → Chip} (h : c.control.gen ≠ .holding) :
    readRow r f c = touch (if c.prst
      then answer c.prst (.done (wordsOf (c.mem.bytes r.size r.addr))) c
      else f (c.mem.bytes r.size r.addr) (answer c.prst (.done (wordsOf (c.mem.bytes r.size r.addr))) c)) :=
  if_neg fun hh => h ((holding_iff c).mp hh)

/-- A row that stands for a consuming read is the completed READ of its whole record, in which one word is consuming. -/
theorem readDone_eq_readRow {r : RecId} {n : Nat} {x : Window.Consuming} {f : List Byte → Chip → Chip} (hn : 4 * n = r.size)
    (hin : r.offset ≤ wordOf x ∧ wordOf x < r.offset + r.size)
    (hone : ∀ y, r.offset ≤ wordOf y → wordOf y < r.offset + r.size → wordOf y = wordOf x)
    (hf : ∀ m e, reportConsuming x (Mem.bytes m 4 (Config.windowBase + wordOf x)) e = f (m.bytes r.size r.addr) e)
    (hg : c.control.gen ≠ .holding)
    (hport : c.path.port = some (.processor ⟨BitVec.ofNat 24 r.addr, .read n⟩ c.prst)) :
    readDone c = readRow r f c.freePort := by
  have hmem (o : Nat) : o ∈ windowWords ⟨BitVec.ofNat 24 r.addr, .read n⟩ ↔ ∃ k, k < n ∧ o = r.offset + 4 * k := by
    rw [mem_windowWords, toNat_addr]
    simp only [Transaction.count, RecId.addr, Config.windowBase]
    exact exists_congr fun k => and_congr_right fun _ => by omega
  have hx4 : 4 ∣ wordOf x := by cases x <;> simp only [wordOf] <;> omega
  have ho4 := r.four_dvd_offset
  have hreport (e : Chip) : forEach (windowWords ⟨BitVec.ofNat 24 r.addr, .read n⟩) (reportWord c.mem) e
      = f (c.mem.bytes r.size r.addr) e := by
    refine (forEach_reportWord_one (windowWords_pairwise _) ((hmem (wordOf x)).mpr ⟨(wordOf x - r.offset) / 4, ?_, ?_⟩)
      (consumingAt_iff.mpr rfl) (fun p hp hne => Option.eq_none_iff_forall_ne_some.mpr fun y hy => hne ?_) e).trans
      (hf _ _)
    · omega
    · omega
    · obtain ⟨k, hk, rfl⟩ := (hmem p).mp hp
      have hy := consumingAt_iff.mp hy
      rw [hy]
      exact hone y (by omega) (by omega)
  rw [readDone_eq hport, toNat_addr, hn, hreport, readRow_eq (c := c.freePort) hg]
  rfl

/-- The first word of a record's image. -/
theorem get_image (m : Mem) (r : RecId) {j : Nat} (hj : j < 4) :
    Bytes.get (m.bytes r.size r.addr) j = Bytes.get (m.bytes 4 r.addr) j := by
  have hr := addr_add_size_le r
  have h4 := r.four_le_size
  rw [Mem.get_bytes m _ _ _ (by omega) hr, Mem.get_bytes m _ _ _ hj (by omega)]

theorem half_image (m : Mem) (r : RecId) : Bytes.half (m.bytes r.size r.addr) 0 = Bytes.half (m.bytes 4 r.addr) 0 := by
  rw [Bytes.half, Bytes.half, get_image m r (by omega), get_image m r (by omega)]

theorem readDone_attention (hg : c.control.gen ≠ .holding)
    (hport : c.path.port = some (.processor ⟨BitVec.ofNat 24 RecId.attention.addr, .read 8⟩ c.prst)) :
    readDone c = readRow .attention (fun image => takeCause (causeOf (Bytes.get image 0).toNat)) c.freePort := by
  refine readDone_eq_readRow (x := .attention) rfl (by decide) (fun y h1 h2 => ?_) (fun m e => ?_) hg hport
  · cases y <;> simp only [wordOf, RecId.offset, RecId.size] at * <;> omega
  · rw [get_image m .attention (by omega)]
    rfl

theorem readDone_ringEntry (i : Fin 32) (hg : c.control.gen ≠ .holding)
    (hport : c.path.port = some (.processor ⟨BitVec.ofNat 24 (RecId.ringEntry i).addr, .read 2⟩ c.prst)) :
    readDone c = readRow (.ringEntry i) (fun _ => popEvent i) c.freePort := by
  refine readDone_eq_readRow (x := .ringEntry i) rfl ?_ (fun y h1 h2 => ?_) (fun m e => rfl) hg hport
  · simp only [wordOf, RecId.offset, RecId.size]
    omega
  · cases y <;> simp only [wordOf, RecId.offset, RecId.size] at * <;> omega

theorem readDone_sampleSlot (ch : Fin 8) (hg : c.control.gen ≠ .holding)
    (hport : c.path.port = some (.processor ⟨BitVec.ofNat 24 (RecId.sampleSlot ch).addr, .read 4⟩ c.prst)) :
    readDone c = readRow (.sampleSlot ch) (consumeSample ch) c.freePort := by
  refine readDone_eq_readRow (x := .sampleSlot ch) rfl ?_ (fun y h1 h2 => ?_) (fun m e => ?_) hg hport
  · simp only [wordOf, RecId.offset, RecId.size]
    omega
  · cases y <;> simp only [wordOf, RecId.offset, RecId.size] at * <;> omega
  · unfold consumeSample
    rw [get_image m (.sampleSlot ch) (by omega), half_image m (.sampleSlot ch)]
    rfl

/-- The chip before the reports of a completed READ: the port free, the answer given. -/
theorem readAnswered_path (discarded : Bool) (x : Response) (c : Chip) :
    (answer discarded x c.freePort).path
      = { c.path with port := none, response := if discarded then c.path.response else some x } := by
  rw [answer_path]
  rfl

theorem readAnswered_kept (discarded : Bool) (x : Response) (c : Chip) :
    KeptBut [.path] c (answer discarded x c.freePort) := by
  intro p hp
  cases p <;> simp at hp <;> simp [Part.same, freePort]

/-- A READ that reports nothing changes the path alone. -/
theorem readDone_unreported {a : Addr} {n : Nat} {discarded : Bool} (hu : c.unwatched = true)
    (hport : c.path.port = some (.processor ⟨a, .read n⟩ discarded))
    (h : discarded = true ∨ (windowWords ⟨a, .read n⟩).filterMap Window.consumingAt = []) :
    readDone c = (answer discarded (.done (wordsOf (c.mem.bytes (4 * n) a.toNat))) c.freePort).timed := by
  rw [readDone_eq hport]
  generalize he : answer discarded (.done (wordsOf (c.mem.bytes (4 * n) a.toNat))) c.freePort = e
  have hnone : (if discarded then e else forEach (windowWords ⟨a, .read n⟩) (reportWord c.mem) e) = e := by
    split_ifs with hd
    · rfl
    · exact forEach_reportWord_none (List.filterMap_eq_nil_iff.mp (h.resolve_left hd)) e
  rw [hnone]
  refine touch_of_unwatched e ((unwatched_congr c e ?_ ?_).trans hu) <;> simp [← he, freePort]

/-- Settles O14: the answer is what memory holds, and the reports follow the consuming words in ascending order. -/
theorem processorReadAnswered : Obligations.ProcessorReadAnswered := by
  unfold Obligations.ProcessorReadAnswered
  refine ⟨⟨fun s a n discarded hu hport h => act_answers rfl ?_, fun s a n hport => act_answers rfl ?_,
    windowWords_pairwise, fun o => ⟨Window.consumingAt_attention, Window.consumingAt_ringEntry,
      Window.consumingAt_sampleSlot⟩⟩, fun s hg => ⟨fun hport => ?_, fun i hport => ?_, fun ch hport => ?_⟩⟩
  · rw [readDone_unreported hu hport h]
    have hpath := readAnswered_path discarded (.done (wordsOf (s.hw.mem.bytes (4 * n) a.toNat))) s.hw
    have hkept := readAnswered_kept discarded (.done (wordsOf (s.hw.mem.bytes (4 * n) a.toNat))) s.hw
    generalize answer discarded (.done (wordsOf (s.hw.mem.bytes (4 * n) a.toNat))) s.hw.freePort = e at hpath hkept
    have hms : e.control = s.hw.control := hkept .control (by simp)
    refine ⟨by simp [timed, hpath, hms], fun p hp => ?_⟩
    have := hkept p hp
    cases p <;> simp at hp <;> exact this
  · exact ⟨_, readAnswered_path false _ s.hw, readAnswered_kept false _ s.hw, readDone_eq hport⟩
  · exact congrArg (fun d => Host.Outcome.next { s with hw := d }) (readDone_attention hg hport)
  · exact congrArg (fun d => Host.Outcome.next { s with hw := d }) (readDone_ringEntry i hg hport)
  · exact congrArg (fun d => Host.Outcome.next { s with hw := d }) (readDone_sampleSlot ch hg hport)

end Sys2Proof.Machine.Chip
end

section
namespace Sys2Proof.Machine

/-! ## Publications (O15) -/

namespace Attention

/-- The cause that counts as published changes neither flags nor enables, and its eligibility is of the flags alone. -/
theorem completePublication_flags (now : Word) (x : Option (Fin 10)) (a : Attention) :
    (a.completePublication now x).published = x ∧ (a.completePublication now x).pending = a.pending
    ∧ (a.completePublication now x).enabled = a.enabled
    ∧ (a.completePublication now x).publishedEligible = Attention.publishedEligible { a with published := x } := by
  unfold completePublication review
  dsimp only
  split_ifs <;> exact ⟨rfl, rfl, rfl, rfl⟩

/-- An eligible cause raises ATTN, at once or at the end of the gap (R179). -/
theorem completePublication_rise (now : Word) (x : Option (Fin 10)) (a : Attention)
    (h : Attention.publishedEligible { a with published := x } = true) :
    (a.completePublication now x).line = (a.line || !a.gap)
    ∧ (a.line = false → a.gap = true → (a.completePublication now x).riseWaiting = true) := by
  unfold completePublication
  dsimp only
  rw [if_pos h]
  cases hl : a.line <;> cases hg : a.gap <;> simp

/-- One that is not eligible lets ATTN fall (R179). -/
theorem completePublication_fall (now : Word) (x : Option (Fin 10)) (a : Attention)
    (h : Attention.publishedEligible { a with published := x } = false) :
    (a.completePublication now x).line = false
    ∧ (a.line = true → (a.completePublication now x).lastFall = some now) := by
  unfold completePublication review
  dsimp only
  rw [if_neg (by simp [h]), h]
  cases hl : a.line <;> simp

end Attention

namespace Chip
variable {c : Chip} {r : RecId} {data : List Byte} {stale : Bool}

/-- The chip with a publication in memory, and the port free. -/
def published (r : RecId) (data : List Byte) (c : Chip) : Chip := c.freePort.writeMem r.addr data

/-- The publication in memory changes the port and memory alone. -/
theorem keptBut_published (r : RecId) (data : List Byte) (c : Chip) :
    KeptBut [.path, .mem] c (published r data c) := by
  intro p hp
  cases p <;> simp at hp <;> rfl

theorem publicationDone_eq (h : c.path.port = some (.publication r data stale)) (hr : r ≠ .attention) :
    publicationDone c = if stale then published r data c else recordReported r (ownerReport r (published r data c)) := by
  unfold publicationDone
  rw [h]
  dsimp only
  rw [if_neg hr]
  rfl

theorem publicationDone_attention (h : c.path.port = some (.publication .attention data stale)) :
    publicationDone c = if stale then (published .attention data c).attentionPublished data
      else recordReported .attention ((published .attention data c).attentionPublished data) := by
  unfold publicationDone
  rw [h]
  rfl

theorem recordReported_of_not_mem {d : Chip} (h : r ∉ d.control.outstanding) : recordReported r d = d := if_neg h

theorem publicationDone_mem (h : c.path.port = some (.publication r data stale)) :
    (publicationDone c).mem = (published r data c).mem := by
  by_cases hr : r = .attention
  · subst hr
    rw [publicationDone_attention h]
    split_ifs
    · rfl
    · exact (recordReported_rest _ (Rest.refl ((published .attention data c).attentionPublished data))).mem
  · rw [publicationDone_eq h hr]
    split_ifs
    · rfl
    · exact (recordReported_rest r (ownerReport_rest r (Rest.refl (published r data c)))).mem

/-- Only ring entries and inbound descriptors have an owner that hears of their publication. -/
theorem ownerReport_of_other {d : Chip} (hi : ∀ i, r ≠ .ringEntry i) (hk : ∀ k, r ≠ .inboundDesc k) :
    ownerReport r d = d := by
  unfold ownerReport
  split
  · exact absurd rfl (hi _)
  · exact absurd rfl (hk _)
  · rfl

/-- A record that no reset waits for and no owner asks about. -/
theorem publicationDone_plain (h : c.path.port = some (.publication r data stale)) (hr : r ≠ .attention)
    (hi : ∀ i, r ≠ .ringEntry i) (hk : ∀ k, r ≠ .inboundDesc k) (ho : r ∉ c.control.outstanding) :
    publicationDone c = published r data c := by
  rw [publicationDone_eq h hr, ownerReport_of_other hi hk,
    recordReported_of_not_mem (d := published r data c) ho, ite_self]

theorem publicationDone_ringEntry {i : Fin 32} (h : c.path.port = some (.publication (.ringEntry i) data false))
    (ho : .ringEntry i ∉ c.control.outstanding) :
    publicationDone c = entryPublished i (published (.ringEntry i) data c) := by
  have hk : ∀ d : Chip, (entryPublished i d).control = d.control := fun d => by simp
  rw [publicationDone_eq h (by simp), if_neg (by simp)]
  refine recordReported_of_not_mem ?_
  show _ ∉ (entryPublished i _).control.outstanding
  rw [hk]
  exact ho

/-- An entry held by the ring counts as published, and the ring status follows the count. -/
theorem entryPublished_of_holds {d : Chip} {i : Fin 32} (h : d.ring.holds i = true) :
    entryPublished i d = { d with
      ring := { d.ring with published := d.ring.published.set i true }
      path := if Ring.publishedCount { d.ring with published := d.ring.published.set i true } = d.ring.publishedCount
        then d.path else d.path.join .ringStatus } := by
  unfold entryPublished publishIf
  rw [if_pos h]
  by_cases hc : Ring.publishedCount { d.ring with published := d.ring.published.set i true } = d.ring.publishedCount
  · rw [if_pos hc, if_neg (by simp [hc])]
  · rw [if_neg hc, if_pos (by simp [hc]), publish_eq]

/-- The owner of a descriptor that is in use marks it shown. -/
theorem ownerReport_inboundDesc {d : Chip} {k : Fin 16} {x : Descriptor} (hx : d.link.desc[k] = some x) :
    ownerReport (.inboundDesc k) d = { d with
      link := { d.link with desc := d.link.desc.set k (some { x with shown := true }) }
      path := d.path.join .inboundStatus } := by
  unfold ownerReport
  dsimp only
  rw [hx]
  exact publish_eq _ _

theorem publicationDone_inboundDesc {k : Fin 16} {x : Descriptor} (ho : .inboundDesc k ∉ c.control.outstanding)
    (h : c.path.port = some (.publication (.inboundDesc k) data false)) (hx : c.link.desc[k] = some x) :
    publicationDone c = { published (.inboundDesc k) data c with
      link := { c.link with desc := c.link.desc.set k (some { x with shown := true }) }
      path := Path.join .inboundStatus { c.path with port := none } } := by
  rw [publicationDone_eq h (by simp), if_neg (by simp),
    ownerReport_inboundDesc (d := published (.inboundDesc k) data c) hx]
  exact recordReported_of_not_mem ho

/-- Settles O15: the publication in memory, and then what the record's owner makes of it. -/
theorem publicationCompletes : Obligations.PublicationCompletes := by
  unfold Obligations.PublicationCompletes
  refine ⟨fun s r data stale hm hport hl => ⟨act_answers rfl ?_, fun hr hi hk ho => act_answers rfl ?_⟩,
    fun s data hi => ⟨fun i ho hport hh => act_answers rfl ?_, fun k x ho hport hx => act_answers rfl ?_,
      fun stale ho hport => act_answers rfl ?_⟩⟩
  · rw [publicationDone_mem hport]
    exact writeMem_stored r.addr data s.hw.freePort hm (hl ▸ addr_add_size_le r)
  · rw [publicationDone_plain hport hr hi hk ho]
    exact ⟨rfl, keptBut_published r data s.hw⟩
  · rw [publicationDone_ringEntry hport ho, entryPublished_of_holds (d := published _ data s.hw) hh]
    refine ⟨rfl, rfl, fun p hp => ?_⟩
    cases p <;> simp at hp <;> rfl
  · rw [publicationDone_inboundDesc ho hport hx]
    refine ⟨rfl, rfl, fun p hp => ?_⟩
    cases p <;> simp at hp <;> rfl
  · have hd : publicationDone s.hw = (published .attention data s.hw).attentionPublished data := by
      rw [publicationDone_attention hport]
      split_ifs
      · rfl
      · exact recordReported_of_not_mem ho
    rw [hd]
    obtain ⟨hpub, hpend, hen, hel⟩ :=
      s.hw.attention.completePublication_flags s.hw.control.ms (causeOf (Bytes.get data 0).toNat)
    refine ⟨hpub, hpend, hen, fun h => s.hw.attention.completePublication_rise _ _ (hel.symm.trans h),
      fun h => s.hw.attention.completePublication_fall _ _ (hel.symm.trans h), rfl, fun p hp => ?_⟩
    cases p <;> simp at hp <;> rfl

end Chip
end Sys2Proof.Machine
end

section
namespace Sys2Proof.Machine.Chip
variable {c d : Chip} {i : Fin 8} {js : List (Fin 8)}

/-! ## A change that fires no reflex entry (R114, R117) -/

/-- What an entry reads is not in the reflex unit, nor in the publication list. -/
theorem condition_congr (hk : KeptBut [.reflex, .path] c d) (hq : d.path.procQuiet = c.path.procQuiet) (r : ReflexRec) :
    d.condition r = c.condition r := by
  have hterm : d.termValue = c.termValue := by
    funext t
    have hpins : d.pins = c.pins := hk .pins (by simp)
    have hcontrol : d.control = c.control := hk .control (by simp)
    have hinput : d.input = c.input := hk .input (by simp)
    have hsense : d.sense = c.sense := hk .sense (by simp)
    have hmotor : d.motor = c.motor := hk .motor (by simp)
    have hlink : d.link = c.link := hk .link (by simp)
    unfold termValue termReads linkUp on
    rw [hpins, hcontrol, hinput, hsense, hmotor, hlink, hq]
  unfold condition
  rw [hterm]

/-- The entry after it has been judged on c and has not fired. -/
def judgedEntry (c : Chip) (e : ReflexEntry) : ReflexEntry := { e with state := c.judgedState e }

/-- An entry that does not fire takes its judged state, and the status record joins when that is another state. -/
theorem rejudge_eq (h : c.reflex.entry[i].state = .armed → c.condition c.reflex.entry[i].record = true →
      c.reflex.entry[i].record.hold ≠ 0) :
    rejudge i c = if c.judgedState c.reflex.entry[i] = c.reflex.entry[i].state then c
      else publish .reflexStatus (c.modEntry i fun _ => c.judgedEntry c.reflex.entry[i]) := by
  unfold rejudge judgedState
  dsimp only
  cases hs : c.reflex.entry[i].state <;> cases hc : c.condition c.reflex.entry[i].record <;>
    simp_all [judgedEntry, judgedState, modEntry]

/-- From c the entries js have been judged, each on the states of c, and the others are as they were. -/
structure Judged (c : Chip) (js : List (Fin 8)) (d : Chip) : Prop where
  kept : KeptBut [.reflex, .path] c d
  path : d.path = if d.reflex = c.reflex then c.path else c.path.join .reflexStatus
  done : ∀ k ∈ js, d.reflex.entry[k] = c.judgedEntry c.reflex.entry[k]
  rest : ∀ k, k ∉ js → d.reflex.entry[k] = c.reflex.entry[k]

theorem Judged.refl (c : Chip) : Judged c [] c := by
  refine ⟨fun p _ => ?_, (if_pos rfl).symm, fun k hk => absurd hk List.not_mem_nil, fun _ _ => rfl⟩
  cases p <;> rfl

theorem joins_idem (r : RecId) (l : List RecId) : joins r (joins r l) = joins r l :=
  if_pos ((mem_joins r r l).mpr (.inl rfl))
theorem join_idem (r : RecId) (p : Path) : (p.join r).join r = p.join r :=
  congrArg (fun l => ({ p with pubs := l } : Path)) (joins_idem r p.pubs)

theorem Judged.procQuiet (h : Judged c js d) : d.path.procQuiet = c.path.procQuiet := by
  rw [h.path]
  split_ifs <;> rfl

theorem Judged.step (h : Judged c js d) (hi : i ∉ js) (hn : c.noneFires) : Judged c (i :: js) (rejudge i d) := by
  have hentry := h.rest i hi
  have hcond := condition_congr h.kept h.procQuiet
  have hcontrol : d.control = c.control := h.kept .control (by simp)
  have hstate : d.judgedState c.reflex.entry[i] = c.judgedState c.reflex.entry[i] := by
    unfold judgedState
    rw [hcond, hcontrol]
  rw [rejudge_eq (by rw [hentry, hcond]; exact hn i), hentry, judgedEntry, hstate]
  split_ifs with hs
  · refine ⟨h.kept, h.path, fun k hk => ?_, fun k hk => h.rest k fun hj => hk (List.mem_cons_of_mem _ hj)⟩
    rcases List.mem_cons.mp hk with rfl | hk
    · rw [hentry, judgedEntry, hs]
    · exact h.done k hk
  · rw [publish_eq]
    have hset (k : Fin 8) : (d.reflex.entry.set i (c.judgedEntry c.reflex.entry[i]))[k]
        = if i = k then c.judgedEntry c.reflex.entry[i] else d.reflex.entry[k] := by
      simp [Vector.getElem_set, Fin.ext_iff]
    refine ⟨fun p hp => ?_, ?_, fun k hk => (hset k).trans ?_, fun k hk => (hset k).trans ?_⟩
    · have := h.kept p hp
      cases p <;> simp at hp <;> exact this
    · rw [if_neg fun he => hs ?_]
      · show d.path.join _ = _
        rw [h.path]
        split_ifs
        · rfl
        · exact join_idem _ _
      · have := (hset i).symm.trans (congrArg (fun x : Reflex => x.entry[i]) he)
        rw [if_pos rfl] at this
        exact congrArg ReflexEntry.state this
    · split_ifs with hik
      · rw [hik]
      · exact h.done k ((List.mem_cons.mp hk).resolve_left fun he => hik he.symm)
    · rw [if_neg fun he : i = k => hk (he ▸ List.mem_cons_self)]
      exact h.rest k fun hj => hk (List.mem_cons_of_mem _ hj)

theorem Judged.forEach (hn : c.noneFires) (xs : List (Fin 8)) (hx : xs.Nodup) (hd : ∀ x ∈ xs, x ∉ js) (h : Judged c js d) :
    Judged c (xs.reverse ++ js) (forEach xs rejudge d) := by
  induction xs generalizing js d with
  | nil => exact h
  | cons x xs ih =>
    obtain ⟨hnot, hx⟩ := List.nodup_cons.mp hx
    rw [forEach_cons, List.reverse_cons, List.append_assoc]
    refine ih hx (fun y hy hj => ?_) (h.step (hd x List.mem_cons_self) hn)
    rcases List.mem_cons.mp hj with rfl | hj
    · exact hnot hy
    · exact hd y (List.mem_cons_of_mem _ hy) hj

theorem handChange_of_noneFires (hon : c.on .reflex = true) (hn : c.noneFires) : Chip.Rejudged c (handChange c) := by
  have hf : (List.finRange 8).filter c.firesNow = [] := by
    refine List.filter_eq_nil_iff.mpr fun i _ hi => ?_
    simp only [firesNow, Bool.and_eq_true, beq_iff_eq] at hi
    exact hn i hi.1.1 hi.1.2 hi.2
  have hd : handChange c = Chip.forEach (List.finRange 8) rejudge c := by
    unfold handChange
    rw [if_pos hon, settle, hf]
  rw [hd]
  have h := (Judged.refl c).forEach hn (List.finRange 8) (List.nodup_finRange 8) fun _ _ => List.not_mem_nil
  exact ⟨fun k => h.done k (by simp), h.path, h.kept⟩

/-! ## The quiet timer (O17) -/

theorem quietDue_iff (c : Chip) : c.quietDue = true ↔
    c.control.gen ≠ .holding ∧ c.path.procQuiet = false ∧ c.control.quietPeriod ≤ c.path.quietElapsed := by
  simp [quietDue, ← holding_iff, and_assoc]

theorem quietExpiry_of_due (h : c.quietDue = true) : quietExpiry c = setProcQuiet true c := if_pos h

/-- The row that sets the quiet period, in its range (R27 step 3). -/
theorem quietPart_eq {p : Word} (h : c.control.gen ≠ .holding) :
    quietPart p c = if 100 ≤ p.toNat ∧ p.toNat ≤ 10000 then setQuietPeriod p.toNat (storeControl 0x14 (Bytes.ofWord p) c)
      else reportLatch 0 .badArg (storeControl 0x14 (Bytes.ofWord p) c) := by
  have hok : ControlRec.quietOk p = true ↔ 100 ≤ p.toNat ∧ p.toNat ≤ 10000 := by simp [ControlRec.quietOk, within]
  unfold quietPart controlPart
  rw [if_neg fun hh => h ((holding_iff c).mp hh)]
  exact if_congr hok rfl rfl

theorem storeControl_stored {n : Nat} {bs : List Byte} (hi : c.inv = true) (hn : n + bs.length ≤ RecId.control.size) :
    Stored (RecId.control.addr + n) bs c.mem (storeControl n bs c).mem
    ∧ Stored (RecId.control.offset + n) bs c.shadow (storeControl n bs c).shadow := by
  have hr := addr_add_size_le .control
  exact ⟨writeMem_stored _ bs c (inv_mem hi) (by omega), stored_cellsAt _ bs c.shadow (inv_shadow hi)⟩

/-- The period replaced, and the quiet flag judged by it, where no reflex entry watches. -/
theorem setQuietPeriod_of_unwatched (n : Nat) (hu : c.unwatched = true) : setQuietPeriod n c = { c with
    control := { c.control with quietPeriod := n }
    path := { c.path with procQuiet := decide (n ≤ c.path.quietElapsed) } } :=
  setProcQuiet_of_unwatched _ _ ((unwatched_congr c _ rfl rfl).trans hu)

/-- Settles O17: the flag turns when it is due, the change is judged by the entries, and a new period judges the flag. -/
theorem quietTimerJudged : Obligations.QuietTimerJudged := by
  unfold Obligations.QuietTimerJudged
  refine ⟨⟨fun s hu => ?_, fun s hg hq he hon => ?_⟩,
    fun s p hg hi hu => act_answers rfl ?_⟩
  · split_ifs with h
    · refine act_answers rfl ?_
      rw [quietExpiry_of_due ((quietDue_iff _).mpr h), setProcQuiet_of_unwatched _ _ hu]
      exact ⟨rfl, keptBut_path _ _⟩
    · exact act_same rfl (if_neg fun hd => h ((quietDue_iff _).mp hd))
  · intro turned hn
    have hd : quietExpiry s.hw = handChange turned := by
      rw [quietExpiry_of_due ((quietDue_iff _).mpr ⟨hg, hq, he⟩)]
      exact if_neg (by simp [hq])
    refine act_answers rfl ?_
    rw [hd]
    exact handChange_of_noneFires hon hn
  · obtain ⟨hmem, hshadow⟩ := storeControl_stored (n := 0x14) (bs := Bytes.ofWord p) hi (by simp [Bytes.length_ofWord, RecId.size])
    have hu' : (storeControl 0x14 (Bytes.ofWord p) s.hw).unwatched = true := (unwatched_congr s.hw _ rfl rfl).trans hu
    rw [quietPart_eq hg]
    split_ifs with hp
    · rw [setQuietPeriod_of_unwatched _ hu']
      refine ⟨hmem, hshadow, ⟨rfl, rfl⟩, fun q hq => ?_⟩
      cases q <;> simp at hq <;> rfl
    · rw [reportLatch, publish_eq]
      refine ⟨hmem, hshadow, ⟨rfl, rfl⟩, fun q hq => ?_⟩
      cases q <;> simp at hq <;> rfl

end Sys2Proof.Machine.Chip
end

section
namespace Sys2Proof.Machine

/-! ## Power-on (O5) -/

theorem RecId.mem_all (r : RecId) : r ∈ RecId.all := by
  unfold RecId.all
  simp only [List.mem_append, List.mem_cons, List.mem_map]
  cases r <;> simp

theorem RecId.length_defaultBytes {r : RecId} (h : r.isPart = false) : r.defaultBytes.length = r.size := by
  cases r
  case control => exact ControlRec.length_toBytes _ _
  case motorSlot m => exact MotorSlot.length_toBytes m _ _
  case channelSettings ch => exact ChannelRec.length_toBytes ch _
  case scanProgram => exact ScanRec.length_toBytes _ _
  case inputSettings n => exact InputRec.length_toBytes n _
  case reflexEntry i => exact ReflexRec.length_toBytes i _
  case soundRequest => exact SoundRec.length_toBytes _ _
  case linkSettings => exact LinkRec.length_toBytes _
  case releaseWord => exact Bytes.length_ofWord _
  case outHeader k => exact OutRec.length_toBytes k _ _
  -- the others are part records
  all_goals exact Bool.noConfusion h

/-- The records' default bytes put down one record after the other. -/
def defaultsOnto (rs : List RecId) (m : Mem) : Mem :=
  rs.foldl (fun m r => m.writeCells (cellsAt r.offset r.defaultBytes)) m

/-- A byte of a record is set by that record alone, however many are put down. -/
theorem read_defaultsOnto {rs : List RecId} (hp : ∀ q ∈ rs, q.isPart = false) {r : RecId} {o : Nat}
    (ho : r.offset ≤ o ∧ o < r.offset + r.size) {m : Mem} (hm : m.wf = true) :
    (defaultsOnto rs m).read o = if r ∈ rs then Bytes.get r.defaultBytes (o - r.offset) else m.read o := by
  induction rs generalizing m with
  | nil => rfl
  | cons q rs ih =>
    have hq := hp q List.mem_cons_self
    have hread := stored_cellsAt q.offset q.defaultBytes m hm o
    rw [RecId.length_defaultBytes hq] at hread
    have hcons : (defaultsOnto (q :: rs) m).read o
        = (defaultsOnto rs (m.writeCells (cellsAt q.offset q.defaultBytes))).read o := rfl
    rw [hcons, ih (fun p hp' => hp p (List.mem_cons_of_mem _ hp')) (Mem.wf_writeCells _ _ hm), hread]
    by_cases hqr : q = r
    · subst hqr
      rw [if_pos ho, if_pos List.mem_cons_self, ite_self]
    · rw [if_neg fun hc => hqr (Window.eq_of_covers hc ho)]
      exact if_congr (by simp [Ne.symm hqr]) rfl rfl

theorem shadow_poweredOn (p : Pins) (m : Mem) :
    (Chip.poweredOn p m).shadow = defaultsOnto (RecId.all.filter (fun q => !q.isPart)) [] := by
  rw [Chip.poweredOn, defaultShadow, defaultsOnto]

/-- Every shadow stands at its record's default contents. -/
theorem shadowBytes_poweredOn (p : Pins) (m : Mem) {r : RecId} (h : r.isPart = false) :
    (Chip.poweredOn p m).shadowBytes r = r.defaultBytes := by
  refine Chip.shadowBytes_eq_of_read (RecId.length_defaultBytes h) fun j hj => ?_
  have hread := read_defaultsOnto (rs := RecId.all.filter (fun q => !q.isPart)) (r := r) (o := r.offset + j) (m := [])
    (fun q hq => by simpa using (List.mem_filter.mp hq).2) ⟨by omega, by omega⟩ rfl
  rw [if_pos (List.mem_filter.mpr ⟨RecId.mem_all r, by simp [h]⟩), Nat.add_sub_cancel_left] at hread
  rw [shadow_poweredOn]
  exact hread

/-- Settles O5: the fields of `Chip.poweredOn`, and its shadows. -/
theorem powerOnState : Obligations.PowerOnState := by
  unfold Obligations.PowerOnState
  intro s
  refine act_answers (f := Chip.powerOn) rfl ?_
  have attention (k : Fin 10) : Attention.reset.pending[k] = false ∧ Attention.reset.enabled[k] = false :=
    ⟨Vector.getElem_replicate .., Vector.getElem_replicate ..⟩
  have motor (m : Fin 4) : (Chip.powerOn s.hw).motor.ch[m] = Channel.reset :=
    Vector.getElem_replicate ..
  have sense (ch : Fin 8) : Sense.reset.slots[ch] = SampleSlot.reset ∧ Sense.reset.settings[ch] = {} :=
    ⟨Vector.getElem_replicate .., Vector.getElem_replicate ..⟩
  have input (n : Fin 11) : Inputs.reset.line[n] = InputLine.reset := Vector.getElem_replicate ..
  have reflex (i : Fin 8) : (Chip.powerOn s.hw).reflex.entry[i] = ReflexEntry.reset :=
    Vector.getElem_replicate ..
  have out (k : Fin 4) : Link.reset.out[k] = OutSlot.reset := Vector.getElem_replicate ..
  have link : (∀ p : Fin 8, Link.reset.peer[p] = none) ∧ (∀ k : Fin 4, Link.reset.sub[k] = none)
      ∧ (∀ k : Fin 16, Link.reset.desc[k] = none) ∧ (∀ k : Fin 12, Link.reset.counters[k] = 0) :=
    ⟨fun _ => Vector.getElem_replicate .., fun _ => Vector.getElem_replicate .., fun _ => Vector.getElem_replicate ..,
      fun _ => Vector.getElem_replicate ..⟩
  obtain ⟨hpeer, hsub, hdesc, hcounters⟩ := link
  refine ⟨rfl, rfl, rfl, rfl, rfl, rfl, rfl, rfl, rfl, rfl, rfl, rfl, rfl, rfl, rfl, attention, rfl, rfl, fun m => ?_,
    rfl, rfl, rfl, rfl, rfl, rfl, rfl, sense, input, rfl, fun i => ?_, rfl, hpeer, hsub, hdesc, fun k => ?_,
    rfl, rfl, rfl, rfl, rfl, rfl, rfl, rfl, rfl, rfl, rfl, hcounters, fun r => shadowBytes_poweredOn _ _⟩
  · rw [motor m]
    exact ⟨rfl, rfl, rfl, rfl, rfl, rfl, rfl, rfl, rfl, rfl⟩
  · rw [reflex i]
    exact ⟨rfl, rfl⟩
  · exact congrArg OutSlot.state (out k)

end Sys2Proof.Machine
end

section
namespace Sys2Proof.Machine

/-! ## A step with no command waiting (O2) -/

/-- Entries of a vector set one after the other, each to the value that its index gives. -/
theorem foldl_set_get {α : Type} {n : Nat} (f : Fin n → α) (xs : List (Fin n)) (v : Vector α n) (k : Fin n) :
    (xs.foldl (fun v p => v.set p (f p)) v)[k] = if k ∈ xs then f k else v[k] := by
  induction xs generalizing v with
  | nil => rfl
  | cons x xs ih =>
    rw [List.foldl_cons, ih]
    by_cases hk : k ∈ xs
    · rw [if_pos hk, if_pos (List.mem_cons_of_mem _ hk)]
    · by_cases hx : k = x
      · subst hx
        simp [hk]
      · have hv : x.val ≠ k.val := fun h => hx (Fin.ext h.symm)
        simp [hk, hx, hv]

/-- The period of a tone is the nearest number of microseconds, or one of the two nearest (R134). -/
theorem tonePeriod_nearest {f : Nat} (hf : 0 < f) :
    2 * tonePeriod f * f ≤ 2000000 + f ∧ 2000000 ≤ 2 * tonePeriod f * f + f := by
  have hdiv : 1000000 / f * f + 1000000 % f = 1000000 := Nat.div_add_mod' _ _
  have hrest := Nat.mod_lt 1000000 hf
  have hdown : 2 * (1000000 / f) * f = 2 * (1000000 / f * f) := Nat.mul_assoc ..
  have hup : 2 * (1000000 / f + 1) * f = 2 * (1000000 / f * f) + 2 * f := by ring
  unfold tonePeriod
  dsimp only
  split_ifs <;> omega

/-- A tone's wave is high in the first half of its period and low in the second (R134). -/
theorem toneOutputAt_eq (f v us : Nat) : toneOutputAt f v us = BitVec.ofNat 8
    (if us % tonePeriod f < tonePeriod f / 2 then 128 + 127 * v / 100 else 128 - 127 * v / 100) := by
  unfold toneOutputAt
  split_ifs <;> rfl

theorem step_of_empty {s : State} (h : s.pending = []) : step s = idle s := by
  unfold step
  rw [h]

namespace Chip
variable {c : Chip}

theorem tick_of_reset (h : c.pins.resetAsserted = true) : c.tick = c := if_pos h

/-- One millisecond, part by part (R25). -/
theorem tick_of_running (h : c.pins.resetAsserted = false) :
    c.tick.control = { c.control with ms := c.control.ms + 1 }
    ∧ c.tick.path = { c.path with quietElapsed :=
        if c.control.gen = .holding then c.path.quietElapsed else min 10000 (c.path.quietElapsed + 1) }
    ∧ c.tick.sound = { c.sound with output := c.sound.waveAt (c.control.ms + 1) }
    ∧ c.tick.link = { c.link with peer := c.tick.link.peer, sub := c.tick.link.sub }
    ∧ (∀ p : Fin 8, c.tick.link.peer[p] = tickPeer c.link.peer[p])
    ∧ (∀ k : Fin 4, c.tick.link.sub[k] = tickSub c.link.sub[k])
    ∧ KeptBut [.control, .path, .sound, .link] c c.tick := by
  unfold tick
  rw [if_neg (by simp [h])]
  refine ⟨rfl, ?_, rfl, rfl, fun p => ?_, fun k => ?_, fun p hp => ?_⟩
  · simp only [if_congr (holding_iff c) rfl rfl]
  · exact (foldl_set_get (fun p : Fin 8 => tickPeer c.link.peer[p]) _ _ p).trans (if_pos (List.mem_finRange p))
  · exact (foldl_set_get (fun k : Fin 4 => tickSub c.link.sub[k]) _ _ k).trans (if_pos (List.mem_finRange k))
  · cases p <;> simp at hp <;> rfl

theorem tickPeer_eq (x : Option Peer) :
    tickPeer x = x.map (fun x => { x with silence := min 255000 (x.silence + 1) }) := by
  cases x <;> rfl

theorem tickSub_eq (x : Option Subscription) :
    tickSub x = x.map (fun x => if x.due then { x with lateness := min 1000 (x.lateness + 1) } else x) := by
  cases x <;> rfl

/-- Whatever makes no tone holds its level. -/
theorem waveAt_of_no_tone {x : Sound} (now : Word) (h : ∀ q f v t u, x.voice ≠ .tone q f v t u) :
    x.waveAt now = x.output := by
  unfold Sound.waveAt
  split
  · next hv => exact absurd hv (h _ _ _ _ _)
  · rfl
  · rfl

theorem waveAt_of_tone {x : Sound} {q : Owner} {f v : Nat} {t u : Word} (now : Word) (h : x.voice = .tone q f v t u) :
    x.waveAt now = toneOutputAt f v (1000 * (now - t).toNat) := by
  unfold Sound.waveAt
  rw [h]
  rfl

/-- The two gaps that end before a millisecond passes are over when no event is due (R34, R179). -/
theorem gaps_over (h : c.dueEvents = []) :
    c.attention.gap = false ∧ (c.on .motor = true → ∀ m : Fin 4, c.motor.ch[m].gap = false) := by
  unfold dueEvents at h
  simp only [List.append_eq_nil_iff] at h
  obtain ⟨⟨-, hmotor⟩, hattn⟩ := h
  constructor
  · by_contra hg
    simp [dueOne, hg] at hattn
  · intro hon m
    have hm := List.filter_eq_nil_iff.mp (List.map_eq_nil_iff.mp hmotor) m (List.mem_finRange m)
    simpa [hon] using hm

end Chip

/-- Settles O2: an idle step is its first due event, or one millisecond of `tick`. -/
theorem idleStep : Obligations.IdleStep := by
  unfold Obligations.IdleStep
  intro s hs
  have hidle : s.hw.dueEvents = [] → step s = .next { s with hw := s.hw.tick } := fun h => by
    rw [step_of_empty hs, idle, h]
  refine ⟨fun i rest h => by rw [step_of_empty hs, idle, h], fun h hr => ?_, fun h hr => ?_, Chip.gaps_over⟩
  · rw [hidle h, Chip.tick_of_reset hr]
  · obtain ⟨hcontrol, hpath, hsound, hlink, hpeer, hsub, hkept⟩ := Chip.tick_of_running hr
    refine ⟨_, hidle h, hs, hcontrol, hpath, fun p => (hpeer p).trans (Chip.tickPeer_eq _),
      fun k => (hsub k).trans (Chip.tickSub_eq _), hlink, ?_, fun hv => ?_, fun q f v x y hv hlo _ => ?_, hkept⟩
    · exact hsound.trans (by rw [hsound])
    · exact hsound.trans (by rw [Chip.waveAt_of_no_tone _ hv])
    · obtain ⟨hle, hge⟩ := tonePeriod_nearest (f := f) (by omega)
      refine ⟨tonePeriod f, hle, hge, ?_⟩
      show s.hw.tick.sound.output = _
      rw [hsound, ← toneOutputAt_eq]
      exact Chip.waveAt_of_tone _ hv

end Sys2Proof.Machine
end

section
namespace Sys2Proof

/-! ## Window initialisation (O6, O7) -/

namespace Window

theorem length_initWrites : initWrites.length = 41 := rfl

theorem mem_cutRun {off len o : Nat} :
    (∃ w ∈ cutRun off len, w.1 ≤ o ∧ o < w.1 + w.2) ↔ off ≤ o ∧ o < off + len := by
  simp only [cutRun, List.mem_map, List.mem_range, exists_exists_and_eq_and]
  constructor
  · rintro ⟨k, hk, hlo, hhi⟩
    omega
  · rintro ⟨hlo, hhi⟩
    exact ⟨(o - off) / 64, by omega, by omega, by omega⟩

/-- Only free window memory lies outside the runs (section 1.2). -/
theorem recordAt_of_run {o : Nat} (h : ∃ run ∈ initRuns, run.1 ≤ o ∧ o < run.1 + run.2) : recordAt o ≠ none := by
  simp only [initRuns, List.mem_cons, List.not_mem_nil, or_false, exists_eq_or_imp, exists_eq_left, Nat.reduceAdd] at h
  unfold recordAt
  repeat' refine iteInduction (motive := (· ≠ none)) (fun _ => ?_) (fun _ => ?_)
  all_goals try exact Option.some_ne_none _
  -- the free areas
  all_goals omega

theorem run_of_record (r : RecId) {o : Nat} (h : r.offset ≤ o ∧ o < r.offset + r.size) :
    ∃ run ∈ initRuns, run.1 ≤ o ∧ o < run.1 + run.2 := by
  simp only [initRuns, List.mem_cons, List.not_mem_nil, or_false, exists_eq_or_imp, exists_eq_left, Nat.reduceAdd]
  cases r <;> simp only [RecId.offset, RecId.size] at h <;> omega

/-- The initialisation writes cover the offsets that records cover, and no other (R24, log 27). -/
theorem mem_initWrites {o : Nat} :
    (∃ w ∈ initWrites, w.1 ≤ o ∧ o < w.1 + w.2) ↔ ∃ r : RecId, r.offset ≤ o ∧ o < r.offset + r.size := by
  simp only [initWrites, List.mem_flatMap]
  constructor
  · rintro ⟨w, ⟨run, hrun, hw⟩, ho⟩
    obtain ⟨r, hr⟩ := Option.ne_none_iff_exists'.mp (recordAt_of_run ⟨run, hrun, mem_cutRun.mp ⟨w, hw, ho⟩⟩)
    exact ⟨r, recordAt_eq_some.mp hr⟩
  · rintro ⟨r, hr⟩
    obtain ⟨run, hrun, ho⟩ := run_of_record r hr
    obtain ⟨w, hw, ho⟩ := mem_cutRun.mpr ho
    exact ⟨w, ⟨run, hrun, hw⟩, ho⟩

theorem initWrites_end {w : Nat × Nat} (h : w ∈ initWrites) : w.1 + w.2 ≤ 0xBC0 := by
  revert w
  decide

end Window

namespace Machine
namespace Chip
variable {c d : Chip} {k : Nat} {w : Nat × Nat}

theorem resetRelease_of_asserted (h : c.pins.resetAsserted = true) : resetRelease c = { c with
    pins := { c.pins with resetAsserted := false }
    control := { c.control with ms := 0 }
    path := { c.path with port := some (.init 0) } } := if_neg (by simp [h])

theorem resetRelease_of_released (h : c.pins.resetAsserted = false) : resetRelease c = c := if_pos (by simp [h])

theorem initWriteDone_eq (h : c.path.port = some (.init k)) (hw : Window.initWrites[k]? = some w) :
    initWriteDone c = if k + 1 < Window.initWrites.length
      then { c.writeMem (Config.windowBase + w.1) (initBytes c w) with path := { c.path with port := some (.init (k + 1)) } }
      else (c.writeMem (Config.windowBase + w.1) (initBytes c w)).initEnd := by
  unfold initWriteDone
  rw [h]
  dsimp only
  rw [hw]
  rfl

theorem initWriteDone_stored (h : c.path.port = some (.init k)) (hw : Window.initWrites[k]? = some w)
    (hm : c.mem.wf = true) : Stored (Config.windowBase + w.1) (initBytes c w) c.mem (initWriteDone c).mem := by
  have hend := Window.initWrites_end (List.mem_of_getElem? hw)
  have hmem : (initWriteDone c).mem = (c.writeMem (Config.windowBase + w.1) (initBytes c w)).mem := by
    rw [initWriteDone_eq h hw]
    split_ifs <;> rfl
  rw [hmem]
  refine writeMem_stored _ _ c hm ?_
  simp only [initBytes, List.length_map, List.length_range, Config.windowBase, Config.addressSpace]
  omega

/-- A value of a record lies in neither path nor memory. -/
theorem recordBytes_congr (h : KeptBut [.path, .mem] c d) (r : RecId) : recordBytes d r = recordBytes c r := by
  have hd : d = { c with path := d.path, mem := d.mem } := by
    obtain ⟨pins, control, ring, attention, path, motor, sense, input, reflex, sound, link, mem, shadow⟩ := d
    simp only [Chip.mk.injEq, true_and]
    exact ⟨h .pins (by simp), h .control (by simp), h .ring (by simp), h .attention (by simp), h .motor (by simp),
      h .sense (by simp), h .input (by simp), h .reflex (by simp), h .sound (by simp), h .link (by simp),
      h .shadow (by simp)⟩
  rw [hd]
  cases r <;> rfl

theorem imageByte_congr (h : KeptBut [.path, .mem] c d) : imageByte d = imageByte c := by
  funext o
  unfold imageByte
  split
  · rw [recordBytes_congr h]
  · rfl

theorem imageByte_record (c : Chip) (r : RecId) {i : Nat} (hi : i < r.size) :
    imageByte c (r.offset + i) = Bytes.get (recordBytes c r) i := by
  unfold imageByte
  rw [Window.recordAt_eq_some.mpr ⟨Nat.le_add_right _ i, Nat.add_lt_add_left hi _⟩]
  dsimp only
  rw [Nat.add_sub_cancel_left]

end Chip

/-- Settles O6: each initialisation event by its own equation. -/
theorem initialisationRuns : Obligations.InitialisationRuns := by
  unfold Obligations.InitialisationRuns
  refine ⟨fun s => ⟨fun h => act_answers rfl ?_, fun h => act_same rfl (Chip.resetRelease_of_released h)⟩,
    fun s k w hm hport hw => act_answers rfl ⟨Chip.initWriteDone_stored hport hw hm, ?_⟩,
    fun c r i => Chip.imageByte_record c r⟩
  · rw [Chip.resetRelease_of_asserted h]
    refine ⟨rfl, rfl, rfl, fun p hp => ?_⟩
    cases p <;> simp at hp <;> rfl
  · rw [Chip.initWriteDone_eq hport hw]
    split_ifs
    · refine ⟨rfl, fun p hp => ?_⟩
      cases p <;> simp at hp <;> rfl
    · refine ⟨rfl, rfl, fun p hp => ?_⟩
      cases p <;> simp at hp <;> rfl

theorem run_of_step {s t : State} {n : Nat} (h : step s = .next t) :
    Host.Core.run core (n + 1) s = Host.Core.run core n t := by
  simp only [Host.Core.run, show core.step s = .next t from h]

/-- The first k initialisation writes from s have completed in t, and the k-th is in flight: memory holds their images,
and the commands of the others wait. -/
structure InitRun (s : State) (k : Nat) (t : State) : Prop where
  wf : t.hw.mem.wf = true
  port : t.hw.path.port = some (.init k)
  waiting : t.pending = List.replicate (41 - k) .initWriteDone
  kept : KeptBut [.path, .mem] s.hw t.hw
  memory : ∀ a, t.hw.mem.read a = if ∃ w ∈ Window.initWrites.take k, 0xFF0000 + w.1 ≤ a ∧ a < 0xFF0000 + w.1 + w.2
    then imageByte s.hw (a - 0xFF0000) else s.hw.mem.read a

namespace InitRun
variable {s t : State} {k : Nat}

theorem start (hm : s.hw.mem.wf = true) (hport : s.hw.path.port = some (.init 0))
    (hs : s.pending = List.replicate 41 .initWriteDone) : InitRun s 0 s :=
  ⟨hm, hport, hs, fun p _ => by cases p <;> rfl, fun a => by simp⟩

/-- The command at the front of the queue completes the write that is in flight. -/
theorem step_eq (h : InitRun s k t) (hk : k < 41) : step t = .next
    { hw := t.hw.initWriteDone, pending := List.replicate (40 - k) .initWriteDone } := by
  have hwait : t.pending = .initWriteDone :: List.replicate (40 - k) .initWriteDone := by
    rw [h.waiting, show 41 - k = (40 - k) + 1 by omega, List.replicate_succ]
  unfold step
  rw [hwait]
  rfl

/-- What memory holds once the write in flight has completed. -/
theorem read_next (h : InitRun s k t) (hk : k < 41) (a : Nat) : t.hw.initWriteDone.mem.read a
    = if ∃ w ∈ Window.initWrites.take (k + 1), 0xFF0000 + w.1 ≤ a ∧ a < 0xFF0000 + w.1 + w.2
      then imageByte s.hw (a - 0xFF0000) else s.hw.mem.read a := by
  have hlen : k < Window.initWrites.length := by rwa [Window.length_initWrites]
  have hread := Chip.initWriteDone_stored h.port (List.getElem?_eq_getElem hlen) h.wf a
  generalize hw : Window.initWrites[k] = w at hread
  have hbytes : (Chip.initBytes t.hw w).length = w.2 := by simp [Chip.initBytes]
  have hsplit : (∃ x ∈ Window.initWrites.take (k + 1), 0xFF0000 + x.1 ≤ a ∧ a < 0xFF0000 + x.1 + x.2)
      ↔ (∃ x ∈ Window.initWrites.take k, 0xFF0000 + x.1 ≤ a ∧ a < 0xFF0000 + x.1 + x.2)
        ∨ (0xFF0000 + w.1 ≤ a ∧ a < 0xFF0000 + w.1 + w.2) := by
    rw [List.take_succ_eq_append_getElem hlen, hw]
    simp only [List.mem_append, List.mem_singleton, or_and_right, exists_or, exists_eq_left]
  rw [hread, hbytes, if_congr hsplit rfl rfl]
  by_cases ha : 0xFF0000 + w.1 ≤ a ∧ a < 0xFF0000 + w.1 + w.2
  · have hget : Bytes.get (Chip.initBytes t.hw w) (a - (0xFF0000 + w.1)) = imageByte t.hw (a - 0xFF0000) := by
      rw [Bytes_get_lt _ _ (by omega)]
      simp only [Chip.initBytes, List.getElem_map, List.getElem_range]
      exact congrArg _ (by omega)
    rw [if_pos ha, if_pos (.inr ha), hget, Chip.imageByte_congr h.kept]
  · rw [if_neg ha, h.memory]
    exact if_congr (by simp only [ha, or_false]) rfl rfl

theorem next (h : InitRun s k t) (hk : k < 40) :
    InitRun s (k + 1) { hw := t.hw.initWriteDone, pending := List.replicate (40 - k) .initWriteDone } := by
  have hlen : k < Window.initWrites.length := by rw [Window.length_initWrites]; omega
  have heq := Chip.initWriteDone_eq h.port (List.getElem?_eq_getElem hlen)
  rw [if_pos (by rw [Window.length_initWrites]; omega)] at heq
  refine ⟨?_, ?_, ?_, fun p hp => ?_, h.read_next (by omega)⟩
  · exact (congrArg (fun c => c.mem.wf) heq).trans (Chip.writeMem_wf _ _ _ h.wf)
  · exact congrArg (fun c => c.path.port) heq
  · exact congrArg (List.replicate · _) (by omega)
  · have := h.kept p hp
    show Part.same s.hw t.hw.initWriteDone p
    rw [heq]
    cases p <;> simp at hp <;> exact this

/-- The last write releases PRST and frees the port. -/
theorem last (h : InitRun s 40 t) : t.hw.initWriteDone.control.gen = .idle ∧ t.hw.initWriteDone.path.port = none := by
  have hlen : 40 < Window.initWrites.length := by rw [Window.length_initWrites]; omega
  rw [Chip.initWriteDone_eq h.port (List.getElem?_eq_getElem hlen), if_neg (by rw [Window.length_initWrites]; omega)]
  exact ⟨rfl, rfl⟩

/-- Run to its end, an initialisation leaves every write's image in memory. -/
theorem finish (n : Nat) (h : InitRun s k t) (hn : k + n = 40) : ∃ u, Host.Core.run core (n + 1) t = .next u
    ∧ u.hw.control.gen = .idle ∧ u.hw.path.port = none
    ∧ ∀ a, u.hw.mem.read a = if ∃ w ∈ Window.initWrites, 0xFF0000 + w.1 ≤ a ∧ a < 0xFF0000 + w.1 + w.2
        then imageByte s.hw (a - 0xFF0000) else s.hw.mem.read a := by
  induction n generalizing k t with
  | zero =>
    obtain rfl : k = 40 := hn
    refine ⟨⟨t.hw.initWriteDone, []⟩, ?_, h.last.1, h.last.2, h.read_next (by omega)⟩
    rw [run_of_step (h.step_eq (by omega))]
    rfl
  | succ n ih =>
    obtain ⟨u, hrun, hu⟩ := ih (h.next (by omega)) (by omega)
    exact ⟨u, (run_of_step (h.step_eq (by omega))).trans hrun, hu⟩

end InitRun

/-- Settles O7: the run of 41 writes (`InitRun.finish`), which cover the records' bytes and no other. -/
theorem initialisationWritesEveryImage : Obligations.InitialisationWritesEveryImage := by
  unfold Obligations.InitialisationWritesEveryImage
  intro s hm hport hs
  obtain ⟨t, hrun, hgen, hfree, hread⟩ := (InitRun.start hm hport hs).finish 40 rfl
  have hcover (a : Nat) : (∃ w ∈ Window.initWrites, 0xFF0000 + w.1 ≤ a ∧ a < 0xFF0000 + w.1 + w.2)
      ↔ ∃ r : RecId, r.addr ≤ a ∧ a < r.addr + r.size := by
    by_cases ha : 0xFF0000 ≤ a
    · obtain ⟨o, rfl⟩ := Nat.exists_eq_add_of_le ha
      simp only [RecId.addr, Nat.add_assoc, Nat.add_le_add_iff_left, Nat.add_lt_add_iff_left]
      exact Window.mem_initWrites
    · exact iff_of_false (fun ⟨w, _, hw, _⟩ => ha (by omega))
        (fun ⟨r, hr, _⟩ => ha (by simp only [RecId.addr, Config.windowBase] at hr; omega))
  refine ⟨t, hrun, hgen, hfree, fun r i hi => ?_, fun a ha => ?_⟩
  · rw [hread, if_pos ((hcover _).mpr ⟨r, by omega, by omega⟩)]
    have : r.addr + i - 0xFF0000 = r.offset + i := by simp only [RecId.addr, Config.windowBase]; omega
    rw [this, Chip.imageByte_record s.hw r hi]
  · rw [hread, if_neg]
    rintro hc
    obtain ⟨r, hlo, hhi⟩ := (hcover a).mp hc
    rcases ha r with h | h <;> omega

end Machine
end Sys2Proof
end

section
namespace Sys2Proof.Machine

/-! ## Frames -/

namespace KeptBut
variable {l l' : List Part} {c d e : Chip}

theorem refl (l : List Part) (c : Chip) : KeptBut l c c := fun p _ => by cases p <;> rfl

theorem trans (h : KeptBut l c d) (k : KeptBut l d e) : KeptBut l c e := fun p hp => by
  have h := h p hp
  have k := k p hp
  cases p <;> exact Eq.trans k h

theorem mono (h : KeptBut l c d) (hl : ∀ p ∈ l, p ∈ l') : KeptBut l' c d := fun p hp => h p fun hm => hp (hl p hm)

end KeptBut
end Sys2Proof.Machine

namespace Sys2Proof.Machine.Chip
variable {c d : Chip}

/-! ## What operations report, and what they do index by index

Reports join the publication list, withdraw part requests and mark publications stale; they do nothing else to the path. -/

/-- A property of the path that no report and no withdrawal ends. -/
structure Lasting (P : Path → Prop) : Prop where
  join : ∀ p r, P p → P (p.join r)
  stale : ∀ r (c : Chip), P c.path → P (markStale r c).path
  withdraw : ∀ k (c : Chip), P c.path → P (withdraw k c).path

/-- A record that is on the publication list stays on it until it is granted. -/
theorem lasting_pubs (r : RecId) : Lasting (fun p => r ∈ p.pubs) where
  join p q h := (mem_joins q r p.pubs).mpr (.inr h)
  stale q c h := by simpa using h
  withdraw k c h := by simpa using h

/-- A processor transaction in flight stays in flight. -/
theorem lasting_processor (t : Transaction) (b : Bool) : Lasting (fun p => p.port = some (.processor t b)) where
  join _ _ h := h
  stale r c h := by unfold markStale; rw [h]; exact h
  withdraw k c h := by
    unfold Chip.withdraw Path.settleCount
    dsimp only
    split_ifs <;> simp [h]

namespace Lasting
variable {P : Path → Prop}

theorem publish (L : Lasting P) (r : RecId) (h : P c.path) : P (publish r c).path := by
  rw [publish_path]
  exact L.join _ _ h
theorem publishIf (L : Lasting P) (b : Bool) (r : RecId) (h : P c.path) : P (publishIf b r c).path := by
  unfold Chip.publishIf
  split_ifs
  · exact L.publish _ h
  · exact h
theorem raiseCause (L : Lasting P) (k : Cause) (h : P c.path) : P (raiseCause k c).path := by
  unfold Chip.raiseCause changeAttention
  split_ifs
  · exact h
  · exact L.publishIf _ _ h
theorem append (L : Lasting P) (k : EventKind) (x y : Byte) (h : P c.path) : P (append k x y c).path :=
  append_path_keeps P L.join L.stale k x y c h
theorem endOperation (L : Lasting P) (m : Fin 4) (x : Code) (h : P c.path) : P (endOperation m x c).path := by
  unfold Chip.endOperation
  split_ifs
  · exact L.append _ _ _ h
  · exact h
theorem claimLost (L : Lasting P) (m : Fin 4) (o : Owner) (x : Code) (h : P c.path) : P (claimLost m o x c).path := by
  unfold Chip.claimLost
  dsimp only
  split_ifs
  · exact L.raiseCause _ (L.append _ _ _ h)
  · exact L.append _ _ _ h
theorem releaseClaim (L : Lasting P) (m : Fin 4) (x : Code) (h : P c.path) : P (releaseClaim m x c).path := by
  unfold Chip.releaseClaim
  dsimp only
  split_ifs
  · exact h
  · exact L.publish _ (L.claimLost _ _ _ (L.publish _
      (L.endOperation (c := c.modCh m fun ch => { ch with owner := .none, deadline := none }) m x h)))
theorem endSound (L : Lasting P) (x : Code) (h : P c.path) : P (endSound x c).path := by
  unfold Chip.endSound
  dsimp only
  split_ifs
  · exact h
  · exact L.raiseCause _ (L.append _ _ _ (L.publish _ (L.withdraw PartReq.isSound c h)))
theorem forEach (_ : Lasting P) {α : Type} {xs : List α} {f : α → Chip → Chip} (hf : ∀ x, ∀ d : Chip, P d.path → P (f x d).path)
    (h : P c.path) : P (forEach xs f c).path :=
  forEach_inv (fun d => P d.path) c h fun x _ d => hf x d
theorem releaseClaimsOf (L : Lasting P) (o : Owner) (x : Code) (h : P c.path) : P (releaseClaimsOf o x c).path :=
  L.forEach (fun m d hd => by
    split_ifs
    · exact L.releaseClaim m x hd
    · exact hd) h
theorem restartClaims (L : Lasting P) (h : P c.path) : P (restartClaims c).path := by
  unfold Chip.restartClaims
  split_ifs
  · exact L.releaseClaimsOf _ _ h
  · exact h
theorem restartSound (L : Lasting P) (h : P c.path) : P (restartSound c).path := by
  unfold Chip.restartSound
  split_ifs
  · exact L.endSound _ h
  · exact h

end Lasting

/-- An operation that touches one index at a time, taken over a list of indices. -/
theorem forEach_each {α β : Type} [DecidableEq α] (get : α → Chip → β) (g : α → β → β) (Q : Chip → Prop)
    {f : α → Chip → Chip} (hQ : ∀ k d, Q d → Q (f k d)) (hsame : ∀ k d, Q d → get k (f k d) = g k (get k d))
    (hother : ∀ j k d, Q d → j ≠ k → get j (f k d) = get j d) {xs : List α} (hx : xs.Nodup) (h : Q c)
    (j : α) : get j (forEach xs f c) = if j ∈ xs then g j (get j c) else get j c := by
  induction xs generalizing c with
  | nil => rfl
  | cons x xs ih =>
    obtain ⟨hnot, hx⟩ := List.nodup_cons.mp hx
    rw [forEach_cons, ih hx (hQ x c h)]
    by_cases hj : j = x
    · subst hj
      rw [if_neg hnot, if_pos List.mem_cons_self, hsame j c h]
    · rw [hother j x c h hj]
      exact if_congr (by simp [hj]) rfl rfl

/-! ### The end of a claim -/

/-- The channel after its claim has ended (R51). -/
def freed (now : Word) (ch : Channel) : Channel :=
  Channel.cool now (Channel.setMode now .coast { ch with owner := .none, deadline := none })

theorem releaseClaim_motor (m : Fin 4) (x : Code) (h : c.motor.ch[m].owner ≠ .none) :
    (releaseClaim m x c).motor = (modCh m (freed c.control.ms) c).motor := by
  unfold releaseClaim
  rw [if_neg h]
  simp [modCh, setMode, freed]

theorem releaseClaim_same (m : Fin 4) (x : Code) (h : c.motor.ch[m].owner ≠ .none) :
    (releaseClaim m x c).motor.ch[m] = freed c.control.ms c.motor.ch[m] :=
  (congrArg (fun y : Motor => y.ch[m]) (releaseClaim_motor m x h)).trans (modCh_same _ _ _)

theorem releaseClaim_other {m k : Fin 4} (x : Code) (h : c.motor.ch[m].owner ≠ .none) (hk : k ≠ m) :
    (releaseClaim m x c).motor.ch[k] = c.motor.ch[k] :=
  (congrArg (fun y : Motor => y.ch[k]) (releaseClaim_motor m x h)).trans (modCh_other _ _ _ _ hk)

theorem freed_owner (now : Word) (ch : Channel) : (freed now ch).owner = .none := by
  simp [freed]

/-- Every claim of one owner ends, and no other claim does. -/
theorem releaseClaimsOf_channel {q : Owner} (hq : q ≠ .none) (x : Code) (c : Chip) (m : Fin 4) :
    (releaseClaimsOf q x c).motor.ch[m]
      = if c.motor.ch[m].owner = q then freed c.control.ms c.motor.ch[m] else c.motor.ch[m] := by
  have h := forEach_each (c := c) (fun m d => d.motor.ch[m])
    (fun _ ch => if ch.owner = q then freed c.control.ms ch else ch) (fun d => d.control.ms = c.control.ms)
    (f := fun m d => if d.motor.ch[m].owner = q then d.releaseClaim m x else d) (fun k d hd => ?_) (fun k d hd => ?_)
    (fun j k d _ hjk => ?_) (List.nodup_finRange 4) rfl m
  · rw [if_pos (List.mem_finRange m)] at h
    exact h
  · show (if _ then _ else _ : Chip).control.ms = _
    split_ifs
    · simpa using hd
    · exact hd
  · show (if _ then _ else _ : Chip).motor.ch[k] = _
    split_ifs with ho
    · rw [releaseClaim_same k x (ho ▸ hq), hd]
    · rfl
  · show (if _ then _ else _ : Chip).motor.ch[j] = _
    split_ifs with ho
    · exact releaseClaim_other x (ho ▸ hq) hjk
    · rfl

/-! ## The restart generator (O25) -/

theorem pulseTimer_of_pulsing {t : Word} (h : c.control.gen = .pulsing t) : pulseTimer c
    = if reached c.control.ms t then { c with control := { c.control with gen := .idle } } else c := by
  unfold pulseTimer
  rw [h]

theorem pulseTimer_of_other (h : c.control.gen = .idle ∨ c.control.gen = .holding) : pulseTimer c = c := by
  unfold pulseTimer
  rcases h with h | h <;> rw [h]

/-- A request in IDLE: the pulse starts from the generator's new state. -/
theorem restartRequest_of_idle (w : Nat) (h : c.control.gen = .idle) : ∃ d, restartRequest w c = pulseStart d
    ∧ d.control = { c.control with
        gen := .pulsing (c.control.ms + BitVec.ofNat 32 w), restarts := satInc c.control.restarts,
        lastRestart := c.control.ms }
    ∧ d.path = c.path.join .status ∧ KeptBut [.control, .path] c d := by
  unfold restartRequest
  rw [h]
  refine ⟨_, rfl, (publish_keeps _ _).2.1, publish_path _ _, fun p hp => ?_⟩
  cases p <;> simp at hp <;> simp [Part.same]

theorem restartRequest_of_pulsing (w : Nat) {t : Word} (h : c.control.gen = .pulsing t) : restartRequest w c
    = publish .status { c with control := { c.control with mergedRestarts := satInc c.control.mergedRestarts } } := by
  unfold restartRequest
  rw [h]

/-- The motor unit at a pulse start: PROC's claims end (R70). -/
theorem pulseStart_motor (hon : c.on .motor = true) (m : Fin 4) : (pulseStart c).motor.ch[m]
    = if c.motor.ch[m].owner = .proc then freed c.control.ms c.motor.ch[m] else c.motor.ch[m] := by
  have h : (pulseStart c).motor = (releaseClaimsOf .proc .restart (restartPath c)).motor := by
    unfold pulseStart restartClaims
    rw [if_pos (by simpa [on] using hon)]
    simp
  rw [h, releaseClaimsOf_channel (by simp)]
  simp

theorem pulseStart_motor_off (hon : c.on .motor = false) : (pulseStart c).motor = c.motor := by
  unfold pulseStart restartClaims
  rw [if_neg (by simpa [on] using hon)]
  simp

/-- The sound unit at a pulse start: a sound of PROC ends (R139). -/
theorem pulseStart_sound (c : Chip) : (pulseStart c).sound = if c.on .sound = true ∧ c.sound.voice.source = .proc
    then { c.sound with voice := .silent, output := 128, lastEnd := .restart } else c.sound := by
  have hb : (restartClaims (restartPath c)).on .sound = c.on .sound := by simp [on]
  have hs : (restartClaims (restartPath c)).sound = c.sound := by simp
  unfold pulseStart restartSound
  rw [hb, hs]
  by_cases h : c.on .sound = true ∧ c.sound.voice.source = .proc
  · have hv : (restartClaims (restartPath c)).sound.voice ≠ .silent := by
      rw [hs]
      intro hv
      simp [hv, Voice.source] at h
    rw [if_pos h, if_pos (by simp [h]), (endSound_spec _ _ hv).1, hs]
  · rw [if_neg h, if_neg (by simpa using h), hs]

theorem pulseStart_pubs {r : RecId} (h : r ∈ c.path.pubs) : r ∈ (pulseStart c).path.pubs :=
  (lasting_pubs r).restartSound ((lasting_pubs r).restartClaims (by simpa using h))

theorem pulseStart_upstream (c : Chip) : (pulseStart c).path.upstream = none := by
  unfold pulseStart
  rw [(restartSound_keeps _).2.2.2.2.1, (restartClaims_keeps _).2.2.2.2.1]
  rfl

theorem pulseStart_port {x : Transaction} {b : Bool} (h : c.path.port = some (.processor x b)) :
    (pulseStart c).path.port = some (.processor x true) := by
  refine (lasting_processor x true).restartSound ((lasting_processor x true).restartClaims ?_)
  unfold restartPath
  rw [h]

theorem keptBut_pulseStart (c : Chip) : KeptBut [.ring, .attention, .path, .motor, .sound] c (pulseStart c) := by
  intro p hp
  cases p <;> simp at hp <;> simp [Part.same]

/-- Settles O25: the timer by its cases, the request in IDLE by what a pulse start does to each unit. -/
theorem restartGeneratorMoves : Obligations.RestartGeneratorMoves := by
  unfold Obligations.RestartGeneratorMoves
  refine ⟨fun s => ⟨fun t hg ht => act_answers rfl ?_, fun t hg ht => act_same rfl ?_,
      fun hg => act_same rfl (pulseTimer_of_other hg)⟩, fun c w hg => ?_, fun c w t hg => ?_⟩
  · rw [pulseTimer_of_pulsing hg, if_pos ht]
    refine ⟨rfl, fun p hp => ?_⟩
    cases p <;> simp at hp <;> rfl
  · rw [pulseTimer_of_pulsing hg, if_neg (by simp [ht])]
  · obtain ⟨d, hd, hcontrol, hpath, hkept⟩ := restartRequest_of_idle w hg
    have hmotor : d.motor = c.motor := hkept .motor (by simp)
    have hsound : d.sound = c.sound := hkept .sound (by simp)
    have hon (u : BlockUnit) : d.on u = c.on u := on_eq (by rw [hcontrol]) u
    rw [hd, ← hmotor, ← hsound, ← hon, ← hon]
    refine ⟨(pulseStart_keeps d).2.1.trans hcontrol, pulseStart_pubs ?_, pulseStart_upstream d,
      fun x b h => pulseStart_port (b := b) ?_, fun hm m => ?_, pulseStart_motor_off, fun hs hv => ?_, fun h => ?_,
      (hkept.mono ?_).trans ((keptBut_pulseStart d).mono ?_)⟩
    · rw [hpath]
      exact (mem_joins _ _ _).mpr (.inl rfl)
    · rw [hpath]
      exact h
    · rw [pulseStart_motor hm]
      refine ⟨?_, fun h => if_neg h⟩
      split_ifs with h
      · rw [freed_owner]
        simp
      · exact h
    · exact (pulseStart_sound d).trans (if_pos ⟨hs, hv⟩)
    · refine (pulseStart_sound d).trans (if_neg fun hc => ?_)
      rcases h with h | h
      · exact absurd hc.1 (by simp [h])
      · exact h hc.2
    · simp
    · simp
  · rw [restartRequest_of_pulsing w hg, publish_eq]
    refine ⟨rfl, rfl, fun p hp => ?_⟩
    cases p <;> simp at hp <;> rfl

end Sys2Proof.Machine.Chip
end

section
namespace Sys2Proof.Machine.Chip
variable {c d e : Chip}

/-! ## What no unit's start or stop touches

Block states and enables are the control unit's own, and so are the quiet period and the attention enables (`Steady`):
whatever the units do, and whatever their changes make the reflex unit do, leaves them. -/

structure Steady (c d : Chip) : Prop where
  block : d.control.block = c.control.block
  enable : d.control.enable = c.control.enable
  period : d.control.quietPeriod = c.control.quietPeriod
  causes : d.attention.enabled = c.attention.enabled

theorem Steady.refl (c : Chip) : Steady c c := ⟨rfl, rfl, rfl, rfl⟩

theorem Steady.same (h : Steady c d) (hc : e.control = d.control) (ha : e.attention.enabled = d.attention.enabled) :
    Steady c e :=
  ⟨by rw [hc, h.block], by rw [hc, h.enable], by rw [hc, h.period], ha.trans h.causes⟩

theorem ite_steady {p : Prop} [Decidable p] (h : Steady c d) (k : Steady c e) : Steady c (if p then d else e) := by
  split_ifs
  · exact h
  · exact k

theorem forEach_steady {α : Type} (xs : List α) (f : α → Chip → Chip) (h : Steady c d)
    (hf : ∀ x e, Steady c e → Steady c (f x e)) : Steady c (forEach xs f d) :=
  forEach_inv (Steady c) d h fun x _ e he => hf x e he

theorem handChange_steady (h : Steady c d) : Steady c (handChange d) :=
  ⟨by simpa using h.block, by simpa using h.enable, by simpa using h.period, by simpa using h.causes⟩
theorem publish_steady (r : RecId) (h : Steady c d) : Steady c (publish r d) := h.same (by simp) (by simp)
theorem publishIf_steady (b : Bool) (r : RecId) (h : Steady c d) : Steady c (publishIf b r d) :=
  h.same (by simp) (by simp)
theorem markStale_steady (r : RecId) (h : Steady c d) : Steady c (markStale r d) := h.same (by simp) (by simp)
theorem append_steady (k : EventKind) (x y : Byte) (h : Steady c d) : Steady c (append k x y d) :=
  h.same (by simp) (by simp)
theorem raiseCause_steady (k : Cause) (h : Steady c d) : Steady c (raiseCause k d) := h.same (by simp) (by simp)
theorem withdraw_steady (k : PartReq → Bool) (h : Steady c d) : Steady c (withdraw k d) := h.same (by simp) (by simp)
theorem claimLost_steady (m : Fin 4) (o : Owner) (x : Code) (h : Steady c d) : Steady c (claimLost m o x d) :=
  h.same (by simp) (by simp)
theorem motor_steady (x : Motor) (h : Steady c d) : Steady c { d with motor := x } := h.same rfl rfl
theorem link_steady (x : Link) (h : Steady c d) : Steady c { d with link := x } := h.same rfl rfl
theorem modLink_steady (f : Link → Link) (h : Steady c d) : Steady c (modLink f d) := h.same rfl rfl
theorem modCh_steady (m : Fin 4) (f : Channel → Channel) (h : Steady c d) : Steady c (modCh m f d) := h.same rfl rfl
theorem modInput_steady (n : Fin 11) (f : InputLine → InputLine) (h : Steady c d) : Steady c (modInput n f d) :=
  h.same rfl rfl

/-! ### Turning ON -/

theorem motorTurnOn_steady (h : Steady c d) : Steady c (motorTurnOn d) :=
  forEach_steady _ _ (h.same (e := { d with motor := { d.motor with windowEnd := nextMultiple 100 d.control.ms } }) rfl rfl)
    fun m _ he => publishIf_steady _ _ (modCh_steady m _ he)
theorem senseTurnOn_steady (h : Steady c d) : Steady c (senseTurnOn d) := publishIf_steady _ _ (h.same rfl rfl)
theorem inputTurnOn_steady (h : Steady c d) : Steady c (inputTurnOn d) :=
  forEach_steady _ _ (h.same (e := { d with input := Inputs.reset }) rfl rfl) fun n _ he => modInput_steady n _ he
theorem reflexTurnOn_steady (h : Steady c d) : Steady c (reflexTurnOn d) :=
  publishIf_steady _ _ (forEach_steady _ _ h fun i e he => he.same (modEntry_control i _ e) rfl)
theorem soundTurnOn_steady (h : Steady c d) : Steady c (soundTurnOn d) := publishIf_steady _ _ (h.same rfl rfl)
theorem linkTurnOn_steady (h : Steady c d) : Steady c (linkTurnOn d) :=
  forEach_steady _ _ (publishIf_steady _ _ (modLink_steady _ h)) fun k _ he => publish_steady (.outStatus k) he

theorem startUnit_steady (u : BlockUnit) (h : Steady c d) : Steady c (startUnit u d) := by
  cases u with
  | motor => exact motorTurnOn_steady h
  | sense => exact senseTurnOn_steady h
  | input => exact inputTurnOn_steady h
  | reflex => exact reflexTurnOn_steady h
  | sound => exact soundTurnOn_steady h
  | link => exact linkTurnOn_steady h

theorem changeStable_steady (n : Fin 11) (h : Steady c d) : Steady c (changeStable n d) := by
  have h1 := publish_steady .inputState ((modInput_steady n (fun x => { x with stable := d.rawState n, timer := none }) h).same
    (e := { d.modInput n (fun x => { x with stable := d.rawState n, timer := none }) with
      input := { (d.modInput n (fun x => { x with stable := d.rawState n, timer := none })).input with
        lastChange := d.control.ms } }) rfl rfl)
  exact handChange_steady (ite_steady (append_steady _ _ _ h1) h1)

theorem judgeEdge_steady (n : Fin 11) (h : Steady c d) : Steady c (judgeEdge n d) :=
  ite_steady (ite_steady (changeStable_steady n h) (modInput_steady n _ h)) (modInput_steady n _ h)

/-- What a unit does as it turns ON, its block state set. -/
theorem turnOn_steady (u : BlockUnit) (c : Chip) : Steady (setBlock u .on c) (turnOn u c) := by
  have h := handChange_steady (startUnit_steady u (Steady.refl (setBlock u .on c)))
  cases u
  case input => exact forEach_steady _ _ h fun n _ he => judgeEdge_steady n he
  all_goals exact h

/-! ### Leaving ON -/

theorem endOperation_steady (m : Fin 4) (x : Code) (h : Steady c d) : Steady c (endOperation m x d) :=
  h.same (by simp) (by simp)
theorem motorLeaveOn_steady (h : Steady c d) : Steady c (motorLeaveOn d) := by
  unfold motorLeaveOn
  refine motor_steady _ (forEach_steady _ _ (forEach_steady _ _ (forEach_steady _ _ h ?_) ?_) ?_)
  · exact fun m _ he => endOperation_steady m .off he
  · exact fun m _ he => modCh_steady m _ he
  · intro m _ he
    dsimp only
    split_ifs
    · exact he
    · exact claimLost_steady m _ _ (modCh_steady m _ he)
theorem soundLeaveOn_steady (h : Steady c d) : Steady c (soundLeaveOn d) :=
  h.same (endSound_keeps .off d).2.1 (by simp [soundLeaveOn])

theorem releaseClaim_steady (m : Fin 4) (x : Code) (h : Steady c d) : Steady c (releaseClaim m x d) :=
  h.same (by simp) (by simp)
theorem releasePeerClaims_steady (p : Fin 8) (x : Code) (h : Steady c d) : Steady c (releasePeerClaims p x d) :=
  ite_steady (forEach_steady _ _ h fun m _ he => ite_steady (handChange_steady (releaseClaim_steady m x he)) he) h

theorem cancelSub_steady (p : Fin 8) (h : Steady c d) : Steady c (cancelSub p d) := by
  unfold cancelSub
  split
  · exact publish_steady _ (h.same rfl rfl)
  · exact h

theorem removePeer_steady (p : Fin 8) (x : Code) (h : Steady c d) : Steady c (removePeer p x d) := by
  unfold removePeer
  split
  · exact h
  · exact handChange_steady (publish_steady _ (publish_steady _ (modLink_steady _ (raiseCause_steady _
      (append_steady _ _ _ (modLink_steady _ (cancelSub_steady p (releasePeerClaims_steady p _ h))))))))

theorem returnBlocks_steady (bs : List (Fin 48)) (h : Steady c d) : Steady c (returnBlocks bs d) :=
  h.same (by simp) (by simp)

theorem dropFrame_steady (side : FrameSide) (f : RxFrame) (h : Steady c d) : Steady c (dropFrame side f d) :=
  returnBlocks_steady _ (forEach_steady _ _ h fun _ _ he =>
    ite_steady (modLink_steady _ (withdraw_steady _ he)) (ite_steady (modLink_steady _ he) he))

theorem setReceiver_steady (x : Receiver) (h : Steady c d) : Steady c (setReceiver x d) := modLink_steady _ h
theorem giveUpFrames_steady (h : Steady c d) : Steady c (giveUpFrames d) := by
  have h1 : Steady c (match d.link.finishing with
      | some f => (d.modLink (fun l => { l with finishing := none })).dropFrame .finishing f
      | none => d) := by
    split
    · exact dropFrame_steady _ _ (modLink_steady _ h)
    · exact h
  unfold giveUpFrames
  refine setReceiver_steady _ ?_
  split
  · exact dropFrame_steady _ _ h1
  · exact dropFrame_steady _ _ h1
  · exact dropFrame_steady _ _ h1
  · exact h1
  · exact h1

theorem slotDone_steady (k : Fin 4) (x : Code) (h : Steady c d) : Steady c (slotDone k x d) :=
  raiseCause_steady _ (publish_steady _ (h.same (modOut_control k _ d) rfl))
theorem endSlots_steady (x : Code) (h : Steady c d) : Steady c (endSlots x d) :=
  modLink_steady _ (forEach_steady _ _ h fun k _ he => ite_steady (slotDone_steady k x he) he)

theorem removeAllPeers_steady (x : Code) (h : Steady c d) : Steady c (removeAllPeers x d) :=
  forEach_steady _ _ h fun p _ he => removePeer_steady p x he
theorem abandonFrame_steady (h : Steady c d) : Steady c (abandonFrame d) := modLink_steady _ (withdraw_steady _ h)
theorem linkLost_steady (x : Code) (h : Steady c d) : Steady c (linkLost x d) := by
  unfold linkLost
  exact modLink_steady _ (endSlots_steady x (abandonFrame_steady (giveUpFrames_steady (removeAllPeers_steady x h))))

theorem linkLeaveOn_steady (h : Steady c d) : Steady c (linkLeaveOn d) := by
  unfold linkLeaveOn
  refine link_steady _ (linkLost_steady _ ?_)
  split_ifs
  · exact handChange_steady (publish_steady _ h)
  · exact h

theorem stopUnit_steady (u : BlockUnit) (h : Steady c d) : Steady c (stopUnit u d) := by
  cases u with
  | motor => exact motorLeaveOn_steady h
  | sense | input | reflex => exact h.same rfl rfl
  | sound => exact soundLeaveOn_steady h
  | link => exact linkLeaveOn_steady h

/-- What a unit does as it leaves ON, its block state set. -/
theorem enterResetting_steady (u : BlockUnit) (c : Chip) : Steady (setBlock u .resetting c) (enterResetting u c) := by
  have h := forEach_steady (RecId.ofUnit u) joinReset
    (forEach_steady (RecId.processorOf u) (fun r => setShadow r r.defaultBytes)
      (handChange_steady (stopUnit_steady u (Steady.refl (setBlock u .resetting c)))) fun r _ he => he.same rfl rfl)
    fun r _ he => markStale_steady r (publish_steady r he)
  exact ⟨h.block, h.enable, h.period, h.causes⟩

/-! ## Enables and block states -/

/-- The block state that an enable leads to (R28). -/
def blockAfter : BlockState → Bool → BlockState
  | .off, true => .on
  | .on, false => .resetting
  | b, _ => b

theorem setBlock_eq (u : BlockUnit) (b : BlockState) (c : Chip) : setBlock u b c = { c with
    control := { c.control with block := c.control.block.set u b }, path := c.path.join .status } := publish_eq _ _

theorem PerUnit.get_set {α : Type} (x : PerUnit α) (u v : BlockUnit) (a : α) :
    (x.set u a).get v = if v = u then a else x.get v := by
  cases u <;> cases v <;> rfl

theorem PerUnit.ext_get {α : Type} {x y : PerUnit α} (h : ∀ u, x.get u = y.get u) : x = y := by
  obtain ⟨_, _, _, _, _, _⟩ := x
  obtain ⟨_, _, _, _, _, _⟩ := y
  rw [PerUnit.mk.injEq]
  exact ⟨h .motor, h .sense, h .input, h .reflex, h .sound, h .link⟩

theorem BlockUnit.mem_all (u : BlockUnit) : u ∈ BlockUnit.all := by cases u <;> decide
theorem BlockUnit.nodup_all : BlockUnit.all.Nodup := by decide

/-- The chip with its enables set anew. -/
def withEnable (x : PerUnit Bool) (c : Chip) : Chip := { c with control := { c.control with enable := x } }

/-- A unit's step out of OFF or of ON. -/
def flip (u : BlockUnit) (on : Bool) (c : Chip) : Chip := if on then c.turnOn u else c.enterResetting u

theorem flip_steady (u : BlockUnit) (b : Bool) (c : Chip) :
    Steady (setBlock u (if b then .on else .resetting) c) (flip u b c) := by
  cases b
  · exact enterResetting_steady u c
  · exact turnOn_steady u c

theorem settled_iff (c : Chip) (e : PerUnit Bool) (u : BlockUnit) :
    c.settled e u = true ↔ blockAfter (c.control.block.get u) (e.get u) = c.control.block.get u := by
  unfold settled
  cases c.control.block.get u <;> cases e.get u <;> decide

/-- An enable is applied to a unit: it is set, and where the block state moves the unit steps with it (R28). -/
theorem applyEnable_eq (u : BlockUnit) (b : Bool) (c : Chip) : applyEnable u b c
    = if blockAfter (c.control.block.get u) b = c.control.block.get u then withEnable (c.control.enable.set u b) c
      else flip u b (withEnable (c.control.enable.set u b) c) := by
  unfold applyEnable withEnable flip
  dsimp only
  cases c.control.block.get u <;> cases b <;> simp [blockAfter]

/-- What an enable does to the state of each unit. -/
theorem applyEnable_units (u v : BlockUnit) (b : Bool) (c : Chip) :
    (applyEnable u b c).control.block.get v
      = (if v = u then blockAfter (c.control.block.get u) b else c.control.block.get v)
    ∧ (applyEnable u b c).control.enable.get v = if v = u then b else c.control.enable.get v := by
  rw [applyEnable_eq]
  split_ifs with hb hv hv
  · subst hv
    exact ⟨hb.symm, (PerUnit.get_set ..).trans (if_pos rfl)⟩
  · exact ⟨rfl, (PerUnit.get_set ..).trans (if_neg hv)⟩
  all_goals
    have h := flip_steady u b (withEnable (c.control.enable.set u b) c)
    rw [h.block, h.enable, setBlock_eq]
    refine ⟨(PerUnit.get_set ..).trans ?_, (PerUnit.get_set ..).trans ?_⟩
  · rw [if_pos hv]
    revert hb
    cases c.control.block.get u <;> cases b <;> simp [blockAfter]
  · exact if_pos hv
  · exact if_neg hv
  · exact if_neg hv

/-- Enables are applied unit by unit (R27 step 1). -/
theorem applyEnables_units (e : PerUnit Bool) (c : Chip) (u : BlockUnit) :
    (applyEnables e c).control.block.get u = blockAfter (c.control.block.get u) (e.get u)
    ∧ (applyEnables e c).control.enable.get u = e.get u := by
  have h := forEach_each (c := c) (fun u d => (d.control.block.get u, d.control.enable.get u))
    (fun u x => (blockAfter x.1 (e.get u), e.get u)) (fun _ => True) (f := fun u => applyEnable u (e.get u))
    (fun _ _ _ => trivial) (fun v d _ => ?_) (fun v w d _ hv => ?_) BlockUnit.nodup_all trivial u
  · rw [if_pos (BlockUnit.mem_all u)] at h
    exact Prod.mk.inj h
  · obtain ⟨h1, h2⟩ := applyEnable_units v v (e.get v) d
    rw [if_pos rfl] at h1 h2
    exact Prod.ext h1 h2
  · obtain ⟨h1, h2⟩ := applyEnable_units w v (e.get w) d
    rw [if_neg hv] at h1 h2
    exact Prod.ext h1 h2

theorem withEnable_withEnable (x y : PerUnit Bool) (c : Chip) : withEnable x (withEnable y c) = withEnable x c := rfl

/-- Enables that move no block state are set, and nothing else happens. -/
theorem forEach_applyEnable_of_settled {e : PerUnit Bool} (us : List BlockUnit) {c : Chip}
    (h : ∀ u ∈ us, c.settled e u = true) : ∃ x, forEach us (fun u => applyEnable u (e.get u)) c = withEnable x c := by
  induction us generalizing c with
  | nil => exact ⟨_, rfl⟩
  | cons u us ih =>
    have hu := applyEnable_eq u (e.get u) c
    rw [if_pos ((settled_iff c e u).mp (h u List.mem_cons_self))] at hu
    obtain ⟨x, hx⟩ := ih (c := withEnable (c.control.enable.set u (e.get u)) c)
      fun v hv => h v (List.mem_cons_of_mem _ hv)
    rw [forEach_cons, hu, hx]
    exact ⟨x, rfl⟩

theorem applyEnables_of_settled {e : PerUnit Bool} (h : ∀ u, c.settled e u = true) :
    applyEnables e c = withEnable e c := by
  obtain ⟨x, hx⟩ := forEach_applyEnable_of_settled BlockUnit.all fun u _ => h u
  have hx' : applyEnables e c = withEnable x c := hx
  have he : x = e := PerUnit.ext_get fun u => by rw [← (applyEnables_units e c u).2, hx']; rfl
  rw [hx', he]

/-- Enables that move the block state of one unit alone: its step, with the enables set before it and after it. -/
theorem applyEnables_of_one {e : PerUnit Bool} {u : BlockUnit} (hu : c.settled e u = false)
    (h : ∀ v, v ≠ u → c.settled e v = true) :
    ∃ x, applyEnables e c = withEnable e (flip u (e.get u) (withEnable x c)) := by
  obtain ⟨us, vs, hall⟩ := List.append_of_mem (BlockUnit.mem_all u)
  have hnodup := BlockUnit.nodup_all
  rw [hall] at hnodup
  obtain ⟨-, hcons, hdis⟩ := List.nodup_append.mp hnodup
  have hus : ∀ v ∈ us, v ≠ u := fun v hv => hdis v hv u List.mem_cons_self
  have hvs : ∀ v ∈ vs, v ≠ u := fun v hv hvu => (List.nodup_cons.mp hcons).1 (hvu ▸ hv)
  obtain ⟨x, hx⟩ := forEach_applyEnable_of_settled (e := e) us fun v hv => h v (hus v hv)
  have hstep := applyEnable_eq u (e.get u) (withEnable x c)
  have hmoves : ¬ blockAfter ((withEnable x c).control.block.get u) (e.get u) = (withEnable x c).control.block.get u :=
    fun hs => Bool.false_ne_true (hu.symm.trans ((settled_iff c e u).mpr hs))
  rw [if_neg hmoves, withEnable_withEnable] at hstep
  generalize PerUnit.set _ u (e.get u) = y at hstep
  have hother (v : BlockUnit) (hv : v ≠ u) : (flip u (e.get u) (withEnable y c)).control.block.get v
      = c.control.block.get v := by
    rw [(flip_steady u (e.get u) (withEnable y c)).block, setBlock_eq]
    exact (PerUnit.get_set ..).trans (if_neg hv)
  obtain ⟨z, hz⟩ := forEach_applyEnable_of_settled (e := e) (c := flip u (e.get u) (withEnable y c)) vs fun v hv => by
    rw [settled_iff, hother v (hvs v hv)]
    exact (settled_iff c e v).mp (h v (hvs v hv))
  have hd : applyEnables e c = withEnable z (flip u (e.get u) (withEnable y c)) := by
    rw [← hz, ← hstep, ← hx]
    unfold applyEnables
    rw [hall]
    simp only [forEach, List.foldl_append, List.foldl_cons]
  have he : z = e := PerUnit.ext_get fun v => by rw [← (applyEnables_units e c v).2, hd]; rfl
  exact ⟨y, by rw [hd, he]⟩

end Sys2Proof.Machine.Chip
end

section
namespace Sys2Proof.Machine

theorem bit?_iff (b : Byte) : bit? b = true ↔ b.toNat ≤ 1 := by simp [bit?]

/-- The content test of the control record, field by field (Table 2-1, R26). -/
theorem ControlRec.valid_iff (r : ControlRec) : r.valid = true ↔ (∀ k : Fin 6, r.enables[k].toNat ≤ 1)
    ∧ (∀ k : Fin 10, r.attention[k].toNat ≤ 1) ∧ 100 ≤ r.quiet.toNat ∧ r.quiet.toNat ≤ 10000 := by
  have hall {n : Nat} (v : Vector Byte n) : v.toList.all bit? = true ↔ ∀ k : Fin n, v[k].toNat ≤ 1 := by
    simp only [List.all_eq_true, bit?_iff, Vector.mem_toList_iff]
    exact ⟨fun h k => h _ (Vector.getElem_mem k.isLt), fun h b hb => by
      obtain ⟨k, hk, rfl⟩ := Vector.getElem_of_mem hb
      exact h ⟨k, hk⟩⟩
  unfold Sys2Proof.ControlRec.valid Sys2Proof.ControlRec.quietOk within
  rw [Bool.and_eq_true, Bool.and_eq_true, hall, hall, Bool.and_eq_true, decide_eq_true_iff, decide_eq_true_iff, and_assoc]

theorem Attention.selected_congr {a b : Attention} (hp : b.pending = a.pending) (he : b.enabled = a.enabled) :
    b.selected = a.selected := by
  have h : b.eligible = a.eligible := funext fun k => by rw [eligible, eligible, hp, he]
  rw [selected, selected, h]

theorem Attention.selected_review (now : Word) (a : Attention) : (a.review now).selected = a.selected :=
  selected_congr (review_pending now a) (review_enabled now a)

/-- The path after a processor transaction has been timed (R19). -/
def Path.timed (now : Word) (p : Path) : Path := { p with lastTime := now, quietElapsed := 0, procQuiet := false }

namespace Chip
variable {c d : Chip} {r : ControlRec}

theorem setCauseEnables_eq (e : Vector Bool 10) (c : Chip) : setCauseEnables e c = { c with
    attention := Attention.review c.control.ms { c.attention with enabled := e }
    path := if Attention.selected { c.attention with enabled := e } = c.attention.selected then c.path
      else c.path.join .attention } := by
  unfold setCauseEnables changeAttention publishIf
  by_cases h : Attention.selected { c.attention with enabled := e } = c.attention.selected
  · rw [if_neg (by simp [h]), if_pos h]
  · rw [if_pos (by simp [h]), if_neg h, publish_eq]

/-- Enables that leave the block states, attention enables and quiet period of a control record, taken with no entry
watching (R27 steps 1 to 3). -/
def taken (r : ControlRec) (c : Chip) : Chip := { c with
  control := { c.control with enable := r.unitEnables, quietPeriod := r.quiet.toNat }
  attention := Attention.review c.control.ms { c.attention with enabled := r.causeEnables }
  path := { (if Attention.selected { c.attention with enabled := r.causeEnables } = c.attention.selected then c.path
      else c.path.join .attention) with
    procQuiet := decide (r.quiet.toNat ≤ c.path.quietElapsed) } }

theorem taken_path (r : ControlRec) (c : Chip) : (taken r c).path =
    if Attention.selected { c.attention with enabled := r.causeEnables } = c.attention.selected
    then { c.path with procQuiet := decide (r.quiet.toNat ≤ c.path.quietElapsed) }
    else { c.path.join .attention with procQuiet := decide (r.quiet.toNat ≤ c.path.quietElapsed) } := by
  unfold taken
  split_ifs <;> rfl

/-- The chip that a valid latch brings to its command (R27 steps 1 to 3). -/
def applied (r : ControlRec) (c : Chip) : Chip :=
  setQuietPeriod r.quiet.toNat (setCauseEnables r.causeEnables (applyEnables r.unitEnables c))

theorem applied_of_settled (hu : c.unwatched = true) (h : ∀ u, c.settled r.unitEnables u = true) :
    applied r c = taken r c := by
  unfold applied
  rw [applyEnables_of_settled h, setCauseEnables_eq, setQuietPeriod_of_unwatched]
  · unfold taken withEnable Path.join
    split_ifs <;> rfl
  · exact (unwatched_congr c _ rfl rfl).trans hu

theorem controlLatch_of_valid {n : Nat} (hv : r.valid = true) (hn : n ≤ 2) :
    controlLatch r n c = reportLatch 0 .ok (controlCommand n (applied r c)) :=
  if_pos (by rw [hv, decide_eq_true hn]; rfl)

theorem controlLatch_of_invalid {n : Nat} (hv : r.valid = false) : controlLatch r n c = reportLatch 0 .badArg c :=
  if_neg (by simp [hv])

theorem controlLatch_of_settled {n : Nat} (hv : r.valid = true) (hn : n ≤ 2) (hu : c.unwatched = true)
    (h : ∀ u, c.settled r.unitEnables u = true) :
    controlLatch r n c = reportLatch 0 .ok (controlCommand n (taken r c)) := by
  rw [controlLatch_of_valid hv hn, applied_of_settled hu h]

theorem reportLatch_eq (n : Nat) (x : Code) (c : Chip) : reportLatch n x c = { c with
    control := c.control.reported n x, path := c.path.join .status } := publish_eq _ _

theorem settled_congr (e : PerUnit Bool) (u : BlockUnit) (h : d.control.block = c.control.block) :
    d.settled e u = c.settled e u := by unfold settled; rw [h]

/-- The path after the result of a latch has been reported and its transaction timed. -/
theorem reportLatch_timed_path {q : Path} {n : Nat} {x : Code} (hq : c.path = q) :
    (reportLatch n x c).timed.path = (q.join .status).timed c.control.ms := by
  rw [reportLatch_eq, ← hq]
  rfl

/-- Settles O23: the content test field by field, and what each step of a latch with settled enables leaves. -/
theorem controlLatchTakenOrBadArg : Obligations.ControlLatchTakenOrBadArg := by
  unfold Obligations.ControlLatchTakenOrBadArg
  refine fun s r hr => ⟨fun hv hs => ?_, fun hv i n hin => ?_, ControlRec.valid_iff r⟩
  · refine latchRow_answers rfl hr (ControlRec.length_toBytes r 0) fun m sh hm hsh _ hu => ?_
    rw [controlLatch_of_settled hv (Nat.zero_le 2) hu fun u => hs u]
    have hcauses : (reportLatch 0 .ok (controlCommand 0 (taken r (s.hw.written m sh)))).timed.attention
        = Attention.review s.hw.control.ms { s.hw.attention with enabled := r.causeEnables } := by
      rw [reportLatch_eq]
      rfl
    have hpath := taken_path r (s.hw.written m sh)
    refine ⟨?_, ?_, hcauses, ?_, ⟨?_, ?_⟩, fun p hp => ?_⟩
    case refine_3 =>
      rw [hcauses, Attention.selected_review]
      split_ifs with hsel
      · exact reportLatch_timed_path (hpath.trans (if_pos hsel))
      · exact reportLatch_timed_path (hpath.trans (if_neg hsel))
    all_goals rw [reportLatch_eq]
    · exact (unwatched_congr (s.hw.written m sh) _ rfl rfl).trans hu
    · rfl
    · exact hm
    · exact hsh
    · cases p <;> simp at hp <;> rfl
  · have hi : exec i s = act (latchRow .control (r.toBytes n) (controlLatch r n)) s := by
      simp only [List.mem_cons, Prod.mk.injEq, List.not_mem_nil, or_false] at hin
      obtain ⟨rfl, rfl⟩ | ⟨rfl, rfl⟩ | ⟨rfl, rfl⟩ := hin <;> rfl
    refine latchRow_answers hi hr (ControlRec.length_toBytes r n) fun m sh hm hsh _ hu => ?_
    rw [controlLatch_of_invalid hv, reportLatch_eq]
    refine ⟨(unwatched_congr (s.hw.written m sh) _ rfl rfl).trans hu, rfl, rfl, ⟨hm, hsh⟩, fun p hp => ?_⟩
    cases p <;> simp at hp <;> rfl

end Chip
end Sys2Proof.Machine
end

section
namespace Sys2Proof.Machine.Chip
variable {c d e : Chip}

/-! ## A unit's stop with no reflex entry watching

Nothing is handed on then, so a stop touches its unit, ring, attention flags and path; the link's stop frees motors too. -/

theorem keptBut_publish (r : RecId) (c : Chip) : KeptBut [.path] c (publish r c) := fun p hp => by
  cases p <;> simp at hp <;> simp [Part.same]
theorem keptBut_append (k : EventKind) (x y : Byte) (c : Chip) :
    KeptBut [.ring, .attention, .path] c (append k x y c) := fun p hp => by
  cases p <;> simp at hp <;> simp [Part.same]
theorem keptBut_raiseCause (k : Cause) (c : Chip) : KeptBut [.attention, .path] c (raiseCause k c) := fun p hp => by
  cases p <;> simp at hp <;> simp [Part.same]
theorem keptBut_withdraw (k : PartReq → Bool) (c : Chip) : KeptBut [.path] c (withdraw k c) := fun p hp => by
  cases p <;> simp at hp <;> simp [Part.same]
theorem keptBut_link (x : Link) (c : Chip) : KeptBut [.link] c { c with link := x } := fun p hp => by
  cases p <;> simp at hp <;> rfl
theorem keptBut_motor (x : Motor) (c : Chip) : KeptBut [.motor] c { c with motor := x } := fun p hp => by
  cases p <;> simp at hp <;> rfl
theorem keptBut_endOperation (m : Fin 4) (x : Code) (c : Chip) :
    KeptBut [.ring, .attention, .path] c (endOperation m x c) := fun p hp => by
  cases p <;> simp at hp <;> simp [Part.same]
theorem keptBut_claimLost (m : Fin 4) (o : Owner) (x : Code) (c : Chip) :
    KeptBut [.ring, .attention, .path] c (claimLost m o x c) := fun p hp => by
  cases p <;> simp at hp <;> simp [Part.same]
theorem keptBut_releaseClaim (m : Fin 4) (x : Code) (c : Chip) :
    KeptBut [.motor, .ring, .attention, .path] c (releaseClaim m x c) := fun p hp => by
  cases p <;> simp at hp <;> simp [Part.same]
theorem keptBut_returnBlocks (bs : List (Fin 48)) (c : Chip) : KeptBut [.link, .path] c (returnBlocks bs c) :=
  fun p hp => by cases p <;> simp at hp <;> simp [Part.same]

theorem forEach_keptBut {α : Type} {l : List Part} {xs : List α} {f : α → Chip → Chip} (hf : ∀ x e, KeptBut l e (f x e))
    (c : Chip) : KeptBut l c (forEach xs f c) :=
  forEach_inv (KeptBut l c) c (.refl l c) fun x _ e he => he.trans (hf x e)

/-! ### Attention flags -/

theorem cause_idx_inj {j k : Cause} : j.idx = k.idx → j = k := by
  cases j <;> cases k <;> decide

theorem raiseCause_flags (k : Cause) (c : Chip) (j : Fin 10) : (raiseCause k c).attention.pending[j]
    = if j = k.idx then true else c.attention.pending[j] := by
  by_cases hp : c.attention.pending[k.idx] = true
  · rw [raiseCause, if_pos hp]
    split_ifs with hj
    · exact hj ▸ hp
    · rfl
  · rw [raiseCause, if_neg hp, changeAttention]
    split_ifs with hj
    · simp [hj]
    · simp [Fin.val_inj, Ne.symm hj]

/-- From c to d no cause but the named ones has been raised, and none taken. -/
structure Raises (ks : List Cause) (c d : Chip) : Prop where
  other : ∀ k, k ∉ ks → d.attention.pending[k.idx] = c.attention.pending[k.idx]
  kept : ∀ k : Fin 10, c.attention.pending[k] = true → d.attention.pending[k] = true

namespace Raises
variable {ks ks' : List Cause}

theorem of_same (ks : List Cause) (h : d.attention = c.attention) : Raises ks c d :=
  ⟨fun _ _ => by rw [h], fun _ hk => by rw [h]; exact hk⟩

theorem trans (h : Raises ks c d) (k : Raises ks d e) : Raises ks c e :=
  ⟨fun j hj => (k.other j hj).trans (h.other j hj), fun j hj => k.kept j (h.kept j hj)⟩

theorem mono (h : Raises ks c d) (hk : ∀ k ∈ ks, k ∈ ks') : Raises ks' c d :=
  ⟨fun j hj => h.other j fun hm => hj (hk j hm), h.kept⟩

theorem raiseCause (k : Cause) (c : Chip) : Raises [k] c (raiseCause k c) where
  other j hj := by
    rw [raiseCause_flags, if_neg]
    exact fun h => hj (List.mem_singleton.mpr (cause_idx_inj h))
  kept j hj := by
    rw [raiseCause_flags, hj, ite_self]

theorem appendRoom (k : EventKind) (x y : Byte) (c : Chip) : Raises [.event] c (appendRoom k x y c) := by
  unfold Chip.appendRoom
  dsimp only
  split_ifs
  · exact (of_same _ (by simp)).trans (raiseCause .event _)
  · exact of_same _ (by simp)

theorem appendDropped (c : Chip) : Raises [.event] c (appendDropped c) := of_same _ (by simp [Chip.appendDropped])

/-- An append raises EVENT or nothing (R104). -/
theorem append (k : EventKind) (x y : Byte) (c : Chip) : Raises [.event] c (append k x y c) := by
  unfold Chip.append
  split_ifs
  · exact appendDropped c
  · exact appendRoom k x y c
  · have h : Raises [.event] c (publish .ringStatus { Chip.appendRoom .lost 0 c.ring.lostPending c with
        ring := { (Chip.appendRoom .lost 0 c.ring.lostPending c).ring with lostPending := 0 } }) :=
      (appendRoom .lost 0 c.ring.lostPending c).trans (of_same _ (by simp))
    dsimp only
    split_ifs
    · exact h.trans (appendRoom k x y _)
    · exact h.trans (appendDropped _)

theorem publish (r : RecId) (h : Raises ks c d) : Raises ks c (publish r d) := h.trans (of_same _ (by simp))
theorem motor (x : Motor) (h : Raises ks c d) : Raises ks c { d with motor := x } := h.trans (of_same _ rfl)

theorem claimLost (m : Fin 4) (o : Owner) {x : Code} (hx : raisesClaim x = false) (c : Chip) :
    Raises [.event] c (claimLost m o x c) := by
  unfold Chip.claimLost
  rw [if_neg (by simp [hx])]
  exact append _ _ _ c

theorem endOperation (m : Fin 4) (x : Code) (c : Chip) : Raises [.event] c (endOperation m x c) := by
  unfold Chip.endOperation
  split_ifs
  · exact append _ _ _ c
  · exact of_same _ rfl

theorem releaseClaim (m : Fin 4) {x : Code} (hx : raisesClaim x = false) (c : Chip) :
    Raises [.event] c (releaseClaim m x c) := by
  unfold Chip.releaseClaim
  dsimp only
  split_ifs
  · exact of_same _ rfl
  · exact publish _ (trans (publish _ (motor _ (motor _ (trans (motor _ (of_same _ rfl)) (endOperation m x _)))))
      (claimLost m _ hx _))

end Raises

/-! ### The link's stop -/

/-- The parts that the link's stop touches. -/
abbrev linkParts : List Part := [.link, .motor, .ring, .attention, .path]

/-- From c to d parts of l alone have changed, no record has left the publication list, no cause has been raised but those
of the link's stop, and no entry watches. -/
structure Unseen (l : List Part) (c d : Chip) : Prop where
  watch : d.unwatched = true
  parts : ∀ p ∈ l, p ∈ linkParts
  kept : KeptBut l c d
  pubs : ∀ r, r ∈ c.path.pubs → r ∈ d.path.pubs
  raises : Raises [.peer, .send, .event] c d
  lastFrame : d.link.lastFrame = c.link.lastFrame

namespace Unseen
variable {l : List Part}

theorem refl (h : c.unwatched = true) (hl : ∀ p ∈ l, p ∈ linkParts := by simp) : Unseen l c c :=
  ⟨h, hl, .refl _ c, fun _ => id, .of_same _ rfl, rfl⟩

theorem step {l' : List Part} (h : Unseen l c d) (k : KeptBut l' d e) (hl : l' ⊆ l)
    (hp : ∀ r, r ∈ d.path.pubs → r ∈ e.path.pubs) (hr : Raises [.peer, .send, .event] d e)
    (hf : e.link.lastFrame = d.link.lastFrame) : Unseen l c e := by
  have k := k.mono hl
  have hblock : e.control = d.control := k .control fun hm => by simpa using h.parts _ hm
  have hreflex : e.reflex = d.reflex := k .reflex fun hm => by simpa using h.parts _ hm
  exact ⟨(unwatched_congr d e (by rw [hblock]) hreflex).trans h.watch, h.parts, h.kept.trans k,
    fun r hr => hp r (h.pubs r hr), h.raises.trans hr, hf.trans h.lastFrame⟩

theorem hand (h : Unseen l c d) : handChange d = d := handChange_of_unwatched d h.watch

theorem publish (r : RecId) (h : Unseen l c d) (hl : .path ∈ l := by simp) : Unseen l c (publish r d) :=
  h.step (keptBut_publish r d) (by simpa) (fun q => (lasting_pubs q).publish r) (.of_same _ (by simp)) (by simp)
theorem withdraw (k : PartReq → Bool) (h : Unseen l c d) (hl : .path ∈ l := by simp) : Unseen l c (withdraw k d) :=
  h.step (keptBut_withdraw k d) (by simpa) (fun q => (lasting_pubs q).withdraw k d) (.of_same _ (by simp)) (by simp)
theorem append (k : EventKind) (x y : Byte) (h : Unseen linkParts c d) : Unseen linkParts c (append k x y d) :=
  h.step (keptBut_append k x y d) (by simp) (fun q => (lasting_pubs q).append k x y) ((Raises.append k x y d).mono (by simp))
    (by simp)
theorem raiseCause (k : Cause) (h : Unseen l c d) (hk : k ∈ [Cause.peer, .send, .event] := by simp)
    (hl : [.attention, .path] ⊆ l := by simp) : Unseen l c (raiseCause k d) :=
  h.step (keptBut_raiseCause k d) hl (fun q => (lasting_pubs q).raiseCause k)
    ((Raises.raiseCause k d).mono (by simpa using hk)) (by simp)
theorem link (x : Link) (h : Unseen l c d) (hx : x.lastFrame = d.link.lastFrame) (hl : .link ∈ l := by simp) :
    Unseen l c { d with link := x } :=
  h.step (keptBut_link x d) (by simpa) (fun _ => id) (.of_same _ rfl) hx
theorem modLink (f : Link → Link) (h : Unseen l c d) (hf : ∀ x : Link, (f x).lastFrame = x.lastFrame := by exact fun _ => rfl)
    (hl : .link ∈ l := by simp) : Unseen l c (modLink f d) :=
  h.link _ (hf _) hl
theorem modOut (k : Fin 4) (f : OutSlot → OutSlot) (h : Unseen l c d) (hl : .link ∈ l := by simp) :
    Unseen l c (modOut k f d) := h.link _ rfl hl
theorem releaseClaim (m : Fin 4) {x : Code} (hx : raisesClaim x = false) (h : Unseen linkParts c d) :
    Unseen linkParts c (releaseClaim m x d) :=
  h.step (keptBut_releaseClaim m x d) (by simp) (fun q => (lasting_pubs q).releaseClaim m x)
    ((Raises.releaseClaim m hx d).mono (by simp)) (by simp)
theorem returnBlocks (bs : List (Fin 48)) (h : Unseen l c d) (hl : [.link, .path] ⊆ l := by simp) :
    Unseen l c (returnBlocks bs d) := by
  refine h.step (keptBut_returnBlocks bs d) hl (fun q hq => ?_) (.of_same _ (by simp)) (by simp; rfl)
  obtain ⟨p, rfl | rfl, hp⟩ := returnBlocks_eq bs d
  · rw [hp]
    exact hq
  · rw [hp]
    exact (mem_joins _ _ _).mpr (.inr hq)
theorem forEach {α : Type} {xs : List α} {f : α → Chip → Chip} (h : Unseen l c d)
    (hf : ∀ x e, Unseen l c e → Unseen l c (f x e)) : Unseen l c (forEach xs f d) :=
  forEach_inv (Unseen l c) d h fun x _ e he => hf x e he

theorem cancelSub (p : Fin 8) (h : Unseen linkParts c d) : Unseen linkParts c (cancelSub p d) := by
  unfold Chip.cancelSub
  split
  · exact Unseen.publish _ (h.link _ rfl)
  · exact h

end Unseen

/-- A peer's claims end, its motors released in order, with nothing handed on (R58). -/
theorem releasePeerClaims_of_unwatched (p : Fin 8) (h : d.unwatched = true) : releasePeerClaims p .peerGone d
    = if d.on .motor then releaseClaimsOf (.link p) .peerGone d else d := by
  unfold releasePeerClaims releaseClaimsOf
  refine if_congr Iff.rfl ?_ rfl
  suffices ∀ xs : List (Fin 4), ∀ e, Unseen linkParts d e →
      forEach xs (fun m c => if c.motor.ch[m].owner = .link p then (c.releaseClaim m .peerGone).handChange else c) e
        = forEach xs (fun m c => if c.motor.ch[m].owner = .link p then c.releaseClaim m .peerGone else c) e from
    this _ d (Unseen.refl h)
  intro xs
  induction xs with
  | nil => exact fun _ _ => rfl
  | cons m xs ih =>
    intro e he
    rw [forEach_cons, forEach_cons]
    split_ifs with ho
    · have hm := he.releaseClaim m (x := .peerGone) rfl
      rw [hm.hand]
      exact ih _ hm
    · exact ih e he

theorem Unseen.releasePeerClaims (p : Fin 8) (h : Unseen linkParts c d) :
    Unseen linkParts c (releasePeerClaims p .peerGone d) := by
  rw [releasePeerClaims_of_unwatched p h.watch]
  split_ifs
  · exact h.forEach fun m _ he => by
      split_ifs
      · exact he.releaseClaim m rfl
      · exact he
  · exact h

/-- A peer with its claims and subscription ended and its replies dropped, its PEER_LEAVE appended (R155). -/
def peerLeft (p : Fin 8) (tag : Word) (x : Code) (c : Chip) : Chip :=
  raiseCause .peer (append .peerLeave (Bytes.ofNat p.val) x.byte
    (modLink (fun l => { l with replies := l.replies.filter (fun r => r.tag != tag) })
      (cancelSub p (releasePeerClaims p .peerGone c))))

/-- A peer's slot emptied, with the records that show it (R155). -/
def slotEmptied (p : Fin 8) (c : Chip) : Chip :=
  publish .linkStatus (publish (.peerImage p) (modLink (fun l => { l with peer := l.peer.set p none }) c))

theorem Unseen.slotEmptied (p : Fin 8) (h : Unseen linkParts c d) : Unseen linkParts c (slotEmptied p d) :=
  ((h.modLink _).publish _).publish _

theorem Unseen.peerLeft (p : Fin 8) (tag : Word) (x : Code) (h : Unseen linkParts c d) :
    Unseen linkParts c (peerLeft p tag x d) :=
  (((cancelSub p (h.releasePeerClaims p)).modLink _).append _ _ _).raiseCause .peer

theorem removePeer_of_none {p : Fin 8} (x : Code) (h : d.link.peer[p] = none) : removePeer p x d = d := by
  unfold removePeer
  rw [h]

theorem removePeer_of_some {p : Fin 8} {y : Peer} (x : Code) (hu : d.unwatched = true) (h : d.link.peer[p] = some y) :
    removePeer p x d = slotEmptied p (peerLeft p y.tag x d) := by
  unfold removePeer
  rw [h]
  exact (((Unseen.refl hu).peerLeft p y.tag x).slotEmptied p).hand

namespace Unseen
variable {l : List Part}

theorem removePeer (p : Fin 8) (x : Code) (h : Unseen linkParts c d) : Unseen linkParts c (removePeer p x d) := by
  cases hp : d.link.peer[p] with
  | none =>
    rw [removePeer_of_none x hp]
    exact h
  | some y =>
    rw [removePeer_of_some x h.watch hp]
    exact (h.peerLeft p y.tag x).slotEmptied p

theorem removeAllPeers (x : Code) (h : Unseen linkParts c d) : Unseen linkParts c (removeAllPeers x d) :=
  h.forEach fun p _ he => he.removePeer p x

theorem dropFrame (side : FrameSide) (f : RxFrame) (h : Unseen [.link, .path] c d) :
    Unseen [.link, .path] c (dropFrame side f d) :=
  Unseen.returnBlocks _ (h.forEach fun _ _ he => by
    dsimp only
    split_ifs
    · exact (he.withdraw _).modLink _
    · exact he.modLink _
    · exact he)

theorem giveUpFrames (h : Unseen [.link, .path] c d) : Unseen [.link, .path] c (giveUpFrames d) := by
  unfold Chip.giveUpFrames
  have h1 : Unseen [.link, .path] c (match d.link.finishing with
      | some f => (d.modLink (fun l => { l with finishing := none })).dropFrame .finishing f
      | none => d) := by
    split
    · exact (h.modLink _).dropFrame _ _
    · exact h
  refine modLink _ ?_
  split
  · exact h1.dropFrame _ _
  · exact h1.dropFrame _ _
  · exact h1.dropFrame _ _
  · exact h1
  · exact h1

theorem abandonFrame (h : Unseen [.link, .path] c d) : Unseen [.link, .path] c (abandonFrame d) :=
  (h.withdraw _).modLink _

theorem slotDone (k : Fin 4) (x : Code) (h : Unseen [.link, .attention, .path] c d) :
    Unseen [.link, .attention, .path] c (slotDone k x d) :=
  ((h.modOut k _).publish _).raiseCause .send

theorem endSlots (x : Code) (h : Unseen [.link, .attention, .path] c d) :
    Unseen [.link, .attention, .path] c (endSlots x d) :=
  modLink _ (h.forEach fun k _ he => by
    split_ifs
    · exact he.slotDone k x
    · exact he)

theorem linkStateDown (h : Unseen [.path] c d) : Unseen [.path] c (linkStateDown d) := by
  unfold Chip.linkStateDown
  rw [(h.publish .linkStatus).hand]
  exact h.publish .linkStatus

theorem chain {l' : List Part} (h : Unseen linkParts c d) (k : Unseen l' d e) : Unseen linkParts c e :=
  h.step k.kept (fun p hp => k.parts p hp) k.pubs k.raises k.lastFrame

end Unseen

/-- The link's stop in its steps: the link state, the peers, what is in progress, and the slots (R159, R160). -/
def linkDowned (c : Chip) : Chip := if c.pins.linkReady then linkStateDown c else c
def peersGone (c : Chip) : Chip := removeAllPeers .off (linkDowned c)
def framesGone (c : Chip) : Chip := abandonFrame (giveUpFrames (peersGone c))

def slotsGone (c : Chip) : Chip := endSlots .off (framesGone c)

theorem unseen_linkDowned (h : c.unwatched = true) : Unseen [.path] c (linkDowned c) := by
  unfold linkDowned
  split_ifs
  · exact (Unseen.refl h).linkStateDown
  · exact .refl h

theorem unseen_peersGone (h : c.unwatched = true) : Unseen linkParts c (peersGone c) :=
  ((Unseen.refl h).chain (unseen_linkDowned h)).removeAllPeers .off

theorem unseen_framesGone (h : c.unwatched = true) : Unseen [.link, .path] (peersGone c) (framesGone c) :=
  (Unseen.refl (unseen_peersGone h).watch).giveUpFrames.abandonFrame

theorem unseen_slotsGone (h : c.unwatched = true) : Unseen [.link, .attention, .path] (framesGone c) (slotsGone c) :=
  (Unseen.refl (unseen_framesGone h).watch).endSlots .off

theorem unseen_linkStop (h : c.unwatched = true) : Unseen linkParts c (slotsGone c) :=
  ((unseen_peersGone h).chain (unseen_framesGone h)).chain (unseen_slotsGone h)

theorem linkLeaveOn_eq (h : c.unwatched = true) : linkLeaveOn c
    = { slotsGone c with link := { Link.reset with lastFrame := c.link.lastFrame } } := by
  have hlost : linkLost .off (linkDowned c)
      = modLink (fun l => { l with replies := [], alarms := [], poolFrame := .none }) (slotsGone c) := by
    unfold linkLost slotsGone framesGone peersGone
    dsimp only
  have hdowned : (if c.pins.linkReady then linkStateDown c else c) = linkDowned c := by unfold linkDowned; dsimp only
  unfold linkLeaveOn
  rw [hdowned, hlost, ← (unseen_linkStop h).lastFrame]
  generalize slotsGone c = d
  rfl

theorem unseen_linkLeaveOn (h : c.unwatched = true) : Unseen linkParts c (linkLeaveOn c) := by
  rw [linkLeaveOn_eq h]
  exact (unseen_linkStop h).link _ (unseen_linkStop h).lastFrame.symm

theorem keptBut_motorLeaveOn (c : Chip) : KeptBut [.motor, .ring, .attention, .path] c (motorLeaveOn c) := by
  unfold motorLeaveOn
  refine KeptBut.trans ?_ ((keptBut_motor _ _).mono (by simp))
  refine ((forEach_keptBut ?_ _).trans (forEach_keptBut ?_ _)).trans (forEach_keptBut ?_ _)
  · exact fun m e => (keptBut_endOperation m .off e).mono (by simp)
  · exact fun m e => (keptBut_motor _ e).mono (by simp)
  · intro m e
    dsimp only
    split_ifs
    · exact .refl _ e
    · exact ((keptBut_motor _ e).mono (by simp)).trans ((keptBut_claimLost m _ _ _).mono (by simp))

theorem keptBut_soundLeaveOn (c : Chip) : KeptBut [.sound, .ring, .attention, .path] c (soundLeaveOn c) := fun p hp => by
  cases p <;> simp at hp <;> simp [soundLeaveOn, Part.same]

/-- What the stop of a unit touches. -/
def stopParts : BlockUnit → List Part
  | .motor => [.motor, .ring, .attention, .path]
  | .sense => [.sense]
  | .input => [.input]
  | .reflex => [.reflex]
  | .sound => [.sound, .ring, .attention, .path]
  | .link => linkParts

theorem keptBut_stopUnit (u : BlockUnit) (h : c.unwatched = true) : KeptBut (stopParts u) c (stopUnit u c) := by
  cases u with
  | motor => exact keptBut_motorLeaveOn c
  | sense | input | reflex => exact fun p hp => by cases p <;> simp [stopParts] at hp <;> rfl
  | sound => exact keptBut_soundLeaveOn c
  | link => exact (unseen_linkLeaveOn h).kept

end Sys2Proof.Machine.Chip
end

section
namespace Sys2Proof.Machine.Chip
variable {c d e : Chip} {r : ControlRec}

/-! ## A unit enters RESETTING with no reflex entry watching -/

theorem unwatched_of_reflex_off (h : c.on .reflex = false) : c.unwatched = true := by
  unfold unwatched
  rw [h]
  rfl

theorem on_setBlock (u v : BlockUnit) (b : BlockState) (c : Chip) :
    (setBlock u b c).on v = if v = u then b == .on else c.on v := by
  unfold on
  rw [setBlock_eq]
  refine (congrArg (· == BlockState.on) (PerUnit.get_set ..)).trans ?_
  split_ifs <;> rfl

theorem keptBut_setBlock (u : BlockUnit) (b : BlockState) (c : Chip) : KeptBut [.control, .path] c (setBlock u b c) := by
  rw [setBlock_eq]
  exact fun p hp => by cases p <;> simp at hp <;> rfl

theorem unwatched_setBlock {u : BlockUnit} {b : BlockState} (hb : u = .reflex → b ≠ .on) (h : c.unwatched = true) :
    (setBlock u b c).unwatched = true := by
  have hon := on_setBlock u .reflex b c
  split_ifs at hon with hu
  · exact unwatched_of_reflex_off (hon.trans (beq_eq_false_iff_ne.mpr (hb hu.symm)))
  · unfold unwatched at h ⊢
    rw [hon, keptBut_setBlock u b c .reflex (by simp)]
    exact h

/-- A unit's stop, its block state set (R29 steps 1 and 2). -/
def stopped (u : BlockUnit) (c : Chip) : Chip := stopUnit u (setBlock u .resetting c)

theorem keptBut_stopped (u : BlockUnit) (h : c.unwatched = true) :
    KeptBut (stopParts u) (setBlock u .resetting c) (stopped u c) :=
  keptBut_stopUnit u (unwatched_setBlock (by simp) h)

theorem stopped_control (u : BlockUnit) (h : c.unwatched = true) : (stopped u c).control = (setBlock u .resetting c).control :=
  keptBut_stopped u h .control (by cases u <;> simp [stopParts])

theorem unwatched_stopped (u : BlockUnit) (h : c.unwatched = true) : (stopped u c).unwatched = true := by
  have hb := unwatched_setBlock (u := u) (b := .resetting) (by simp) h
  by_cases hu : u = .reflex
  · refine unwatched_of_reflex_off (Eq.trans (on_eq (congrArg Control.block (stopped_control u h)) .reflex) ?_)
    rw [on_setBlock, if_pos hu.symm]
    rfl
  · refine (unwatched_congr _ _ (congrArg Control.block (stopped_control u h)) ?_).trans hb
    exact keptBut_stopped u h .reflex (by cases u <;> simp [stopParts] at hu ⊢)

/-- Shadows and records of a unit that enters RESETTING (R29 steps 3 and 4). -/
def resetRecords (u : BlockUnit) (c : Chip) : Chip :=
  let d := forEach (RecId.ofUnit u) joinReset (forEach (RecId.processorOf u) (fun r => setShadow r r.defaultBytes) c)
  { d with control := { d.control with outstanding := d.control.outstanding ++ RecId.ofUnit u } }

theorem enterResetting_of_unwatched (u : BlockUnit) (h : c.unwatched = true) :
    enterResetting u c = resetRecords u (stopped u c) := by
  have hh : handChange (stopUnit u (setBlock u .resetting c)) = stopped u c :=
    handChange_of_unwatched _ (unwatched_stopped u h)
  unfold enterResetting
  rw [hh]
  rfl

theorem keptBut_joinReset (r : RecId) (c : Chip) : KeptBut [.path] c (joinReset r c) := fun p hp => by
  cases p <;> simp at hp <;> simp [joinReset, Part.same]

theorem keptBut_setShadow (r : RecId) (bs : List Byte) (c : Chip) : KeptBut [.shadow] c (setShadow r bs c) := fun p hp => by
  cases p <;> simp at hp <;> rfl

theorem keptBut_resetRecords (u : BlockUnit) (c : Chip) : KeptBut [.path, .shadow, .control] c (resetRecords u c)
    ∧ (resetRecords u c).control = { c.control with outstanding := c.control.outstanding ++ RecId.ofUnit u } := by
  have h : KeptBut [.path, .shadow] c (forEach (RecId.ofUnit u) joinReset
      (forEach (RecId.processorOf u) (fun r => setShadow r r.defaultBytes) c)) :=
    (forEach_keptBut (fun r e => (keptBut_setShadow r _ e).mono (by simp)) c).trans
      (forEach_keptBut (fun r e => (keptBut_joinReset r e).mono (by simp)) _)
  refine ⟨(h.mono (by simp)).trans fun p hp => ?_, ?_⟩
  · cases p <;> simp at hp <;> rfl
  · have hc : _ = c.control := h .control (by simp)
    unfold resetRecords
    dsimp only
    rw [hc]

theorem enterResetting_control (u : BlockUnit) (h : c.unwatched = true) : (enterResetting u c).control = { c.control with
    block := c.control.block.set u .resetting, outstanding := c.control.outstanding ++ RecId.ofUnit u } := by
  rw [enterResetting_of_unwatched u h, (keptBut_resetRecords u _).2, stopped_control u h, setBlock_eq]

theorem unwatched_enterResetting (u : BlockUnit) (h : c.unwatched = true) : (enterResetting u c).unwatched = true := by
  rw [enterResetting_of_unwatched u h]
  obtain ⟨hkept, hcontrol⟩ := keptBut_resetRecords u (stopped u c)
  refine (unwatched_congr _ _ ?_ (hkept .reflex (by simp))).trans (unwatched_stopped u h)
  rw [hcontrol]

/-! ## Service reset and flush -/

/-- A unit enters RESETTING where it is ON, and then every unit (R31 step 1). -/
def resetIfOn (u : BlockUnit) (c : Chip) : Chip := if c.on u then c.enterResetting u else c

def resetUnits (c : Chip) : Chip := forEach BlockUnit.all resetIfOn c

theorem serviceReset_eq (c : Chip) : serviceReset c = clearCauses (flushRing (resetUnits c)) := rfl

theorem on_iff (u : BlockUnit) (c : Chip) : c.on u = true ↔ c.control.block.get u = .on := beq_iff_eq

theorem resetIfOn_of_on {u : BlockUnit} (h : c.on u = true) : resetIfOn u c = enterResetting u c := if_pos h
theorem resetIfOn_of_not_on {u : BlockUnit} (h : ¬ c.on u = true) : resetIfOn u c = c := if_neg h

theorem resetIfOn_block (u v : BlockUnit) (c : Chip) : (resetIfOn u c).control.block.get v
    = if v = u ∧ c.control.block.get v = .on then .resetting else c.control.block.get v := by
  by_cases hon : c.on u = true
  · rw [resetIfOn_of_on hon, (enterResetting_steady u c).block, setBlock_eq]
    refine (PerUnit.get_set ..).trans (if_congr ?_ rfl rfl)
    exact ⟨fun hv => ⟨hv, hv ▸ (on_iff u c).mp hon⟩, And.left⟩
  · rw [resetIfOn_of_not_on hon, if_neg]
    rintro ⟨rfl, hv⟩
    exact hon ((on_iff v c).mpr hv)

theorem resetIfOn_keeps (u : BlockUnit) (c : Chip) : (resetIfOn u c).control.enable = c.control.enable
    ∧ (resetIfOn u c).control.quietPeriod = c.control.quietPeriod
    ∧ (resetIfOn u c).attention.enabled = c.attention.enabled := by
  unfold resetIfOn
  split_ifs
  · have h := enterResetting_steady u c
    rw [h.enable, h.period, h.causes, setBlock_eq]
    exact ⟨rfl, rfl, rfl⟩
  · exact ⟨rfl, rfl, rfl⟩

theorem resetUnits_block (c : Chip) (u : BlockUnit) : (resetUnits c).control.block.get u
    = if c.control.block.get u = .on then .resetting else c.control.block.get u := by
  have h := forEach_each (c := c) (fun u d => d.control.block.get u) (fun _ b => if b = .on then .resetting else b)
    (fun _ => True) (f := resetIfOn) (fun _ _ _ => trivial)
    (fun v d _ => (resetIfOn_block v v d).trans (by simp))
    (fun v w d _ hv => (resetIfOn_block w v d).trans (if_neg fun h => hv h.1)) BlockUnit.nodup_all trivial u
  rwa [if_pos (BlockUnit.mem_all u)] at h

theorem resetUnits_keeps (c : Chip) : (resetUnits c).control.enable = c.control.enable
    ∧ (resetUnits c).control.quietPeriod = c.control.quietPeriod
    ∧ (resetUnits c).attention.enabled = c.attention.enabled := by
  unfold resetUnits
  refine forEach_inv (fun d => d.control.enable = c.control.enable ∧ d.control.quietPeriod = c.control.quietPeriod
    ∧ d.attention.enabled = c.attention.enabled) c ⟨rfl, rfl, rfl⟩ fun u _ d hd => ?_
  obtain ⟨he, hq, ha⟩ := resetIfOn_keeps u d
  rw [he, hq, ha]
  exact hd

/-- The control state of d is that of c but for block states and outstanding publications. -/
def BlocksMoved (c d : Chip) : Prop :=
  d.control = { c.control with block := d.control.block, outstanding := d.control.outstanding }

/-- With no entry watching, units that enter RESETTING change no more of the control state than block states and
outstanding publications. -/
theorem resetUnits_control (h : c.unwatched = true) : BlocksMoved c (resetUnits c) := by
  unfold resetUnits
  refine (forEach_inv (fun d => d.unwatched = true ∧ BlocksMoved c d) c ⟨h, rfl⟩ fun u _ d hd => ?_).2
  obtain ⟨hu, hd⟩ := hd
  by_cases hon : d.on u = true
  · rw [resetIfOn_of_on hon]
    refine ⟨unwatched_enterResetting u hu, ?_⟩
    unfold BlocksMoved at hd ⊢
    rw [enterResetting_control u hu, hd]
  · rw [resetIfOn_of_not_on hon]
    exact ⟨hu, hd⟩

theorem clearCauses_attention (c : Chip) : (clearCauses c).attention
    = Attention.review c.control.ms { c.attention with pending := Vector.replicate 10 false } := by
  unfold clearCauses changeAttention
  simp

theorem line_review_of_clear (now : Word) (a : Attention) (h : ∀ k : Fin 10, a.pending[k] = false) :
    (a.review now).line = false := by
  have hpub : a.publishedEligible = false := by
    unfold Attention.publishedEligible Attention.eligible
    split
    · rfl
    · rw [h, Bool.false_and]
  unfold Attention.review
  cases hl : a.line <;> simp [hpub, hl]

/-- What SERVICE_RESET leaves in the control state, the ring and the attention flags (R31). -/
theorem serviceReset_control (c : Chip) : (serviceReset c).control = (resetUnits c).control := by
  simp [serviceReset_eq]
theorem serviceReset_ring (c : Chip) : (serviceReset c).ring = (resetUnits c).ring.flush := by
  simp [serviceReset_eq, flushRing]
theorem serviceReset_attention (c : Chip) : (serviceReset c).attention.enabled = c.attention.enabled
    ∧ (∀ k : Fin 10, (serviceReset c).attention.pending[k] = false) ∧ (serviceReset c).attention.line = false := by
  rw [serviceReset_eq, clearCauses_attention, Attention.review_enabled, Attention.review_pending]
  refine ⟨?_, fun k => by simp, line_review_of_clear _ _ fun k => by simp⟩
  rw [(flushRing_keeps _).2.2.1]
  exact (resetUnits_keeps c).2.2

theorem setQuietPeriod_steady (n : Nat) (c : Chip) : (setQuietPeriod n c).control.block = c.control.block
    ∧ (setQuietPeriod n c).control.enable = c.control.enable ∧ (setQuietPeriod n c).control.quietPeriod = n
    ∧ (setQuietPeriod n c).attention.enabled = c.attention.enabled := by
  simp [setQuietPeriod, judgeQuiet]

theorem setCauseEnables_enabled (e : Vector Bool 10) (c : Chip) : (setCauseEnables e c).attention.enabled = e := by
  rw [setCauseEnables_eq]
  exact Attention.review_enabled _ _

theorem applied_units (r : ControlRec) (c : Chip) :
    (∀ u, (applied r c).control.block.get u = blockAfter (c.control.block.get u) (r.unitEnables.get u)
      ∧ (applied r c).control.enable.get u = r.unitEnables.get u)
    ∧ (applied r c).control.quietPeriod = r.quiet.toNat ∧ (applied r c).attention.enabled = r.causeEnables := by
  obtain ⟨hblock, henable, hquiet, hcauses⟩ :=
    setQuietPeriod_steady r.quiet.toNat (setCauseEnables r.causeEnables (applyEnables r.unitEnables c))
  have hcontrol : (setCauseEnables r.causeEnables (applyEnables r.unitEnables c)).control
      = (applyEnables r.unitEnables c).control := by simp
  unfold applied
  rw [hblock, henable, hquiet, hcauses, hcontrol, setCauseEnables_enabled]
  exact ⟨applyEnables_units r.unitEnables c, rfl, rfl⟩

/-- The state that SERVICE_RESET leads to from a valid record applied with it. -/
def serviced (r : ControlRec) (c : Chip) : Chip := touch (reportLatch 0 .ok (serviceReset (applied r c)))

theorem serviceReset_block (c : Chip) (u : BlockUnit) : (serviceReset c).control.block.get u
    = if c.control.block.get u = .on then .resetting else c.control.block.get u := by
  rw [serviceReset_control, resetUnits_block]

theorem reported_block (n : Nat) (x : Code) (k : Control) : (k.reported n x).block = k.block := rfl
theorem reported_enable (n : Nat) (x : Code) (k : Control) : (k.reported n x).enable = k.enable := rfl
theorem reported_quietPeriod (n : Nat) (x : Code) (k : Control) : (k.reported n x).quietPeriod = k.quietPeriod := rfl

/-- What the report of a latch and the time of its transaction leave. -/
theorem timed_reportLatch (n : Nat) (x : Code) (c : Chip) : (reportLatch n x c).timed.control = c.control.reported n x
    ∧ (reportLatch n x c).timed.ring = c.ring ∧ (reportLatch n x c).timed.attention = c.attention := by
  rw [reportLatch_eq]
  exact ⟨rfl, rfl, rfl⟩

theorem serviced_eq (r : ControlRec) (c : Chip) : serviced r c = timed (reportLatch 0 .ok (serviceReset (applied r c))) := by
  have hoff : (reportLatch 0 .ok (serviceReset (applied r c))).on .reflex = false := by
    have hb : (reportLatch 0 .ok (serviceReset (applied r c))).control.block = (serviceReset (applied r c)).control.block := by
      simp
    rw [on_eq hb, on, serviceReset_block, beq_eq_false_iff_ne]
    split_ifs with h
    · simp
    · exact h
  unfold serviced
  rw [touch_of_unwatched _ (unwatched_of_reflex_off hoff)]
  rfl

theorem serviceReset_answers {s : State} (hg : s.hw.control.gen ≠ .holding) (hv : r.valid = true) {P : Chip → Prop}
    (h : ∀ d, d.control = s.hw.control → d.reflex = s.hw.reflex → P (serviced r d)) : Answers (.serviceReset r) s P := by
  refine act_answers (f := latchRow .control (r.toBytes 1) (controlLatch r 1)) rfl ?_
  rw [latchRow_eq hg, controlLatch_of_valid hv (by decide)]
  exact h _ (by simp) (by simp)

theorem flushRing_eq (c : Chip) : flushRing c = { c with ring := c.ring.flush, path := c.path.join .ringStatus } :=
  publish_eq _ _

theorem controlCommand_flush (c : Chip) : controlCommand 2 c = flushRing c := rfl

/-- Attention enables that are those in force are taken without a trace. -/
theorem taken_of_same (h : r.causeEnables = c.attention.enabled) (hl : c.attention.lineOk = true) : taken r c = { c with
    control := { c.control with enable := r.unitEnables, quietPeriod := r.quiet.toNat }
    path := { c.path with procQuiet := decide (r.quiet.toNat ≤ c.path.quietElapsed) } } := by
  have ha : ({ c.attention with enabled := r.causeEnables } : Attention) = c.attention := by rw [h]
  unfold taken
  rw [ha, if_pos rfl, review_of_lineOk _ _ hl]

/-- Settles O24: the steps of the latch and of the reset one after the other; with settled enables the flush alone. -/
theorem serviceResetAndFlush : Obligations.ServiceResetAndFlush := by
  unfold Obligations.ServiceResetAndFlush
  refine ⟨fun s r hg hi hv => ⟨?_, fun hu hs => ?_⟩, fun s r hr hv hs he => ?_⟩
  · refine serviceReset_answers hg hv fun c hc _ => ?_
    obtain ⟨hunits, hquiet, hcauses⟩ := applied_units r c
    obtain ⟨henable, hperiod, -⟩ := resetUnits_keeps (applied r c)
    obtain ⟨hkept, hpending, hline⟩ := serviceReset_attention (applied r c)
    obtain ⟨hcontrol, hring, hattention⟩ := timed_reportLatch 0 .ok (serviceReset (applied r c))
    rw [serviced_eq, ← hc, hcontrol, hring, hattention, serviceReset_ring, hkept, hcauses, hline]
    refine ⟨fun u => ⟨?_, ?_⟩, rfl, rfl, rfl, rfl, hpending, rfl, rfl, ?_, rfl, rfl⟩
    · rw [reported_enable, serviceReset_control, henable, (hunits u).2]
    · rw [reported_block, serviceReset_block, (hunits u).1]
      cases c.control.block.get u <;> cases r.unitEnables.get u <;> simp [blockAfter]
    · rw [reported_quietPeriod, serviceReset_control, hperiod, hquiet]
  · refine serviceReset_answers hg hv fun c hc hreflex => ?_
    have hu' : c.unwatched = true := (unwatched_congr s.hw c (by rw [hc]) hreflex).trans hu
    have hs' (u : BlockUnit) : c.settled r.unitEnables u = true := (settled_congr _ u (by rw [hc])).trans (hs u)
    have hmoved := resetUnits_control (c := taken r c) ((unwatched_congr c _ rfl rfl).trans hu')
    rw [serviced_eq, applied_of_settled hu' hs', (timed_reportLatch ..).1, serviceReset_control, ← hc]
    generalize resetUnits (taken r c) = d at hmoved ⊢
    rw [show d.control = _ from hmoved]
    exact ⟨rfl, rfl, rfl, rfl, rfl, rfl, rfl⟩
  · have hline : s.hw.attention.lineOk = true := inv_lineOk ((ready_iff _).mp hr).1
    refine latchRow_answers rfl hr (ControlRec.length_toBytes r 2) fun m sh hm hsh _ hu => ?_
    rw [controlLatch_of_settled hv le_rfl hu fun u => hs u, taken_of_same (c := s.hw.written m sh) he hline, controlCommand_flush,
      flushRing_eq, reportLatch_eq]
    refine ⟨(unwatched_congr (s.hw.written m sh) _ rfl rfl).trans hu, rfl, rfl, rfl, ⟨hm, hsh⟩, fun p hp => ?_⟩
    cases p <;> simp at hp <;> rfl

end Sys2Proof.Machine.Chip
end

section
namespace Sys2Proof.Machine.Chip
variable {a b c d e : Chip}

/-! ## What a unit that leaves ON tells

The statement's events are appends to the chip as it was; the model interleaves them with other work. Both rings are the
same as long as each step of the work appends what its step of the statement appends. -/

/-- A loop over indices does to the chip, index by index, what a fold over the picked indices does to another one. -/
theorem forEach_simulates {α : Type} {xs : List α} (hx : xs.Nodup) (R : Chip → Chip → Prop) (fresh : α → Chip → Prop)
    (picks : α → Bool) (g : Chip → α → Chip) {f : α → Chip → Chip}
    (hfresh : ∀ m k e, k ≠ m → fresh m e → fresh k e → fresh k (f m e))
    (hpick : ∀ m a e, R a e → fresh m e → picks m = true → R (g a m) (f m e))
    (hskip : ∀ m a e, R a e → fresh m e → picks m = false → R a (f m e))
    (h : R a b) (hall : ∀ k ∈ xs, fresh k b) : R ((xs.filter picks).foldl g a) (forEach xs f b) := by
  induction xs generalizing a b with
  | nil => exact h
  | cons m xs ih =>
    obtain ⟨hnot, hx⟩ := List.nodup_cons.mp hx
    have hm := hall m List.mem_cons_self
    have hrest : ∀ k ∈ xs, fresh k (f m b) := fun k hk =>
      hfresh m k b (fun he => hnot (he ▸ hk)) hm (hall k (List.mem_cons_of_mem _ hk))
    rw [forEach_cons]
    cases hp : picks m with
    | true =>
      rw [List.filter_cons_of_pos hp, List.foldl_cons]
      exact ih hx (hpick m a b h hm hp) hrest
    | false =>
      rw [List.filter_cons_of_neg (by simp [hp])]
      exact ih hx (hskip m a b h hm hp) hrest

/-- Two chips that an append treats alike, up to the attention flags. -/
structure RingAlike (a b : Chip) : Prop where
  ring : a.ring = b.ring
  ms : a.control.ms = b.control.ms

/-- Two chips that an append treats alike. -/
structure Alike (a b : Chip) : Prop extends RingAlike a b where
  attention : a.attention = b.attention

theorem RingAlike.append (k : EventKind) (x y : Byte) (h : RingAlike a b) : RingAlike (append k x y a) (append k x y b) :=
  ⟨append_ring_congr k x y a b h.ring h.ms, by simpa using h.ms⟩

theorem RingAlike.of_kept {l : List Part} (h : RingAlike a b) (k : KeptBut l b d)
    (hr : .ring ∉ l) (hm : .control ∉ l) : RingAlike a d :=
  ⟨h.ring.trans (Eq.symm (k .ring hr)), h.ms.trans (congrArg Control.ms (Eq.symm (k .control hm)))⟩

theorem Alike.of_kept {l : List Part} (h : Alike a b) (k : KeptBut l b d)
    (hr : .ring ∉ l) (hm : .control ∉ l) (ha : .attention ∉ l) : Alike a d :=
  ⟨h.toRingAlike.of_kept k hr hm, h.attention.trans (Eq.symm (k .attention ha))⟩

theorem raiseCause_attention_congr (k : Cause) (h : Alike a b) : (raiseCause k a).attention = (raiseCause k b).attention := by
  unfold raiseCause changeAttention
  rw [h.attention, h.ms]
  split_ifs
  · exact h.attention
  · simp

theorem Alike.appendRoom (k : EventKind) (x y : Byte) (h : Alike a b) : Alike (appendRoom k x y a) (appendRoom k x y b) := by
  refine ⟨⟨?_, by simpa using h.ms⟩, ?_⟩
  · rw [appendRoom_ring, appendRoom_ring, h.ring, h.ms]
  · unfold Chip.appendRoom
    dsimp only
    rw [h.ring]
    split_ifs
    · exact raiseCause_attention_congr _ ⟨⟨by simp [h.ms], by simpa using h.ms⟩, by simpa using h.attention⟩
    · simpa using h.attention

theorem Alike.appendDropped (h : Alike a b) : Alike (appendDropped a) (appendDropped b) :=
  ⟨⟨by rw [appendDropped_ring, appendDropped_ring, h.ring], by simpa [Chip.appendDropped] using h.ms⟩,
    by simpa [Chip.appendDropped] using h.attention⟩

/-- What an append does depends on ring, attention flags and time alone (R104 to R106). -/
theorem Alike.append (k : EventKind) (x y : Byte) (h : Alike a b) : Alike (append k x y a) (append k x y b) := by
  have hlost (d e : Chip) (hd : Alike d e) : Alike (Chip.publish .ringStatus { d with ring := { d.ring with lostPending := 0 } })
      (Chip.publish .ringStatus { e with ring := { e.ring with lostPending := 0 } }) :=
    ⟨⟨by simp [hd.ring], by simpa using hd.ms⟩, by simpa using hd.attention⟩
  unfold Chip.append
  rw [h.ring]
  split_ifs
  · exact h.appendDropped
  · exact h.appendRoom k x y
  · have h1 := hlost _ _ (h.appendRoom .lost 0 b.ring.lostPending)
    dsimp only
    rw [h1.ring]
    split_ifs
    · exact h1.appendRoom k x y
    · exact h1.appendDropped

/-! ### The motor unit -/

theorem endOperation_of_running (m : Fin 4) (x : Code) (h : c.motor.ch[m].mode.running = true) :
    endOperation m x c = append .runDone (Bytes.ofNat m.val) x.byte c := if_pos h
theorem endOperation_of_not_running (m : Fin 4) (x : Code) (h : c.motor.ch[m].mode.running = false) :
    endOperation m x c = c := if_neg fun hr => Bool.false_ne_true (h.symm.trans hr)
theorem claimLost_of_silent (m : Fin 4) (o : Owner) {x : Code} (hx : raisesClaim x = false) (c : Chip) :
    claimLost m o x c = append .claimLost (Bytes.ofNat m.val) x.byte c := if_neg (by simp [hx])

/-- Running operations end in order (R53). -/
theorem appendEach_runDone (hm : b.motor = c.motor) (h : Alike a b) :
    Alike (appendEach (fun m : Fin 4 => c.motor.ch[m].mode.running) .runDone .off a)
      (forEach (List.finRange 4) (fun m => endOperation m .off) b) := by
  refine forEach_simulates (List.nodup_finRange 4) Alike (fun _ e => e.motor = c.motor) _ _ (fun m k e _ _ he => ?_)
    (fun m a e hae he hp => ?_) (fun m a e hae he hp => ?_) h fun _ _ => hm
  · rw [keptBut_endOperation m .off e .motor (by simp)]
    exact he
  · rw [endOperation_of_running m .off (by rw [he]; exact hp)]
    exact hae.append _ _ _
  · rw [endOperation_of_not_running m .off (by rw [he]; exact hp)]
    exact hae

/-- The end of a claim as the motor unit leaves ON (R53, R71). -/
def claimCut (m : Fin 4) (c : Chip) : Chip :=
  if c.motor.ch[m].owner = .none then c
  else (c.modCh m (fun ch => { ch with owner := .none, deadline := none })).claimLost m c.motor.ch[m].owner .off

/-- A channel let go as the motor unit leaves ON. -/
def coastCut (m : Fin 4) (c : Chip) : Chip :=
  c.modCh m (fun ch => { ch with mode := .coast, stage := .coast, lastDir := none })

theorem motorLeaveOn_eq (c : Chip) : motorLeaveOn c = { forEach (List.finRange 4) claimCut
    (forEach (List.finRange 4) coastCut (forEach (List.finRange 4) (fun m => endOperation m .off) c)) with
    motor := Motor.reset } := rfl

theorem forEach_coastCut_owner (c : Chip) (m : Fin 4) :
    (forEach (List.finRange 4) coastCut c).motor.ch[m].owner = c.motor.ch[m].owner := by
  have h := forEach_each (c := c) (fun m d => d.motor.ch[m]) (fun _ ch => { ch with mode := .coast, stage := .coast, lastDir := none })
    (fun _ => True) (f := coastCut) (fun _ _ _ => trivial) (fun k d _ => modCh_same _ _ _)
    (fun j k d _ hjk => modCh_other _ _ _ _ hjk) (List.nodup_finRange 4) trivial m
  rw [if_pos (List.mem_finRange m)] at h
  exact (congrArg Channel.owner h).trans rfl

theorem claimCut_of_free {m : Fin 4} (h : c.motor.ch[m].owner = .none) : claimCut m c = c := if_pos h
theorem claimCut_of_claimed {m : Fin 4} (h : c.motor.ch[m].owner ≠ .none) : claimCut m c
    = append .claimLost (Bytes.ofNat m.val) Code.off.byte (c.modCh m (fun ch => { ch with owner := .none, deadline := none })) :=
  (if_neg h).trans (claimLost_of_silent m _ rfl _)

theorem claimCut_other {m k : Fin 4} (hk : k ≠ m) (c : Chip) : (claimCut m c).motor.ch[k] = c.motor.ch[k] := by
  unfold claimCut
  split_ifs
  · rfl
  · exact (congrArg (fun x : Motor => x.ch[k]) (keptBut_claimLost m _ .off _ .motor (by simp))).trans (modCh_other _ _ _ _ hk)

/-- Claims end in order, an owner lost with each (R71). -/
theorem appendEach_claimLost (hm : ∀ m : Fin 4, b.motor.ch[m].owner = c.motor.ch[m].owner) (h : Alike a b) :
    Alike (appendEach (fun m : Fin 4 => c.motor.ch[m].owner != .none) .claimLost .off a)
      (forEach (List.finRange 4) claimCut b) := by
  refine forEach_simulates (List.nodup_finRange 4) Alike (fun k e => e.motor.ch[k].owner = c.motor.ch[k].owner) _ _
    (fun m k e hk _ he => ?_) (fun m a e hae he hp => ?_) (fun m a e hae he hp => ?_) h fun k _ => hm k
  · exact (congrArg Channel.owner (claimCut_other hk e)).trans he
  · rw [claimCut_of_claimed (by rw [he]; exact bne_iff_ne.mp hp)]
    exact (hae.of_kept (keptBut_motor _ e) (by simp) (by simp) (by simp)).append _ _ _
  · rw [claimCut_of_free (he.trans (by simpa using hp))]
    exact hae

/-- What the motor unit tells as it leaves ON (R53, R71). -/
theorem leftOn_motor (hm : b.motor = c.motor) (h : Alike c b) : LeftOn .motor c (motorLeaveOn b) := by
  have hdone := appendEach_runDone hm h
  have hops : (forEach (List.finRange 4) (fun m => endOperation m .off) b).motor = c.motor :=
    (forEach_keptBut (fun m e => keptBut_endOperation m .off e) b .motor (by simp)).trans hm
  have hcoast := forEach_keptBut (xs := List.finRange 4) (fun m e => keptBut_motor _ e : ∀ m e, KeptBut _ e (coastCut m e))
    (forEach (List.finRange 4) (fun m => endOperation m .off) b)
  have hlost := appendEach_claimLost (c := c) (fun m => (forEach_coastCut_owner _ m).trans (by rw [hops]))
    (hdone.of_kept hcoast (by simp) (by simp) (by simp))
  obtain ⟨⟨hring, -⟩, hattention⟩ := hlost
  rw [motorLeaveOn_eq]
  generalize forEach (List.finRange 4) claimCut _ = d at hring hattention ⊢
  unfold LeftOn
  exact ⟨hring.symm, hattention.symm⟩

/-! ### The sound unit -/

theorem leftOn_sound (hs : b.sound = c.sound) (h : Alike c b) : LeftOn .sound c (soundLeaveOn b) := by
  refine ⟨fun hv => ?_, fun hv => ?_⟩
  · unfold soundLeaveOn
    rw [endSound_silent _ _ (hs ▸ hv)]
    exact ⟨h.ring.symm, h.attention.symm⟩
  · obtain ⟨-, ⟨-, hring, hcause, -⟩, -⟩ := endSound_spec .off b (hs ▸ hv)
    rw [hs] at hring
    exact ⟨hring.trans (append_ring_congr _ _ _ _ _ h.ring.symm h.ms.symm), hcause⟩

end Sys2Proof.Machine.Chip
end

section
namespace Sys2Proof.Machine.Chip
variable {a b c d e : Chip}

/-! ### The link: peers -/

theorem RingAlike.publish (r : RecId) (h : RingAlike a b) : RingAlike a (publish r b) :=
  h.of_kept (keptBut_publish r b) (by simp) (by simp)
theorem RingAlike.motor (x : Motor) (h : RingAlike a b) : RingAlike a { b with motor := x } := ⟨h.ring, h.ms⟩
theorem RingAlike.link (x : Link) (h : RingAlike a b) : RingAlike a { b with link := x } := ⟨h.ring, h.ms⟩

theorem RingAlike.endOperation (m : Fin 4) (x : Code) (h : RingAlike a e) :
    RingAlike (if e.motor.ch[m].mode.running then a.append .runDone (Bytes.ofNat m.val) x.byte else a)
      (endOperation m x e) := by
  unfold Chip.endOperation
  split_ifs
  · exact h.append _ _ _
  · exact h

/-- The events of a claim that ends: first the operation that it ends (R51). -/
theorem RingAlike.releaseClaim (m : Fin 4) {x : Code} (hx : raisesClaim x = false) (ho : e.motor.ch[m].owner ≠ .none)
    (h : RingAlike a e) :
    RingAlike ((if e.motor.ch[m].mode.running then a.append .runDone (Bytes.ofNat m.val) x.byte else a).append
      .claimLost (Bytes.ofNat m.val) x.byte) (releaseClaim m x e) := by
  have hops : RingAlike _ (Chip.endOperation m x (e.modCh m (fun ch => { ch with owner := .none, deadline := none }))) :=
    RingAlike.endOperation m x (h.motor _)
  have hmode : (e.modCh m (fun ch => { ch with owner := .none, deadline := none })).motor.ch[m].mode = e.motor.ch[m].mode :=
    (congrArg Channel.mode (modCh_same m _ e)).trans rfl
  rw [hmode] at hops
  unfold Chip.releaseClaim
  rw [if_neg ho]
  dsimp only
  rw [claimLost_of_silent m _ hx]
  exact ((((hops.motor _).motor _).publish _).append _ _ _).publish _

theorem cancelSub_spec (p : Fin 8) (c : Chip) : (cancelSub p c).link.peer = c.link.peer ∧ (cancelSub p c).link.out = c.link.out
    ∧ KeptBut [.link, .path] c (cancelSub p c) := by
  unfold cancelSub
  split
  · exact ⟨by simp [setSub], by simp [setSub],
      ((keptBut_link _ c).mono (by simp)).trans ((keptBut_publish _ _).mono (by simp))⟩
  · exact ⟨rfl, rfl, .refl _ c⟩

theorem releasePeerClaims_link (p : Fin 8) (h : e.unwatched = true) : (releasePeerClaims p .peerGone e).link = e.link := by
  rw [releasePeerClaims_of_unwatched p h]
  split_ifs <;> simp

theorem peerLeft_spec (p : Fin 8) (tag : Word) (x : Code) (h : e.unwatched = true) :
    (peerLeft p tag x e).link.peer = e.link.peer ∧ (peerLeft p tag x e).link.out = e.link.out
    ∧ (peerLeft p tag x e).motor = (releasePeerClaims p .peerGone e).motor := by
  obtain ⟨hpeer, hout, hkept⟩ := cancelSub_spec p (releasePeerClaims p .peerGone e)
  rw [releasePeerClaims_link p h] at hpeer hout
  have hmotor : (cancelSub p (releasePeerClaims p .peerGone e)).motor = _ := hkept .motor (by simp)
  unfold peerLeft
  refine ⟨?_, ?_, ?_⟩
  · simpa using hpeer
  · simpa using hout
  · simpa using hmotor

/-- A removed peer's slot is empty, and no other peer and no outbound slot has moved. -/
theorem removePeer_link (k : Fin 8) (x : Code) (h : e.unwatched = true) :
    (∀ p : Fin 8, (removePeer k x e).link.peer[p] = if p = k then none else e.link.peer[p])
    ∧ (removePeer k x e).link.out = e.link.out := by
  cases hk : e.link.peer[k] with
  | none =>
    rw [removePeer_of_none x hk]
    refine ⟨fun p => ?_, rfl⟩
    split_ifs with hp
    · exact hp ▸ hk
    · rfl
  | some y =>
    obtain ⟨hpeer, hout, -⟩ := peerLeft_spec k y.tag x h
    rw [removePeer_of_some x h hk, slotEmptied]
    refine ⟨fun p => ?_, by simpa using hout⟩
    simp [hpeer, Vector.getElem_set, Fin.val_inj, eq_comm]

/-- The link peer's claims end with it, and no other claim does. -/
theorem removePeer_channel (k : Fin 8) (x : Code) (h : e.unwatched = true) (m : Fin 4) :
    (removePeer k x e).motor.ch[m] = if e.link.peer[k] ≠ none ∧ e.on .motor = true ∧ e.motor.ch[m].owner = .link k
      then freed e.control.ms e.motor.ch[m] else e.motor.ch[m] := by
  cases hk : e.link.peer[k] with
  | none => rw [removePeer_of_none x hk, if_neg (by simp)]
  | some y =>
    have hmotor : (removePeer k x e).motor = (releasePeerClaims k .peerGone e).motor := by
      rw [removePeer_of_some x h hk, slotEmptied, ← (peerLeft_spec k y.tag x h).2.2]
      simp
    refine (congrArg (fun z : Motor => z.ch[m]) hmotor).trans ?_
    have hclaims := releasePeerClaims_of_unwatched k h
    cases hon : e.on .motor with
    | false =>
      rw [hon, if_neg Bool.false_ne_true] at hclaims
      rw [hclaims, if_neg (by simp)]
    | true =>
      rw [hon, if_pos rfl] at hclaims
      rw [hclaims, releaseClaimsOf_channel (by simp)]
      exact if_congr ⟨fun ho => ⟨Option.some_ne_none y, rfl, ho⟩, fun h => h.2.2⟩ rfl rfl

/-- What c's peer in slot p and its claims are, they are yet in e. -/
structure PeerFresh (c : Chip) (p : Fin 8) (e : Chip) : Prop where
  watch : e.unwatched = true
  on : e.on .motor = c.on .motor
  peer : e.link.peer[p] = c.link.peer[p]
  claim : ∀ m : Fin 4, e.motor.ch[m].owner = .link p ↔ c.motor.ch[m].owner = .link p
  mode : ∀ m : Fin 4, c.motor.ch[m].owner = .link p → e.motor.ch[m].mode = c.motor.ch[m].mode

/-- The events of a peer's claims (R58, R155). -/
theorem RingAlike.releasePeerClaims {p : Fin 8} (hf : PeerFresh c p e) (h : RingAlike a e) :
    RingAlike (((List.finRange 4).filter (fun m => c.on .motor && c.motor.ch[m].owner == .link p)).foldl (fun x m =>
      (if c.motor.ch[m].mode.running then x.append .runDone (Bytes.ofNat m.val) Code.peerGone.byte else x).append
        .claimLost (Bytes.ofNat m.val) Code.peerGone.byte) a) (releasePeerClaims p .peerGone e) := by
  rw [releasePeerClaims_of_unwatched p hf.watch, hf.on]
  cases hon : c.on .motor with
  | false => simpa using h
  | true =>
    rw [if_pos rfl]
    refine forEach_simulates (List.nodup_finRange 4) RingAlike (fun k d => d.motor.ch[k] = e.motor.ch[k]) _ _
      (fun m k d hk hm hd => ?_) (fun m a d had hd hp => ?_) (fun m a d had hd hp => ?_) h fun _ _ => rfl
    · split_ifs with ho
      · exact (releaseClaim_other _ (by rw [ho]; exact nofun) hk).trans hd
      · exact hd
    · have ho : c.motor.ch[m].owner = .link p := by simpa using hp
      have hd' : d.motor.ch[m].owner = .link p := (congrArg Channel.owner hd).trans ((hf.claim m).mpr ho)
      have hmode : d.motor.ch[m].mode = c.motor.ch[m].mode := (congrArg Channel.mode hd).trans (hf.mode m ho)
      have hstep := had.releaseClaim m (x := .peerGone) rfl (by rw [hd']; exact nofun)
      rw [hmode] at hstep
      rw [if_pos hd']
      exact hstep
    · rw [if_neg]
      · exact had
      · intro hd'
        have ho := (hf.claim m).mp ((congrArg Channel.owner hd).symm.trans hd')
        rw [ho] at hp
        simp at hp

/-- The events of a peer's removal as the link leaves ON (R155, R160). -/
theorem RingAlike.removePeer {p : Fin 8} (hf : PeerFresh c p e) (hp : c.link.peer[p] ≠ none) (h : RingAlike a e) :
    RingAlike (c.peerGoneOff a p) (removePeer p .off e) := by
  obtain ⟨y, hy⟩ := Option.ne_none_iff_exists'.mp (hf.peer ▸ hp)
  have hclaims := h.releasePeerClaims hf
  rw [removePeer_of_some .off hf.watch hy]
  unfold peerLeft
  have hsub := (hclaims.of_kept (cancelSub_spec p _).2.2 (by simp) (by simp)).link
  exact ((((hsub _).append .peerLeave (Bytes.ofNat p.val) Code.off.byte).of_kept (keptBut_raiseCause .peer _)
    (by simp) (by simp)).link _).publish _ |>.publish _

theorem PeerFresh.removePeer {p k : Fin 8} (hk : p ≠ k) (hf : PeerFresh c p e) : PeerFresh c p (removePeer k .off e) := by
  have hun : Unseen linkParts e (Chip.removePeer k .off e) := (Unseen.refl hf.watch).removePeer k .off
  have hchannel := removePeer_channel k .off hf.watch
  have hlink (m : Fin 4) : (Chip.removePeer k .off e).motor.ch[m].owner = .link p ↔ e.motor.ch[m].owner = .link p := by
    rw [hchannel]
    split_ifs with ho
    · rw [freed_owner, ho.2.2]
      simp [Ne.symm hk]
    · exact Iff.rfl
  refine ⟨hun.watch, (on_eq (by rw [hun.kept .control (by simp)]) .motor).trans hf.on, ?_,
    fun m => (hlink m).trans (hf.claim m), fun m ho => ?_⟩
  · rw [(removePeer_link k .off hf.watch).1, if_neg hk, hf.peer]
  · rw [hchannel, if_neg fun hc => hk ?_]
    · exact hf.mode m ho
    · exact Owner.link.inj (((hf.claim m).mpr ho).symm.trans hc.2.2)

/-- The events of the peers' removals, in slot order (R160). -/
theorem RingAlike.removeAllPeers (hf : ∀ p, PeerFresh c p e) (h : RingAlike a e) :
    RingAlike (((List.finRange 8).filter (fun p => c.link.peer[p].isSome)).foldl c.peerGoneOff a) (removeAllPeers .off e) := by
  refine forEach_simulates (List.nodup_finRange 8) RingAlike (PeerFresh c) _ _ (fun m k d hk _ hd => hd.removePeer hk)
    (fun p a d had hd hp => had.removePeer hd (Option.isSome_iff_ne_none.mp hp)) (fun p a d had hd hp => ?_) h fun p _ => hf p
  have hnone : d.link.peer[p] = none := hd.peer.trans (by simpa using hp)
  rw [removePeer_of_none .off hnone]
  exact had

/-- The motors of the removed peers are free, and no other motor has moved. -/
theorem forEach_removePeer_channel (m : Fin 4) (xs : List (Fin 8)) (x : Code) (h : e.unwatched = true) :
    (forEach xs (fun p => removePeer p x) e).motor.ch[m]
      = if e.on .motor = true ∧ ∃ p ∈ xs, e.link.peer[p] ≠ none ∧ e.motor.ch[m].owner = .link p
        then freed e.control.ms e.motor.ch[m] else e.motor.ch[m] := by
  induction xs generalizing e with
  | nil => simp
  | cons k xs ih =>
    have hun : Unseen linkParts e (removePeer k x e) := (Unseen.refl h).removePeer k x
    have hcontrol : (removePeer k x e).control = e.control := hun.kept .control (by simp)
    have hmotor : (removePeer k x e).on .motor = e.on .motor := on_eq (by rw [hcontrol]) .motor
    rw [forEach_cons, ih hun.watch, removePeer_channel k x h, hmotor, hcontrol]
    by_cases hc : e.link.peer[k] ≠ none ∧ e.on .motor = true ∧ e.motor.ch[m].owner = .link k
    · rw [if_pos hc, if_neg, if_pos ⟨hc.2.1, k, List.mem_cons_self, hc.1, hc.2.2⟩]
      rintro ⟨-, p, -, -, ho⟩
      rw [freed_owner] at ho
      cases ho
    · rw [if_neg hc]
      refine if_congr (and_congr_right fun hon => ?_) rfl rfl
      simp only [List.mem_cons, exists_eq_or_imp, (removePeer_link k x h).1]
      constructor
      · rintro ⟨p, hp, hpeer, ho⟩
        split_ifs at hpeer with hpk
        · exact absurd rfl hpeer
        · exact .inr ⟨p, hp, hpeer, ho⟩
      · rintro (⟨hpeer, ho⟩ | ⟨p, hp, hpeer, ho⟩)
        · exact absurd ⟨hpeer, hon, ho⟩ hc
        · refine ⟨p, hp, ?_, ho⟩
          rw [if_neg]
          · exact hpeer
          · rintro rfl
            exact hc ⟨hpeer, hon, ho⟩

theorem removePeer_raises {p : Fin 8} (x : Code) (h : e.unwatched = true) (hp : e.link.peer[p] ≠ none) :
    (removePeer p x e).attention.pending[Cause.peer.idx] = true := by
  obtain ⟨y, hy⟩ := Option.ne_none_iff_exists'.mp hp
  have hraised := raiseCause_pending .peer (append .peerLeave (Bytes.ofNat p.val) x.byte
    (modLink (fun l => { l with replies := l.replies.filter (fun r => r.tag != y.tag) })
      (cancelSub p (releasePeerClaims p .peerGone e))))
  rw [removePeer_of_some x h hy, slotEmptied, peerLeft]
  simpa using hraised

/-- Peers that the link removes have raised PEER (R155). -/
theorem removeAllPeers_raises {p : Fin 8} (x : Code) (h : e.unwatched = true) (hp : e.link.peer[p] ≠ none) :
    (removeAllPeers x e).attention.pending[Cause.peer.idx] = true := by
  have hnone := removeAllPeers_none x e p
  unfold removeAllPeers at hnone ⊢
  refine (forEach_inv (fun d => d.unwatched = true ∧ (d.link.peer[p] = none → d.attention.pending[Cause.peer.idx] = true)) e
    ⟨h, fun hn => absurd hn hp⟩ fun k _ d hd => ?_).2 hnone
  obtain ⟨hu, hd⟩ := hd
  have hun : Unseen linkParts d (removePeer k x d) := (Unseen.refl hu).removePeer k x
  refine ⟨hun.watch, fun hn => ?_⟩
  by_cases hpd : d.link.peer[p] = none
  · exact hun.raises.kept _ (hd hpd)
  · have hk : p = k := by
      by_contra hk
      rw [(removePeer_link k x hu).1, if_neg hk] at hn
      exact hpd hn
    exact hk ▸ removePeer_raises x hu hpd

/-! ### The link: slots -/

/-- An outbound slot that is QUEUED or SENDING. -/
def SlotBusy (k : Fin 4) (c : Chip) : Prop := c.link.out[k].state = .queued ∨ c.link.out[k].state = .sending

/-- The end of a slot that has something to send (R159 step 5). -/
def endSlot (x : Code) (k : Fin 4) (c : Chip) : Chip :=
  if c.link.out[k].state = .queued ∨ c.link.out[k].state = .sending then c.slotDone k x else c

theorem endSlots_eq (x : Code) (c : Chip) :
    endSlots x c = modLink (fun l => { l with outOrder := [] }) (forEach (List.finRange 4) (endSlot x) c) := rfl

theorem slotDone_link (k : Fin 4) (x : Code) (c : Chip) : ¬ SlotBusy k (slotDone k x c)
    ∧ ∀ j, j ≠ k → (slotDone k x c).link.out[j] = c.link.out[j] := by
  have hlink : (slotDone k x c).link
      = (modOut k (fun o => { o with state := .done, doneResult := x, doneTime := c.control.ms }) c).link := by
    simp [slotDone]
  refine ⟨fun hb => ?_, fun j hj => ?_⟩
  · unfold SlotBusy at hb
    rw [hlink, modOut_same] at hb
    simp at hb
  · rw [hlink]
    exact modOut_other k j _ c hj

theorem endSlot_idle (x : Code) (k j : Fin 4) (c : Chip) (h : ¬ SlotBusy j c) : ¬ SlotBusy j (endSlot x k c) := by
  unfold endSlot
  split_ifs
  · by_cases hjk : j = k
    · exact hjk ▸ (slotDone_link k x c).1
    · unfold SlotBusy
      rw [(slotDone_link k x c).2 j hjk]
      exact h
  · exact h

theorem endSlot_self (x : Code) (k : Fin 4) (c : Chip) : ¬ SlotBusy k (endSlot x k c) := by
  unfold endSlot
  split_ifs with hb
  · exact (slotDone_link k x c).1
  · exact hb

/-- Slots that end have raised SEND (R159 step 5). -/
theorem endSlots_raises {k : Fin 4} (x : Code) (hb : SlotBusy k e) :
    (endSlots x e).attention.pending[Cause.send.idx] = true := by
  have hidle := forEach_all (endSlot x) (fun k c => ¬ SlotBusy k c) (endSlot_self x) (fun k j d => endSlot_idle x k j d) e k
  have hraised := forEach_inv (xs := List.finRange 4) (f := endSlot x)
    (fun d => ¬ SlotBusy k d → d.attention.pending[Cause.send.idx] = true) e (fun hi => absurd hb hi) (fun j _ d hd hi => ?_)
  · rw [endSlots_eq]
    generalize forEach (List.finRange 4) (endSlot x) e = d at hidle hraised ⊢
    exact hraised hidle
  · unfold endSlot at hi ⊢
    split_ifs at hi ⊢
    · exact raiseCause_pending .send _
    · exact hd hi

theorem setReceiver_out {x : Receiver} (h : d.link.out = c.link.out) : (setReceiver x d).link.out = c.link.out := h

theorem dropFrame_out (side : FrameSide) (f : RxFrame) (h : d.link.out = c.link.out) :
    (dropFrame side f d).link.out = c.link.out := by
  unfold dropFrame
  rw [returnBlocks_link]
  refine forEach_inv (fun d => d.link.out = c.link.out) d h fun b _ e he => ?_
  dsimp only
  split_ifs
  · simpa using he
  · exact he
  · exact he

theorem giveUpFrames_out (h : d.link.out = c.link.out) : (giveUpFrames d).link.out = c.link.out := by
  unfold giveUpFrames
  have h1 : (match d.link.finishing with
      | some f => (d.modLink (fun l => { l with finishing := none })).dropFrame .finishing f
      | none => d).link.out = c.link.out := by
    split
    · exact dropFrame_out _ _ h
    · exact h
  refine setReceiver_out ?_
  split
  · exact dropFrame_out _ _ h1
  · exact dropFrame_out _ _ h1
  · exact dropFrame_out _ _ h1
  · exact h1
  · exact h1

theorem abandonFrame_out (h : d.link.out = c.link.out) : (abandonFrame d).link.out = c.link.out := by
  simpa [abandonFrame] using h

theorem removeAllPeers_out (x : Code) (hu : d.unwatched = true) : (removeAllPeers x d).link.out = d.link.out := by
  unfold removeAllPeers
  refine (forEach_inv (fun e => e.unwatched = true ∧ e.link.out = d.link.out) d ⟨hu, rfl⟩ fun p _ e he => ?_).2
  obtain ⟨he, hout⟩ := he
  exact ⟨((Unseen.refl he : Unseen linkParts e e).removePeer p x).watch, (removePeer_link p x he).2.trans hout⟩

theorem framesGone_out (h : c.unwatched = true) : (framesGone c).link.out = c.link.out := by
  have hdown := unseen_linkDowned h
  have hlink : (linkDowned c).link = c.link := hdown.kept .link (by simp)
  have hpeers : (peersGone c).link.out = c.link.out := by
    unfold peersGone
    rw [removeAllPeers_out .off hdown.watch, hlink]
  unfold framesGone
  exact abandonFrame_out (giveUpFrames_out hpeers)

/-! ### The link unit -/

theorem setMode_coast (now : Word) (ch : Channel) :
    Channel.setMode now .coast ch = Channel.setStage now .coast { ch with mode := .coast, reversing := false } := by
  have htarget : Channel.target { ch with mode := .coast } = .coast := by
    unfold Channel.target
    split_ifs with h1 h2
    · rfl
    · cases h2
    · rfl
  unfold Channel.setMode Channel.retarget
  rw [htarget]
  rfl

theorem cool_keeps (now : Word) (ch : Channel) : (Channel.cool now ch).owner = ch.owner
    ∧ (Channel.cool now ch).deadline = ch.deadline ∧ (Channel.cool now ch).mode = ch.mode
    ∧ (Channel.cool now ch).stage = ch.stage := by
  unfold Channel.cool
  split_ifs <;> exact ⟨rfl, rfl, rfl, rfl⟩

theorem freed_spec (now : Word) (ch : Channel) : (freed now ch).owner = .none ∧ (freed now ch).deadline = none
    ∧ (freed now ch).mode = .coast ∧ (freed now ch).stage = .coast := by
  unfold freed
  rw [setMode_coast]
  exact cool_keeps now _

/-- A motor after the link's stop: free where a joined peer had it, else as it was (R58, R160). -/
theorem linkLeaveOn_channel (h : b.unwatched = true) (m : Fin 4) : (linkLeaveOn b).motor.ch[m]
    = if b.on .motor = true ∧ ∃ p, b.link.peer[p] ≠ none ∧ b.motor.ch[m].owner = .link p
      then freed b.control.ms b.motor.ch[m] else b.motor.ch[m] := by
  have hdown := unseen_linkDowned h
  have hlink : (linkDowned b).link = b.link := hdown.kept .link (by simp)
  have hmotor : (linkDowned b).motor = b.motor := hdown.kept .motor (by simp)
  have hcontrol : (linkDowned b).control = b.control := hdown.kept .control (by simp)
  have hon : (linkDowned b).on .motor = b.on .motor := on_eq (by rw [hcontrol]) .motor
  have hlater : (linkLeaveOn b).motor = (peersGone b).motor := by
    have h1 : (slotsGone b).motor = (framesGone b).motor := (unseen_slotsGone h).kept .motor (by simp)
    have h2 : (framesGone b).motor = (peersGone b).motor := (unseen_framesGone h).kept .motor (by simp)
    rw [linkLeaveOn_eq h, ← h2, ← h1]
  rw [hlater]
  unfold peersGone removeAllPeers
  rw [forEach_removePeer_channel m _ .off hdown.watch, hon, hcontrol, hmotor, hlink]
  simp

theorem ringAlike_linkLeaveOn (hu : b.unwatched = true) (hf : ∀ p, PeerFresh c p (linkDowned b)) (h : RingAlike c b) :
    RingAlike (((List.finRange 8).filter (fun p => c.link.peer[p].isSome)).foldl c.peerGoneOff c) (linkLeaveOn b) := by
  have hpeers : RingAlike _ (peersGone b) :=
    (h.of_kept (unseen_linkDowned hu).kept (by simp) (by simp)).removeAllPeers hf
  have hslots := (hpeers.of_kept (unseen_framesGone hu).kept (by simp) (by simp)).of_kept (unseen_slotsGone hu).kept
    (by simp) (by simp)
  rw [linkLeaveOn_eq hu]
  exact hslots.link _

/-- What the link tells as it leaves ON, the causes it raises and the motors it frees (R58, R160). -/
theorem leftOn_link (hu : b.unwatched = true) (h : Alike c b) (hl : b.link = c.link) (hm : b.motor = c.motor)
    (hon : b.on .motor = c.on .motor) : LeftOn .link c (linkLeaveOn b) := by
  have hdown := unseen_linkDowned hu
  have hlink : (linkDowned b).link = c.link := Eq.trans (hdown.kept .link (by simp)) hl
  have hmotor : (linkDowned b).motor = c.motor := Eq.trans (hdown.kept .motor (by simp)) hm
  have hon' : (linkDowned b).on .motor = c.on .motor :=
    (on_eq (by rw [hdown.kept .control (by simp)]) .motor).trans hon
  have hfresh (p : Fin 8) : PeerFresh c p (linkDowned b) :=
    ⟨hdown.watch, hon', by rw [hlink], fun m => by rw [hmotor], fun m _ => by rw [hmotor]⟩
  have hattention : (linkLeaveOn b).attention = (slotsGone b).attention := by rw [linkLeaveOn_eq hu]
  refine ⟨(ringAlike_linkLeaveOn hu hfresh h.toRingAlike).ring.symm, fun p hp => ?_, fun k hk => ?_, fun k hk => ?_,
    fun m p hmotors ho hp => ?_, fun m hfree => ?_⟩
  · have hraised : (peersGone b).attention.pending[Cause.peer.idx] = true := by
      unfold peersGone
      exact removeAllPeers_raises .off hdown.watch (by rw [hlink]; exact hp)
    rw [hattention]
    exact (unseen_slotsGone hu).raises.kept _ ((unseen_framesGone hu).raises.kept _ hraised)
  · rw [hattention]
    refine endSlots_raises (k := k) .off ?_
    unfold SlotBusy
    rw [framesGone_out hu, hl]
    exact hk
  · rw [h.attention]
    exact (unseen_linkLeaveOn hu).raises.other k hk
  · rw [linkLeaveOn_channel hu, hon, hl, hm, if_pos ⟨hmotors, p, hp, ho⟩]
    exact freed_spec _ _
  · rw [linkLeaveOn_channel hu, hon, hl, hm, if_neg]
    rintro ⟨hmotors, p, hp, ho⟩
    rcases hfree p ho with hoff | hnone
    · exact Bool.false_ne_true (hoff.symm.trans hmotors)
    · exact hp hnone

end Sys2Proof.Machine.Chip
end

section
namespace Sys2Proof.Machine.Chip
variable {b c d e : Chip} {u : BlockUnit}

/-! ## Block enables (O19) -/

theorem leftOn_stopUnit (hu : b.unwatched = true) (h : Alike c b) (hm : b.motor = c.motor) (hs : b.sound = c.sound)
    (hl : b.link = c.link) (hon : u = .link → b.on .motor = c.on .motor) : LeftOn u c (stopUnit u b) := by
  cases u with
  | motor => exact leftOn_motor hm h
  | sense | input | reflex => exact ⟨h.ring.symm, h.attention.symm⟩
  | sound => exact leftOn_sound hs h
  | link => exact leftOn_link hu h hl hm (hon rfl)

/-- What a unit leaves behind is in ring, attention flags and motors. -/
theorem leftOn_congr (hr : e.ring = d.ring) (ha : e.attention = d.attention) (hm : e.motor = d.motor) (h : LeftOn u c d) :
    LeftOn u c e := by
  unfold LeftOn at h ⊢
  rw [hr, ha, hm]
  exact h

theorem claimCut_pubs {r : RecId} (m : Fin 4) (h : r ∈ c.path.pubs) : r ∈ (claimCut m c).path.pubs := by
  unfold claimCut
  split_ifs
  · exact h
  · exact (lasting_pubs r).claimLost m _ .off h

theorem mem_pubs_forEach {α : Type} {r : RecId} {xs : List α} {f : α → Chip → Chip}
    (hf : ∀ x d, r ∈ d.path.pubs → r ∈ (f x d).path.pubs) (h : r ∈ c.path.pubs) : r ∈ (forEach xs f c).path.pubs :=
  forEach_inv (fun d => r ∈ d.path.pubs) c h fun x _ d => hf x d

theorem motorLeaveOn_pubs {r : RecId} (h : r ∈ c.path.pubs) : r ∈ (motorLeaveOn c).path.pubs := by
  have hops := mem_pubs_forEach (xs := List.finRange 4) (f := fun m => endOperation m .off)
    (fun m d => (lasting_pubs r).endOperation m .off) h
  have hcoast := mem_pubs_forEach (xs := List.finRange 4) (f := coastCut) (fun _ _ => id) hops
  have hcut := mem_pubs_forEach (xs := List.finRange 4) (f := claimCut) (fun m _ => claimCut_pubs m) hcoast
  rw [motorLeaveOn_eq]
  generalize forEach (List.finRange 4) claimCut _ = d at hcut ⊢
  exact hcut

theorem stopUnit_pubs {r : RecId} (hu : c.unwatched = true) (h : r ∈ c.path.pubs) : r ∈ (stopUnit u c).path.pubs := by
  cases u with
  | motor => exact motorLeaveOn_pubs h
  | sense | input | reflex => exact h
  | sound => exact (lasting_pubs r).endSound .off h
  | link => exact (unseen_linkLeaveOn hu).pubs r h

theorem mem_pubs_joinReset (q r : RecId) (c : Chip) : q ∈ (joinReset r c).path.pubs ↔ q = r ∨ q ∈ c.path.pubs := by
  rw [joinReset, (markStale_keeps ..).2.2.2.2.2.2.1, publish_path]
  exact mem_joins r q c.path.pubs

theorem mem_pubs_forEach_joinReset (q : RecId) (rs : List RecId) (c : Chip) :
    q ∈ (forEach rs joinReset c).path.pubs ↔ q ∈ rs ∨ q ∈ c.path.pubs := by
  induction rs generalizing c with
  | nil => simp
  | cons r rs ih => rw [forEach_cons, ih, mem_pubs_joinReset, List.mem_cons, or_left_comm, or_assoc]

theorem shadow_forEach_setShadow (rs : List RecId) (c : Chip) :
    (forEach rs (fun r => setShadow r r.defaultBytes) c).shadow = defaultsOnto rs c.shadow := by
  induction rs generalizing c with
  | nil => rfl
  | cons r rs ih => exact ih _

theorem mem_ofUnit {r : RecId} : r ∈ RecId.ofUnit u ↔ r.unit? = some u := by
  simp [RecId.ofUnit, RecId.mem_all]

theorem resetRecords_pubs (u : BlockUnit) (q : RecId) (c : Chip) :
    q ∈ (resetRecords u c).path.pubs ↔ q.unit? = some u ∨ q ∈ c.path.pubs := by
  have hp : (forEach (RecId.processorOf u) (fun r => setShadow r r.defaultBytes) c).path = c.path :=
    forEach_keptBut (fun r e => keptBut_setShadow r _ e) c .path (by simp)
  unfold resetRecords
  dsimp only
  rw [mem_pubs_forEach_joinReset, hp, mem_ofUnit]

theorem resetRecords_shadow (u : BlockUnit) (c : Chip) :
    (resetRecords u c).shadow = defaultsOnto (RecId.processorOf u) c.shadow := by
  have hp := forEach_keptBut (xs := RecId.ofUnit u) (fun r e => keptBut_joinReset r e)
    (forEach (RecId.processorOf u) (fun r => setShadow r r.defaultBytes) c) .shadow (by simp)
  unfold resetRecords
  exact Eq.trans hp (shadow_forEach_setShadow _ c)

/-- The shadows of a unit that enters RESETTING stand at their defaults (R29 step 3). -/
theorem shadowBytes_resetRecords {r : RecId} (hw : c.shadow.wf = true) (hr : r.unit? = some u) (hp : r.isPart = false) :
    (resetRecords u c).shadowBytes r = r.defaultBytes := by
  refine shadowBytes_eq_of_read (RecId.length_defaultBytes hp) fun j hj => ?_
  have hmem : r ∈ RecId.processorOf u := List.mem_filter.mpr ⟨mem_ofUnit.mpr hr, by simp [hp]⟩
  rw [resetRecords_shadow, read_defaultsOnto (r := r) (fun q hq => by simpa using (List.mem_filter.mp hq).2)
    ⟨by omega, by omega⟩ hw, if_pos hmem, Nat.add_sub_cancel_left]

/-- The bytes of the enables, stored. -/
def enablesStored (e : PerUnit Bool) (c : Chip) : Chip :=
  storeControl 0 (BlockUnit.all.map (fun u => Bytes.ofBool (e.get u))) c

theorem keptBut_enablesStored (e : PerUnit Bool) (c : Chip) : KeptBut [.mem, .shadow] c (enablesStored e c) := fun p hp => by
  cases p <;> simp at hp <;> rfl

theorem enablesStored_stored (e : PerUnit Bool) (hi : c.inv = true) :
    Stored 0xFF0000 (BlockUnit.all.map (fun u => Bytes.ofBool (e.get u))) c.mem (enablesStored e c).mem
    ∧ Stored 0 (BlockUnit.all.map (fun u => Bytes.ofBool (e.get u))) c.shadow (enablesStored e c).shadow :=
  storeControl_stored hi (by simp [BlockUnit.all, RecId.size])

theorem enablesPart_eq (e : PerUnit Bool) (h : c.control.gen ≠ .holding) :
    enablesPart e c = applyEnables e (enablesStored e c) :=
  if_neg fun hh => h ((holding_iff c).mp hh)

/-- What the reset of a unit leaves when no entry watches: the unit's stop, its records outstanding, on the publication
list and at their defaults. -/
theorem enterResetting_spec (hu : c.unwatched = true) (hw : c.shadow.wf = true) :
    KeptBut (stopParts u ++ [.path, .shadow, .control]) c (enterResetting u c)
    ∧ .status ∈ (enterResetting u c).path.pubs
    ∧ ∀ r : RecId, r.unit? = some u → r ∈ (enterResetting u c).control.outstanding ∧ r ∈ (enterResetting u c).path.pubs
      ∧ (r.isPart = false → (enterResetting u c).shadowBytes r = r.defaultBytes) := by
  have hset := keptBut_setBlock u .resetting c
  have hstop := keptBut_stopped u hu
  obtain ⟨hreset, -⟩ := keptBut_resetRecords u (stopped u c)
  have hshadow : (stopped u c).shadow = c.shadow := by
    rw [hstop .shadow (by cases u <;> simp [stopParts]), hset .shadow (by simp)]
  have hstatus : .status ∈ (stopped u c).path.pubs := by
    refine stopUnit_pubs (unwatched_setBlock (by simp) hu) ?_
    rw [setBlock_eq]
    exact (mem_joins _ _ _).mpr (.inl rfl)
  refine ⟨?_, ?_, fun r hr => ⟨?_, ?_, fun hp => ?_⟩⟩
  · rw [enterResetting_of_unwatched u hu]
    exact ((hset.mono (by simp)).trans (hstop.mono (by simp +contextual))).trans (hreset.mono (by simp))
  · rw [enterResetting_of_unwatched u hu, resetRecords_pubs]
    exact .inr hstatus
  · rw [enterResetting_control u hu]
    exact List.mem_append_right _ (mem_ofUnit.mpr hr)
  · rw [enterResetting_of_unwatched u hu, resetRecords_pubs]
    exact .inl hr
  · rw [enterResetting_of_unwatched u hu]
    exact shadowBytes_resetRecords (hshadow ▸ hw) hr hp

/-- The state of a unit that has entered RESETTING. -/
theorem enterResetting_state (hu : c.unwatched = true) : (u = .motor → (enterResetting u c).motor = Motor.reset)
    ∧ (u = .sense → (enterResetting u c).sense = Sense.reset) ∧ (u = .input → (enterResetting u c).input = Inputs.reset)
    ∧ (u = .reflex → (enterResetting u c).reflex = Reflex.reset) ∧ (u = .sound → (enterResetting u c).sound = Sound.reset)
    ∧ (u = .link → (enterResetting u c).link = { Link.reset with lastFrame := c.link.lastFrame }) := by
  obtain ⟨hreset, -⟩ := keptBut_resetRecords u (stopped u c)
  rw [enterResetting_of_unwatched u hu, hreset .motor (by simp), hreset .sense (by simp), hreset .input (by simp),
    hreset .reflex (by simp), hreset .sound (by simp), hreset .link (by simp)]
  refine ⟨?_, ?_, ?_, ?_, ?_, ?_⟩
  · rintro rfl
    exact motorLeaveOn_reset _
  · rintro rfl
    rfl
  · rintro rfl
    rfl
  · rintro rfl
    rfl
  · rintro rfl
    rfl
  · rintro rfl
    have hlink : (stopped .link c).link = _ := congrArg Chip.link (linkLeaveOn_eq (unwatched_setBlock (by simp) hu))
    rw [hlink, keptBut_setBlock .link .resetting c .link (by simp)]

theorem leftOn_enterResetting {h : Chip} (hu : c.unwatched = true) (ha : Alike h c) (hm : c.motor = h.motor)
    (hs : c.sound = h.sound) (hl : c.link = h.link) (hon : c.on .motor = h.on .motor) : LeftOn u h (enterResetting u c) := by
  have hset := keptBut_setBlock u .resetting c
  obtain ⟨hreset, -⟩ := keptBut_resetRecords u (stopped u c)
  rw [enterResetting_of_unwatched u hu]
  refine leftOn_congr (hreset .ring (by simp)) (hreset .attention (by simp)) (hreset .motor (by simp))
    (leftOn_stopUnit (unwatched_setBlock (by simp) hu) ⟨⟨?_, ?_⟩, ?_⟩ ?_ ?_ ?_ fun hlink => ?_)
  · rw [hset .ring (by simp), ha.ring]
  · rw [ha.ms, setBlock_eq]
  · rw [hset .attention (by simp), ha.attention]
  · rw [hset .motor (by simp), hm]
  · rw [hset .sound (by simp), hs]
  · rw [hset .link (by simp), hl]
  · rw [on_setBlock, if_neg (by simp [hlink]), hon]

/-- The stop of a unit leaves the other units, but for motors that the link's stop frees. -/
theorem stopParts_apart (u : BlockUnit) : (u ≠ .motor → u ≠ .link → .motor ∉ stopParts u)
    ∧ (u ≠ .sense → .sense ∉ stopParts u) ∧ (u ≠ .input → .input ∉ stopParts u) ∧ (u ≠ .reflex → .reflex ∉ stopParts u)
    ∧ (u ≠ .sound → .sound ∉ stopParts u) ∧ (u ≠ .link → .link ∉ stopParts u) ∧ .pins ∉ stopParts u := by
  cases u <;> simp [stopParts]

/-- Settles O19: the enables taken unit by unit; one unit's step out of ON by what its stop and its reset do. -/
theorem blockEnablesAndResetting : Obligations.BlockEnablesAndResetting := by
  unfold Obligations.BlockEnablesAndResetting
  refine ⟨fun s e hg hi => ⟨act_answers rfl ?_, fun hs => act_answers rfl ?_⟩,
    fun s e u hg hi hu hon he hs => act_answers rfl ?_⟩
  · rw [enablesPart_eq e hg]
    refine ⟨fun u => ?_, ?_⟩
    · obtain ⟨hblock, henable⟩ := applyEnables_units e (enablesStored e s.hw) u
      rw [hblock, henable]
      refine ⟨rfl, ?_⟩
      show blockAfter (s.hw.control.block.get u) (e.get u) = _
      cases s.hw.control.block.get u <;> cases e.get u <;> simp [blockAfter]
    · rw [(applyEnables_mild e (Rest.refl (enablesStored e s.hw)).mild).mem]
      exact (enablesStored_stored e hi).1
  · rw [enablesPart_eq e hg, applyEnables_of_settled (c := enablesStored e s.hw) hs]
    refine ⟨rfl, (enablesStored_stored e hi).2, fun p hp => ?_⟩
    cases p <;> simp at hp <;> rfl
  · have hu1 : s.hw.settled e u = false := by rw [settled, hon, he]; rfl
    obtain ⟨x, hx⟩ := applyEnables_of_one (c := enablesStored e s.hw) hu1 hs
    have hu2 : (withEnable x (enablesStored e s.hw)).unwatched = true := (unwatched_congr s.hw _ rfl rfl).trans hu
    obtain ⟨hkept, hstatus, hrecords⟩ := enterResetting_spec (u := u) hu2 (inv_shadow (storeControl_inv 0 _ hi))
    obtain ⟨hmotor, hsense, hinput, hreflex, hsound, hlink⟩ := enterResetting_state (u := u) hu2
    have hleft := leftOn_enterResetting (u := u) (h := s.hw) hu2 ⟨⟨rfl, rfl⟩, rfl⟩ rfl rfl rfl rfl
    have hblock : (enterResetting u (withEnable x (enablesStored e s.hw))).control.block.get u = .resetting := by
      rw [enterResetting_control u hu2]
      exact (PerUnit.get_set ..).trans (if_pos rfl)
    obtain ⟨notMotor, notSense, notInput, notReflex, notSound, notLink, notPins⟩ := stopParts_apart u
    have hd : enablesPart e s.hw = withEnable e (enterResetting u (withEnable x (enablesStored e s.hw))) := by
      rw [enablesPart_eq e hg, hx, he]
      rfl
    rw [hd]
    generalize enterResetting u (withEnable x (enablesStored e s.hw)) = d at *
    refine ⟨hblock, hstatus, fun r hr => ?_, hmotor, hsense, hinput, hreflex, hsound, hlink, leftOn_congr rfl rfl rfl hleft,
      fun h1 h2 => hkept .motor (by simp [notMotor h1 h2]), fun h => hkept .sense (by simp [notSense h]),
      fun h => hkept .input (by simp [notInput h]), fun h => hkept .reflex (by simp [notReflex h]),
      fun h => hkept .sound (by simp [notSound h]), fun h => hkept .link (by simp [notLink h]),
      hkept .pins (by simp [notPins])⟩
    obtain ⟨hout, hpubs, hdefault⟩ := hrecords r hr
    exact ⟨hout, hpubs, hdefault, (recordGuarded_iff _ r).mpr (.inr (.inl ⟨u, hr, hblock⟩))⟩

end Sys2Proof.Machine.Chip
end

section
namespace Sys2Proof.Machine.Chip
variable {b c d e : Chip} {u : BlockUnit}

/-! ## A unit turns ON

Each unit's start, over its channels or inputs, index by index. -/

theorem keptBut_publishIf (x : Bool) (r : RecId) (c : Chip) : KeptBut [.path] c (publishIf x r c) := fun p hp => by
  cases p <;> simp at hp <;> simp [Part.same]

theorem mem_pubs_publish (q r : RecId) (c : Chip) : q ∈ (publish r c).path.pubs ↔ q = r ∨ q ∈ c.path.pubs := by
  rw [publish_path]
  exact mem_joins r q c.path.pubs

theorem mem_pubs_publishIf (q r : RecId) (x : Bool) (c : Chip) :
    q ∈ (publishIf x r c).path.pubs ↔ (x = true ∧ q = r) ∨ q ∈ c.path.pubs := by
  unfold publishIf
  split_ifs with hx
  · rw [mem_pubs_publish]
    simp [hx]
  · simp [hx]

/-! ### The motor unit -/

/-- The settings that a motor takes from its slot's shadow (R46). -/
def motorSettingsRead (m : Fin 4) (c : Chip) : MotorSettings :=
  let r := MotorSlot.ofBytes (c.shadowBytes (.motorSlot m))
  if r.settingsOk then r.settings else {}

/-- A motor channel as the unit turns ON (R43, R46, R53). -/
def channelStart (m : Fin 4) (c : Chip) : Channel :=
  { Channel.reset with settings := motorSettingsRead m c, levels := some c.pins.encoder[m] }

theorem channelTurnOn_eq (m : Fin 4) (c : Chip) : channelTurnOn m c
    = publishIf (motorSettingsRead m c != ({} : MotorSettings) || c.motor.ch[m].latchResult != .ok) (.motorStatus m)
        (c.modCh m (fun _ => channelStart m c)) := rfl

theorem keptBut_channelTurnOn (m : Fin 4) (c : Chip) : KeptBut [.motor, .path] c (channelTurnOn m c) := by
  rw [channelTurnOn_eq]
  exact ((keptBut_motor _ c).mono (by simp)).trans ((keptBut_publishIf _ _ _).mono (by simp))

theorem channelTurnOn_motor (m : Fin 4) (c : Chip) : (channelTurnOn m c).motor = (c.modCh m (fun _ => channelStart m c)).motor :=
  keptBut_publishIf _ _ _ .motor (by simp)

/-- The channels that start, each with its record published where a latch result goes (log 36). -/
theorem forEach_channelTurnOn {xs : List (Fin 4)} (hx : xs.Nodup) {m : Fin 4} (hm : m ∈ xs) (c : Chip) :
    (forEach xs channelTurnOn c).motor.ch[m] = channelStart m c
    ∧ (c.motor.ch[m].latchResult ≠ .ok → .motorStatus m ∈ (forEach xs channelTurnOn c).path.pubs) := by
  have h := forEach_each (c := c) (fun m d => (d.motor.ch[m], decide (.motorStatus m ∈ d.path.pubs)))
    (fun m x => (channelStart m c, (motorSettingsRead m c != ({} : MotorSettings) || x.1.latchResult != .ok) || x.2))
    (fun d => d.shadow = c.shadow ∧ d.pins = c.pins) (f := channelTurnOn) (fun m d hd => ?_) (fun m d hd => ?_)
    (fun j m d _ hjm => ?_) hx ⟨rfl, rfl⟩ m
  · rw [if_pos hm] at h
    refine ⟨congrArg Prod.fst h, fun hlatch => of_decide_eq_true ((congrArg Prod.snd h).trans ?_)⟩
    dsimp only
    rw [bne_iff_ne.mpr hlatch, Bool.or_true, Bool.true_or]
  · have hk := keptBut_channelTurnOn m d
    exact ⟨Eq.trans (hk .shadow (by simp)) hd.1, Eq.trans (hk .pins (by simp)) hd.2⟩
  · have hread : motorSettingsRead m d = motorSettingsRead m c := by
      unfold motorSettingsRead
      rw [shadowBytes_congr hd.1]
    refine Prod.ext ?_ ?_
    · refine (congrArg (fun x : Motor => x.ch[m]) (channelTurnOn_motor m d)).trans ((modCh_same _ _ _).trans ?_)
      rw [channelStart, channelStart, hread, hd.2]
    · dsimp only
      rw [channelTurnOn_eq, hread]
      refine (Bool.eq_iff_iff.mpr ?_)
      rw [decide_eq_true_iff, mem_pubs_publishIf]
      simp
  · refine Prod.ext ?_ ?_
    · exact (congrArg (fun x : Motor => x.ch[j]) (channelTurnOn_motor m d)).trans (modCh_other _ _ _ _ hjm)
    · dsimp only
      rw [channelTurnOn_eq]
      refine (Bool.eq_iff_iff.mpr ?_)
      rw [decide_eq_true_iff, decide_eq_true_iff, mem_pubs_publishIf]
      simp [hjm]

/-- The motor unit's start (R43, R45, R46, R53). -/
theorem motorTurnOn_spec (c : Chip) : KeptBut [.motor, .path] c (motorTurnOn c)
    ∧ (motorTurnOn c).motor.windowEnd = nextMultiple 100 c.control.ms
    ∧ ∀ m : Fin 4, (motorTurnOn c).motor.ch[m] = channelStart m c
      ∧ (c.motor.ch[m].latchResult ≠ .ok → .motorStatus m ∈ (motorTurnOn c).path.pubs) := by
  have hwindow : KeptBut [.motor] c { c with motor := { c.motor with windowEnd := nextMultiple 100 c.control.ms } } :=
    keptBut_motor _ c
  unfold motorTurnOn
  refine ⟨(hwindow.mono (by simp)).trans (forEach_keptBut keptBut_channelTurnOn _),
    forEach_inv (fun d => d.motor.windowEnd = nextMultiple 100 c.control.ms) _ rfl fun m _ d hd => ?_,
    fun m => forEach_channelTurnOn (List.nodup_finRange 4) (List.mem_finRange m) _⟩
  rw [channelTurnOn_motor]
  exact hd

/-! ### The sense, sound and link units -/

/-- The sense unit's start (R95). -/
theorem senseTurnOn_spec (c : Chip) : KeptBut [.sense, .path] c (senseTurnOn c)
    ∧ (c.sense.latchResult ≠ .ok → .scanStatus ∈ (senseTurnOn c).path.pubs)
    ∧ (senseTurnOn c).sense = { Sense.reset with
        stored := (let r := ScanRec.ofBytes (c.shadowBytes .scanProgram); if r.valid then r.program else {})
        settings := (senseTurnOn c).sense.settings }
    ∧ ∀ ch : Fin 8, (senseTurnOn c).sense.settings[ch] = c.channelFromShadow ch := by
  have hset (x : Sense) : KeptBut [.sense] c { c with sense := x } := fun p hp => by cases p <;> simp at hp <;> rfl
  have hsense : (senseTurnOn c).sense = { Sense.reset with
      stored := (let r := ScanRec.ofBytes (c.shadowBytes .scanProgram); if r.valid then r.program else {})
      settings := (List.finRange 8).foldl (fun v (ch : Fin 8) => v.set ch (c.channelFromShadow ch)) Sense.reset.settings } :=
    keptBut_publishIf _ _ _ .sense (by simp)
  refine ⟨((hset _).mono (by simp)).trans ((keptBut_publishIf _ _ _).mono (by simp)), fun h => ?_, ?_, fun ch => ?_⟩
  · exact (mem_pubs_publishIf _ _ _ _).mpr (.inl ⟨by simpa using h, rfl⟩)
  · rw [hsense]
  · rw [hsense]
    exact (foldl_set_get c.channelFromShadow _ _ ch).trans (if_pos (List.mem_finRange ch))

/-- The sound unit's start (R141). -/
theorem soundTurnOn_spec (c : Chip) : KeptBut [.sound, .path] c (soundTurnOn c) ∧ (soundTurnOn c).sound = Sound.reset
    ∧ (c.sound.latchResult ≠ .ok → .soundStatus ∈ (soundTurnOn c).path.pubs) := by
  have hset (x : Sound) : KeptBut [.sound] c { c with sound := x } := fun p hp => by cases p <;> simp at hp <;> rfl
  refine ⟨((hset _).mono (by simp)).trans ((keptBut_publishIf _ _ _).mono (by simp)),
    keptBut_publishIf _ _ _ .sound (by simp), fun h => ?_⟩
  exact (mem_pubs_publishIf _ _ _ _).mpr (.inl ⟨by simpa using h, rfl⟩)

theorem mem_pubs_forEach_publish {α : Type} (f : α → RecId) (q : RecId) (xs : List α) (c : Chip) :
    q ∈ (forEach xs (fun x => publish (f x)) c).path.pubs ↔ (∃ x ∈ xs, q = f x) ∨ q ∈ c.path.pubs := by
  induction xs generalizing c with
  | nil => simp
  | cons x xs ih => rw [forEach_cons, ih, mem_pubs_publish, List.exists_mem_cons_iff, or_left_comm, or_assoc]

/-- The link's settings read from their shadow (R160). -/
def linkSettingsRead (c : Chip) : LinkSettings :=
  let r := LinkRec.ofBytes (c.shadowBytes .linkSettings)
  if r.valid then r.settings else {}

/-- The link unit's start (R142, R160, R172). -/
theorem linkTurnOn_spec (c : Chip) : KeptBut [.link, .path] c (linkTurnOn c)
    ∧ (linkTurnOn c).link = { Link.reset with
        settings := linkSettingsRead c, stormEnd := nextMultiple 50 c.control.ms, lastFrame := c.link.lastFrame }
    ∧ (c.linkUp = true → .linkStatus ∈ (linkTurnOn c).path.pubs)
    ∧ ∀ k : Fin 4, c.link.out[k].latchResult ≠ .ok → .outStatus k ∈ (linkTurnOn c).path.pubs := by
  have hpublish := forEach_keptBut (xs := (List.finRange 4).filter (fun k => c.link.out[k].latchResult != .ok))
    (fun k e => keptBut_publish (.outStatus k) e)
  have hif := keptBut_publishIf c.linkUp .linkStatus { c with link := { Link.reset with
    settings := linkSettingsRead c, stormEnd := nextMultiple 50 c.control.ms, lastFrame := c.link.lastFrame } }
  refine ⟨(((keptBut_link _ c).mono (by simp)).trans (hif.mono (by simp))).trans ((hpublish _).mono (by simp)),
    Eq.trans (hpublish _ .link (by simp)) (hif .link (by simp)), fun h => ?_, fun k hk => ?_⟩
  · exact (mem_pubs_forEach_publish _ _ _ _).mpr (.inr ((mem_pubs_publishIf _ _ _ _).mpr (.inl ⟨h, rfl⟩)))
  · exact (mem_pubs_forEach_publish _ _ _ _).mpr (.inl ⟨k, by simpa using hk, rfl⟩)

/-! ### The input unit -/

theorem keptBut_input (x : Inputs) (c : Chip) : KeptBut [.input] c { c with input := x } := fun p hp => by
  cases p <;> simp at hp <;> rfl

/-- The input unit's start (R101). -/
theorem inputTurnOn_spec (c : Chip) : KeptBut [.input] c (inputTurnOn c)
    ∧ ∀ n : Fin 11, (inputTurnOn c).input.line[n] = ⟨false, none, c.inputFromShadow n⟩ := by
  have hstep (xs : List (Fin 11)) (hx : xs.Nodup) (n : Fin 11) (hn : n ∈ xs) (d : Chip) :
      (forEach xs (fun n c => c.modInput n (fun l => { l with settings := c.inputFromShadow n })) d).input.line[n]
        = { d.input.line[n] with settings := d.inputFromShadow n } := by
    have h := forEach_each (c := d) (fun n d => d.input.line[n]) (fun n l => { l with settings := d.inputFromShadow n })
      (fun e => e.shadow = d.shadow) (f := fun n c => c.modInput n (fun l => { l with settings := c.inputFromShadow n }))
      (fun _ _ he => he) (fun k e he => ?_) (fun j k e _ hjk => modInput_other _ _ _ _ hjk) hx rfl n
    · rw [if_pos hn] at h
      exact h
    · rw [modInput_same, inputFromShadow, inputFromShadow, shadowBytes_congr he]
  refine ⟨(keptBut_input Inputs.reset c).trans (forEach_keptBut (fun n e => keptBut_input _ e) _), fun n => ?_⟩
  unfold inputTurnOn
  rw [hstep _ (List.nodup_finRange 11) n (List.mem_finRange n)]
  have hreset : Inputs.reset.line[n] = ⟨false, none, {}⟩ := by simp [Inputs.reset, InputLine.reset]
  rw [show ({ c with input := Inputs.reset } : Chip).input.line[n] = _ from hreset]
  rfl

/-- A line judged at an edge (R97). -/
def lineJudged (level : Bool) (now : Word) (l : InputLine) : InputLine :=
  if (level == l.settings.activeHigh) = l.stable then { l with timer := none }
  else if l.settings.debounce = 0 then { l with stable := level == l.settings.activeHigh, timer := none }
  else { l with timer := some now }

/-- A stable state that changes with nothing handed on (R98). -/
theorem changeStable_spec (n : Fin 11) (hu : c.unwatched = true) :
    KeptBut [.input, .ring, .attention, .path] c (changeStable n c)
    ∧ (changeStable n c).input.line = (c.modInput n (fun x => { x with stable := c.rawState n, timer := none })).input.line
    ∧ ∀ r, r ∈ c.path.pubs → r ∈ (changeStable n c).path.pubs := by
  have hmod : KeptBut [.input] c (c.modInput n (fun x => { x with stable := c.rawState n, timer := none })) := keptBut_input _ c
  have hpath : (c.modInput n (fun x => { x with stable := c.rawState n, timer := none })).path = c.path := rfl
  unfold changeStable
  dsimp only
  generalize c.modInput n (fun x => { x with stable := c.rawState n, timer := none }) = d at hmod hpath ⊢
  have hset : KeptBut [.input, .path] c (publish .inputState { d with input := { d.input with lastChange := d.control.ms } }) :=
    ((hmod.trans (keptBut_input _ d)).mono (by simp)).trans ((keptBut_publish _ _).mono (by simp))
  have hline : (publish .inputState { d with input := { d.input with lastChange := d.control.ms } }).input.line
      = d.input.line := by simp
  have hpubs (r : RecId) (hr : r ∈ c.path.pubs) :
      r ∈ (publish .inputState { d with input := { d.input with lastChange := d.control.ms } }).path.pubs :=
    (mem_pubs_publish _ _ _).mpr (.inr (hpath ▸ hr))
  generalize publish .inputState { d with input := { d.input with lastChange := d.control.ms } } = e at hset hline hpubs ⊢
  have hhand (f : Chip) (hf : KeptBut [.ring, .attention, .path] e f) (hp : ∀ r, r ∈ e.path.pubs → r ∈ f.path.pubs) :
      KeptBut [.input, .ring, .attention, .path] c (handChange f) ∧ (handChange f).input.line = d.input.line
      ∧ ∀ r, r ∈ c.path.pubs → r ∈ (handChange f).path.pubs := by
    have hall : KeptBut [.input, .ring, .attention, .path] c f := (hset.mono (by simp)).trans (hf.mono (by simp))
    rw [handChange_of_unwatched f ((unwatched_congr c f (congrArg _ (hall .control (by simp))) (hall .reflex (by simp))).trans hu)]
    exact ⟨hall, (congrArg Inputs.line (hf .input (by simp))).trans hline, fun r hr => hp r (hpubs r hr)⟩
  split_ifs
  · exact hhand _ (keptBut_append _ _ _ e) fun r => (lasting_pubs r).append _ _ _
  · exact hhand _ (.refl _ e) fun _ => id

/-- An edge judged with nothing handed on (R97). -/
theorem judgeEdge_spec (n : Fin 11) (hu : c.unwatched = true) : KeptBut [.input, .ring, .attention, .path] c (judgeEdge n c)
    ∧ (judgeEdge n c).input.line[n] = lineJudged c.pins.input[n] c.control.ms c.input.line[n]
    ∧ (∀ k, k ≠ n → (judgeEdge n c).input.line[k] = c.input.line[k])
    ∧ ∀ r, r ∈ c.path.pubs → r ∈ (judgeEdge n c).path.pubs := by
  obtain ⟨hkept, hlines, hpubs⟩ := changeStable_spec n hu
  have hline (k : Fin 11) : (changeStable n c).input.line[k] = _ := congrArg (fun v : Vector InputLine 11 => v[k]) hlines
  have hmod (f : InputLine → InputLine) : KeptBut [.input, .ring, .attention, .path] c (c.modInput n f) :=
    (keptBut_input _ c).mono (by simp)
  unfold judgeEdge lineJudged disagrees rawState
  by_cases hd : (c.pins.input[n] == c.input.line[n].settings.activeHigh) = c.input.line[n].stable
  · rw [if_neg fun h => bne_iff_ne.mp h hd, if_pos hd]
    exact ⟨hmod _, modInput_same _ _ _, fun k hk => modInput_other _ _ _ _ hk, fun _ => id⟩
  · rw [if_pos (bne_iff_ne.mpr hd), if_neg hd]
    split_ifs
    · exact ⟨hkept, (hline n).trans (modInput_same _ _ _), fun k hk => (hline k).trans (modInput_other _ _ _ _ hk),
        hpubs⟩
    · exact ⟨hmod _, modInput_same _ _ _, fun k hk => modInput_other _ _ _ _ hk, fun _ => id⟩

/-- Every line judged, as the unit turns ON (R101). -/
theorem judgeAllLevels_spec (hu : c.unwatched = true) : KeptBut [.input, .ring, .attention, .path] c (judgeAllLevels c)
    ∧ (∀ n : Fin 11, (judgeAllLevels c).input.line[n] = lineJudged c.pins.input[n] c.control.ms c.input.line[n])
    ∧ ∀ r, r ∈ c.path.pubs → r ∈ (judgeAllLevels c).path.pubs := by
  have hstep (n : Fin 11) (d : Chip) (hd : d.unwatched = true ∧ KeptBut [.input, .ring, .attention, .path] c d) :
      (judgeEdge n d).unwatched = true ∧ KeptBut [.input, .ring, .attention, .path] c (judgeEdge n d) := by
    have hkept := (judgeEdge_spec n hd.1).1
    exact ⟨(unwatched_congr d _ (congrArg _ (hkept .control (by simp))) (hkept .reflex (by simp))).trans hd.1,
      hd.2.trans hkept⟩
  have hloop (xs : List (Fin 11)) (hx : xs.Nodup) (n : Fin 11) (hn : n ∈ xs) :
      (forEach xs judgeEdge c).input.line[n] = lineJudged c.pins.input[n] c.control.ms c.input.line[n] := by
    have h := forEach_each (c := c) (fun n d => d.input.line[n]) (fun n l => lineJudged c.pins.input[n] c.control.ms l)
      (fun d => d.unwatched = true ∧ KeptBut [.input, .ring, .attention, .path] c d) (f := judgeEdge) hstep
      (fun k d hd => ?_) (fun j k d hd hjk => (judgeEdge_spec k hd.1).2.2.1 j hjk) hx ⟨hu, .refl _ c⟩ n
    · rw [if_pos hn] at h
      exact h
    · have hpins : d.pins = c.pins := hd.2 .pins (by simp)
      have hcontrol : d.control = c.control := hd.2 .control (by simp)
      rw [(judgeEdge_spec k hd.1).2.1, hpins, hcontrol]
  have hkept (xs : List (Fin 11)) := forEach_inv (xs := xs) (f := judgeEdge)
    (fun d => d.unwatched = true ∧ KeptBut [.input, .ring, .attention, .path] c d) c ⟨hu, .refl _ c⟩ fun n _ d => hstep n d
  have hpubs (xs : List (Fin 11)) (r : RecId) (hr : r ∈ c.path.pubs) := forEach_inv (xs := xs) (f := judgeEdge)
    (fun d => (d.unwatched = true ∧ KeptBut [.input, .ring, .attention, .path] c d) ∧ r ∈ d.path.pubs) c
    ⟨⟨hu, .refl _ c⟩, hr⟩ fun n _ d hd => ⟨hstep n d hd.1, (judgeEdge_spec n hd.1.1).2.2.2 r hd.2⟩
  unfold judgeAllLevels
  exact ⟨(hkept _).2, fun n => hloop _ (List.nodup_finRange 11) n (List.mem_finRange n), fun r hr => (hpubs _ r hr).2⟩

end Sys2Proof.Machine.Chip
end

section
namespace Sys2Proof.Machine.Chip
variable {b c d e : Chip} {u : BlockUnit}

/-! ## A unit that turns ON, no reflex entry watching -/

/-- A chip b in which unit u is about to turn ON, told apart from the chip c that it is compared with: enables and
outstanding publications, reports, memory and the shadows of other units may have changed, and for the link what its start
does not read. -/
structure TurnsFrom (u : BlockUnit) (c b : Chip) : Prop where
  watch : b.unwatched = true
  kept : KeptBut [.control, .path, .link, .mem, .shadow] c b
  control : ∃ e o, b.control = { c.control with enable := e, outstanding := o }
  quiet : b.path.procQuiet = c.path.procQuiet
  link : u ≠ .link → b.link = c.link
  slots : b.link.out = c.link.out
  lastFrame : b.link.lastFrame = c.link.lastFrame
  shadows : ∀ r : RecId, r.unit? = some u → b.shadowBytes r = c.shadowBytes r

namespace TurnsFrom

theorem ms (h : TurnsFrom u c b) : (setBlock u .on b).control.ms = c.control.ms := by
  obtain ⟨_, _, hcontrol⟩ := h.control
  rw [setBlock_eq, hcontrol]

/-- The turning unit, its block state set, has yet what c has. -/
theorem start (h : TurnsFrom u c b) :
    KeptBut [.control, .path, .link, .mem, .shadow] c (setBlock u .on b) ∧ (setBlock u .on b).link = b.link
    ∧ ∀ r : RecId, r.unit? = some u → (setBlock u .on b).shadowBytes r = c.shadowBytes r := by
  have hset := keptBut_setBlock u .on b
  exact ⟨h.kept.trans (hset.mono (by simp)), hset .link (by simp),
    fun r hr => (shadowBytes_congr (hset .shadow (by simp)) r).trans (h.shadows r hr)⟩

/-- The frame of a unit's start, from c. -/
theorem frame {l : List Part} (h : TurnsFrom u c b) (hl : u ≠ .link) (hk : KeptBut l (setBlock u .on b) d) :
    KeptBut ([.control, .path, .mem, .shadow] ++ l) c d := by
  have hb : KeptBut [.control, .path, .mem, .shadow] c b := fun p hp => by
    by_cases hpl : p = .link
    · subst hpl
      exact h.link hl
    · exact h.kept p (by simpa [hpl] using hp)
  exact ((hb.mono (by simp +contextual)).trans ((keptBut_setBlock u .on b).mono (by simp +contextual))).trans
    (hk.mono (by simp +contextual))

end TurnsFrom

theorem setBlock_on (u : BlockUnit) (b : Chip) : (setBlock u .on b).control.block.get u = .on := by
  rw [setBlock_eq]
  exact (PerUnit.get_set ..).trans (if_pos rfl)

theorem setBlock_pubs (u : BlockUnit) (x : BlockState) (b : Chip) : .status ∈ (setBlock u x b).path.pubs := by
  rw [setBlock_eq]
  exact (mem_joins _ _ _).mpr (.inl rfl)

/-! Each unit's start by its name. -/

theorem startUnit_motor (c : Chip) : startUnit .motor c = motorTurnOn c := rfl
theorem startUnit_sense (c : Chip) : startUnit .sense c = senseTurnOn c := rfl
theorem startUnit_input (c : Chip) : startUnit .input c = inputTurnOn c := rfl
theorem startUnit_reflex (c : Chip) : startUnit .reflex c = reflexTurnOn c := rfl
theorem startUnit_sound (c : Chip) : startUnit .sound c = soundTurnOn c := rfl
theorem startUnit_link (c : Chip) : startUnit .link c = linkTurnOn c := rfl

theorem startUnit_pubs {r : RecId} (u : BlockUnit) (h : r ∈ c.path.pubs) : r ∈ (startUnit u c).path.pubs := by
  have L := lasting_pubs r
  cases u with
  | motor =>
    rw [startUnit_motor, motorTurnOn]
    exact mem_pubs_forEach (fun m d hd => L.publishIf _ (.motorStatus m) hd) h
  | sense => exact L.publishIf _ .scanStatus h
  | input =>
    rw [startUnit_input, inputTurnOn]
    exact mem_pubs_forEach (fun _ _ hd => hd) h
  | reflex =>
    rw [startUnit_reflex, reflexTurnOn]
    exact L.publishIf _ .reflexStatus (mem_pubs_forEach (fun _ _ hd => hd) h)
  | sound => exact L.publishIf _ .soundStatus h
  | link =>
    rw [startUnit_link, linkTurnOn]
    exact mem_pubs_forEach (fun k d hd => L.publish (.outStatus k) hd) (L.publishIf _ .linkStatus h)

/-- The parts that the start of a unit touches, the reflex unit apart. -/
def startParts : BlockUnit → List Part
  | .motor => [.motor, .path]
  | .sense => [.sense, .path]
  | .input => [.input]
  | .reflex => [.reflex, .path]
  | .sound => [.sound, .path]
  | .link => [.link, .path]

theorem keptBut_startUnit (hr : u ≠ .reflex) (c : Chip) : KeptBut (startParts u) c (startUnit u c) := by
  cases u with
  | motor => exact (motorTurnOn_spec c).1
  | sense => exact (senseTurnOn_spec c).1
  | input => exact (inputTurnOn_spec c).1
  | reflex => exact absurd rfl hr
  | sound => exact (soundTurnOn_spec c).1
  | link => exact (linkTurnOn_spec c).1

theorem unwatched_startUnit (hr : u ≠ .reflex) (hu : b.unwatched = true) :
    (startUnit u (setBlock u .on b)).unwatched = true := by
  have hset := unwatched_setBlock (b := .on) (fun h => absurd h hr) hu
  have hkept := keptBut_startUnit hr (setBlock u .on b)
  refine (unwatched_congr _ _ (congrArg _ (hkept .control ?_)) (hkept .reflex ?_)).trans hset
  · cases u <;> simp [startParts]
  · cases u <;> simp [startParts] at hr ⊢

/-- Turning ON with nothing handed on. -/
theorem turnOn_of_unwatched (hr : u ≠ .reflex) (hi : u ≠ .input) (hu : b.unwatched = true) :
    turnOn u b = startUnit u (setBlock u .on b) := by
  have hh := handChange_of_unwatched _ (unwatched_startUnit hr hu)
  cases u with
  | input => exact absurd rfl hi
  | motor | sense | reflex | sound | link => exact hh

theorem turnOn_input (hu : b.unwatched = true) : turnOn .input b = judgeAllLevels (inputTurnOn (setBlock .input .on b)) :=
  congrArg judgeAllLevels (handChange_of_unwatched _ (unwatched_startUnit (u := .input) (by simp) hu))

theorem startUnit_on (hr : u ≠ .reflex) (b : Chip) : (startUnit u (setBlock u .on b)).control.block.get u = .on := by
  rw [keptBut_startUnit hr _ .control (by cases u <;> simp [startParts])]
  exact setBlock_on u b

theorem startUnit_status (u : BlockUnit) (b : Chip) : .status ∈ (startUnit u (setBlock u .on b)).path.pubs :=
  startUnit_pubs u (setBlock_pubs u .on b)

theorem turnedOn_motor (h : TurnsFrom .motor c b) : TurnedOn .motor c (turnOn .motor b) := by
  rw [turnOn_of_unwatched (by simp) (by simp) h.watch, startUnit_motor]
  obtain ⟨hkept, hwindow, hchannels⟩ := motorTurnOn_spec (setBlock .motor .on b)
  obtain ⟨hstart, -, hshadows⟩ := h.start
  have hon := startUnit_on (u := .motor) (by simp) b
  have hstatus := startUnit_status .motor b
  rw [startUnit_motor] at hon hstatus
  generalize motorTurnOn (setBlock .motor .on b) = d at *
  refine ⟨hon, hstatus, ?_, ?_, fun m => ?_⟩
  · exact (h.frame (by simp) hkept).mono (by simp)
  · rw [← h.ms]
    exact hwindow
  · obtain ⟨hchannel, hlatch⟩ := hchannels m
    rw [hstart .motor (by simp)] at hlatch
    refine ⟨hchannel.trans ?_, hlatch⟩
    unfold channelStart motorSettingsRead
    rw [hshadows _ rfl, hstart .pins (by simp)]

theorem turnedOn_sense (h : TurnsFrom .sense c b) : TurnedOn .sense c (turnOn .sense b) := by
  rw [turnOn_of_unwatched (by simp) (by simp) h.watch]
  obtain ⟨hkept, hlatch, hsense, hsettings⟩ := senseTurnOn_spec (setBlock .sense .on b)
  obtain ⟨hstart, -, hshadows⟩ := h.start
  rw [hstart .sense (by simp)] at hlatch
  rw [hshadows .scanProgram rfl] at hsense
  refine ⟨startUnit_on (by simp) b, startUnit_status .sense b, ?_, hlatch, hsense, fun ch => ?_⟩
  · exact (h.frame (by simp) hkept).mono (by simp)
  · refine (hsettings ch).trans ?_
    unfold channelFromShadow
    rw [hshadows _ rfl]

theorem turnedOn_sound (h : TurnsFrom .sound c b) : TurnedOn .sound c (turnOn .sound b) := by
  rw [turnOn_of_unwatched (by simp) (by simp) h.watch]
  obtain ⟨hkept, hsound, hlatch⟩ := soundTurnOn_spec (setBlock .sound .on b)
  rw [h.start.1 .sound (by simp)] at hlatch
  exact ⟨startUnit_on (by simp) b, startUnit_status .sound b, (h.frame (by simp) hkept).mono (by simp), hsound, hlatch⟩

theorem turnedOn_link (h : TurnsFrom .link c b) : TurnedOn .link c (turnOn .link b) := by
  rw [turnOn_of_unwatched (by simp) (by simp) h.watch]
  obtain ⟨hkept, hlink, hready, hlatch⟩ := linkTurnOn_spec (setBlock .link .on b)
  obtain ⟨hstart, hsame, hshadows⟩ := h.start
  refine ⟨startUnit_on (by simp) b, startUnit_status .link b, (hstart.mono (by simp)).trans (hkept.mono (by simp)),
    fun hr => hready ?_, fun k hk => hlatch k ?_, hlink.trans ?_⟩
  · rw [linkUp, on_setBlock, if_pos rfl, hstart .pins (by simp), hr]
    rfl
  · rw [hsame, h.slots]
    exact hk
  · unfold linkSettingsRead
    rw [hshadows _ rfl, h.ms, hsame, h.lastFrame]

theorem lineJudged_of_idle (level : Bool) (now : Word) (x : InputSettings) : lineJudged level now ⟨false, none, x⟩
    = if (level == x.activeHigh) = false then ⟨false, none, x⟩
      else if x.debounce = 0 then ⟨true, none, x⟩ else ⟨false, some now, x⟩ := by
  unfold lineJudged
  cases level == x.activeHigh <;> rfl

theorem turnedOn_input (h : TurnsFrom .input c b) : TurnedOn .input c (turnOn .input b) := by
  rw [turnOn_input h.watch]
  obtain ⟨hkept, hlines⟩ := inputTurnOn_spec (setBlock .input .on b)
  have hu : (inputTurnOn (setBlock .input .on b)).unwatched = true := unwatched_startUnit (u := .input) (by simp) h.watch
  obtain ⟨hjudged, hline, hpubs⟩ := judgeAllLevels_spec hu
  obtain ⟨hstart, -, hshadows⟩ := h.start
  refine ⟨?_, ?_, ?_, fun n => (hline n).trans ?_⟩
  · rw [hjudged .control (by simp)]
    exact startUnit_on (u := .input) (by simp) b
  · exact hpubs _ (startUnit_status .input b)
  · exact ((h.frame (by simp) hkept).mono (by simp)).trans (hjudged.mono (by simp))
  · rw [hlines, hkept .pins (by simp), hkept .control (by simp), h.ms, hstart .pins (by simp), inputFromShadow,
      hshadows _ rfl]
    exact lineJudged_of_idle _ _ _

end Sys2Proof.Machine.Chip
end

section
namespace Sys2Proof.Machine.Chip
variable {a b c d e : Chip} {u : BlockUnit} {i : Fin 8} {r : ReflexRec}

/-! ## The actions of a firing (R120 to R125) -/

/-! ### STOP -/

/-- A command that stops a motor, and the mode that it leaves. -/
def Stops (x : MotorCmd) (y : Mode) : Prop := x = .coast ∧ y = .coast ∨ x = .brake ∧ y = .brake

/-- The channel after a requester has taken its claim and stopped it (R57, R121). -/
def halted (q : Owner) (t : Option Word) (y : Mode) (now : Word) (ch : Channel) : Channel :=
  Channel.cool now (Channel.setMode now y { ch with owner := q, deadline := t })

theorem setMode_of_stops {x : MotorCmd} {y : Mode} (h : Stops x y) (now : Word) (ch : Channel) :
    Channel.setMode now y ch = Channel.setStage now y.target { ch with mode := y, reversing := false } := by
  have htarget : Channel.target { ch with mode := y } = y.target := by
    unfold Channel.target
    rcases h with ⟨-, rfl⟩ | ⟨-, rfl⟩
    · split_ifs with _ h2
      · rfl
      · cases h2
      · rfl
    · split_ifs with _ h2
      · rfl
      · rfl
      · exact absurd rfl h2
  have hrest : y.target.driving = false := by
    rcases h with ⟨-, rfl⟩ | ⟨-, rfl⟩ <;> rfl
  unfold Channel.setMode Channel.retarget
  rw [htarget, if_neg (by rw [hrest]; exact Bool.false_ne_true)]

theorem cool_stall (now : Word) (ch : Channel) :
    (Channel.cool now ch).stall = if ch.stall = .stalled then .cooling (now + 1000) else ch.stall := by
  unfold Channel.cool
  split_ifs <;> rfl

theorem halted_spec {x : MotorCmd} {y : Mode} (h : Stops x y) (q : Owner) (t : Option Word) (now : Word) (ch : Channel) :
    (halted q t y now ch).owner = q ∧ (halted q t y now ch).deadline = t ∧ (halted q t y now ch).mode = y
    ∧ (halted q t y now ch).stage = y.target
    ∧ (halted q t y now ch).stall = if ch.stall = .stalled then .cooling (now + 1000) else ch.stall := by
  unfold halted
  rw [setMode_of_stops h, cool_stall]
  obtain ⟨howner, hdeadline, hmode, hstage⟩ := cool_keeps now
    (Channel.setStage now y.target { ch with owner := q, deadline := t, mode := y, reversing := false })
  exact ⟨howner, hdeadline, hmode, hstage, rfl⟩

theorem motorAct_motor {x : MotorCmd} {y : Mode} (h : Stops x y) (q : Owner) (w : Word) (m : Fin 4) (c : Chip) :
    (motorAct q w x m c).motor = (modCh m (halted q (newDeadline q w c.control.ms) y c.control.ms) c).motor := by
  rcases h with ⟨rfl, rfl⟩ | ⟨rfl, rfl⟩
  all_goals
    unfold motorAct channelTakes
    dsimp only
    split_ifs <;> simp [modCh, setMode, halted]

/-- The claim that a stop takes, in ring and attention flags (R57, R58). -/
theorem RingAlike.claimTaken (q : Owner) (m : Fin 4) (h : RingAlike a e) (ho : a.motor.ch[m].owner = b.motor.ch[m].owner) :
    RingAlike (a.claimTaken q m)
      (if b.motor.ch[m].owner = .none ∨ b.motor.ch[m].owner = q then e else e.claimLost m b.motor.ch[m].owner .preempted) := by
  unfold Chip.claimTaken
  dsimp only
  rw [ho]
  split_ifs with hfree hproc
  · exact h
  all_goals
    have hlost := h.append .claimLost (Bytes.ofNat m.val) Code.preempted.byte
    unfold Chip.claimLost
    split_ifs
    · exact RingAlike.of_kept ⟨hlost.ring, hlost.ms⟩ (keptBut_raiseCause .claim _) (by simp) (by simp)
    · exact ⟨hlost.ring, hlost.ms⟩

/-- A stop in its steps: the claim, the operation that it ends, the mode, the claim that another owner loses (R57). -/
theorem motorAct_eq {x : MotorCmd} {y : Mode} (h : Stops x y) (q : Owner) (w : Word) (m : Fin 4) (c : Chip) :
    ∃ z, motorAct q w x m c = publish (.motorStatus m)
      (let d := { endOperation m .preempted (c.modCh m (fun ch =>
          { ch with owner := q, deadline := newDeadline q w c.control.ms })) with motor := z }
       if c.motor.ch[m].owner = .none ∨ c.motor.ch[m].owner = q then d
       else d.claimLost m c.motor.ch[m].owner .preempted) := by
  rcases h with ⟨rfl, rfl⟩ | ⟨rfl, rfl⟩
  · exact ⟨_, rfl⟩
  · exact ⟨_, rfl⟩

theorem RingAlike.motorAct {x : MotorCmd} {y : Mode} (hx : Stops x y) (q : Owner) (w : Word) (m : Fin 4) (h : RingAlike a e)
    (hch : a.motor.ch[m] = e.motor.ch[m]) :
    RingAlike ((a.endOperation m .preempted).claimTaken q m) (motorAct q w x m e) := by
  obtain ⟨z, hz⟩ := motorAct_eq hx q w m e
  have hmode : (e.modCh m (fun ch => { ch with owner := q, deadline := newDeadline q w e.control.ms })).motor.ch[m].mode
      = a.motor.ch[m].mode := (congrArg Channel.mode (modCh_same m _ e)).trans (by rw [hch])
  have hops : RingAlike _ (Chip.endOperation m .preempted
      (e.modCh m (fun ch => { ch with owner := q, deadline := newDeadline q w e.control.ms }))) :=
    RingAlike.endOperation m .preempted (h.motor _)
  rw [hmode] at hops
  have hmotor : (a.endOperation m .preempted).motor = a.motor := keptBut_endOperation m .preempted a .motor (by simp)
  have howner : (a.endOperation m .preempted).motor.ch[m].owner = e.motor.ch[m].owner := by
    rw [hmotor]
    exact congrArg Channel.owner hch
  rw [hz]
  exact (RingAlike.claimTaken q m (hops.motor z) howner).publish _

/-- The command and the mode of an entry's STOP (R121). -/
def stopCmd (r : ReflexRec) : MotorCmd := if r.stopMode = 1 then .brake else .coast
def stopsIn (r : ReflexRec) : Mode := if r.stopMode = 1 then .brake else .coast

theorem stops_stopCmd (r : ReflexRec) : Stops (stopCmd r) (stopsIn r) := by
  unfold stopCmd stopsIn
  split_ifs
  · exact .inr ⟨rfl, rfl⟩
  · exact .inl ⟨rfl, rfl⟩

theorem fireStop_of_stops (h : r.stop = 1 ∧ c.on .motor = true) :
    fireStop i r c = forEach (stopMotors r) (motorAct (.reflex i) 0 (stopCmd r)) c := if_pos h
theorem fireStop_of_not_stops (h : ¬ (r.stop = 1 ∧ c.on .motor = true)) : fireStop i r c = c := if_neg h

theorem mem_stopMotors {m : Fin 4} : m ∈ stopMotors r ↔ r.motors[m] = 1 := by simp [stopMotors]
theorem nodup_stopMotors (r : ReflexRec) : (stopMotors r).Nodup := (List.nodup_finRange 4).filter _

theorem motorAct_same (q : Owner) (w : Word) (r : ReflexRec) (m : Fin 4) (c : Chip) : (motorAct q w (stopCmd r) m c).motor.ch[m]
    = halted q (newDeadline q w c.control.ms) (stopsIn r) c.control.ms c.motor.ch[m] :=
  (congrArg (fun x : Motor => x.ch[m]) (motorAct_motor (stops_stopCmd r) q w m c)).trans (modCh_same _ _ _)

theorem motorAct_other (q : Owner) (w : Word) (r : ReflexRec) {m k : Fin 4} (hk : k ≠ m) (c : Chip) :
    (motorAct q w (stopCmd r) m c).motor.ch[k] = c.motor.ch[k] :=
  (congrArg (fun x : Motor => x.ch[k]) (motorAct_motor (stops_stopCmd r) q w m c)).trans (modCh_other _ _ _ _ hk)

/-- The motors after a STOP (R121). -/
theorem fireStop_channel (i : Fin 8) (r : ReflexRec) (c : Chip) (m : Fin 4) : (fireStop i r c).motor.ch[m]
    = if (r.stop = 1 ∧ c.on .motor = true) ∧ r.motors[m] = 1
      then halted (.reflex i) none (stopsIn r) c.control.ms c.motor.ch[m] else c.motor.ch[m] := by
  by_cases h : r.stop = 1 ∧ c.on .motor = true
  · have hloop := forEach_each (c := c) (fun m d => d.motor.ch[m])
      (fun _ ch => halted (.reflex i) none (stopsIn r) c.control.ms ch) (fun d => d.control.ms = c.control.ms)
      (f := motorAct (.reflex i) 0 (stopCmd r)) (fun m d hd => by simpa using hd)
      (fun m d hd => (motorAct_same _ _ r m d).trans (by rw [hd]; rfl)) (fun j m d _ hjm => motorAct_other _ _ r hjm d)
      (nodup_stopMotors r) rfl m
    rw [fireStop_of_stops h]
    refine hloop.trans (if_congr ?_ rfl rfl)
    rw [mem_stopMotors, and_iff_right h]
  · rw [fireStop_of_not_stops h, if_neg fun hc => h hc.1]

theorem claimTaken_motor (q : Owner) (m : Fin 4) (c : Chip) : (c.claimTaken q m).motor = c.motor := by
  unfold Chip.claimTaken
  dsimp only
  split_ifs
  · rfl
  · exact keptBut_append _ _ _ c .motor (by simp)
  · exact keptBut_append _ _ _ c .motor (by simp)

/-- The chip after the events of a STOP, in ring and attention flags, as the statement of a firing gives them. -/
def stopTold (i : Fin 8) (r : ReflexRec) (c : Chip) : Chip :=
  if r.stop = 1 ∧ c.on .motor = true then ((List.finRange 4).filter (fun m => r.motors[m] = 1)).foldl (fun x m =>
    (x.endOperation m .preempted).claimTaken (.reflex i) m) c else c

/-- The events of a STOP (R57, R121). -/
theorem RingAlike.fireStop (i : Fin 8) (r : ReflexRec) (h : RingAlike a e) (hm : a.motor = e.motor)
    (hon : a.on .motor = e.on .motor) : RingAlike (stopTold i r a) (fireStop i r e) := by
  by_cases hs : r.stop = 1 ∧ e.on .motor = true
  · have hloop := forEach_simulates (a := a) (b := e) (nodup_stopMotors r) (fun x d => RingAlike x d ∧ x.motor = a.motor)
      (fun k d => d.motor.ch[k] = a.motor.ch[k]) (fun _ => true)
      (fun x m => (x.endOperation m .preempted).claimTaken (.reflex i) m) (f := Chip.motorAct (.reflex i) 0 (stopCmd r))
      (fun m k d hk _ hd => (motorAct_other _ _ r hk d).trans hd) (fun m x d hx hd _ => ⟨?_, ?_⟩)
      (fun _ _ _ _ _ hp => Bool.noConfusion hp) ⟨h, rfl⟩ (fun k _ => by rw [hm])
    · rw [fireStop_of_stops hs, stopTold, if_pos (by rw [hon]; exact hs)]
      rw [List.filter_true] at hloop
      exact hloop.1
    · exact hx.1.motorAct (stops_stopCmd r) _ _ m (by rw [hx.2, hd])
    · rw [claimTaken_motor, keptBut_endOperation m .preempted x .motor (by simp), hx.2]
  · rw [fireStop_of_not_stops hs, stopTold, if_neg (by rw [hon]; exact hs)]
    exact h

/-! ### What each action touches -/

theorem keptBut_fireStop (i : Fin 8) (r : ReflexRec) (c : Chip) :
    KeptBut [.motor, .ring, .attention, .path] c (fireStop i r c) := fun p hp => by
  cases p <;> simp at hp <;> simp [Part.same]
theorem keptBut_fireTone (i : Fin 8) (r : ReflexRec) (c : Chip) :
    KeptBut [.sound, .ring, .attention, .path] c (fireTone i r c) := fun p hp => by
  cases p <;> simp at hp <;> simp [Part.same]
theorem keptBut_fireAlarm (i : Fin 8) (r : ReflexRec) (c : Chip) : KeptBut [.link] c (fireAlarm i r c) := fun p hp => by
  cases p <;> simp at hp <;> simp [Part.same]
theorem keptBut_restartRequest (w : Nat) (c : Chip) :
    KeptBut [.control, .ring, .attention, .path, .motor, .sound] c (restartRequest w c) := fun p hp => by
  cases p <;> simp at hp <;> simp [Part.same]

/-- The actions of a firing, from the entry's new state on (R120). -/
def entrySpent (i : Fin 8) (c : Chip) : Chip :=
  publish .reflexStatus (c.modEntry i (fun e =>
    { e with state := if c.reflex.entry[i].record.rearm = 1 then .spent else .fired, fires := satInc e.fires }))
def acted (i : Fin 8) (r : ReflexRec) (c : Chip) : Chip := fireAlarm i r (fireTone i r (fireStop i r c))
def reported (i : Fin 8) (r : ReflexRec) (x : Code) (c : Chip) : Chip :=
  let d := c.append .reflex (Bytes.ofNat i.val) x.byte
  if r.attention = 1 then d.raiseCause .reflex else d
def restarted (r : ReflexRec) (c : Chip) : Chip := if r.restart = 1 then c.restartRequest r.pulse.toNat else c

theorem fire_eq (i : Fin 8) (c : Chip) : fire i c = restarted c.reflex.entry[i].record
    (reported i c.reflex.entry[i].record (firstNotOk (fireResults c.reflex.entry[i].record c))
      (acted i c.reflex.entry[i].record (entrySpent i c))) := rfl

end Sys2Proof.Machine.Chip
end

section
namespace Sys2Proof.Machine.Chip
variable {a b c d e : Chip} {u : BlockUnit} {i : Fin 8} {r : ReflexRec}

/-! ## What a firing leaves, part by part -/

theorem keptBut_entrySpent (i : Fin 8) (c : Chip) : KeptBut [.reflex, .path] c (entrySpent i c) := fun p hp => by
  cases p <;> simp at hp <;> simp [entrySpent, Part.same]

theorem keptBut_acted (i : Fin 8) (r : ReflexRec) (c : Chip) :
    KeptBut [.motor, .sound, .link, .ring, .attention, .path] c (acted i r c) :=
  (((keptBut_fireStop i r c).mono (by simp)).trans ((keptBut_fireTone i r _).mono (by simp))).trans
    ((keptBut_fireAlarm i r _).mono (by simp))

theorem keptBut_reported (i : Fin 8) (r : ReflexRec) (x : Code) (c : Chip) :
    KeptBut [.ring, .attention, .path] c (reported i r x c) := by
  unfold reported
  dsimp only
  split_ifs
  · exact (keptBut_append _ _ _ c).trans ((keptBut_raiseCause .reflex _).mono (by simp))
  · exact keptBut_append _ _ _ c

theorem restarted_of_not (h : r.restart ≠ 1) : restarted r c = c := if_neg h
theorem restarted_of (h : r.restart = 1) : restarted r c = restartRequest r.pulse.toNat c := if_pos h

theorem keptBut_restarted (r : ReflexRec) (c : Chip) :
    KeptBut [.control, .ring, .attention, .path, .motor, .sound] c (restarted r c) := by
  unfold restarted
  split_ifs
  · exact keptBut_restartRequest _ c
  · exact .refl _ c

/-- The reflex table after a firing (R117, R119). -/
theorem fire_reflex (i : Fin 8) (c : Chip) : (fire i c).reflex = ⟨c.reflex.entry.set i { c.reflex.entry[i] with
    state := if c.reflex.entry[i].record.rearm = 1 then .spent else .fired, fires := satInc c.reflex.entry[i].fires }⟩ := by
  rw [fire_eq, keptBut_restarted _ _ .reflex (by simp), keptBut_reported _ _ _ _ .reflex (by simp),
    keptBut_acted _ _ _ .reflex (by simp)]
  simp [entrySpent, modEntry]

/-! ### Records that join the publication list -/

theorem motorAct_pubs {q : RecId} (o : Owner) (w : Word) (r : ReflexRec) (m : Fin 4) (h : q ∈ c.path.pubs) :
    q ∈ (motorAct o w (stopCmd r) m c).path.pubs := by
  have L := lasting_pubs q
  obtain ⟨z, hz⟩ := motorAct_eq (stops_stopCmd r) o w m c
  rw [hz]
  refine L.publish _ ?_
  dsimp only
  split_ifs
  · exact L.endOperation m .preempted h
  · exact L.claimLost m _ .preempted (L.endOperation m .preempted h)

theorem acted_pubs {q : RecId} (i : Fin 8) (r : ReflexRec) (h : q ∈ c.path.pubs) : q ∈ (acted i r c).path.pubs := by
  have hstop : q ∈ (fireStop i r c).path.pubs := by
    by_cases hs : r.stop = 1 ∧ c.on .motor = true
    · rw [fireStop_of_stops hs]
      exact mem_pubs_forEach (fun m d hd => motorAct_pubs _ 0 r m hd) h
    · rw [fireStop_of_not_stops hs]
      exact h
  unfold acted
  rw [(fireAlarm_keeps ..).2.2.2.2.1, fireTone]
  split_ifs
  · exact (lasting_pubs q).publish _ ((lasting_pubs q).endSound .preempted hstop)
  · exact hstop

theorem restartRequest_pubs {q : RecId} (w : Nat) (h : q ∈ c.path.pubs) : q ∈ (restartRequest w c).path.pubs := by
  cases hg : c.control.gen with
  | idle =>
    obtain ⟨d, hd, -, hpath, -⟩ := restartRequest_of_idle w hg
    rw [hd]
    refine pulseStart_pubs ?_
    rw [hpath]
    exact (mem_joins _ _ _).mpr (.inr h)
  | pulsing t =>
    rw [restartRequest_of_pulsing w hg]
    exact (mem_pubs_publish _ _ _).mpr (.inr h)
  | holding =>
    unfold restartRequest
    rw [hg]
    exact h

theorem fire_pubs (i : Fin 8) (c : Chip) :
    .reflexStatus ∈ (fire i c).path.pubs ∧ ∀ q, q ∈ c.path.pubs → q ∈ (fire i c).path.pubs := by
  have hlater (q : RecId) (h : q ∈ (entrySpent i c).path.pubs) : q ∈ (fire i c).path.pubs := by
    rw [fire_eq]
    have hreported : q ∈ (reported i c.reflex.entry[i].record (firstNotOk (fireResults c.reflex.entry[i].record c))
        (acted i c.reflex.entry[i].record (entrySpent i c))).path.pubs := by
      unfold reported
      dsimp only
      split_ifs
      · exact (lasting_pubs q).raiseCause _ ((lasting_pubs q).append _ _ _ (acted_pubs i _ h))
      · exact (lasting_pubs q).append _ _ _ (acted_pubs i _ h)
    unfold restarted
    split_ifs
    · exact restartRequest_pubs _ hreported
    · exact hreported
  exact ⟨hlater _ ((mem_pubs_publish _ _ _).mpr (.inl rfl)),
    fun q hq => hlater q ((mem_pubs_publish _ _ _).mpr (.inr hq))⟩

end Sys2Proof.Machine.Chip
end

section
namespace Sys2Proof.Machine.Chip
variable {a c d w : Chip} {i k : Fin 8} {r : ReflexRec} {n : Nat}

/-! ## One round of judgement (R114) -/

/-- What a condition reads. -/
theorem condition_of_parts (hpins : d.pins = c.pins) (hblock : d.control.block = c.control.block)
    (hinput : d.input = c.input) (hsense : d.sense = c.sense) (hmotor : d.motor = c.motor) (hlink : d.link = c.link)
    (hquiet : d.path.procQuiet = c.path.procQuiet) (r : ReflexRec) : d.condition r = c.condition r := by
  have hterm : d.termValue = c.termValue := by
    funext t
    unfold termValue termReads linkUp on
    rw [hpins, hblock, hinput, hsense, hmotor, hlink, hquiet]
  unfold condition
  rw [hterm]

theorem firesNow_iff (c : Chip) (i : Fin 8) : c.firesNow i = true ↔ c.reflex.entry[i].state = .armed
    ∧ c.condition c.reflex.entry[i].record = true ∧ c.reflex.entry[i].record.hold = 0 := by
  simp [firesNow, and_assoc]

theorem rejudge_eq_or (i : Fin 8) (c : Chip) : rejudge i c = c
    ∨ ∃ s, rejudge i c = publish .reflexStatus (c.modEntry i fun e => { e with state := s }) := by
  unfold rejudge
  dsimp only
  split
  · split_ifs
    · exact .inr ⟨_, rfl⟩
    · exact .inl rfl
  · split_ifs
    · exact .inl rfl
    · exact .inr ⟨_, rfl⟩
  · split_ifs
    · exact .inl rfl
    · exact .inr ⟨_, rfl⟩
  · exact .inl rfl
  · exact .inl rfl

theorem keptBut_rejudge (i : Fin 8) (c : Chip) : KeptBut [.reflex, .path] c (rejudge i c) := fun p hp => by
  cases p <;> simp at hp <;> simp [Part.same]

theorem rejudge_entry_other (h : k ≠ i) (c : Chip) : (rejudge i c).reflex.entry[k] = c.reflex.entry[k] := by
  rcases rejudge_eq_or i c with he | ⟨s, he⟩
  · rw [he]
  · rw [he]
    simpa using modEntry_other i k (fun e => { e with state := s }) c h

theorem rejudge_entry_same (i : Fin 8) (c : Chip) : (rejudge i c).reflex.entry[i].record = c.reflex.entry[i].record
    ∧ (rejudge i c).reflex.entry[i].fires = c.reflex.entry[i].fires := by
  rcases rejudge_eq_or i c with he | ⟨s, he⟩
  · rw [he]
    exact ⟨rfl, rfl⟩
  · have hs : (rejudge i c).reflex.entry[i] = { c.reflex.entry[i] with state := s } := by
      rw [he]
      simpa using modEntry_same i (fun e => { e with state := s }) c
    rw [hs]
    exact ⟨rfl, rfl⟩

theorem rejudge_pubs {q : RecId} (i : Fin 8) (h : q ∈ c.path.pubs) : q ∈ (rejudge i c).path.pubs := by
  rcases rejudge_eq_or i c with he | ⟨s, he⟩
  · rwa [he]
  · rw [he]
    exact (mem_pubs_publish _ _ _).mpr (.inr h)

/-- A judgement keeps every entry's record and fire count. -/
theorem rejudge_keeps_entry (k i : Fin 8) (c : Chip) : (rejudge i c).reflex.entry[k].record = c.reflex.entry[k].record
    ∧ (rejudge i c).reflex.entry[k].fires = c.reflex.entry[k].fires := by
  by_cases h : k = i
  · subst h
    exact rejudge_entry_same k c
  · rw [rejudge_entry_other h]
    exact ⟨rfl, rfl⟩

theorem satInc_ne_zero (x : Byte) : satInc x ≠ 0 := by
  unfold satInc
  split_ifs with h
  · rw [h]
    decide
  · replace h : x ≠ 255#8 := h
    bv_omega

/-- A firing keeps every entry's record, and counts (R119). -/
theorem fire_keeps_entry (k i : Fin 8) (c : Chip) : (fire i c).reflex.entry[k].record = c.reflex.entry[k].record
    ∧ (fire i c).reflex.entry[k].fires
      = if k = i then satInc c.reflex.entry[k].fires else c.reflex.entry[k].fires := by
  rw [fire_reflex]
  by_cases h : k = i
  · subst h
    simp
  · simp [Fin.ext_iff.not.mp (Ne.symm h), h]

/-! ## Rounds (R114, R120) -/

/-- What one round does after the judging of the entries. -/
theorem settle_of_firing {x : Fin 8} {xs : List (Fin 8)} (n : Nat) (h : (List.finRange 8).filter c.firesNow = x :: xs) :
    settle (n + 1) c = settle n (forEach (x :: xs) fire (forEach (List.finRange 8) rejudge c)) := by
  rw [settle, h]

theorem settle_of_none (n : Nat) (h : (List.finRange 8).filter c.firesNow = []) :
    settle (n + 1) c = forEach (List.finRange 8) rejudge c := by
  rw [settle, h]

/-- What judging and firing keep, the rounds keep. -/
theorem settle_ind (P : Chip → Prop) (hrejudge : ∀ k d, P d → P (rejudge k d)) (hfire : ∀ k d, P d → P (fire k d))
    (n : Nat) (h : P c) : P (settle n c) := by
  induction n generalizing c with
  | zero => exact h
  | succ n ih =>
    have hjudged : P (forEach (List.finRange 8) rejudge c) := forEach_inv P c h fun k _ d hd => hrejudge k d hd
    cases hf : (List.finRange 8).filter c.firesNow with
    | nil =>
      rw [settle_of_none n hf]
      exact hjudged
    | cons x xs =>
      rw [settle_of_firing n hf]
      exact ih (forEach_inv P _ hjudged fun k _ d hd => hfire k d hd)

theorem handChange_on (h : c.on .reflex = true) : handChange c = settle 6 c := if_pos h

theorem settle_pubs {q : RecId} (n : Nat) (h : q ∈ c.path.pubs) : q ∈ (settle n c).path.pubs :=
  settle_ind (fun d => q ∈ d.path.pubs) (fun k _ hd => rejudge_pubs k hd) (fun k d hd => (fire_pubs k d).2 q hd) n h

theorem settle_record (n : Nat) (c : Chip) (k : Fin 8) :
    (settle n c).reflex.entry[k].record = c.reflex.entry[k].record :=
  settle_ind (fun d => d.reflex.entry[k].record = c.reflex.entry[k].record)
    (fun j d hd => (rejudge_keeps_entry k j d).1.trans hd) (fun j d hd => (fire_keeps_entry k j d).1.trans hd) n rfl

theorem rejudge_fires_ne_zero (j : Fin 8) (h : c.reflex.entry[k].fires ≠ 0) : (rejudge j c).reflex.entry[k].fires ≠ 0 := by
  rw [(rejudge_keeps_entry k j c).2]
  exact h

theorem fire_fires_ne_zero (j : Fin 8) (h : c.reflex.entry[k].fires ≠ 0) : (fire j c).reflex.entry[k].fires ≠ 0 := by
  rw [(fire_keeps_entry k j c).2]
  split_ifs
  · exact satInc_ne_zero _
  · exact h

/-- An entry that is in a list has fired after the list's firings. -/
theorem forEach_fire_ne_zero {xs : List (Fin 8)} (h : k ∈ xs) (c : Chip) : (forEach xs fire c).reflex.entry[k].fires ≠ 0 := by
  induction xs generalizing c with
  | nil => cases h
  | cons x xs ih =>
    rw [forEach_cons]
    by_cases hx : k = x
    · subst hx
      refine forEach_inv (fun d => d.reflex.entry[k].fires ≠ 0) _ ?_ fun j _ d hd => fire_fires_ne_zero j hd
      rw [(fire_keeps_entry k k c).2, if_pos rfl]
      exact satInc_ne_zero _
    · exact ih ((List.mem_cons.mp h).resolve_left hx) _

/-- An entry that fires on a change has counted it (R117, R119). -/
theorem settle_fires (n : Nat) (h : c.firesNow k = true) : (settle (n + 1) c).reflex.entry[k].fires ≠ 0 := by
  have hmem : k ∈ (List.finRange 8).filter c.firesNow := List.mem_filter.mpr ⟨List.mem_finRange k, h⟩
  cases hf : (List.finRange 8).filter c.firesNow with
  | nil => rw [hf] at hmem; cases hmem
  | cons x xs =>
    rw [settle_of_firing n hf]
    exact settle_ind (fun d => d.reflex.entry[k].fires ≠ 0) (fun j _ hd => rejudge_fires_ne_zero j hd)
      (fun j _ hd => fire_fires_ne_zero j hd) n (forEach_fire_ne_zero (hf ▸ hmem) _)

/-! ### One entry alone -/

theorem rejudge_disabled (h : c.reflex.entry[k].state = .disabled) : rejudge k c = c := by
  unfold rejudge
  dsimp only
  rw [h]

theorem rejudge_firesNow (h : c.firesNow i = true) : rejudge i c = c := by
  obtain ⟨hstate, -, hhold⟩ := (firesNow_iff c i).mp h
  unfold rejudge
  dsimp only
  rw [hstate, hhold]
  simp

/-- Every entry but i is disabled. -/
def Sole (i : Fin 8) (c : Chip) : Prop := ∀ k, k ≠ i → c.reflex.entry[k].state = .disabled

theorem Sole.rejudge (h : Sole i c) : Sole i (rejudge i c) := fun k hk => by
  rw [rejudge_entry_other hk]
  exact h k hk

theorem Sole.fire (h : Sole i c) : Sole i (fire i c) := fun k hk => by
  have hset : (Chip.fire i c).reflex.entry[k] = c.reflex.entry[k] := by
    rw [fire_reflex]
    simp [Fin.ext_iff.not.mp (Ne.symm hk)]
  rw [hset]
  exact h k hk

theorem forEach_rejudge_not_mem {xs : List (Fin 8)} (h : Sole i c) (hx : i ∉ xs) : forEach xs Chip.rejudge c = c := by
  induction xs with
  | nil => rfl
  | cons x xs ih =>
    rw [forEach_cons, rejudge_disabled (h x fun he => hx (he ▸ List.mem_cons_self))]
    exact ih fun hm => hx (List.mem_cons_of_mem _ hm)

/-- Where one entry alone is enabled, a judgement of the table is its judgement. -/
theorem forEach_rejudge_alone {xs : List (Fin 8)} (h : Sole i c) (hx : xs.Nodup) (hi : i ∈ xs) :
    forEach xs Chip.rejudge c = Chip.rejudge i c := by
  induction xs with
  | nil => cases hi
  | cons x xs ih =>
    obtain ⟨hnot, hx⟩ := List.nodup_cons.mp hx
    rw [forEach_cons]
    by_cases he : x = i
    · subst he
      exact forEach_rejudge_not_mem h.rejudge hnot
    · rw [rejudge_disabled (h x he)]
      exact ih hx ((List.mem_cons.mp hi).resolve_left (Ne.symm he))

theorem judgeAll_alone (h : Sole i c) : forEach (List.finRange 8) Chip.rejudge c = Chip.rejudge i c :=
  forEach_rejudge_alone h (List.nodup_finRange 8) (List.mem_finRange i)

theorem firing_alone (h : Sole i c) : (List.finRange 8).filter c.firesNow = if c.firesNow i then [i] else [] := by
  have hother : ∀ k, c.firesNow k = true → k = i := fun k hk => by
    by_contra hne
    have hstate := ((firesNow_iff c k).mp hk).1
    rw [h k hne] at hstate
    cases hstate
  split_ifs with hi
  · have hpick : (List.finRange 8).filter c.firesNow = (List.finRange 8).filter (fun k => k == i) :=
      List.filter_congr fun k _ => Bool.eq_iff_iff.mpr ⟨fun hk => beq_iff_eq.mpr (hother k hk), fun hk => beq_iff_eq.mp hk ▸ hi⟩
    have hone : ∀ j : Fin 8, (List.finRange 8).filter (fun k => k == j) = [j] := by decide
    exact hpick.trans (hone i)
  · exact List.filter_eq_nil_iff.mpr fun k _ hk => hi (hother k hk ▸ hk)

/-- The rounds of an entry that fires alone (R114, R117). -/
theorem handChange_alone (hon : c.on .reflex = true) (h : Sole i c) (hi : c.firesNow i = true) :
    handChange c = Chip.rejudge i (Chip.fire i c) := by
  have hfirst : (List.finRange 8).filter c.firesNow = [i] := (firing_alone h).trans (if_pos hi)
  have hspent : ¬ (Chip.fire i c).firesNow i = true := by
    intro hf
    have hstate := ((firesNow_iff _ i).mp hf).1
    rw [fire_reflex] at hstate
    simp at hstate
    split_ifs at hstate
  have hsecond : (List.finRange 8).filter (Chip.fire i c).firesNow = [] :=
    (firing_alone h.fire).trans (if_neg hspent)
  rw [handChange_on hon, settle_of_firing 5 hfirst, judgeAll_alone h, rejudge_firesNow hi, forEach_cons]
  exact (settle_of_none 4 hsecond).trans (judgeAll_alone h.fire)

end Sys2Proof.Machine.Chip
end

section
namespace Sys2Proof.Machine.Chip
variable {a c d e w : Chip} {i k : Fin 8} {r : ReflexRec} {m : Fin 4}

/-! ## What a restart leaves of a firing (R22, R70, R139) -/

/-- A firing starts a pulse, merges its request into a running one, or leaves the restart generator alone. -/
theorem restarted_cases (r : ReflexRec) (c : Chip) : restarted r c = c
    ∨ (r.restart = 1 ∧ ∃ d, restarted r c = pulseStart d ∧ KeptBut [.control, .path] c d)
    ∨ ∃ x, restarted r c = publish .status { c with control := x } := by
  by_cases hr : r.restart = 1
  · rw [restarted_of hr]
    cases hg : c.control.gen with
    | idle =>
      obtain ⟨d, hd, -, -, hkept⟩ := restartRequest_of_idle r.pulse.toNat hg
      exact .inr (.inl ⟨hr, d, hd, hkept⟩)
    | pulsing t => exact .inr (.inr ⟨_, restartRequest_of_pulsing _ hg⟩)
    | holding =>
      refine .inl ?_
      unfold restartRequest
      rw [hg]
  · exact .inl (restarted_of_not hr)

theorem restarted_channel (h : r.restart ≠ 1 ∨ c.motor.ch[m].owner ≠ .proc) :
    (restarted r c).motor.ch[m] = c.motor.ch[m] := by
  rcases restarted_cases r c with he | ⟨hr, d, he, hkept⟩ | ⟨x, he⟩
  · rw [he]
  · have hm : d.motor = c.motor := hkept .motor (by simp)
    rw [he]
    cases hon : d.on .motor with
    | true => rw [pulseStart_motor hon, hm, if_neg (h.resolve_left fun hne => hne hr)]
    | false => rw [pulseStart_motor_off hon, hm]
  · rw [he]
    simp

theorem restarted_sound (h : c.sound.voice.source ≠ .proc) : (restarted r c).sound = c.sound := by
  rcases restarted_cases r c with he | ⟨-, d, he, hkept⟩ | ⟨x, he⟩
  · rw [he]
  · have hs : d.sound = c.sound := hkept .sound (by simp)
    rw [he, pulseStart_sound, hs, if_neg fun hp => h hp.2]
  · rw [he]
    simp

theorem restarted_control (hr : r.restart = 1) (hg : c.control.gen = .idle) :
    (restarted r c).control.gen = .pulsing (c.control.ms + BitVec.ofNat 32 r.pulse.toNat)
    ∧ (restarted r c).control.restarts = satInc c.control.restarts := by
  obtain ⟨d, hd, hcontrol, -, -⟩ := restartRequest_of_idle r.pulse.toNat hg
  have hpulse : (restarted r c).control = d.control := by
    rw [restarted_of hr, hd]
    simp
  rw [hpulse, hcontrol]
  exact ⟨rfl, rfl⟩

/-! No action takes a cause that is pending. -/

theorem pending_claimLost {j : Fin 10} (m : Fin 4) (o : Owner) (x : Code) (h : c.attention.pending[j] = true) :
    (claimLost m o x c).attention.pending[j] = true := by
  have hlost := (Raises.append .claimLost (Bytes.ofNat m.val) x.byte c).kept j h
  unfold claimLost
  split_ifs
  · exact (Raises.raiseCause .claim _).kept j hlost
  · exact hlost

theorem pending_releaseClaim {j : Fin 10} (m : Fin 4) (x : Code) (h : c.attention.pending[j] = true) :
    (releaseClaim m x c).attention.pending[j] = true := by
  have hops := (Raises.endOperation m x (c.modCh m fun ch => { ch with owner := .none, deadline := none })).kept j h
  unfold releaseClaim
  dsimp only
  split_ifs
  · exact h
  · refine ((Raises.of_same [] rfl).publish (.motorStatus m)).kept j (pending_claimLost m _ x ?_)
    exact ((((Raises.of_same [] rfl).motor _).motor _).publish (.motorStatus m)).kept j hops

theorem pending_endSound {j : Fin 10} (x : Code) (h : c.attention.pending[j] = true) :
    (endSound x c).attention.pending[j] = true := by
  unfold endSound
  split_ifs
  · exact h
  · refine (Raises.raiseCause .sound _).kept j ((Raises.append _ _ _ _).kept j ?_)
    refine ((Raises.of_same [] rfl).publish .soundStatus).kept j ?_
    simpa using h

theorem pending_pulseStart {j : Fin 10} (h : c.attention.pending[j] = true) :
    (pulseStart c).attention.pending[j] = true := by
  have hclaims : (restartClaims (restartPath c)).attention.pending[j] = true := by
    unfold restartClaims releaseClaimsOf
    split_ifs
    · refine forEach_inv (fun d => d.attention.pending[j] = true) _ h fun m _ d hd => ?_
      split_ifs
      · exact pending_releaseClaim m _ hd
      · exact hd
    · exact h
  unfold pulseStart restartSound
  split_ifs
  · exact pending_endSound _ hclaims
  · exact hclaims

theorem pending_restarted {j : Fin 10} (h : c.attention.pending[j] = true) :
    (restarted r c).attention.pending[j] = true := by
  rcases restarted_cases r c with he | ⟨-, d, he, hkept⟩ | ⟨x, he⟩
  · rwa [he]
  · rw [he]
    refine pending_pulseStart ?_
    rwa [hkept .attention (by simp)]
  · rw [he]
    simpa using h

end Sys2Proof.Machine.Chip
end

section
namespace Sys2Proof.Machine.Chip
variable {a c d e w : Chip} {i k : Fin 8} {r : ReflexRec} {m : Fin 4} {x : Code}

/-! ## A firing, action by action (R120 to R125) -/

/-- All that a firing of an entry does but its own new state. -/
def performed (i : Fin 8) (r : ReflexRec) (x : Code) (c : Chip) : Chip := restarted r (reported i r x (acted i r c))

theorem fire_performed (i : Fin 8) (c : Chip) : fire i c = performed i c.reflex.entry[i].record
    (firstNotOk (fireResults c.reflex.entry[i].record c)) (entrySpent i c) := fire_eq i c

theorem acted_motor (i : Fin 8) (r : ReflexRec) (c : Chip) : (acted i r c).motor = (fireStop i r c).motor :=
  (keptBut_fireAlarm i r _ .motor (by simp)).trans (keptBut_fireTone i r _ .motor (by simp))

/-- A motor that STOP takes, or that has another owner than PROC, is after the firing as STOP has left it. -/
theorem performed_channel (h : r.restart ≠ 1 ∨ (fireStop i r c).motor.ch[m].owner ≠ .proc) :
    (performed i r x c).motor.ch[m] = (fireStop i r c).motor.ch[m] := by
  have hbefore : (reported i r x (acted i r c)).motor = (fireStop i r c).motor :=
    (keptBut_reported i r x _ .motor (by simp)).trans (acted_motor i r c)
  rw [performed, restarted_channel (by rw [hbefore]; exact h), hbefore]

theorem performed_voice (h : r.tone = 1) (hon : c.on .sound = true) : (performed i r x c).sound.voice
    = .tone (.reflex i) r.frequency.toNat 100 c.control.ms (c.control.ms + BitVec.ofNat 32 r.duration.toNat) := by
  have hstop := keptBut_fireStop i r c
  have hon' : (fireStop i r c).on .sound = true := by
    rw [← hon, on, on, hstop .control (by simp)]
  have hms : (fireStop i r c).control.ms = c.control.ms := by rw [hstop .control (by simp)]
  have htone : (fireTone i r (fireStop i r c)).sound.voice = .tone (.reflex i) r.frequency.toNat 100 c.control.ms
      (c.control.ms + BitVec.ofNat 32 r.duration.toNat) := by
    rw [fireTone, if_pos ⟨h, hon'⟩, ← hms]
    simp [startTone]
  have hbefore : (reported i r x (acted i r c)).sound = (fireTone i r (fireStop i r c)).sound :=
    (keptBut_reported i r x _ .sound (by simp)).trans (keptBut_fireAlarm i r _ .sound (by simp))
  rw [performed, restarted_sound, hbefore, htone]
  rw [hbefore, htone]
  exact Owner.noConfusion

theorem placeAlarm_link (i : Fin 8) (c : Chip) : (placeAlarm i c).link = { c.link with alarms := (placeAlarm i c).link.alarms }
    ∧ (c.linkUp = true → i ∈ (placeAlarm i c).link.alarms) := by
  unfold placeAlarm
  split_ifs with h
  · exact ⟨rfl, fun _ => List.mem_append_right _ (List.mem_singleton.mpr rfl)⟩
  · exact ⟨rfl, fun hup => by simpa [hup] using h⟩

theorem performed_link (i : Fin 8) (r : ReflexRec) (x : Code) (c : Chip) :
    (performed i r x c).link = { c.link with alarms := (performed i r x c).link.alarms }
    ∧ (r.alarm = 1 → c.linkUp = true → i ∈ (performed i r x c).link.alarms) := by
  have hbefore : KeptBut [.motor, .ring, .attention, .path, .sound] c (fireTone i r (fireStop i r c)) :=
    ((keptBut_fireStop i r c).mono (by simp)).trans ((keptBut_fireTone i r _).mono (by simp))
  have hlink : (fireTone i r (fireStop i r c)).link = c.link := hbefore .link (by simp)
  have hup : (fireTone i r (fireStop i r c)).linkUp = c.linkUp := by
    rw [linkUp, linkUp, on, on, hbefore .control (by simp), hbefore .pins (by simp)]
  have hafter : (performed i r x c).link = (fireAlarm i r (fireTone i r (fireStop i r c))).link :=
    (keptBut_restarted r _ .link (by simp)).trans (keptBut_reported i r x _ .link (by simp))
  rw [hafter, ← hlink, ← hup]
  unfold fireAlarm
  split_ifs with h
  · obtain ⟨hsame, hin⟩ := placeAlarm_link i (fireTone i r (fireStop i r c))
    exact ⟨hsame, fun _ => hin⟩
  · exact ⟨rfl, fun hr => absurd hr h⟩

theorem performed_pending (h : r.attention = 1) : (performed i r x c).attention.pending[Cause.reflex.idx] = true := by
  refine pending_restarted ?_
  unfold reported
  rw [if_pos h]
  exact raiseCause_pending .reflex _

theorem performed_restart (h : r.restart = 1) (hg : c.control.gen = .idle) :
    (performed i r x c).control.gen = .pulsing (c.control.ms + BitVec.ofNat 32 r.pulse.toNat)
    ∧ (performed i r x c).control.restarts = satInc c.control.restarts := by
  have hbefore : (reported i r x (acted i r c)).control = c.control :=
    (keptBut_reported i r x _ .control (by simp)).trans (keptBut_acted i r c .control (by simp))
  rw [← hbefore] at hg ⊢
  exact restarted_control h hg

/-- The events of a firing with no TONE and no RESTART (R124). -/
theorem performed_ring (h : RingAlike a c) (hm : a.motor = c.motor) (hon : a.on .motor = c.on .motor)
    (ht : r.tone ≠ 1) (hr : r.restart ≠ 1) :
    (performed i r x c).ring = ((stopTold i r a).append .reflex (Bytes.ofNat i.val) x.byte).ring := by
  have hacted : RingAlike (stopTold i r a) (acted i r c) := by
    have htone : fireTone i r (fireStop i r c) = fireStop i r c := if_neg fun hc => ht hc.1
    rw [acted, htone]
    exact (h.fireStop i r hm hon).of_kept (keptBut_fireAlarm i r _) (by simp) (by simp)
  rw [performed, restarted_of_not hr, (hacted.append .reflex (Bytes.ofNat i.val) x.byte).ring]
  unfold reported
  dsimp only
  split_ifs
  · exact keptBut_raiseCause .reflex _ .ring (by simp)
  · rfl

theorem firstNotOk_fireResults (ht : r.tone ≠ 1) : firstNotOk (fireResults r c)
    = if r.stop = 1 ∧ c.on .motor = false then .off else if r.alarm = 1 then c.alarmResult else .ok := by
  unfold fireResults
  rw [if_neg (c := r.tone = 1 ∧ _) fun hc => ht hc.1]
  by_cases hs : r.stop = 1 ∧ c.on .motor = false
  · rw [if_pos hs, if_pos hs]
    rfl
  · rw [if_neg hs, if_neg hs]
    by_cases ha : r.alarm = 1
    · rw [if_pos ha]
      cases c.alarmResult <;> rfl
    · rw [if_neg ha]
      rfl

/-! ## An entry that fires alone -/

/-- Chips that a condition and a firing treat alike: they differ in enables, outstanding publications, reports and memory
alone. -/
structure ReadsAs (a w : Chip) : Prop where
  kept : KeptBut [.control, .path, .mem, .shadow] a w
  control : ∃ e o, w.control = { a.control with enable := e, outstanding := o }
  quiet : w.path.procQuiet = a.path.procQuiet

namespace ReadsAs

theorem block (h : ReadsAs a w) : w.control.block = a.control.block := by
  obtain ⟨_, _, hc⟩ := h.control
  rw [hc]
theorem ms (h : ReadsAs a w) : w.control.ms = a.control.ms := by
  obtain ⟨_, _, hc⟩ := h.control
  rw [hc]
theorem on (h : ReadsAs a w) (u : BlockUnit) : w.on u = a.on u := by rw [Chip.on, Chip.on, h.block]
theorem linkUp (h : ReadsAs a w) : w.linkUp = a.linkUp := by rw [Chip.linkUp, Chip.linkUp, h.on, h.kept .pins (by simp)]
theorem alarmResult (h : ReadsAs a w) : w.alarmResult = a.alarmResult := by
  rw [Chip.alarmResult, Chip.alarmResult, h.on, h.linkUp]

theorem condition (h : ReadsAs a w) (r : ReflexRec) : w.condition r = a.condition r :=
  condition_of_parts (h.kept .pins (by simp)) h.block (h.kept .input (by simp)) (h.kept .sense (by simp))
    (h.kept .motor (by simp)) (h.kept .link (by simp)) h.quiet r

theorem judgedState (h : ReadsAs a w) (e : ReflexEntry) : w.judgedState e = a.judgedState e := by
  rw [Chip.judgedState, Chip.judgedState, h.condition, h.ms]

theorem noneFires (h : ReadsAs a w) (hn : a.noneFires) : w.noneFires := fun k hs hc => by
  have hr : w.reflex = a.reflex := h.kept .reflex (by simp)
  rw [h.condition, hr] at hc
  rw [hr] at hs ⊢
  exact hn k hs hc

theorem ringAlike (h : ReadsAs a w) : RingAlike a w := ⟨(h.kept .ring (by simp)).symm, h.ms.symm⟩

end ReadsAs

theorem rejudge_reflex (h : c.reflex.entry[i].state = .armed → c.condition c.reflex.entry[i].record = true →
      c.reflex.entry[i].record.hold ≠ 0) :
    (rejudge i c).reflex = ⟨c.reflex.entry.set i (c.judgedEntry c.reflex.entry[i])⟩ := by
  rw [rejudge_eq h]
  split_ifs with hs
  · have hsame : c.judgedEntry c.reflex.entry[i] = c.reflex.entry[i] := by
      rw [judgedEntry, hs]
    rw [hsame]
    simp
  · simp [modEntry]

theorem judgedEntry_fired (c : Chip) (r : ReflexRec) (n : Byte) :
    c.judgedEntry ⟨r, if r.rearm = 1 then .spent else .fired, n⟩
      = ⟨r, if r.rearm = 1 then .spent else if c.condition r then .fired else .armed, n⟩ := by
  unfold judgedEntry Chip.judgedState
  by_cases hr : r.rearm = 1
  · rw [if_pos hr, if_pos hr]
  · rw [if_neg hr, if_neg hr]
    dsimp only
    cases c.condition r <;> rfl

/-- The entry that has fired alone, judged again (R117, R119). -/
theorem rejudge_fire_reflex (i : Fin 8) (c : Chip) : (rejudge i (fire i c)).reflex = ⟨c.reflex.entry.set i
    ⟨c.reflex.entry[i].record, if c.reflex.entry[i].record.rearm = 1 then .spent
      else if (rejudge i (fire i c)).condition c.reflex.entry[i].record then .fired else .armed,
      satInc c.reflex.entry[i].fires⟩⟩ := by
  have hreflex := fire_reflex i c
  have hentry : (fire i c).reflex.entry[i] = ⟨c.reflex.entry[i].record,
      if c.reflex.entry[i].record.rearm = 1 then .spent else .fired, satInc c.reflex.entry[i].fires⟩ := by
    rw [hreflex]
    simp
  have hcond : (rejudge i (fire i c)).condition c.reflex.entry[i].record
      = (fire i c).condition c.reflex.entry[i].record :=
    condition_congr (keptBut_rejudge i _) (by simp) _
  have hnot : (fire i c).reflex.entry[i].state ≠ .armed := by
    rw [hentry]
    dsimp only
    split_ifs <;> exact EntryState.noConfusion
  rw [hcond, rejudge_reflex fun hs => absurd hs hnot, hentry, hreflex, Vector.set_set, judgedEntry_fired]

/-- A firing of the one entry that is enabled, and the judgement of its changes. -/
theorem fired_of_alone (h : ReadsAs a w) (hon : w.on .reflex = true) (hs : Sole i w) (hi : w.firesNow i = true) :
    Fired i a.reflex.entry[i].record (satInc a.reflex.entry[i].fires) a (handChange w) := by
  have hreflex : w.reflex = a.reflex := h.kept .reflex (by simp)
  have hspent : KeptBut [.reflex, .path] w (entrySpent i w) := keptBut_entrySpent i w
  have hd : KeptBut [.reflex, .path] (performed i a.reflex.entry[i].record
      (firstNotOk (fireResults a.reflex.entry[i].record w)) (entrySpent i w)) (handChange w) := by
    rw [handChange_alone hon hs hi, fire_performed, hreflex]
    exact keptBut_rejudge i _
  have hentry := rejudge_fire_reflex i w
  have hpubs := rejudge_pubs i (fire_pubs i w).1
  rw [← handChange_alone hon hs hi] at hentry hpubs
  rw [hreflex] at hentry
  generalize a.reflex.entry[i].record = r at *
  generalize handChange w = d at *
  have hms : (entrySpent i w).control.ms = a.control.ms := by rw [hspent .control (by simp), h.ms]
  have hons (u : BlockUnit) : (entrySpent i w).on u = a.on u := by
    rw [on, hspent .control (by simp)]
    exact h.on u
  have hmotor : (entrySpent i w).motor = a.motor := (hspent .motor (by simp)).trans (h.kept .motor (by simp))
  have hlink : (entrySpent i w).link = a.link := (hspent .link (by simp)).trans (h.kept .link (by simp))
  have hup : (entrySpent i w).linkUp = a.linkUp := by
    rw [linkUp, hons, hspent .pins (by simp), h.kept .pins (by simp), ← linkUp]
  have hchannel (m : Fin 4) := fireStop_channel i r (entrySpent i w) m
  rw [hons, hms, hmotor] at hchannel
  refine ⟨hentry, hpubs, fun hstops m hm => ?_, fun m hm ho => ?_, fun ht hson => ?_, fun ha hlup => ?_, fun ha => ?_,
    fun hr hg => ?_, fun ht hr => ?_, ?_⟩
  · have hm' : (fireStop i r (entrySpent i w)).motor.ch[m] = halted (.reflex i) none (stopsIn r) a.control.ms a.motor.ch[m] :=
      (hchannel m).trans (if_pos ⟨hstops, hm⟩)
    obtain ⟨howner, hdeadline, hmode, hstage, hstall⟩ := halted_spec (stops_stopCmd r) (.reflex i) none a.control.ms a.motor.ch[m]
    have hafter : d.motor.ch[m] = halted (.reflex i) none (stopsIn r) a.control.ms a.motor.ch[m] := by
      rw [hd .motor (by simp), performed_channel (.inr ?_), hm']
      rw [hm', howner]
      exact Owner.noConfusion
    rw [hafter]
    refine ⟨howner, hdeadline, hmode, hstage.trans ?_, hstall⟩
    unfold stopsIn
    split_ifs <;> rfl
  · have hm' : (fireStop i r (entrySpent i w)).motor.ch[m] = a.motor.ch[m] :=
      (hchannel m).trans (if_neg fun hc => hm.elim (fun hs => hs hc.1.1) fun hm => hm hc.2)
    rw [hd .motor (by simp), performed_channel (by rw [hm']; exact ho), hm']
  · rw [hd .sound (by simp), performed_voice ht ((hons _).trans hson), hms]
  · rw [hd .link (by simp)]
    exact (performed_link i r _ _).2 ha (hup.trans hlup)
  · rw [hd .attention (by simp)]
    exact performed_pending ha
  · obtain ⟨_, _, hc⟩ := h.control
    have hcontrol := (hspent .control (by simp)).trans hc
    have hpulse := performed_restart (i := i) (r := r) (c := entrySpent i w) (x := firstNotOk (fireResults r w)) hr
    rw [hcontrol] at hpulse
    rw [hd .control (by simp)]
    exact hpulse hg
  · rw [hd .ring (by simp), performed_ring (a := a) ?_ hmotor.symm (hons _).symm ht hr, firstNotOk_fireResults ht,
      h.alarmResult, h.on]
    · exact rfl
    · exact h.ringAlike.of_kept hspent (by simp) (by simp)
  · rw [hd .link (by simp)]
    exact (performed_link i r _ _).1.trans (by rw [hlink])

end Sys2Proof.Machine.Chip
end

section
namespace Sys2Proof.Machine.Chip
variable {b c d e : Chip}

/-! ## The reflex unit turns ON (R127) -/

theorem keptBut_modEntry (i : Fin 8) (g : ReflexEntry → ReflexEntry) (c : Chip) : KeptBut [.reflex] c (c.modEntry i g) :=
  fun p hp => by cases p <;> simp at hp <;> rfl

theorem entryFromShadow_congr (h : d.shadow = c.shadow) (i : Fin 8) : d.entryFromShadow i = c.entryFromShadow i := by
  unfold entryFromShadow
  rw [shadowBytes_congr h]

/-- The entries read from the shadows, each its own (R127). -/
theorem entriesRead_spec {xs : List (Fin 8)} (hx : xs.Nodup) (c : Chip) (i : Fin 8) :
    (forEach xs (fun i c => c.modEntry i (fun _ => c.entryFromShadow i)) c).reflex.entry[i]
      = if i ∈ xs then c.entryFromShadow i else c.reflex.entry[i] :=
  forEach_each (c := c) (fun i d => d.reflex.entry[i]) (fun i _ => c.entryFromShadow i)
    (fun d => d.shadow = c.shadow) (f := fun i d => d.modEntry i fun _ => d.entryFromShadow i) (fun _ _ hd => hd)
    (fun i d hd => (modEntry_same i _ d).trans (entryFromShadow_congr hd i)) (fun j i d _ hji => modEntry_other i j _ d hji)
    hx rfl i

theorem keptBut_entriesRead (xs : List (Fin 8)) (c : Chip) :
    KeptBut [.reflex] c (forEach xs (fun i c => c.modEntry i (fun _ => c.entryFromShadow i)) c) :=
  forEach_keptBut (fun i e => keptBut_modEntry i _ e) c

theorem path_entriesRead (xs : List (Fin 8)) (c : Chip) :
    (forEach xs (fun i c => c.modEntry i (fun _ => c.entryFromShadow i)) c).path = c.path :=
  keptBut_entriesRead xs c .path (by simp)

/-- The reflex unit's start (R127). -/
theorem reflexTurnOn_spec (c : Chip) : KeptBut [.reflex, .path] c (reflexTurnOn c)
    ∧ (reflexTurnOn c).path.procQuiet = c.path.procQuiet
    ∧ ∀ i : Fin 8, (reflexTurnOn c).reflex.entry[i] = c.entryFromShadow i := by
  have hkept := keptBut_entriesRead (List.finRange 8) c
  have hpath := path_entriesRead (List.finRange 8) c
  have hentry (i : Fin 8) := (entriesRead_spec (List.nodup_finRange 8) c i).trans (if_pos (List.mem_finRange i))
  unfold reflexTurnOn
  generalize forEach (List.finRange 8) (fun i c => c.modEntry i (fun _ => c.entryFromShadow i)) c = d at *
  refine ⟨(hkept.mono (by simp)).trans ((keptBut_publishIf _ _ d).mono (by simp)), ?_, fun i => ?_⟩
  · rw [← hpath]
    simp
  · rw [← hentry i]
    exact congrArg (fun x : Reflex => x.entry[i]) (keptBut_publishIf _ _ d .reflex (by simp))

/-- The chip after the reflex unit's start, before its entries are judged, is the one that the statements name. -/
theorem TurnsFrom.readsAs (h : TurnsFrom .reflex c b) : ReadsAs c.woken (reflexTurnOn (setBlock .reflex .on b)) := by
  obtain ⟨hkept, hquiet, hentry⟩ := reflexTurnOn_spec (setBlock .reflex .on b)
  obtain ⟨_, hlink, hshadows⟩ := h.start
  obtain ⟨x, o, hcontrol⟩ := h.control
  have hframe := h.frame (by simp) hkept
  have hreflex : (reflexTurnOn (setBlock .reflex .on b)).reflex = c.woken.reflex := by
    refine congrArg Reflex.mk (Vector.ext fun k hk => (hentry ⟨k, hk⟩).trans ?_)
    refine Eq.trans ?_ (Vector.getElem_ofFn hk).symm
    unfold entryFromShadow Chip.entryRead
    rw [hshadows _ rfl]
  refine ⟨fun p hp => ?_, ⟨x, o, ?_⟩, ?_⟩
  · cases p <;> simp at hp
    case reflex => exact hreflex
    case pins => exact hframe .pins (by simp)
    case ring => exact hframe .ring (by simp)
    case attention => exact hframe .attention (by simp)
    case motor => exact hframe .motor (by simp)
    case sense => exact hframe .sense (by simp)
    case input => exact hframe .input (by simp)
    case sound => exact hframe .sound (by simp)
    case link => exact hframe .link (by simp)
  · rw [hkept .control (by simp), setBlock_eq, hcontrol]
    rfl
  · rw [hquiet, setBlock_eq]
    exact h.quiet

theorem woken_entry (c : Chip) (i : Fin 8) : c.woken.reflex.entry[i] = c.entryRead i := by
  simp [Chip.woken]

theorem entryRead_fires (c : Chip) (i : Fin 8) : (c.entryRead i).fires = 0 := by
  unfold Chip.entryRead
  dsimp only
  split_ifs <;> rfl

theorem turnedOn_reflex (h : TurnsFrom .reflex c b) : TurnedOn .reflex c (turnOn .reflex b) := by
  have hreads := h.readsAs
  obtain ⟨hstart, -, -⟩ := reflexTurnOn_spec (setBlock .reflex .on b)
  have hframe := h.frame (by simp) hstart
  have hstatus := startUnit_status .reflex b
  have hblock : (reflexTurnOn (setBlock .reflex .on b)).control.block.get .reflex = .on := by
    rw [hstart .control (by simp)]
    exact setBlock_on .reflex b
  have hd : turnOn .reflex b = handChange (reflexTurnOn (setBlock .reflex .on b)) := rfl
  rw [startUnit_reflex] at hstatus
  rw [hd]
  generalize reflexTurnOn (setBlock .reflex .on b) = w at *
  have hon : w.on .reflex = true := (on_iff ..).mpr hblock
  have hreflex : w.reflex = c.woken.reflex := hreads.kept .reflex (by simp)
  have hentry (i : Fin 8) : w.reflex.entry[i] = c.entryRead i := by rw [hreflex, woken_entry]
  have hfires (i : Fin 8) (ha : (c.entryRead i).state = .armed) (hc : c.woken.condition (c.entryRead i).record = true)
      (hh : (c.entryRead i).record.hold = 0) : w.firesNow i = true := by
    rw [firesNow_iff, hentry, hreads.condition]
    exact ⟨ha, hc, hh⟩
  refine ⟨?_, ?_, fun p hp => ?_, fun i => ?_, fun i ha hc hh => ?_, fun hn => ?_, fun i ha hc hh halone => ?_⟩
  · rw [(handChange_keeps w).2.2.1]
    exact hblock
  · rw [handChange_on hon]
    exact settle_pubs 6 hstatus
  · cases p <;> simp at hp
    case pins => exact Eq.trans (b := w.pins) (by simp) (hframe .pins (by simp))
    case sense => exact Eq.trans (b := w.sense) (by simp) (hframe .sense (by simp))
    case input => exact Eq.trans (b := w.input) (by simp) (hframe .input (by simp))
  · rw [handChange_on hon, settle_record, hentry]
  · rw [handChange_on hon]
    exact settle_fires 5 (hfires i ha hc hh)
  · obtain ⟨hjudged, -, hkept⟩ := handChange_of_noneFires hon (hreads.noneFires hn)
    refine ⟨(hframe.mono (by simp)).trans (hkept.mono (by simp)), fun i => (hjudged i).trans ?_⟩
    rw [hentry, hreads.judgedState]
  · have hfired := fired_of_alone hreads hon (i := i) (fun k hk => by rw [hentry]; exact halone k hk) (hfires i ha hc hh)
    rw [woken_entry, entryRead_fires] at hfired
    exact hfired

/-- A unit that turns ON from c has what the statements say. -/
theorem turnedOn {u : BlockUnit} (h : TurnsFrom u c b) : TurnedOn u c (turnOn u b) := by
  cases u with
  | motor => exact turnedOn_motor h
  | sense => exact turnedOn_sense h
  | input => exact turnedOn_input h
  | reflex => exact turnedOn_reflex h
  | sound => exact turnedOn_sound h
  | link => exact turnedOn_link h

end Sys2Proof.Machine.Chip
end

section
namespace Sys2Proof.Machine.Chip
variable {b c d e : Chip} {u : BlockUnit}

/-! ## Enables that turn a unit ON (R28) -/

theorem keptBut_withEnable (x : PerUnit Bool) (c : Chip) : KeptBut [.control] c (withEnable x c) := fun p hp => by
  cases p <;> simp at hp <;> rfl

theorem condition_withEnable (x : PerUnit Bool) (c : Chip) (r : ReflexRec) : (withEnable x c).condition r = c.condition r :=
  condition_of_parts rfl rfl rfl rfl rfl rfl rfl r

/-- What a unit's turning ON is does not name the enables. -/
theorem turnedOn_withEnable (x : PerUnit Bool) (h : TurnedOn u c d) : TurnedOn u c (withEnable x d) := by
  have hkept {l : List Part} (hl : .control ∈ l) (hk : KeptBut l c d) : KeptBut l c (withEnable x d) :=
    hk.trans ((keptBut_withEnable x d).mono (by simpa using hl))
  obtain ⟨hblock, hstatus, hunit⟩ := h
  refine ⟨hblock, hstatus, ?_⟩
  cases u with
  | motor => exact ⟨hkept (by simp) hunit.1, hunit.2⟩
  | sense => exact ⟨hkept (by simp) hunit.1, hunit.2⟩
  | input => exact ⟨hkept (by simp) hunit.1, hunit.2⟩
  | sound => exact ⟨hkept (by simp) hunit.1, hunit.2⟩
  | link => exact ⟨hkept (by simp) hunit.1, hunit.2⟩
  | reflex =>
    obtain ⟨hframe, hrecords, hfires, hquiet, halone⟩ := hunit
    refine ⟨hkept (by simp) hframe, hrecords, hfires, fun hn => ?_, fun i ha hc hh hk => ?_⟩
    · obtain ⟨hpart, hentries⟩ := hquiet hn
      exact ⟨hkept (by simp) hpart, hentries⟩
    · have hfired := halone i ha hc hh hk
      unfold Fired at hfired ⊢
      rw [condition_withEnable]
      exact hfired

/-- The stored enables lie below every unit's records. -/
theorem shadowBytes_enablesStored (x : PerUnit Bool) (hi : c.inv = true) {r : RecId} (hr : r.unit? = some u) :
    (enablesStored x c).shadowBytes r = c.shadowBytes r := by
  have hoffset : 0x40 ≤ r.offset := size_control_le_offset hr
  have hlength : (BlockUnit.all.map fun v => Bytes.ofBool (x.get v)).length = 6 := by simp [BlockUnit.all]
  refine shadowBytes_eq_of_read (shadowBytes_length _ _) fun j hj => ?_
  rw [(enablesStored_stored x hi).2, if_neg (by omega), shadowBytes, Mem.get_bytes _ _ _ _ hj]
  have hsize := addr_add_size_le r
  simp only [RecId.addr] at hsize
  omega

theorem turnsFrom_enables (x y : PerUnit Bool) (hi : c.inv = true) (hu : c.unwatched = true) :
    TurnsFrom u c (withEnable y (enablesStored x c)) := by
  refine ⟨(unwatched_congr c _ rfl rfl).trans hu, ?_, ⟨y, c.control.outstanding, rfl⟩, rfl, fun _ => rfl, rfl, rfl,
    fun r hr => shadowBytes_enablesStored x hi hr⟩
  exact ((keptBut_enablesStored x c).mono (by simp)).trans ((keptBut_withEnable y _).mono (by simp))

/-- Settles O20: the enables turn one unit ON, from a chip that reads as the state does (`TurnsFrom`); what each unit's
start then leaves is `turnedOn`, for the reflex entries by the rounds of their judgement. -/
theorem unitTurnsOn : Obligations.UnitTurnsOn := by
  unfold Obligations.UnitTurnsOn
  intro s e u hg hi hu hoff he hs
  have hmoves : s.hw.settled e u = false := by rw [settled, hoff, he]; rfl
  obtain ⟨x, hx⟩ := applyEnables_of_one (c := enablesStored e s.hw) hmoves hs
  have hd : enablesPart e s.hw = withEnable e (turnOn u (withEnable x (enablesStored e s.hw))) := by
    rw [enablesPart_eq e hg, hx, he]
    rfl
  exact act_answers rfl (hd ▸ turnedOn_withEnable e (turnedOn (turnsFrom_enables e x hi hu)))

end Sys2Proof.Machine.Chip
end

section
namespace Sys2Proof.Machine.Chip
variable {b c d e : Chip} {u : BlockUnit} {r : RecId} {data : List Byte}

/-! ## The end of RESETTING (R30) -/

/-- The link and the path after a publication's owner has heard of it: an inbound descriptor that is occupied is shown. -/
def toldOwner (r : RecId) (c : Chip) : Link × Path :=
  match r with
  | .inboundDesc k =>
    match c.link.desc[k] with
    | some x => ({ c.link with desc := c.link.desc.set k (some { x with shown := true }) }, c.freePort.path.join .inboundStatus)
    | none => (c.link, c.freePort.path)
  | _ => (c.link, c.freePort.path)

theorem toldOwner_cases (r : RecId) (c : Chip) : toldOwner r c = (c.link, c.freePort.path)
    ∨ ∃ k x, r = .inboundDesc k ∧ toldOwner r c = ({ c.link with desc := c.link.desc.set k (some { x with shown := true }) },
        c.freePort.path.join .inboundStatus) ∧ c.link.desc[k] = some x := by
  unfold toldOwner
  split
  · split
    · next hx => exact .inr ⟨_, _, rfl, rfl, hx⟩
    · exact .inl rfl
  · exact .inl rfl

theorem ownerReport_published (hr : r.unit? = some u) : ownerReport r (published r data c)
    = { published r data c with link := (toldOwner r c).1, path := (toldOwner r c).2 } := by
  by_cases hk : ∃ k, r = .inboundDesc k
  · obtain ⟨k, rfl⟩ := hk
    cases hx : c.link.desc[k] with
    | some x =>
      rw [ownerReport_inboundDesc (d := published (.inboundDesc k) data c) hx, toldOwner, hx]
      rfl
    | none =>
      unfold ownerReport toldOwner
      dsimp only
      rw [hx, show (published (.inboundDesc k) data c).link.desc[k] = none from hx]
      rfl
  · have htold : toldOwner r c = (c.link, c.freePort.path) :=
      (toldOwner_cases r c).resolve_right fun ⟨k, _, he, _⟩ => hk ⟨k, he⟩
    have hring : ∀ i, r ≠ .ringEntry i := by
      rintro i rfl
      cases hr
    rw [ownerReport_of_other hring fun k he => hk ⟨k, he⟩, htold]
    rfl

/-- The chip in which the last outstanding record of a unit has been published, before the unit moves on. -/
def heard (r : RecId) (data : List Byte) (c : Chip) : Chip := { published r data c with
  link := (toldOwner r c).1
  path := (toldOwner r c).2
  control := { c.control with outstanding := c.control.outstanding.filter (fun q => q != r) } }

theorem publicationDone_outstanding (hr : r.unit? = some u) (ho : r ∈ c.control.outstanding)
    (h : c.path.port = some (.publication r data false)) :
    publicationDone c = if (c.control.outstanding.filter (fun q => q != r)).any (fun q => q.unit? == some u) then heard r data c
      else if c.control.enable.get u then turnOn u (heard r data c) else setBlock u .off (heard r data c) := by
  have hne : r ≠ .attention := by
    rintro rfl
    cases hr
  rw [publicationDone_eq h hne, if_neg (by simp), ownerReport_published hr]
  unfold recordReported
  dsimp only
  rw [hr, if_pos (show r ∈ (published r data c).control.outstanding from ho)]
  rfl

theorem keptBut_heard (r : RecId) (data : List Byte) (c : Chip) : KeptBut [.control, .link, .path, .mem] c (heard r data c) :=
  fun p hp => by cases p <;> simp at hp <;> rfl

/-- What the owner's report leaves of the link and the path. -/
theorem toldOwner_spec (hr : r.unit? = some u) : (u ≠ .link → (toldOwner r c).1 = c.link)
    ∧ (toldOwner r c).1.out = c.link.out ∧ (toldOwner r c).1.lastFrame = c.link.lastFrame
    ∧ (toldOwner r c).2.procQuiet = c.path.procQuiet := by
  rcases toldOwner_cases r c with h | ⟨k, x, rfl, h, -⟩
  · rw [h]
    exact ⟨fun _ => rfl, rfl, rfl, rfl⟩
  · rw [h]
    exact ⟨fun hl => absurd (Option.some.inj hr).symm hl, rfl, rfl, rfl⟩

theorem turnsFrom_heard (hr : r.unit? = some u) (hu : c.unwatched = true) : TurnsFrom u c (heard r data c) := by
  obtain ⟨hlink, hout, hframe, hquiet⟩ := toldOwner_spec (c := c) hr
  exact ⟨(unwatched_congr c _ rfl rfl).trans hu, (keptBut_heard r data c).mono (by simp), ⟨_, _, rfl⟩, hquiet, hlink, hout,
    hframe, fun _ _ => rfl⟩

theorem startUnit_control (u : BlockUnit) (c : Chip) : (startUnit u c).control = c.control := by
  by_cases hr : u = .reflex
  · subst hr
    exact (reflexTurnOn_spec c).1 .control (by simp)
  · exact keptBut_startUnit hr c .control (by cases u <;> simp [startParts])

/-- A unit that turns ON waits for no publication. -/
theorem turnOn_outstanding (hu : b.unwatched = true) : (turnOn u b).control.outstanding = b.control.outstanding := by
  have hset := (setBlock_keeps u .on b).2.2.2
  by_cases hi : u = .input
  · subst hi
    have hstart := unwatched_startUnit (u := .input) (by simp) hu
    rw [turnOn_input hu, ← startUnit_input, (judgeAllLevels_spec hstart).1 .control (by simp), startUnit_control, hset]
  · have hd : turnOn u b = handChange (startUnit u (setBlock u .on b)) := by
      cases u with
      | input => exact absurd rfl hi
      | motor | sense | reflex | sound | link => rfl
    rw [hd, (handChange_keeps _).2.2.2.2.1, startUnit_control, hset]

/-- Settles O16: the last publication of a RESETTING unit moves it on (`publicationDone_outstanding`); a unit that turns
ON does so from a chip that reads as the state does (`TurnsFrom`). -/
theorem resettingEnds : Obligations.ResettingEnds := by
  unfold Obligations.ResettingEnds
  intro s r data u hm hu hr ho hb freed told
  have htold : told = toldOwner r s.hw := rfl
  clear_value told
  subst htold
  have hne : r ≠ .attention := by
    rintro rfl
    cases hr
  refine ⟨fun hport => act_answers rfl ?_, fun hport => act_answers rfl ?_⟩
  · have hany : (s.hw.control.outstanding.filter (fun q => q != r)).any (fun q => q.unit? == some u) = true
        ↔ ∃ q ∈ s.hw.control.outstanding, q ≠ r ∧ q.unit? = some u := by
      simp
    have hkept := keptBut_heard r data s.hw
    have hcontrol : (heard r data s.hw).control = { s.hw.control with
      outstanding := s.hw.control.outstanding.filter (fun q => q != r) } := rfl
    rw [publicationDone_outstanding hr ho hport]
    by_cases hleft : ∃ q ∈ s.hw.control.outstanding, q ≠ r ∧ q.unit? = some u
    · rw [if_pos (hany.mpr hleft), if_pos hleft]
      have hno : ¬ ∀ q ∈ s.hw.control.outstanding, q ≠ r → q.unit? ≠ some u := fun hall =>
        let ⟨q, hq, hqr, hqu⟩ := hleft
        hall q hq hqr hqu
      exact ⟨rfl, hb, fun _ => ⟨rfl, rfl, rfl, hkept⟩, fun hall => absurd hall hno, fun hall => absurd hall hno⟩
    · rw [if_neg (mt hany.mp hleft), if_neg hleft]
      cases hen : s.hw.control.enable.get u with
      | true =>
        rw [if_pos rfl, if_pos rfl]
        have hon := turnedOn (turnsFrom_heard (data := data) hr hu)
        refine ⟨?_, hon.1, fun h => absurd h hleft, fun _ _ => hon, fun _ h => absurd h (by simp)⟩
        rw [turnOn_outstanding (turnsFrom_heard (data := data) hr hu).watch]
        rfl
      | false =>
        rw [if_neg (by simp), if_neg (by simp), setBlock_eq]
        refine ⟨rfl, (PerUnit.get_set ..).trans (if_pos rfl), fun h => absurd h hleft, fun _ h => absurd h (by simp),
          fun _ _ => ⟨rfl, rfl, ?_⟩⟩
        intro p hp
        have hsame := hkept p hp
        cases p <;> simp at hp <;> exact hsame
  · rw [publicationDone_eq hport hne, if_pos rfl]
    rfl

end Sys2Proof.Machine.Chip
end

section
namespace Sys2Proof.Machine

/-! ## The motor channel: stage, passage and stall watch (R33, R34, R47) -/

theorem Stage.driving_eq_false {st : Stage} : st.driving = false ↔ st.dir? = none := by
  unfold Stage.driving
  exact Option.isSome_eq_false_iff.trans Option.isNone_iff_eq_none
theorem Stage.driving_of_dir {st : Stage} {x : Dir} (h : st.dir? = some x) : st.driving = true := by
  unfold Stage.driving
  rw [h]
  rfl

namespace Channel
variable {now : Word} {st : Stage} {ch : Channel}

theorem setStage_eq (now : Word) (st : Stage) (ch : Channel) : ch.setStage now st = { ch with
    stage := st, lastDir := if st.driving then st.dir? else ch.lastDir, gap := !st.driving && (ch.gap || ch.stage.driving),
    watch := (ch.setStage now st).watch } := rfl

/-- The watch is judged again from what it was (R47). -/
theorem reviewWatch_watch (now : Word) (ch : Channel) :
    (ch.reviewWatch now).watch = (ch.reviewWatch now).watchJudged now ch.watch := by
  refine if_congr ?_ rfl rfl
  simp [watchRuns, reviewWatch, and_assoc]

theorem setStage_watch (now : Word) (st : Stage) (ch : Channel) :
    (ch.setStage now st).watch = (ch.setStage now st).watchJudged now ch.watch := reviewWatch_watch now _

/-- A stage at rest has no applied duty, so the stall watch stops (R47). -/
theorem setStage_watch_of_rest (now : Word) (h : st.driving = false) (ch : Channel) : (ch.setStage now st).watch = none := by
  have happlied : st.applied = 0 := by
    cases st with
    | coast => rfl
    | brake => rfl
    | forward n => cases h
    | reverse n => cases h
  rw [setStage_watch, watchJudged, if_neg]
  rintro ⟨-, hne, hle⟩
  rw [setStage_eq] at hne hle
  dsimp only at hne hle
  rw [happlied] at hle
  exact hne (Nat.le_zero.mp hle)

theorem opposes_eq_false {x : Dir} (h : ch.lastDir = none ∨ ch.lastDir = some x) : ch.opposes x = false := by
  unfold opposes
  rcases h with h | h <;> simp [h]
theorem opposes_eq_true {x y : Dir} (h : ch.lastDir = some y) (hne : y ≠ x) : ch.opposes x = true := by
  unfold opposes
  simp [h, hne]
theorem meetsOpposite_of_dir {x : Dir} (h : ch.target.dir? = some x) :
    ch.meetsOpposite = (ch.opposes x && !ch.stage.driving && ch.gap) := by
  unfold meetsOpposite
  rw [h]

/-! ### The period boundary, case by case (R33, R34) -/

/-- The channel whose next PWM period has the frequency of the settings. -/
def inPeriod (ch : Channel) : Channel := { ch with periodPwm := ch.settings.pwm }

theorem periodBoundary_of_reversing (h : ch.reversing = true) : ch.periodBoundary now = ch.inPeriod := if_pos h

theorem periodBoundary_of_rest (hr : ch.reversing = false) (h : ch.target.driving = false) :
    ch.periodBoundary now = ch.inPeriod := by
  have hdir : (inPeriod ch).target.dir? = none := Stage.driving_eq_false.mp h
  unfold periodBoundary
  dsimp only
  rw [if_neg (by simp [hr])]
  split
  · rfl
  · next hd => exact absurd (hdir.symm.trans hd) (by simp)

/-- What a boundary does with a driving target. -/
theorem periodBoundary_of_dir {x : Dir} (hr : ch.reversing = false) (h : ch.target.dir? = some x) : ch.periodBoundary now
    = if ch.opposes x && ch.stage.driving then setStage now .coast { ch.inPeriod with reversing := true }
      else if ch.opposes x && !ch.stage.driving && ch.gap then { ch.inPeriod with reversing := true }
      else setStage now ch.target ch.inPeriod := by
  have hdir : (inPeriod ch).target.dir? = some x := h
  unfold periodBoundary
  dsimp only
  rw [if_neg (by simp [hr])]
  split
  · next hd => exact absurd (hdir.symm.trans hd) (by simp)
  · next y hd =>
    obtain rfl : x = y := Option.some.inj (hdir.symm.trans hd)
    rw [meetsOpposite_of_dir hd]
    rfl

theorem periodBoundary_takes {x : Dir} (hr : ch.reversing = false) (h : ch.target.dir? = some x)
    (hway : ch.lastDir = none ∨ ch.lastDir = some x ∨ (ch.stage.driving = false ∧ ch.gap = false)) :
    ch.periodBoundary now = setStage now ch.target ch.inPeriod := by
  have hfree : ch.opposes x = false ∨ (ch.stage.driving = false ∧ ch.gap = false) := by
    rcases hway with hl | hl | hrest
    · exact .inl (opposes_eq_false (.inl hl))
    · exact .inl (opposes_eq_false (.inr hl))
    · exact .inr hrest
  rw [periodBoundary_of_dir hr h]
  rcases hfree with ho | ⟨hd, hg⟩
  · rw [ho]
    rfl
  · rw [hd, hg]
    simp

theorem periodBoundary_reverses {x y : Dir} (hr : ch.reversing = false) (h : ch.target.dir? = some x)
    (hl : ch.lastDir = some y) (hne : y ≠ x) (hd : ch.stage.driving = true) :
    ch.periodBoundary now = setStage now .coast { ch.inPeriod with reversing := true } := by
  rw [periodBoundary_of_dir hr h, opposes_eq_true hl hne, hd]
  rfl

theorem periodBoundary_waits {x y : Dir} (hr : ch.reversing = false) (h : ch.target.dir? = some x)
    (hl : ch.lastDir = some y) (hne : y ≠ x) (hd : ch.stage.driving = false) (hg : ch.gap = true) :
    ch.periodBoundary now = { ch.inPeriod with reversing := true } := by
  rw [periodBoundary_of_dir hr h, opposes_eq_true hl hne, hd, hg]
  rfl

/-! ### The end of the 50 us (R34) -/

theorem passageEnd_of_no_gap (h : ch.gap = false) : ch.passageEnd now = ch := if_pos (by simp [h])
theorem passageEnd_of_gap (h : ch.gap = true) : ch.passageEnd now = if ch.reversing then
    setStage now ch.target { ch.inPeriod with gap := false, reversing := false } else { ch with gap := false } :=
  if_neg (by simp [h])

/-- A channel whose stage, passage, period and watch alone may have changed. -/
structure StageMoved (ch x : Channel) : Prop where
  mode : x.mode = ch.mode
  owner : x.owner = ch.owner
  count : x.count = ch.count
  stall : x.stall = ch.stall
  settings : x.settings = ch.settings

/-- A boundary takes one of four ways; in each the period has the frequency of the settings. -/
theorem periodBoundary_cases {P : Channel → Prop} (hstays : P ch.inPeriod) (hwaits : P { ch.inPeriod with reversing := true })
    (hreverses : P (setStage now .coast { ch.inPeriod with reversing := true })) (htakes : P (setStage now ch.target ch.inPeriod)) :
    P (ch.periodBoundary now) := by
  cases hr : ch.reversing with
  | true =>
    rw [periodBoundary_of_reversing hr]
    exact hstays
  | false =>
    cases hx : ch.target.dir? with
    | none =>
      rw [periodBoundary_of_rest hr (Stage.driving_eq_false.mpr hx)]
      exact hstays
    | some x =>
      rw [periodBoundary_of_dir hr hx]
      split_ifs
      · exact hreverses
      · exact hwaits
      · exact htakes

theorem periodBoundary_period (now : Word) (ch : Channel) : (ch.periodBoundary now).periodPwm = ch.settings.pwm :=
  periodBoundary_cases (P := fun x => x.periodPwm = ch.settings.pwm) rfl rfl rfl rfl

theorem periodBoundary_moved (now : Word) (ch : Channel) : StageMoved ch (ch.periodBoundary now) :=
  periodBoundary_cases ⟨rfl, rfl, rfl, rfl, rfl⟩ ⟨rfl, rfl, rfl, rfl, rfl⟩ ⟨rfl, rfl, rfl, rfl, rfl⟩ ⟨rfl, rfl, rfl, rfl, rfl⟩

theorem passageEnd_moved (now : Word) (ch : Channel) : StageMoved ch (ch.passageEnd now) := by
  unfold passageEnd
  split_ifs <;> exact ⟨rfl, rfl, rfl, rfl, rfl⟩

end Channel

namespace Chip
variable {c d : Chip} {m : Fin 4} {f : Word → Channel → Channel}

theorem keptBut_modCh (m : Fin 4) (f : Channel → Channel) (c : Chip) : KeptBut [.motor] c (c.modCh m f) := keptBut_motor _ c

theorem stageEvent_motor (m : Fin 4) (f : Word → Channel → Channel) (c : Chip) :
    (stageEvent m f c).motor = (c.modCh m (f c.control.ms)).motor := keptBut_publishIf _ _ _ .motor (by simp)
theorem stageEvent_same (m : Fin 4) (f : Word → Channel → Channel) (c : Chip) :
    (stageEvent m f c).motor.ch[m] = f c.control.ms c.motor.ch[m] :=
  (congrArg (fun x : Motor => x.ch[m]) (stageEvent_motor m f c)).trans (modCh_same _ _ _)

/-- What an event of a stage leaves beside the stage itself (R52). -/
structure StageTold (m : Fin 4) (c d : Chip) : Prop where
  path : d.path = if d.motor.ch[m].stage = c.motor.ch[m].stage then c.path else c.path.join (.motorStatus m)
  other : ∀ k : Fin 4, k ≠ m → d.motor.ch[k] = c.motor.ch[k]
  window : d.motor.windowEnd = c.motor.windowEnd
  moved : c.motor.ch[m].StageMoved d.motor.ch[m]
  kept : KeptBut [.motor, .path] c d

theorem stageEvent_told (hf : ∀ now ch, Channel.StageMoved ch (f now ch)) (m : Fin 4) (c : Chip) :
    StageTold m c (stageEvent m f c) where
  path := by
    rw [stageEvent_same]
    unfold stageEvent publishIf
    dsimp only
    rw [modCh_same]
    split_ifs <;> simp_all
  other k hk := (congrArg (fun x : Motor => x.ch[k]) (stageEvent_motor m f c)).trans (modCh_other _ _ _ _ hk)
  window := (congrArg Motor.windowEnd (stageEvent_motor m f c)).trans (modCh_windowEnd _ _ _)
  moved := stageEvent_same m f c ▸ hf _ _
  kept := ((keptBut_modCh m _ c).mono (by simp)).trans ((keptBut_publishIf _ _ _).mono (by simp))

theorem pwmBoundary_of_on (h : c.on .motor = true) : pwmBoundary m c = stageEvent m Channel.periodBoundary c := if_pos h
theorem passageEnd_of_on (h : c.on .motor = true) : passageEnd m c = stageEvent m Channel.passageEnd c := if_pos h

/-- Settles O32: each event of a stage is one case of `periodBoundary` or `passageEnd` on the channel (`stageEvent_same`);
what it leaves besides is `stageEvent_told`. -/
theorem stageAtPeriodAndPassage : Obligations.StageAtPeriodAndPassage := by
  unfold Obligations.StageAtPeriodAndPassage
  intro s m hon a told
  have hperiod := stageEvent_told Channel.periodBoundary_moved m s.hw
  have hpassage := stageEvent_told Channel.passageEnd_moved m s.hw
  have hboundary := stageEvent_same m Channel.periodBoundary s.hw
  have hend := stageEvent_same m Channel.passageEnd s.hw
  rw [← pwmBoundary_of_on hon] at hperiod hboundary
  rw [← passageEnd_of_on hon] at hpassage hend
  have htold {d : Chip} (h : StageTold m s.hw d) : told d := ⟨h.path, h.other, h.window, h.moved.mode, h.moved.owner,
    h.moved.count, h.moved.stall, h.moved.settings, h.kept⟩
  refine ⟨fun hr => act_answers rfl ⟨?_, htold hperiod⟩,
    fun hr => act_answers rfl ⟨?_, htold hperiod, fun ht => ?_, fun x hx => ?_⟩,
    fun hg hd => act_answers rfl ?_, fun hg => act_answers rfl ⟨?_, htold hpassage⟩⟩
  · exact hboundary.trans (Channel.periodBoundary_of_reversing hr)
  · rw [hboundary]
    exact Channel.periodBoundary_period _ _
  · rw [hboundary, Channel.periodBoundary_of_rest hr ht]
    exact ⟨rfl, hr, rfl⟩
  · rw [hboundary]
    refine ⟨fun hway => ?_, fun y hl hne hdrive => ?_, fun y hl hne hrest hg => ?_⟩
    · rw [Channel.periodBoundary_takes hr hx hway]
      exact ⟨rfl, (if_pos (Stage.driving_of_dir hx)).trans hx, hr, Channel.setStage_watch _ _ _⟩
    · rw [Channel.periodBoundary_reverses hr hx hl hne hdrive]
      refine ⟨rfl, hl, rfl, ?_, Channel.setStage_watch_of_rest _ rfl _⟩
      exact (congrArg (a.gap || ·) hdrive).trans (Bool.or_true _)
    · rw [Channel.periodBoundary_waits hr hx hl hne hrest hg]
      exact ⟨rfl, rfl, rfl⟩
  · refine ⟨?_, ?_, htold hpassage, ?_⟩
    all_goals rw [hend, Channel.passageEnd_of_gap hg]
    · split_ifs
      · show (!a.target.driving && (false || a.stage.driving)) = false
        rw [hd, Bool.or_false, Bool.and_false]
      · rfl
    · split_ifs with hr
      · rfl
      · exact Bool.eq_false_iff.mpr hr
    · split_ifs
      · exact ⟨rfl, rfl, Channel.setStage_watch _ _ _⟩
      · exact ⟨rfl, rfl, rfl⟩
  · exact hend.trans (Channel.passageEnd_of_no_gap hg)

end Chip
end Sys2Proof.Machine
end

section
namespace Sys2Proof.Machine

/-! ## What a motor operation tells

A command or an event of a motor appends and raises in between its work on the channel; the statements append and raise on
the chip as it was. Both tell the same as long as they agree in all but motors, lines, memory and the last response. -/

/-- What is in flight once a publication of a record is marked stale (R30, R107). -/
def stalePort (r : RecId) : Option InFlight → Option InFlight
  | some (.publication q data stale) => some (.publication q data (if q = r then true else stale))
  | x => x

namespace Chip
variable {a b c d e : Chip} {m : Fin 4}

theorem markStale_path (r : RecId) (c : Chip) : (markStale r c).path = { c.path with port := stalePort r c.path.port } := by
  have hself : c.path = { c.path with port := c.path.port } := rfl
  unfold markStale
  rcases hp : c.path.port with _ | ⟨⟩ | ⟨q, data, stale⟩ | ⟨⟩ | ⟨⟩
  case some.publication =>
    dsimp only [stalePort]
    split_ifs
    · rfl
    · rw [hp] at hself
      exact hself
  all_goals
    rw [hp] at hself
    exact hself

theorem raiseCause_path (k : Cause) (c : Chip) : (raiseCause k c).path
    = if c.attention.pending[k.idx] then c.path else c.path.join .attention := by
  unfold raiseCause changeAttention publishIf
  split_ifs with hp
  · rfl
  · have hflag : (c.attention.pending.set k.idx true != c.attention.pending) = true :=
      bne_iff_ne.mpr fun heq => hp (by rw [← heq]; simp)
    dsimp only
    rw [hflag, Bool.true_or, if_pos rfl, publish_path]

/-- Two chips that tell alike: what either reports, the other reports too. -/
structure Echoes (a b : Chip) : Prop extends Alike a b where
  path : b.path = { a.path with response := b.path.response }

namespace Echoes

theorem refl (c : Chip) : Echoes c c := ⟨⟨⟨rfl, rfl⟩, rfl⟩, rfl⟩

theorem mem_pubs {r : RecId} (h : Echoes a b) : r ∈ b.path.pubs ↔ r ∈ a.path.pubs := by rw [h.path]

theorem of_kept {l : List Part} (h : Echoes a b) (k : KeptBut l b d)
    (hl : .ring ∉ l ∧ .control ∉ l ∧ .attention ∉ l ∧ .path ∉ l) : Echoes a d := by
  obtain ⟨hring, hcontrol, hattention, hpath⟩ := hl
  have hsame : d.path = b.path := k .path hpath
  exact ⟨h.toAlike.of_kept k hring hcontrol hattention, by rw [hsame]; exact h.path⟩

theorem modCh (h : Echoes a b) (m : Fin 4) (f : Channel → Channel) : Echoes a (modCh m f b) :=
  h.of_kept (keptBut_motor _ b) (by simp)

theorem publish (r : RecId) (h : Echoes a b) : Echoes (publish r a) (publish r b) := by
  refine ⟨⟨⟨by simpa using h.ring, by simpa using h.ms⟩, by simpa using h.attention⟩, ?_⟩
  rw [publish_path, publish_path]
  exact congrArg (Path.join r) h.path

theorem markStale (r : RecId) (h : Echoes a b) : Echoes (markStale r a) (markStale r b) := by
  refine ⟨⟨⟨by simpa using h.ring, by simpa using h.ms⟩, by simpa using h.attention⟩, ?_⟩
  have hresponse : (Chip.markStale r b).path.response = b.path.response := by simp
  rw [hresponse, markStale_path, markStale_path]
  exact congrArg (fun p : Path => { p with port := stalePort r p.port }) h.path

theorem raiseCause (k : Cause) (h : Echoes a b) : Echoes (raiseCause k a) (raiseCause k b) := by
  refine ⟨⟨⟨by simpa using h.ring, by simpa using h.ms⟩, raiseCause_attention_congr k h.toAlike⟩, ?_⟩
  rw [raiseCause_path, raiseCause_path, h.attention]
  split_ifs
  · exact h.path
  · exact congrArg (Path.join .attention) h.path

theorem appendRoom (k : EventKind) (x y : Byte) (h : Echoes a b) : Echoes (appendRoom k x y a) (appendRoom k x y b) := by
  have hpush : Echoes { a with ring := a.ring.push a.control.ms k x y } { b with ring := b.ring.push b.control.ms k x y } :=
    ⟨⟨⟨by rw [h.ring, h.ms], h.ms⟩, h.attention⟩, h.path⟩
  unfold Chip.appendRoom
  dsimp only
  rw [h.ring] at hpush ⊢
  have htold := (hpush.publish (.ringEntry b.ring.tail)).markStale (.ringEntry b.ring.tail)
  split_ifs
  · exact htold.raiseCause .event
  · exact htold

theorem appendDropped (h : Echoes a b) : Echoes (appendDropped a) (appendDropped b) :=
  publish .ringStatus ⟨⟨⟨congrArg Ring.drop h.ring, h.ms⟩, h.attention⟩, h.path⟩

/-- What an append does depends on ring, attention flags, path and time alone (R104 to R106). -/
theorem append (k : EventKind) (x y : Byte) (h : Echoes a b) : Echoes (append k x y a) (append k x y b) := by
  have hlost (d e : Chip) (hd : Echoes d e) : Echoes (Chip.publish .ringStatus { d with ring := { d.ring with lostPending := 0 } })
      (Chip.publish .ringStatus { e with ring := { e.ring with lostPending := 0 } }) :=
    publish .ringStatus ⟨⟨⟨congrArg (fun x : Ring => { x with lostPending := 0 }) hd.ring, hd.ms⟩, hd.attention⟩, hd.path⟩
  unfold Chip.append
  rw [h.ring]
  split_ifs
  · exact h.appendDropped
  · exact h.appendRoom k x y
  · have h1 := hlost _ _ (h.appendRoom .lost 0 b.ring.lostPending)
    dsimp only
    rw [h1.ring]
    split_ifs
    · exact h1.appendRoom k x y
    · exact h1.appendDropped

/-- An operation that ends, where both chips have the same one running (R40, R41). -/
theorem endOperation (m : Fin 4) (x : Code) (h : Echoes a b) (hm : a.motor.ch[m].mode.running = b.motor.ch[m].mode.running) :
    Echoes (endOperation m x a) (endOperation m x b) := by
  unfold Chip.endOperation
  rw [hm]
  split_ifs
  · exact h.append _ _ _
  · exact h

end Echoes

/-! ### Channels after an update of one -/

variable {f : Channel → Channel}

theorem channel_of_modCh (h : d.motor = (c.modCh m f).motor) : d.motor.ch[m] = f c.motor.ch[m] :=
  (congrArg (fun x : Motor => x.ch[m]) h).trans (modCh_same _ _ _)
theorem others_of_modCh (h : d.motor = (c.modCh m f).motor) (k : Fin 4) (hk : k ≠ m) : d.motor.ch[k] = c.motor.ch[k] :=
  (congrArg (fun x : Motor => x.ch[k]) h).trans (modCh_other _ _ _ _ hk)
theorem window_of_modCh (h : d.motor = (c.modCh m f).motor) : d.motor.windowEnd = c.motor.windowEnd :=
  (congrArg Motor.windowEnd h).trans (modCh_windowEnd _ _ _)

theorem modCh_modCh (m : Fin 4) (f g : Channel → Channel) (c : Chip) : modCh m g (modCh m f c) = modCh m (fun x => g (f x)) c := by
  simp [modCh]

/-- What no command touches in its own channel. -/
structure Uncommanded (ch x : Channel) : Prop where
  levels : x.levels = ch.levels
  tally : x.tally = ch.tally
  speed : x.speed = ch.speed
  period : x.periodPwm = ch.periodPwm

theorem channelKept_of_modCh (h : d.motor = (c.modCh m f).motor) (hf : Uncommanded c.motor.ch[m] (f c.motor.ch[m])) :
    ChannelKept m c d := by
  have hch := channel_of_modCh h
  exact ⟨hch ▸ hf.levels, hch ▸ hf.tally, hch ▸ hf.speed, hch ▸ hf.period, others_of_modCh h, window_of_modCh h⟩

/-! ### The end of an operation with its end action (R37, R39) -/

theorem setMode_eq (m : Fin 4) (y : Mode) (c : Chip) : setMode m y c = modCh m (Channel.setMode c.control.ms y) c := rfl

/-- An end action puts the stage to rest at once, in every stall state (R33, R49). -/
theorem setMode_endAction (now : Word) (x : EndAction) (ch : Channel) : Channel.setMode now x.mode ch
    = Channel.setStage now x.mode.target { ch with mode := x.mode, reversing := false } := by
  cases x with
  | coast => exact setMode_of_stops (.inl ⟨rfl, rfl⟩) now ch
  | brake => exact setMode_of_stops (.inr ⟨rfl, rfl⟩) now ch

/-- A channel y whose operation has ended with an end action. -/
structure EndsWith (x : EndAction) (ch y : Channel) : Prop extends Uncommanded ch y where
  mode : y.mode = x.mode
  stage : y.stage = if x = .brake then .brake else .coast
  count : y.count = ch.count
  stall : y.stall = ch.stall
  owner : y.owner = ch.owner
  deadline : y.deadline = ch.deadline

theorem endsWith_setMode (now : Word) (x : EndAction) (ch : Channel) : EndsWith x ch (Channel.setMode now x.mode ch) := by
  have htarget : x.mode.target = if x = .brake then .brake else .coast := by cases x <;> rfl
  rw [setMode_endAction]
  exact ⟨⟨rfl, rfl, rfl, rfl⟩, rfl, htarget, rfl, rfl, rfl, rfl⟩

end Chip
end Sys2Proof.Machine
end

section
namespace Sys2Proof.Machine.Chip
variable {a c d : Chip} {m : Fin 4} {x y : Bool}

/-! ## The encoder (R42, R43, R39) -/

/-- The channel after a counted step (R42). -/
def counted (now : Word) (n : Int) (ch : Channel) : Channel :=
  { ch with count := ch.count + BitVec.ofInt 32 n, tally := ch.tally + n, watch := ch.watch.map (fun _ => now) }

/-- The chip after the lines of a motor have taken levels. -/
def lined (m : Fin 4) (l : Bool × Bool) (c : Chip) : Chip :=
  { c with pins := { c.pins with encoder := c.pins.encoder.set m l } }

/-- The chip after an ON unit has taken the levels of its lines too. -/
def decoded (m : Fin 4) (l : Bool × Bool) (c : Chip) : Chip :=
  (lined m l c).modCh m (fun ch => { ch with levels := some l })

theorem keptBut_lined (m : Fin 4) (l : Bool × Bool) (c : Chip) : KeptBut [.pins] c (lined m l c) := fun p hp => by
  cases p <;> simp at hp <;> rfl

theorem encoderLines_of_off (h : c.on .motor = false) : encoderLines m x y c = lined m (x, y) c :=
  if_pos (congrArg (! ·) h)

theorem encoderLines_of_on (h : c.on .motor = true) : encoderLines m x y c
    = match c.motor.ch[m].levels with
      | none => decoded m (x, y) c
      | some old =>
        match quadStep old (x, y) with
        | none => decoded m (x, y) c
        | some n => countStep m n (decoded m (x, y) c) :=
  (if_neg fun hn => Bool.false_ne_true ((congrArg (! ·) h).symm.trans hn)).trans rfl

theorem encoderLines_uncounted (h : c.on .motor = true) (hq : ∀ l, c.motor.ch[m].levels = some l → quadStep l (x, y) = none) :
    encoderLines m x y c = decoded m (x, y) c := by
  rw [encoderLines_of_on h]
  cases hl : c.motor.ch[m].levels with
  | none => rfl
  | some l =>
    dsimp only
    rw [hq l hl]

theorem encoderLines_counted {l : Bool × Bool} {n : Int} (h : c.on .motor = true) (hl : c.motor.ch[m].levels = some l)
    (hq : quadStep l (x, y) = some n) : encoderLines m x y c = countStep m n (decoded m (x, y) c) := by
  rw [encoderLines_of_on h, hl]
  dsimp only
  rw [hq]

/-- A counted step, and the completion test of R39 after it. -/
theorem countStep_eq (m : Fin 4) (n : Int) (c : Chip) : countStep m n c = publish (.motorStatus m)
    (match c.motor.ch[m].mode with
      | .runTo _ t e w => if runReached w t (c.motor.ch[m].count + BitVec.ofInt 32 n)
        then runDone m .ok (setMode m e.mode (c.modCh m (counted c.control.ms n))) else c.modCh m (counted c.control.ms n)
      | _ => c.modCh m (counted c.control.ms n)) := by
  have hch : (c.modCh m (counted c.control.ms n)).motor.ch[m] = counted c.control.ms n c.motor.ch[m] := modCh_same _ _ _
  show publish _ (match (c.modCh m (counted c.control.ms n)).motor.ch[m].mode with
    | .runTo _ t e w => if runReached w t (c.modCh m (counted c.control.ms n)).motor.ch[m].count
      then runDone m .ok (setMode m e.mode (c.modCh m (counted c.control.ms n))) else c.modCh m (counted c.control.ms n)
    | _ => c.modCh m (counted c.control.ms n)) = _
  rw [hch]
  rfl

/-- A counted step that completes no RUN_TO (R42). -/
theorem countStep_goes (n : Int) (h : ∀ g t e w, c.motor.ch[m].mode = .runTo g t e w →
    runReached w t (c.motor.ch[m].count + BitVec.ofInt 32 n) = false) :
    countStep m n c = publish (.motorStatus m) (c.modCh m (counted c.control.ms n)) := by
  rw [countStep_eq]
  cases hm : c.motor.ch[m].mode with
  | runTo g t e w => exact congrArg _ (if_neg (Bool.eq_false_iff.mp (h g t e w hm)))
  | _ => rfl

/-- A counted step after which a RUN_TO has reached its target (R39). -/
theorem countStep_reached {g : Nat} {t : Word} {e : EndAction} {w : Dir} (n : Int) (hm : c.motor.ch[m].mode = .runTo g t e w)
    (h : runReached w t (c.motor.ch[m].count + BitVec.ofInt 32 n) = true) : countStep m n c
      = publish (.motorStatus m) (runDone m .ok (setMode m e.mode (c.modCh m (counted c.control.ms n)))) := by
  rw [countStep_eq, hm]
  exact congrArg _ (if_pos h)

/-- The table of R42. -/
theorem quadStep_iff (l : Bool × Bool) (x y : Bool) (n : Int) : quadStep l (x, y) = some n ↔
    (n = 1 ∧ (l, (x, y)) ∈ [((false, false), (true, false)), ((true, false), (true, true)),
      ((true, true), (false, true)), ((false, true), (false, false))])
    ∨ (n = -1 ∧ (l, (x, y)) ∈ [((false, false), (false, true)), ((true, false), (false, false)),
      ((true, true), (true, false)), ((false, true), (true, true))]) := by
  obtain ⟨u, v⟩ := l
  cases u <;> cases v <;> cases x <;> cases y <;> simp [quadStep, eq_comm]

/-- The channel after its lines have taken levels that count (R42). -/
def stepped (now : Word) (l : Bool × Bool) (n : Int) (ch : Channel) : Channel := counted now n { ch with levels := some l }

theorem modCh_decoded (m : Fin 4) (l : Bool × Bool) (f : Channel → Channel) (c : Chip) :
    (modCh m f (decoded m l c)).motor = (c.modCh m (fun ch => f { ch with levels := some l })).motor :=
  (congrArg Chip.motor (modCh_modCh m _ f (lined m l c))).trans rfl

theorem decoded_channel (m : Fin 4) (l : Bool × Bool) (c : Chip) :
    (decoded m l c).motor.ch[m] = { c.motor.ch[m] with levels := some l } := modCh_same _ _ _

theorem keptBut_decoded (m : Fin 4) (l : Bool × Bool) (c : Chip) : KeptBut [.pins, .motor] c (decoded m l c) :=
  ((keptBut_lined m l c).mono (by simp)).trans ((keptBut_modCh m _ _).mono (by simp))

theorem keptBut_setMode (m : Fin 4) (y : Mode) (c : Chip) : KeptBut [.motor] c (setMode m y c) := keptBut_motor _ c
theorem keptBut_runDone (m : Fin 4) (x : Code) (c : Chip) : KeptBut [.ring, .attention, .path] c (runDone m x c) :=
  keptBut_append _ _ _ c

/-- A RUN_TO that a step completes: what it reports, and the channel that it leaves (R39, R41). -/
theorem countStep_completes {g : Nat} {t : Word} {e : EndAction} {w : Dir} (n : Int) (l : Bool × Bool)
    (hm : c.motor.ch[m].mode = .runTo g t e w) (h : runReached w t (c.motor.ch[m].count + BitVec.ofInt 32 n) = true) :
    Echoes (publish (.motorStatus m) (c.append .runDone (Bytes.ofNat m.val) 0)) (countStep m n (decoded m l c))
    ∧ (countStep m n (decoded m l c)).motor
      = (c.modCh m (fun ch => Channel.setMode c.control.ms e.mode (stepped c.control.ms l n ch))).motor
    ∧ KeptBut [.motor, .ring, .attention, .path] (decoded m l c) (countStep m n (decoded m l c)) := by
  have hch := decoded_channel m l c
  have hstep := countStep_reached (c := decoded m l c) (m := m) n (by rw [hch]; exact hm) (by rw [hch]; exact h)
  rw [hstep]
  refine ⟨?_, ?_, ?_⟩
  · have hwork : Echoes c (setMode m e.mode ((decoded m l c).modCh m (counted (decoded m l c).control.ms n))) :=
      ((((Echoes.refl c).of_kept (keptBut_decoded m l c) (by simp)).modCh m _).of_kept (keptBut_setMode m _ _) (by simp))
    exact (hwork.append .runDone (Bytes.ofNat m.val) 0).publish _
  · rw [keptBut_publish _ _ .motor (by simp), keptBut_runDone _ _ _ .motor (by simp), setMode_eq, modCh_modCh]
    exact modCh_decoded m l _ c
  · exact ((keptBut_modCh m _ _).mono (by simp)).trans (((keptBut_setMode m _ _).mono (by simp)).trans
      (((keptBut_runDone m _ _).mono (by simp)).trans ((keptBut_publish _ _).mono (by simp))))

/-- Settles O33: the unit's answer by what it decodes (`encoderLines_uncounted`, `countStep_goes`, `countStep_completes`). -/
theorem encoderStepCounted : Obligations.EncoderStepCounted := by
  unfold Obligations.EncoderStepCounted
  intro s m x y hinv a lines
  have hdecoded := keptBut_decoded m (x, y) s.hw
  have hlines {d : Chip} {f : Channel → Channel} {l : List Part} (hk : KeptBut l (decoded m (x, y) s.hw) d) (hl : .pins ∉ l)
      (hd : d.motor = (s.hw.modCh m f).motor) : lines d :=
    ⟨(hk .pins hl).trans rfl, others_of_modCh hd, window_of_modCh hd⟩
  refine ⟨fun hoff => act_answers rfl ?_, fun hon hq => act_answers rfl ?_, fun l n hon hl hq => ⟨fun hgoes => act_answers rfl ?_,
    fun g t e w hm hr => act_answers rfl ?_⟩, fun l n => quadStep_iff l x y n, fun t n => ⟨decide_eq_true_iff, decide_eq_true_iff⟩⟩
  · rw [encoderLines_of_off hoff]
    exact ⟨⟨rfl, fun _ _ => rfl, rfl⟩, keptBut_lined m (x, y) s.hw⟩
  · rw [encoderLines_uncounted hon hq]
    exact ⟨hlines (f := fun ch => { ch with levels := some (x, y) }) (KeptBut.refl [] _) (by simp) rfl, decoded_channel m (x, y) s.hw, hdecoded⟩
  · rw [encoderLines_counted hon hl hq, countStep_goes n (by rw [decoded_channel]; exact hgoes)]
    have hk : KeptBut [.motor, .path] (decoded m (x, y) s.hw) _ :=
      ((keptBut_modCh m (counted s.hw.control.ms n) _).mono (by simp)).trans ((keptBut_publish (.motorStatus m) _).mono (by simp))
    have hmotor := (keptBut_publish (.motorStatus m) _ .motor (by simp)).trans
      (modCh_decoded m (x, y) (counted s.hw.control.ms n) s.hw)
    exact ⟨hlines hk (by simp) hmotor, channel_of_modCh hmotor, publish_path _ _, (hdecoded.mono (by simp)).trans (hk.mono (by simp))⟩
  · rw [encoderLines_counted hon hl hq]
    obtain ⟨htold, hmotor, hk⟩ := countStep_completes n (x, y) hm hr
    have hend := endsWith_setMode s.hw.control.ms e (stepped s.hw.control.ms (x, y) n s.hw.motor.ch[m])
    rw [← channel_of_modCh hmotor] at hend
    refine ⟨hlines hk (by simp) hmotor, hend.mode, hend.count, hend.tally, hend.levels, hend.owner, hend.deadline,
      fun _ => hend.stage, htold.ring.symm.trans (by simp), htold.attention.symm.trans (by simp), ?_,
      (hdecoded.mono (by simp)).trans (hk.mono (by simp))⟩
    exact htold.mem_pubs.mpr ((mem_pubs_publish _ _ _).mpr (.inl rfl))

end Sys2Proof.Machine.Chip
end

section
namespace Sys2Proof.Machine.Chip
variable {c d : Chip} {m : Fin 4}

/-! ## The end of a PULSE (R37, R41) -/

theorem pulseExpiry_early {v : Int} {t : Word} {e : EndAction} (hm : c.motor.ch[m].mode = .pulse v t e)
    (h : reached c.control.ms t = false) : pulseExpiry m c = c := by
  unfold pulseExpiry
  rw [hm]
  exact if_neg (by simp [h])

theorem pulseExpiry_reached {v : Int} {t : Word} {e : EndAction} (hm : c.motor.ch[m].mode = .pulse v t e)
    (hon : c.on .motor = true) (h : reached c.control.ms t = true) :
    pulseExpiry m c = runDone m .ok (publish (.motorStatus m) (setMode m e.mode c)) := by
  unfold pulseExpiry
  rw [hm]
  exact if_pos (by simp [hon, h])

/-- What two chips that tell alike and gave the same response report is the same. -/
theorem Echoes.reports (h : Echoes c d) (hr : d.path.response = c.path.response) : Reports c d := by
  refine ⟨h.ring.symm, h.attention.symm, ?_⟩
  rw [h.path, hr]

/-! ## Speed windows (R45) -/

/-- The channel after its speed window has ended. -/
def measured (ch : Channel) : Channel := { ch with speed := satSpeed ch.tally, tally := 0 }

theorem speedOf_eq (m : Fin 4) (c : Chip) : speedOf m c
    = publishIf ((measured c.motor.ch[m]).speed != c.motor.ch[m].speed) (.motorStatus m) (c.modCh m measured) := by
  have hch : (c.modCh m measured).motor.ch[m] = measured c.motor.ch[m] := modCh_same _ _ _
  rw [← hch]
  rfl

theorem speedOf_motor (m : Fin 4) (c : Chip) : (speedOf m c).motor = (c.modCh m measured).motor := by
  rw [speedOf_eq]
  exact keptBut_publishIf _ _ _ .motor (by simp)

theorem keptBut_speedOf (m : Fin 4) (c : Chip) : KeptBut [.motor, .path] c (speedOf m c) := by
  rw [speedOf_eq]
  exact ((keptBut_modCh m _ c).mono (by simp)).trans ((keptBut_publishIf _ _ _).mono (by simp))

theorem speedOf_path (m : Fin 4) (c : Chip) : (speedOf m c).path = { c.path with pubs := (speedOf m c).path.pubs } := by
  rw [speedOf_eq]
  unfold publishIf
  split_ifs
  · rw [publish_path]
    rfl
  · rfl

theorem speedOf_pubs (m : Fin 4) (c : Chip) (r : RecId) : r ∈ (speedOf m c).path.pubs ↔
    ((measured c.motor.ch[m]).speed ≠ c.motor.ch[m].speed ∧ r = .motorStatus m) ∨ r ∈ c.path.pubs := by
  rw [speedOf_eq, mem_pubs_publishIf, bne_iff_ne]
  rfl

theorem forEach_speedOf_channel {xs : List (Fin 4)} (hx : xs.Nodup) (c : Chip) (m : Fin 4) :
    (forEach xs speedOf c).motor.ch[m] = if m ∈ xs then measured c.motor.ch[m] else c.motor.ch[m] :=
  forEach_each (fun m d => d.motor.ch[m]) (fun _ => measured) (fun _ => True) (fun _ _ _ => trivial)
    (fun k d _ => channel_of_modCh (speedOf_motor k d)) (fun j k d _ hjk => others_of_modCh (speedOf_motor k d) j hjk) hx trivial m

theorem forEach_speedOf_pubs {xs : List (Fin 4)} (hx : xs.Nodup) (c : Chip) (r : RecId) :
    r ∈ (forEach xs speedOf c).path.pubs ↔ r ∈ c.path.pubs
      ∨ ∃ m ∈ xs, r = .motorStatus m ∧ (measured c.motor.ch[m]).speed ≠ c.motor.ch[m].speed := by
  induction xs generalizing c with
  | nil => simp
  | cons k xs ih =>
    obtain ⟨hnot, hx⟩ := List.nodup_cons.mp hx
    have hrest : (∃ m ∈ xs, r = .motorStatus m ∧ (measured (speedOf k c).motor.ch[m]).speed ≠ (speedOf k c).motor.ch[m].speed)
        ↔ ∃ m ∈ xs, r = .motorStatus m ∧ (measured c.motor.ch[m]).speed ≠ c.motor.ch[m].speed :=
      exists_congr fun m => and_congr_right fun hm => by
        rw [others_of_modCh (speedOf_motor k c) m fun he => hnot (he ▸ hm)]
    rw [forEach_cons, ih hx, speedOf_pubs, hrest, List.exists_mem_cons_iff, or_comm (a := _ ∧ _), or_assoc,
      and_comm (a := _ ≠ _)]

theorem speedWindow_reached (hon : c.on .motor = true) (h : reached c.control.ms c.motor.windowEnd = true) : speedWindow c
    = { forEach (List.finRange 4) speedOf c with motor := { (forEach (List.finRange 4) speedOf c).motor with
        windowEnd := nextMultiple 100 (forEach (List.finRange 4) speedOf c).control.ms } } := by
  unfold speedWindow
  rw [if_pos (by simp [hon, h])]

/-- Settles O34: a PULSE ends with its end action (`endsWith_setMode`) and tells it (`Echoes`); a speed window ends channel by
channel (`forEach_speedOf_channel`, `forEach_speedOf_pubs`). -/
theorem pulseAndWindowEnd : Obligations.PulseAndWindowEnd := by
  unfold Obligations.PulseAndWindowEnd
  intro s hinv hon
  refine ⟨fun m v t e hm => ⟨fun h => act_same rfl (pulseExpiry_early hm h), fun h => act_answers rfl ?_⟩,
    fun h => act_answers rfl ?_⟩
  · rw [pulseExpiry_reached hm hon h]
    have hmode := keptBut_setMode m e.mode s.hw
    have htold := (((Echoes.refl s.hw).of_kept hmode (by simp)).publish (.motorStatus m)).append .runDone (Bytes.ofNat m.val) 0
    have hmotor : (runDone m .ok (publish (.motorStatus m) (setMode m e.mode s.hw))).motor
        = (s.hw.modCh m (Channel.setMode s.hw.control.ms e.mode)).motor := by
      rw [keptBut_runDone _ _ _ .motor (by simp), keptBut_publish _ _ .motor (by simp)]
      rfl
    have hend := endsWith_setMode s.hw.control.ms e s.hw.motor.ch[m]
    refine ⟨?_, fun _ => ?_, ?_, ?_, ?_, ?_, channelKept_of_modCh hmotor hend.toUncommanded, ?_, ?_⟩
    · rw [channel_of_modCh hmotor, hend.mode]
    · rw [channel_of_modCh hmotor, hend.stage]
    · rw [channel_of_modCh hmotor, hend.owner]
    · rw [channel_of_modCh hmotor, hend.deadline]
    · rw [channel_of_modCh hmotor, hend.count]
    · rw [channel_of_modCh hmotor, hend.stall]
    · rw [← publish_eq]
      exact htold.reports (by simp)
    · exact (hmode.mono (by simp)).trans (((keptBut_publish _ _).mono (by simp)).trans ((keptBut_runDone _ _ _).mono (by simp)))
  · have hch (m : Fin 4) := (forEach_speedOf_channel (List.nodup_finRange 4) s.hw m).trans (if_pos (List.mem_finRange m))
    have hkept := forEach_keptBut (xs := List.finRange 4) keptBut_speedOf s.hw
    have hpubs := forEach_speedOf_pubs (List.nodup_finRange 4) s.hw
    have hpath : (forEach (List.finRange 4) speedOf s.hw).path
        = { s.hw.path with pubs := (forEach (List.finRange 4) speedOf s.hw).path.pubs } :=
      forEach_inv (fun d => d.path = { s.hw.path with pubs := d.path.pubs }) s.hw rfl fun m _ d hd => by rw [speedOf_path, hd]
    rw [speedWindow_reached hon h]
    generalize forEach (List.finRange 4) speedOf s.hw = d at hch hkept hpubs hpath
    refine ⟨?_, hch, fun r => (hpubs r).trans (or_congr_right (exists_congr fun m => ?_)), hpath,
      hkept.trans ((keptBut_motor _ _).mono (by simp))⟩
    · show nextMultiple 100 d.control.ms = _
      rw [hkept .control (by simp)]
    · rw [and_iff_right (List.mem_finRange m), ← hch m]

end Sys2Proof.Machine.Chip
end

section
namespace Sys2Proof.Machine.Chip
variable {c d : Chip} {m : Fin 4}

/-! ## Stalls and cooling (R48, R50) -/

/-- The channel as it enters STALLED (R48). -/
def stalledAt (now : Word) (ch : Channel) : Channel :=
  { Channel.setStage now .coast { ch with reversing := false } with mode := .coast, stall := .stalled, watch := none }

theorem modCh_motor_congr (m : Fin 4) (f : Channel → Channel) (h : d.motor = c.motor) :
    (modCh m f d).motor = (modCh m f c).motor := by
  unfold modCh
  rw [h]

theorem enterStalled_motor (m : Fin 4) (c : Chip) : (enterStalled m c).motor = (c.modCh m (stalledAt c.control.ms)).motor := by
  unfold enterStalled
  dsimp only
  rw [keptBut_publish _ _ .motor (by simp), keptBut_raiseCause _ _ .motor (by simp), keptBut_append _ _ _ _ .motor (by simp),
    modCh_modCh, modCh_motor_congr m _ (keptBut_endOperation m .stalled _ .motor (by simp)), modCh_modCh]
  rfl

theorem keptBut_enterStalled (m : Fin 4) (c : Chip) : KeptBut [.motor, .ring, .attention, .path] c (enterStalled m c) :=
  fun p hp => by cases p <;> simp at hp <;> simp [Part.same, enterStalled]

/-- What a stall tells: the operation that it ends, then its own event and cause (R40, R48). -/
theorem echoes_enterStalled (m : Fin 4) (c : Chip) : Echoes (publish (.motorStatus m)
    (raiseCause .stall ((c.endOperation m .stalled).append .stall (Bytes.ofNat m.val) Code.stalled.byte))) (enterStalled m c) := by
  have hcoast := (Echoes.refl c).modCh m (fun ch => Channel.setStage c.control.ms .coast { ch with reversing := false })
  have hends := hcoast.endOperation m .stalled (by rw [modCh_same]; rfl)
  exact ((((hends.modCh m _).modCh m _).append _ _ _).raiseCause _).publish _

theorem stallExpiry_of_due (h : c.stallDue m = true) : stallExpiry m c = (c.enterStalled m).handChange := if_pos h
theorem stallExpiry_of_not_due (h : c.stallDue m = false) : stallExpiry m c = c := if_neg (by simp [h])

theorem stallDue_iff : c.stallDue m = true ↔
    ∃ t, c.motor.ch[m].watch = some t ∧ c.on .motor = true ∧ c.motor.ch[m].settings.stallTime ≤ since c.control.ms t := by
  unfold stallDue
  cases hw : c.motor.ch[m].watch with
  | none => simp only [Bool.false_eq_true, reduceCtorEq, false_and, exists_false]
  | some t => simp only [Bool.and_eq_true, decide_eq_true_eq, Option.some.injEq, exists_eq_left']

theorem coolingEnd_early {t : Word} (hs : c.motor.ch[m].stall = .cooling t) (h : reached c.control.ms t = false) :
    coolingEnd m c = c := by
  unfold coolingEnd
  rw [hs]
  exact if_neg (by simp [h])

/-- The channel as its stall state becomes NORMAL (R47, R50). -/
def cooled (now : Word) (ch : Channel) : Channel := Channel.reviewWatch now { ch with stall := .normal }

theorem coolingEnd_reached {t : Word} (hs : c.motor.ch[m].stall = .cooling t) (hon : c.on .motor = true)
    (h : reached c.control.ms t = true) :
    coolingEnd m c = publish (.motorStatus m) (c.modCh m (cooled c.control.ms)) := by
  unfold coolingEnd
  rw [hs]
  exact if_pos (by simp [hon, h])

/-- Settles O35: a due stall is `enterStalled` with nothing handed on; the channel that it leaves is `enterStalled_motor`,
what it tells `echoes_enterStalled`. -/
theorem stallAndCooling : Obligations.StallAndCooling := by
  unfold Obligations.StallAndCooling
  intro s m hon hinv hu a
  refine ⟨fun t hw ht => ?_, fun hw => act_same rfl (stallExpiry_of_not_due ?_),
    fun t hs => ⟨fun h => act_same rfl (coolingEnd_early hs h), fun h => act_answers rfl ?_⟩⟩
  · have hdue : s.hw.stallDue m = true := stallDue_iff.mpr ⟨t, hw, hon, ht⟩
    have hkept := keptBut_enterStalled m s.hw
    have htold := echoes_enterStalled m s.hw
    have hmotor := enterStalled_motor m s.hw
    have hline := inv_lineOk (append_inv .stall (Bytes.ofNat m.val) Code.stalled.byte _ (endOperation_inv m .stalled s.hw hinv))
    refine act_answers rfl ?_
    rw [stallExpiry_of_due hdue, handChange_of_unwatched _ ((unwatched_congr s.hw _ (by rw [hkept .control (by simp)])
      (hkept .reflex (by simp))).trans hu)]
    have hfield {α : Type} (g : Channel → α) : g (s.hw.enterStalled m).motor.ch[m] = g (stalledAt s.hw.control.ms a) :=
      congrArg g (channel_of_modCh hmotor)
    refine ⟨hfield Channel.stage, hfield Channel.mode, hfield Channel.stall, hfield Channel.watch, hfield Channel.owner,
      hfield Channel.deadline, hfield Channel.count, hfield Channel.settings,
      channelKept_of_modCh hmotor ⟨rfl, rfl, rfl, rfl⟩, ?_, ?_, ?_, hkept⟩
    · exact htold.ring.symm.trans (by simp)
    · rw [← htold.attention, keptBut_publish _ _ .attention (by simp)]
      exact raiseCause_attention .stall _ hline
    · exact htold.mem_pubs.mpr ((mem_pubs_publish _ _ _).mpr (.inl rfl))
  · refine Bool.eq_false_iff.mpr fun hdue => ?_
    obtain ⟨t, ht, -, hle⟩ := stallDue_iff.mp hdue
    exact absurd (hw t ht) (Nat.not_lt.mpr hle)
  · rw [coolingEnd_reached hs hon h]
    have hmotor := keptBut_publish (.motorStatus m) (s.hw.modCh m (cooled s.hw.control.ms)) .motor (by simp)
    have hfield {α : Type} (g : Channel → α) : g (publish (.motorStatus m) (s.hw.modCh m (cooled s.hw.control.ms))).motor.ch[m]
      = g (cooled s.hw.control.ms a) := congrArg g (channel_of_modCh hmotor)
    exact ⟨hfield Channel.stall, hfield Channel.mode, hfield Channel.stage, hfield Channel.owner, hfield Channel.deadline,
      hfield Channel.count, channelKept_of_modCh hmotor ⟨rfl, rfl, rfl, rfl⟩, publish_path _ _,
      ((keptBut_modCh m _ _).mono (by simp)).trans ((keptBut_publish _ _).mono (by simp))⟩

end Sys2Proof.Machine.Chip
end

section
namespace Sys2Proof.Machine

/-! ## A motor command that is accepted from the processor (R57, R60, R64) -/

/-- A weaker answer. -/
theorem Answers.imp {i : Instr} {s : State} {P Q : Chip → Prop} (h : Answers i s P) (hq : ∀ d, P d → Q d) : Answers i s Q := by
  obtain ⟨t, ht, hpending, hp⟩ := h
  exact ⟨t, ht, hpending, hq _ hp⟩

/-- PROC takes any claim that no reflex entry owns (R55). -/
theorem claimAccepts_proc {o : Owner} (h : ∀ i, o ≠ .reflex i) : claimAccepts o .proc = true := by
  cases o with
  | none => rfl
  | link s => rfl
  | proc => rfl
  | reflex i => exact absurd rfl (h i)

namespace Channel

theorem takeSettings_eq (now : Word) (x : MotorSettings) (ch : Channel) :
    ∃ w, takeSettings now x ch = { ch with settings := x, watch := w } := by
  unfold takeSettings
  dsimp only
  split_ifs
  · exact ⟨_, rfl⟩
  · exact ⟨_, rfl⟩

/-- The channel with the settings of a slot in force, claimed by PROC with the slot's freshness (R46, R57, R60). -/
def inForce (now : Word) (r : MotorSlot) (ch : Channel) : Channel :=
  { takeSettings now r.settings ch with owner := .proc, deadline := newDeadline .proc r.freshness now }

theorem inForce_eq (now : Word) (r : MotorSlot) (ch : Channel) : ∃ w, inForce now r ch = { ch with
    settings := r.settings, watch := w, owner := .proc, deadline := if r.freshness = 0 then none else some (now + r.freshness) } := by
  obtain ⟨w, hw⟩ := takeSettings_eq now r.settings ch
  refine ⟨w, ?_⟩
  unfold inForce
  rw [hw]
  rfl

end Channel

namespace Chip
variable {a b c d : Chip} {m : Fin 4} {r : MotorSlot} {cmd : MotorCmd} {n : Nat}

theorem not_resetting_of_on {u : BlockUnit} (h : c.on u = true) : c.resetting u = false := by
  unfold resetting
  rw [(on_iff u c).mp h]
  rfl

theorem keptBut_motorAct (q : Owner) (w : Word) (x : MotorCmd) (m : Fin 4) (c : Chip) :
    KeptBut [.motor, .ring, .attention, .path] c (motorAct q w x m c) := fun p hp => by
  cases p <;> simp at hp <;> simp [Part.same]

/-- A command that takes the claim and acts on the channel, in its steps (R57). -/
theorem motorAct_of_claims (q : Owner) (w : Word) (m : Fin 4) (c : Chip) (hn : cmd ≠ .none) (hr : cmd ≠ .release) :
    motorAct q w cmd m c = publish (.motorStatus m)
      (let d := channelTakes m cmd (c.modCh m fun ch => { ch with owner := q, deadline := newDeadline q w c.control.ms })
       if c.motor.ch[m].owner = .none ∨ c.motor.ch[m].owner = q then d
       else d.claimLost m c.motor.ch[m].owner .preempted) := by
  cases cmd with
  | none => exact absurd rfl hn
  | release => exact absurd rfl hr
  | _ => rfl

/-- The claim that PROC takes from a tablet (R57, R58). -/
theorem Echoes.claimTaken (h : Echoes a b) {o : Owner} (ho : a.motor.ch[m].owner = o) : Echoes (a.claimTaken .proc m)
    (if o = .none ∨ o = .proc then b else b.claimLost m o .preempted) := by
  unfold Chip.claimTaken
  dsimp only
  rw [ho]
  by_cases hfree : o = .none ∨ o = .proc
  · rw [if_pos hfree, if_pos hfree]
    exact h
  · have hproc : o ≠ .proc := fun hp => hfree (.inr hp)
    have hlost : b.claimLost m o .preempted = b.append .claimLost (Bytes.ofNat m.val) Code.preempted.byte :=
      if_neg fun hp => hproc hp.1
    rw [if_neg hfree, if_neg hfree, if_neg hproc, hlost]
    exact h.append _ _ _

/-- The chip after a latch whose command is accepted (R64 steps 3 to 6). -/
def latchedBy (r : MotorSlot) (cmd : MotorCmd) (m : Fin 4) (c : Chip) : Chip :=
  publish (.motorStatus m) (modCh m (fun ch => { ch with latchResult := .ok })
    (motorAct .proc r.freshness cmd m (c.modCh m (Channel.takeSettings c.control.ms r.settings))))

theorem keptBut_latchedBy (r : MotorSlot) (cmd : MotorCmd) (m : Fin 4) (c : Chip) :
    KeptBut [.motor, .ring, .attention, .path] c (latchedBy r cmd m c) :=
  ((keptBut_modCh m _ c).mono (by simp)).trans ((keptBut_motorAct _ _ cmd m _).trans
    (((keptBut_modCh m _ _).mono (by simp)).trans ((keptBut_publish _ _).mono (by simp))))

theorem unwatched_latchedBy (r : MotorSlot) (cmd : MotorCmd) (m : Fin 4) (h : c.unwatched = true) :
    (latchedBy r cmd m c).unwatched = true := by
  have hkept := keptBut_latchedBy r cmd m c
  exact (unwatched_congr c _ (congrArg Control.block (hkept .control (by simp))) (hkept .reflex (by simp))).trans h

theorem latchedBy_response (r : MotorSlot) (cmd : MotorCmd) (m : Fin 4) (c : Chip) :
    (latchedBy r cmd m c).path.response = c.path.response := by simp [latchedBy, Path.join]

/-- A latch whose command is accepted, no reflex entry watching. -/
theorem motorLatch_accepted (hcmd : r.command n = some cmd) (hset : r.settingsOk = true) (hon : c.on .motor = true)
    (hu : c.unwatched = true) (hv : motorVerdict .proc cmd (c.motor.ch[m].takeSettings c.control.ms r.settings) = .ok) :
    motorLatch m r n c = latchedBy r cmd m c := by
  have hact := keptBut_motorAct .proc r.freshness cmd m (c.modCh m (Channel.takeSettings c.control.ms r.settings))
  have hrequest : motorRequest .proc r.freshness cmd m (c.modCh m (Channel.takeSettings c.control.ms r.settings))
      = (motorAct .proc r.freshness cmd m (c.modCh m (Channel.takeSettings c.control.ms r.settings)), .ok) := by
    unfold motorRequest
    dsimp only
    rw [modCh_same, hv, if_pos rfl, handChange_of_unwatched]
    exact (unwatched_congr c _ (congrArg Control.block (hact .control (by simp))) (hact .reflex (by simp))).trans hu
  have hresetting : (motorAct .proc r.freshness cmd m (c.modCh m (Channel.takeSettings c.control.ms r.settings))).resetting .motor
      = false := by
    unfold resetting
    rw [hact .control (by simp)]
    exact not_resetting_of_on hon
  unfold motorLatch
  rw [hcmd]
  dsimp only
  rw [if_neg (by simp [hset]), if_neg (by simp [hon]), hrequest]
  unfold motorResult
  rw [if_neg (by simp [hresetting])]
  rfl

/-- How a command works on a claimed channel: what it tells, as u does, and what it makes of the channel. -/
structure Works (m : Fin 4) (cmd : MotorCmd) (u : Chip) (g : Channel → Channel) (c : Chip) : Prop where
  told : Echoes u (channelTakes m cmd c)
  motor : (channelTakes m cmd c).motor = (c.modCh m g).motor

/-- An accepted latch by its command's work on the claimed channel. -/
theorem latchedBy_eq (r : MotorSlot) (m : Fin 4) (c : Chip) (hn : cmd ≠ .none) (hr : cmd ≠ .release) : latchedBy r cmd m c
    = publish (.motorStatus m) (modCh m (fun ch => { ch with latchResult := .ok }) (publish (.motorStatus m)
      (let d := channelTakes m cmd (c.modCh m (Channel.inForce c.control.ms r))
       if c.motor.ch[m].owner = .none ∨ c.motor.ch[m].owner = .proc then d
       else d.claimLost m c.motor.ch[m].owner .preempted))) := by
  have howner : (c.modCh m (Channel.takeSettings c.control.ms r.settings)).motor.ch[m].owner = c.motor.ch[m].owner := by
    rw [modCh_same]
    exact Channel.takeSettings_owner _ _ _
  unfold latchedBy
  rw [motorAct_of_claims _ _ _ _ hn hr, howner, modCh_modCh]
  rfl

theorem latchedBy_motor {u : Chip} {g : Channel → Channel} (hn : cmd ≠ .none) (hr : cmd ≠ .release)
    (h : Works m cmd u g (c.modCh m (Channel.inForce c.control.ms r))) : (latchedBy r cmd m c).motor
      = (c.modCh m fun ch => { g (ch.inForce c.control.ms r) with latchResult := .ok }).motor := by
  have hlost (o : Owner) (d : Chip) : (if o = .none ∨ o = .proc then d else d.claimLost m o .preempted).motor = d.motor := by
    split_ifs
    · rfl
    · exact keptBut_claimLost m o .preempted d .motor (by simp)
  rw [latchedBy_eq r m c hn hr, keptBut_publish _ _ .motor (by simp), modCh_motor_congr m _
    ((keptBut_publish _ _ .motor (by simp)).trans ((hlost _ _).trans h.motor)), modCh_modCh, modCh_modCh]

theorem latchedBy_told {u : Chip} {g : Channel → Channel} (hn : cmd ≠ .none) (hr : cmd ≠ .release)
    (h : Works m cmd u g (c.modCh m (Channel.inForce c.control.ms r))) (hu : u.motor = c.motor) :
    Echoes (publish (.motorStatus m) (publish (.motorStatus m) (u.claimTaken .proc m))) (latchedBy r cmd m c) := by
  rw [latchedBy_eq r m c hn hr]
  exact (((h.told.claimTaken (by rw [hu])).publish _).modCh m _).publish _

/-- What an accepted command from PROC leaves: the channel as the command's work g makes it, and told its events. -/
structure Accepted (m : Fin 4) (r : MotorSlot) (n : Nat) (g : Channel → Channel) (told c d : Chip) : Prop where
  motor : d.motor = (c.modCh m fun ch => { g (ch.inForce c.control.ms r) with latchResult := .ok }).motor
  stored : RecordStored (.motorSlot m) (r.toBytes n) c d
  preempted : PreemptedByProc m told c d

theorem preemptedByProc_of_echoes {told c d : Chip} (h : Echoes (publish (.motorStatus m) (publish (.motorStatus m) told)) d)
    (hk : KeptBut [.motor, .ring, .attention, .path, .mem, .shadow] c d) (hr : d.path.response = some (.done [])) :
    PreemptedByProc m told c d.timed := by
  refine ⟨h.ring.symm.trans (by simp), h.attention.symm.trans (by simp), ?_, hr, hk.trans ?_, fun hsame => ?_⟩
  · exact h.mem_pubs.mpr ((mem_pubs_publish _ _ _).mpr (.inl rfl))
  · exact fun p hp => by cases p <;> simp at hp <;> rfl
  · have hpath : d.path = { c.path.join (.motorStatus m) with response := some (.done []) } := by
      rw [h.path, hr, publish_path, publish_path, join_idem, hsame]
    have hms : d.control.ms = c.control.ms := congrArg Control.ms (hk .control (by simp))
    show { d.path with lastTime := d.control.ms, quietElapsed := 0, procQuiet := false } = _
    rw [hpath, hms]
    rfl

theorem keptBut_written (x sh : Mem) (c : Chip) : KeptBut [.path, .mem, .shadow] c (c.written x sh) := fun p hp => by
  cases p <;> simp at hp <;> rfl

/-- A row of a motor's slot whose command is accepted: it does what its command's work on the claimed channel does. -/
theorem motorRow_accepted {s : State} {i : Instr} {u : Chip} {g : Channel → Channel} (hi : exec i s = act (motorRow m r n) s)
    (hready : s.hw.ready = true) (hon : s.hw.on .motor = true) (hset : r.settingsOk = true) (hcmd : r.command n = some cmd)
    (hn : cmd ≠ .none) (hr : cmd ≠ .release)
    (hv : motorVerdict .proc cmd (s.hw.motor.ch[m].takeSettings s.hw.control.ms r.settings) = .ok) (hu : u.motor = s.hw.motor)
    (hworks : ∀ d : Chip, Echoes s.hw d → d.control = s.hw.control → d.motor = s.hw.motor →
      Works m cmd u g (d.modCh m (Channel.inForce s.hw.control.ms r))) :
    Answers i s (Accepted m r n g (u.claimTaken .proc m) s.hw) := by
  refine latchRow_answers hi hready (MotorSlot.length_toBytes m r n) fun x sh hx hsh hinv hunwatched => ?_
  have hwork := hworks (s.hw.written x sh) ⟨⟨⟨rfl, rfl⟩, rfl⟩, rfl⟩ rfl rfl
  have hkept := keptBut_latchedBy r cmd m (s.hw.written x sh)
  rw [motorLatch_accepted (c := s.hw.written x sh) hcmd hset hon hunwatched hv]
  refine ⟨unwatched_latchedBy r cmd m hunwatched, latchedBy_motor hn hr hwork, ⟨?_, ?_⟩,
    preemptedByProc_of_echoes (latchedBy_told hn hr hwork hu) ?_ (latchedBy_response r cmd m _)⟩
  · exact (hkept .mem (by simp) : _ = x) ▸ hx
  · exact (hkept .shadow (by simp) : _ = sh) ▸ hsh
  · exact ((keptBut_written x sh s.hw).mono (by simp)).trans (hkept.mono (by simp))

end Chip
end Sys2Proof.Machine
end

section

/-! ## DRIVE, PULSE, RUN_TO, COAST and BRAKE from the processor (R35 to R38) -/

namespace Sys2Proof.MotorSlot
variable {r : MotorSlot}

theorem command_stops (hf : r.freshOk = true) : r.command 1 = some .coast ∧ r.command 2 = some .brake := ⟨if_pos hf, if_pos hf⟩
theorem command_drive (hd : r.dutyOk = true) (hf : r.freshOk = true) : r.command 3 = some (.drive r.duty.toInt) :=
  if_pos (by simp [hd, hf])
theorem command_pulse (hd : r.dutyOk = true) (hp : r.durationOk = true) (he : r.endOk = true) (hf : r.freshOk = true) :
    r.command 4 = some (.pulse r.duty.toInt r.param r.action) := if_pos (by simp [hd, hp, he, hf])
theorem command_runTo (hd : r.magnitudeOk = true) (he : r.endOk = true) (hf : r.freshOk = true) :
    r.command 5 = some (.runTo r.duty.toNat r.param r.action) := if_pos (by simp [hd, he, hf])

theorem action_eq (r : MotorSlot) : r.action = if r.endAction = 1 then .brake else .coast := if_congr beq_iff_eq rfl rfl
theorem action_mode (r : MotorSlot) : r.action.mode = if r.endAction = 1 then .brake else .coast := by
  rw [action_eq]
  split_ifs <;> rfl
theorem action_brake : r.action = .brake ↔ r.endAction = 1 := by
  rw [action_eq]
  by_cases h : r.endAction = 1
  · rw [if_pos h]
    exact iff_of_true rfl h
  · rw [if_neg h]
    exact iff_of_false (by decide) h

end Sys2Proof.MotorSlot

namespace Sys2Proof.Machine

theorem dutyStage_of_zero {n : Int} (h : n = 0) : dutyStage n = .coast := by subst h; rfl
theorem dutyStage_driving {n : Int} (h : n ≠ 0) : (dutyStage n).driving = true := by
  unfold dutyStage
  split_ifs with hpos hneg
  · rfl
  · rfl
  · exact absurd (le_antisymm (not_lt.mp hpos) (not_lt.mp hneg)) h

theorem runDir_forward {t n : Word} (h : 0 < (t - n).toInt) : runDir t n = some .forward := by
  unfold runDir
  dsimp only
  rw [if_neg h.ne', if_pos h]
theorem runDir_reverse {t n : Word} (h : (t - n).toInt < 0) : runDir t n = some .reverse := by
  unfold runDir
  dsimp only
  rw [if_neg h.ne, if_neg h.not_gt]
theorem runDir_self (t : Word) : runDir t t = none := by
  unfold runDir
  rw [BitVec.sub_self]
  rfl

namespace Channel

/-- A channel x that a command has given a mode: claim, settings, count and the encoder's part are as they were. -/
structure Commanded (ch x : Channel) : Prop extends Chip.Uncommanded ch x where
  owner : x.owner = ch.owner
  deadline : x.deadline = ch.deadline
  settings : x.settings = ch.settings
  count : x.count = ch.count

theorem commanded_setMode (now : Word) (y : Mode) (ch : Channel) : Commanded ch (setMode now y ch) := by
  unfold setMode retarget
  split_ifs <;> exact ⟨⟨rfl, rfl, rfl, rfl⟩, rfl, rfl, rfl, rfl⟩

theorem commanded_cool (now : Word) {ch x : Channel} (h : Commanded ch x) : Commanded ch (cool now x) := by
  unfold cool
  split_ifs
  · exact ⟨⟨h.levels, h.tally, h.speed, h.period⟩, h.owner, h.deadline, h.settings, h.count⟩
  · exact h

theorem cool_mode (now : Word) (ch : Channel) : (cool now ch).mode = ch.mode := by
  unfold cool
  split_ifs <;> rfl
theorem cool_stage (now : Word) (ch : Channel) : (cool now ch).stage = ch.stage := by
  unfold cool
  split_ifs <;> rfl
theorem cool_watch (now : Word) (ch : Channel) : (cool now ch).watch = ch.watch := by
  unfold cool
  split_ifs <;> rfl

/-- In NORMAL a driving mode waits for the period boundary, or for the end of the 50 us (R33, R34). -/
theorem setMode_drives {now : Word} {y : Mode} {ch : Channel} (hn : ch.stall = .normal) (hd : y.target.driving = true) :
    setMode now y ch = { ch with mode := y, reversing := ch.reversing || meetsOpposite { ch with mode := y } } := by
  have htarget : target { ch with mode := y } = y.target := if_pos hn
  unfold setMode retarget
  rw [htarget, if_pos hd]

/-- In NORMAL a mode at rest acts at once (R33). -/
theorem setMode_rests {now : Word} {y : Mode} {ch : Channel} (hn : ch.stall = .normal) (hd : y.target.driving = false) :
    setMode now y ch = setStage now y.target { ch with mode := y, reversing := false } := by
  have htarget : target { ch with mode := y } = y.target := if_pos hn
  unfold setMode retarget
  rw [htarget, if_neg (by simp [hd])]

theorem setMode_mode (now : Word) (y : Mode) (ch : Channel) : (setMode now y ch).mode = y
    ∧ (setMode now y ch).stall = ch.stall := by
  unfold setMode retarget
  split_ifs <;> exact ⟨rfl, rfl⟩

/-- The stage that a mode leaves at once in NORMAL (R33, R35). -/
theorem setMode_stage {rest : Bool} (now : Word) {y : Mode} {ch : Channel} (hn : ch.stall = .normal)
    (hrest : rest = true → y.target = .coast) (hdrive : rest = false → y.target.driving = true) :
    (setMode now y ch).stage = if rest then .coast else ch.stage := by
  cases rest with
  | true =>
    rw [setMode_rests hn (by rw [hrest rfl]; rfl)]
    exact hrest rfl
  | false =>
    rw [setMode_drives hn (hdrive rfl)]
    rfl

/-- A stage at rest that meets the opposite direction within the 50 us is kept at rest (R34). -/
theorem setMode_reversing (now : Word) {y : Mode} {ch : Channel} {x z : Dir} (hn : ch.stall = .normal)
    (hx : y.target.dir? = some x) (hl : ch.lastDir = some z) (hne : z ≠ x) (hd : ch.stage.driving = false) (hg : ch.gap = true) :
    (setMode now y ch).reversing = true := by
  have htarget : (target { ch with mode := y }).dir? = some x := (congrArg Stage.dir? (if_pos hn)).trans hx
  have hmeets : meetsOpposite { ch with mode := y } = true := by
    rw [meetsOpposite_of_dir htarget, opposes_eq_true (ch := { ch with mode := y }) hl hne]
    dsimp only
    rw [hd, hg]
    rfl
  rw [setMode_drives hn (Stage.driving_of_dir hx), hmeets]
  exact Bool.or_true _

end Channel

namespace Chip
variable {a c d : Chip} {m : Fin 4} {r : MotorSlot} {cmd : MotorCmd} {n : Nat} {g : Channel → Channel} {told : Chip} {y : Mode}

/-! ### What each command tells -/

theorem inForce_mode (now : Word) (r : MotorSlot) (ch : Channel) : (ch.inForce now r).mode = ch.mode
    ∧ (ch.inForce now r).count = ch.count := by
  obtain ⟨w, hw⟩ := Channel.inForce_eq now r ch
  rw [hw]
  exact ⟨rfl, rfl⟩

/-- The operation that a command ends, on a claimed channel (R40). -/
theorem Echoes.endsClaimed (h : Echoes c d) (hm : d.motor = c.motor) (now : Word) (r : MotorSlot) :
    Echoes (c.endOperation m .preempted) (Chip.endOperation m .preempted (d.modCh m (Channel.inForce now r))) := by
  refine (h.modCh m _).endOperation m .preempted ?_
  rw [modCh_same, (inForce_mode now r _).1, hm]

theorem endOperation_setMode_motor (y : Mode) (hd : d.control = c.control) :
    (setMode m y (endOperation m .preempted d)).motor = (d.modCh m (Channel.setMode c.control.ms y)).motor := by
  have hkept := keptBut_endOperation m .preempted d
  rw [setMode_eq, hkept .control (by simp), hd]
  exact modCh_motor_congr m _ (hkept .motor (by simp))

/-- A command that gives the channel a mode and does nothing else. -/
theorem works_setMode (he : Echoes c d) (hd : d.control = c.control) (hm : d.motor = c.motor)
    (hcmd : ∀ e : Chip, e.control = c.control → e.motor.ch[m].count = c.motor.ch[m].count →
      channelTakes m cmd e = setMode m y (endOperation m .preempted e)) :
    Works m cmd (c.endOperation m .preempted) (Channel.setMode c.control.ms y) (d.modCh m (Channel.inForce c.control.ms r)) := by
  have hcount : (d.modCh m (Channel.inForce c.control.ms r)).motor.ch[m].count = c.motor.ch[m].count := by
    rw [modCh_same, (inForce_mode _ _ _).2, hm]
  refine ⟨?_, ?_⟩ <;> rw [hcmd (d.modCh m _) hd hcount]
  · exact (he.endsClaimed hm _ r).modCh m _
  · exact endOperation_setMode_motor y hd

/-- COAST and BRAKE, which cool a stalled motor (R49, R50). -/
theorem works_stop (h : Stops cmd y) (he : Echoes c d) (hd : d.control = c.control) (hm : d.motor = c.motor) :
    Works m cmd (c.endOperation m .preempted) (fun ch => Channel.cool c.control.ms (Channel.setMode c.control.ms y ch))
      (d.modCh m (Channel.inForce c.control.ms r)) := by
  have hms : (d.modCh m (Channel.inForce c.control.ms r)).control = c.control := hd
  have htakes (e : Chip) : channelTakes m cmd e = modCh m (Channel.cool e.control.ms) (setMode m y (endOperation m .preempted e)) := by
    rcases h with ⟨rfl, rfl⟩ | ⟨rfl, rfl⟩ <;> rfl
  refine ⟨?_, ?_⟩ <;> rw [htakes]
  · exact ((he.endsClaimed hm _ r).modCh m _).modCh m _
  · rw [hms, modCh_motor_congr m _ (endOperation_setMode_motor y hms), modCh_modCh]

theorem channelTakes_runTo {w : Nat} {t : Word} {e : EndAction} {x : Dir} (h : runDir t d.motor.ch[m].count = some x) :
    channelTakes m (.runTo w t e) d = setMode m (.runTo w t e x) (endOperation m .preempted d) := by
  unfold channelTakes
  dsimp only
  rw [h]
theorem channelTakes_runTo_at {w : Nat} {t : Word} {e : EndAction} (h : runDir t d.motor.ch[m].count = none) :
    channelTakes m (.runTo w t e) d = runDone m .ok (setMode m e.mode (endOperation m .preempted d)) := by
  unfold channelTakes
  dsimp only
  rw [h]

/-- A RUN_TO that is at its target (R38). -/
theorem works_runTo_at {w : Nat} {e : EndAction} (he : Echoes c d) (hd : d.control = c.control) (hm : d.motor = c.motor) :
    Works m (.runTo w c.motor.ch[m].count e) ((c.endOperation m .preempted).append .runDone (Bytes.ofNat m.val) 0)
      (Channel.setMode c.control.ms e.mode) (d.modCh m (Channel.inForce c.control.ms r)) := by
  have hcount : (d.modCh m (Channel.inForce c.control.ms r)).motor.ch[m].count = c.motor.ch[m].count := by
    rw [modCh_same, (inForce_mode _ _ _).2, hm]
  refine ⟨?_, ?_⟩ <;> rw [channelTakes_runTo_at (by rw [hcount]; exact runDir_self _)]
  · exact ((he.endsClaimed hm _ r).modCh m _).append _ _ _
  · rw [keptBut_runDone _ _ _ .motor (by simp)]
    exact endOperation_setMode_motor e.mode hd

/-! ### What each command makes of the channel -/

namespace Accepted

theorem channel (h : Accepted m r n g told c d) :
    d.motor.ch[m] = { g (c.motor.ch[m].inForce c.control.ms r) with latchResult := .ok } := channel_of_modCh h.motor

theorem taken (h : Accepted m r n g told c d) (hg : ∀ ch, Channel.Commanded ch (g ch)) :
    TakenByProc m r c d ∧ d.motor.ch[m].count = c.motor.ch[m].count := by
  have hcommanded := hg (c.motor.ch[m].inForce c.control.ms r)
  obtain ⟨w, hw⟩ := Channel.inForce_eq c.control.ms r c.motor.ch[m]
  rw [hw] at hcommanded
  have hch := h.channel
  rw [hw] at hch
  have hkept : ChannelKept m c d := channelKept_of_modCh h.motor
    ⟨by rw [hw]; exact hcommanded.levels, by rw [hw]; exact hcommanded.tally, by rw [hw]; exact hcommanded.speed,
      by rw [hw]; exact hcommanded.period⟩
  unfold TakenByProc
  rw [hch]
  exact ⟨⟨hcommanded.owner, hcommanded.deadline, hcommanded.settings, rfl, hkept⟩, hcommanded.count⟩

/-- What DRIVE, PULSE and RUN_TO make of a channel in NORMAL (R36 to R38). -/
theorem drives {rest : Bool} (h : Accepted m r n (Channel.setMode c.control.ms y) told c d) (hn : c.motor.ch[m].stall = .normal)
    (hrest : rest = true → y.target = .coast) (hdrive : rest = false → y.target.driving = true) :
    d.motor.ch[m].mode = y ∧ d.motor.ch[m].stage = (if rest then .coast else c.motor.ch[m].stage)
    ∧ d.motor.ch[m].count = c.motor.ch[m].count ∧ d.motor.ch[m].stall = .normal ∧ TakenByProc m r c d
    ∧ (∀ x z, y.target.dir? = some x → c.motor.ch[m].lastDir = some z → z ≠ x → c.motor.ch[m].stage.driving = false →
        c.motor.ch[m].gap = true → d.motor.ch[m].reversing = true)
    ∧ RecordStored (.motorSlot m) (r.toBytes n) c d ∧ PreemptedByProc m told c d := by
  obtain ⟨htaken, hcount⟩ := h.taken (Channel.commanded_setMode _ y)
  obtain ⟨w, hw⟩ := Channel.inForce_eq c.control.ms r c.motor.ch[m]
  have hch := h.channel
  rw [hw] at hch
  refine ⟨?_, ?_, hcount, ?_, htaken, fun x z hx hl hne hd hg => ?_, h.stored, h.preempted⟩
  all_goals rw [hch]
  · exact (Channel.setMode_mode _ _ _).1
  · exact Channel.setMode_stage _ hn hrest hdrive
  · exact (Channel.setMode_mode _ _ _).2.trans hn
  · exact Channel.setMode_reversing _ hn hx hl hne hd hg

/-- What COAST and BRAKE make of a channel in any stall state (R33, R49, R50). -/
theorem stops (hx : Stops cmd y)
    (h : Accepted m r n (fun ch => Channel.cool c.control.ms (Channel.setMode c.control.ms y ch)) told c d) :
    d.motor.ch[m].mode = y ∧ d.motor.ch[m].stage = y.target ∧ d.motor.ch[m].count = c.motor.ch[m].count
    ∧ d.motor.ch[m].stall = (if c.motor.ch[m].stall = .stalled then .cooling (c.control.ms + 1000) else c.motor.ch[m].stall)
    ∧ d.motor.ch[m].watch = none ∧ TakenByProc m r c d ∧ RecordStored (.motorSlot m) (r.toBytes n) c d
    ∧ PreemptedByProc m told c d := by
  obtain ⟨htaken, hcount⟩ := h.taken fun ch => Channel.commanded_cool _ (Channel.commanded_setMode _ y ch)
  obtain ⟨w, hw⟩ := Channel.inForce_eq c.control.ms r c.motor.ch[m]
  have hrest : y.target.driving = false := by rcases hx with ⟨-, rfl⟩ | ⟨-, rfl⟩ <;> rfl
  have hch := h.channel
  rw [hw, setMode_of_stops hx] at hch
  refine ⟨?_, ?_, hcount, ?_, ?_, htaken, h.stored, h.preempted⟩
  all_goals rw [hch]
  · exact Channel.cool_mode _ _
  · exact Channel.cool_stage _ _
  · exact cool_stall _ _
  · exact (Channel.cool_watch _ _).trans (Channel.setStage_watch_of_rest _ hrest _)

/-- What a RUN_TO at its target makes of a channel (R38). -/
theorem ends {e : EndAction} (h : Accepted m r n (Channel.setMode c.control.ms e.mode) told c d) :
    d.motor.ch[m].mode = e.mode ∧ d.motor.ch[m].stage = (if e = .brake then .brake else .coast)
    ∧ d.motor.ch[m].count = c.motor.ch[m].count ∧ d.motor.ch[m].stall = c.motor.ch[m].stall ∧ TakenByProc m r c d
    ∧ RecordStored (.motorSlot m) (r.toBytes n) c d ∧ PreemptedByProc m told c d := by
  obtain ⟨htaken, hcount⟩ := h.taken (Channel.commanded_setMode _ e.mode)
  obtain ⟨w, hw⟩ := Channel.inForce_eq c.control.ms r c.motor.ch[m]
  have hend := endsWith_setMode c.control.ms e (c.motor.ch[m].inForce c.control.ms r)
  rw [h.channel]
  rw [hw] at hend ⊢
  exact ⟨hend.mode, hend.stage, hend.count, hend.stall, htaken, h.stored, h.preempted⟩

end Accepted

/-! ### Which commands PROC's claim accepts (R49, R55) -/

theorem takeSettings_verdict (now : Word) (x : MotorSettings) (ch : Channel) : (Channel.takeSettings now x ch).stall = ch.stall
    ∧ (Channel.takeSettings now x ch).owner = ch.owner := by
  obtain ⟨w, hw⟩ := Channel.takeSettings_eq now x ch
  rw [hw]
  exact ⟨rfl, rfl⟩

theorem motorVerdict_stops {ch : Channel} (h : Stops cmd y) (ho : ∀ i, ch.owner ≠ .reflex i) : motorVerdict .proc cmd ch = .ok := by
  rcases h with ⟨rfl, -⟩ | ⟨rfl, -⟩ <;> exact if_pos (claimAccepts_proc ho)

theorem motorVerdict_moves {ch : Channel} (hn : ch.stall = .normal) (ho : ∀ i, ch.owner ≠ .reflex i) :
    (∀ v, motorVerdict .proc (.drive v) ch = .ok) ∧ (∀ v t e, motorVerdict .proc (.pulse v t e) ch = .ok)
    ∧ ∀ v t e, motorVerdict .proc (.runTo v t e) ch = .ok := by
  have hok : (if ch.stall = .normal then (if claimAccepts ch.owner .proc then Code.ok else .refusedClaim) else .stalled) = .ok := by
    rw [if_pos hn, if_pos (claimAccepts_proc ho)]
  exact ⟨fun _ => hok, fun _ _ _ => hok, fun _ _ _ => hok⟩

/-- Settles O27: each command gives the channel its mode (`works_setMode`), in NORMAL a driving one or, for duty 0, COAST
(`Accepted.drives`). -/
theorem motorDrivesAccepted : Obligations.MotorDrivesAccepted := by
  unfold Obligations.MotorDrivesAccepted
  intro s m r hready hon hset hfresh ho hn a good
  have hverdict := takeSettings_verdict s.hw.control.ms r.settings s.hw.motor.ch[m]
  obtain ⟨hdrive, hpulse, hrun⟩ := motorVerdict_moves (hverdict.1.trans hn) fun i => by rw [hverdict.2]; exact ho i
  have hmotor := keptBut_endOperation m .preempted s.hw .motor (by simp)
  have hduty (mode : Mode) (hm : mode.target = dutyStage r.duty.toInt) :
      ((r.duty.toInt == 0) = true → mode.target = .coast) ∧ ((r.duty.toInt == 0) = false → mode.target.driving = true) := by
    rw [hm]
    exact ⟨fun h => dutyStage_of_zero (beq_iff_eq.mp h), fun h => dutyStage_driving (beq_eq_false_iff_ne.mp h)⟩
  refine ⟨fun hd => ?_, fun hd hp he => ?_, fun hd he hpos => ?_, fun hd he hneg => ?_⟩
  · have hmode := hduty (.drive r.duty.toInt) rfl
    exact (motorRow_accepted rfl hready hon hset (MotorSlot.command_drive hd hfresh) (by simp) (by simp) (hdrive _) hmotor
      fun d he hc hm => works_setMode he hc hm fun _ _ _ => rfl).imp fun d h => h.drives hn hmode.1 hmode.2
  · have hmode := hduty (.pulse r.duty.toInt (s.hw.control.ms + r.param) r.action) rfl
    exact (motorRow_accepted rfl hready hon hset (MotorSlot.command_pulse hd hp he hfresh) (by simp) (by simp)
      (hpulse _ _ _) hmotor fun d he hc hm => works_setMode he hc hm fun e hms _ => by rw [← hms]; rfl).imp
      fun d h => h.drives hn hmode.1 hmode.2
  · exact (motorRow_accepted rfl hready hon hset (MotorSlot.command_runTo hd he hfresh) (by simp) (by simp) (hrun _ _ _) hmotor
      fun d he hc hm => works_setMode he hc hm fun e _ hcount => channelTakes_runTo (by rw [hcount]; exact runDir_forward hpos)).imp
      fun d h => h.drives hn (fun h => Bool.noConfusion h) fun _ => rfl
  · exact (motorRow_accepted rfl hready hon hset (MotorSlot.command_runTo hd he hfresh) (by simp) (by simp) (hrun _ _ _) hmotor
      fun d he hc hm => works_setMode he hc hm fun e _ hcount => channelTakes_runTo (by rw [hcount]; exact runDir_reverse hneg)).imp
      fun d h => h.drives hn (fun h => Bool.noConfusion h) fun _ => rfl

/-- Settles O28: COAST and BRAKE stop the channel in any stall state (`works_stop`, `Accepted.stops`); a RUN_TO at its target
leaves its end action (`works_runTo_at`, `Accepted.ends`). -/
theorem motorRestsAccepted : Obligations.MotorRestsAccepted := by
  unfold Obligations.MotorRestsAccepted
  intro s m r hready hon hset hfresh ho good
  have hverdict := takeSettings_verdict s.hw.control.ms r.settings s.hw.motor.ch[m]
  have howner : ∀ i, (s.hw.motor.ch[m].takeSettings s.hw.control.ms r.settings).owner ≠ .reflex i := fun i => by
    rw [hverdict.2]
    exact ho i
  have hmotor := keptBut_endOperation m .preempted s.hw .motor (by simp)
  refine ⟨?_, ?_, fun hd he ht hn => ?_⟩
  · have hcoast : Stops .coast .coast := .inl ⟨rfl, rfl⟩
    exact (motorRow_accepted rfl hready hon hset (MotorSlot.command_stops hfresh).1 (by simp) (by simp)
      (motorVerdict_stops hcoast howner) hmotor fun d he hc hm => works_stop hcoast he hc hm).imp fun d h => h.stops hcoast
  · have hbrake : Stops .brake .brake := .inr ⟨rfl, rfl⟩
    exact (motorRow_accepted rfl hready hon hset (MotorSlot.command_stops hfresh).2 (by simp) (by simp)
      (motorVerdict_stops hbrake howner) hmotor fun d he hc hm => works_stop hbrake he hc hm).imp fun d h => h.stops hbrake
  · have hcmd := MotorSlot.command_runTo hd he hfresh
    rw [ht] at hcmd
    have htold : ((s.hw.endOperation m .preempted).append .runDone (Bytes.ofNat m.val) 0).motor = s.hw.motor :=
      (keptBut_append _ _ _ _ .motor (by simp)).trans hmotor
    refine (motorRow_accepted rfl hready hon hset hcmd (by simp) (by simp)
      ((motorVerdict_moves (hverdict.1.trans hn) howner).2.2 _ _ _) htold fun d he hc hm => works_runTo_at he hc hm).imp fun d h => ?_
    obtain ⟨hmode, hstage, hcount, hstall, hrest⟩ := h.ends
    exact ⟨hmode.trans r.action_mode, hstage.trans (if_congr MotorSlot.action_brake rfl rfl), hcount, hstall.trans hn, hrest⟩

end Chip
end Sys2Proof.Machine
end

section
namespace Sys2Proof.Machine

/-! ## The scan and its commands (R73 to R77) -/

/-- The sense unit with the conversion in progress of a scan in CONVERTING cut off (R75 step 1, R76). -/
def Sense.cutOff (x : Sense) : Sense := { x with conv := if x.scan = .converting then x.conv.cut else x.conv }

namespace Chip
variable {c : Chip} {r : ScanRec}

theorem keptBut_sense (x : Sense) (c : Chip) : KeptBut [.sense] c { c with sense := x } := fun p hp => by
  cases p <;> simp at hp <;> rfl

/-- The chip after the sense unit has changed and the scan status record has joined the publication list. -/
def scanned (x : Sense) (c : Chip) : Chip := { c with sense := x, path := c.path.join .scanStatus }

theorem scanned_scanned (x y : Sense) (c : Chip) : scanned y (scanned x c) = scanned y c :=
  congrArg (fun p : Path => ({ c with sense := y, path := p } : Chip)) (join_idem .scanStatus c.path)

theorem keptBut_scanned (x : Sense) (c : Chip) : KeptBut [.sense, .path] c (scanned x c) := fun p hp => by
  cases p <;> simp at hp <;> rfl

theorem setScan_eq (x : ScanState) (p : Fin 8) (c : Chip) :
    setScan x p c = scanned { c.sense with scan := x, position := p } c := publish_eq _ _

theorem convert_eq (ch : Fin 8) (c : Chip) : convert ch c
    = scanned { c.sense with scan := .converting, position := ch, conv := c.sense.conv.ask ch } c := publish_eq _ _

theorem scanResult_eq (x : Code) (h : c.resetting .sense = false) :
    scanResult x c = scanned { c.sense with latchResult := x } c := by
  unfold scanResult
  rw [if_neg (by simp [h])]
  exact publish_eq _ _

theorem cutScan_eq (c : Chip) : cutScan c = { c with sense := c.sense.cutOff } := by
  unfold cutScan Sense.cutOff
  split_ifs <;> rfl

theorem scanStart_eq (c : Chip) : scanStart c = scanned { c.sense with
    active := c.sense.stored, position := c.sense.stored.first, scan := .converting
    conv := c.sense.cutOff.conv.ask c.sense.stored.first } c := by
  unfold scanStart
  rw [cutScan_eq]
  exact convert_eq _ _

theorem scanHalt_eq (h : c.sense.scan ≠ .stopped) : scanHalt c = scanned { c.sense with
    scan := .stopped, position := c.sense.active.first, conv := c.sense.cutOff.conv } c := by
  unfold scanHalt
  rw [if_neg h, cutScan_eq]
  exact setScan_eq _ _ _

/-! ### A latch of the scan program, case by case -/

theorem scanLatch_badArg (hr : c.resetting .sense = false) (hv : r.valid = false) :
    scanLatch r 0 c = scanned { c.sense with latchResult := .badArg } c := by
  unfold scanLatch
  rw [if_pos (by simp [hv])]
  exact scanResult_eq _ hr

theorem scanLatch_off {n : Nat} (hn : n ≤ 3) (hv : n = 0 → r.valid = true) (hon : c.on .sense = false)
    (hr : c.resetting .sense = false) : scanLatch r n c = scanned { c.sense with latchResult := .off } c := by
  unfold scanLatch
  rw [if_neg (by simpa [hn] using hv), if_pos (by simp [hon])]
  exact scanResult_eq _ hr

theorem scanLatch_none (hon : c.on .sense = true) (hv : r.valid = true) :
    scanLatch r 0 c = scanned { c.sense with stored := r.program, latchResult := .ok } c := by
  unfold scanLatch
  rw [if_neg (by simp [hv]), if_neg (by simp [hon])]
  exact scanResult_eq _ (not_resetting_of_on hon)

theorem scanLatch_start (hon : c.on .sense = true) : scanLatch r 1 c = scanned { c.sense with
    active := c.sense.stored, position := c.sense.stored.first, scan := .converting
    conv := c.sense.cutOff.conv.ask c.sense.stored.first, latchResult := .ok } c := by
  unfold scanLatch
  rw [if_neg (by simp), if_neg (by simp [hon])]
  dsimp only
  rw [scanStart_eq, scanResult_eq _ (not_resetting_of_on (c := scanned _ c) hon), scanned_scanned]
  rfl

theorem scanLatch_stop (hon : c.on .sense = true) (hs : c.sense.scan ≠ .stopped) : scanLatch r 2 c = scanned { c.sense with
    scan := .stopped, position := c.sense.active.first, conv := c.sense.cutOff.conv, latchResult := .ok } c := by
  unfold scanLatch
  rw [if_neg (by simp), if_neg (by simp [hon])]
  dsimp only
  rw [scanHalt_eq hs, scanResult_eq _ (not_resetting_of_on (c := scanned _ c) hon), scanned_scanned]
  rfl

theorem scanLatch_stop_stopped (hon : c.on .sense = true) (hs : c.sense.scan = .stopped) :
    scanLatch r 2 c = scanned { c.sense with latchResult := .ok } c := by
  unfold scanLatch
  rw [if_neg (by simp), if_neg (by simp [hon])]
  dsimp only
  rw [scanHalt, if_pos hs]
  exact scanResult_eq _ (not_resetting_of_on hon)

theorem scanLatch_step (hon : c.on .sense = true) (hs : c.sense.scan = .stepWait) : scanLatch r 3 c = scanned { c.sense with
    scan := .converting, conv := c.sense.conv.ask c.sense.position, latchResult := .ok } c := by
  unfold scanLatch
  rw [if_neg (by simp), if_neg (by simp [hon])]
  dsimp only
  rw [if_pos hs, convert_eq, scanResult_eq _ (not_resetting_of_on (c := scanned _ c) hon), scanned_scanned]
  rfl

theorem scanLatch_step_busy (hon : c.on .sense = true) (hs : c.sense.scan ≠ .stepWait) :
    scanLatch r 3 c = scanned { c.sense with latchResult := .busy } c := by
  unfold scanLatch
  rw [if_neg (by simp), if_neg (by simp [hon])]
  dsimp only
  rw [if_neg hs]
  exact scanResult_eq _ (not_resetting_of_on hon)

/-- What a scan command leaves: this sense unit, the result told in the scan status record, and the WRITE stored and
answered. -/
def ScanLatched (r : ScanRec) (n : Nat) (x : Sense) (c d : Chip) : Prop :=
  d.sense = x ∧ d.path = (c.path.join .scanStatus).served (.done []) c.control.ms
  ∧ RecordStored .scanProgram (r.toBytes n) c d ∧ KeptBut [.sense, .path, .mem, .shadow] c d

/-- A scan command by what its latch does on the chip with the WRITE stored and answered. -/
theorem scanRow_answers {n : Nat} {x : Sense} {i : Instr} {s : State} (hi : exec i s = act (scanRow r n) s)
    (h : s.hw.ready = true)
    (H : ∀ m sh, scanLatch r n (s.hw.written m sh) = scanned x (s.hw.written m sh)) :
    Answers i s (ScanLatched r n x s.hw) := by
  refine latchRow_answers hi h (ScanRec.length_toBytes r n) fun m sh hm hsh _ hunwatched => ?_
  rw [H]
  refine ⟨hunwatched, rfl, rfl, ⟨hm, hsh⟩, fun p hp => ?_⟩
  cases p <;> simp at hp <;> rfl

end Chip
end Sys2Proof.Machine

namespace Sys2Proof.ScanRec
variable {r : ScanRec}

theorem valid_iff (r : ScanRec) : r.valid = true ↔ r.first.toNat ≤ r.last.toNat ∧ r.last.toNat ≤ 7 ∧ r.mode.toNat ≤ 2
    ∧ (r.mode = 1 → r.interval.toNat ≤ 1000) := by
  simp only [valid, Bool.and_eq_true, decide_eq_true_eq, Bool.or_eq_true, bne_iff_ne, ne_eq, ← imp_iff_not_or]
  exact ⟨fun ⟨⟨⟨⟨_, hlast⟩, horder⟩, hmode⟩, hinterval⟩ => ⟨horder, hlast, hmode, hinterval⟩,
    fun ⟨horder, hlast, hmode, hinterval⟩ => ⟨⟨⟨⟨horder.trans hlast, hlast⟩, horder⟩, hmode⟩, hinterval⟩⟩

/-- A valid mode is 0, 1 or 2, and names the program's mode (Table 5-1). -/
theorem program_mode (h : r.valid = true) :
    r.program.mode = if r.mode = 0 then .single else if r.mode = 1 then .continuous else .stepped := by
  have hmode : r.mode.toNat ≤ 2 := ((valid_iff r).mp h).2.2.1
  have hcases : r.mode = 0 ∨ r.mode = 1 ∨ r.mode = 2 := by bv_omega
  unfold program
  rcases hcases with h | h | h <;> rw [h] <;> rfl

theorem program_channels (h : r.valid = true) :
    r.program.first.val = r.first.toNat ∧ r.program.last.val = r.last.toNat := by
  obtain ⟨hfirst, hlast, -, -⟩ := (valid_iff r).mp h
  exact ⟨Nat.mod_eq_of_lt (by omega), Nat.mod_eq_of_lt (by omega)⟩

theorem program_interval (r : ScanRec) : r.program.interval = if r.mode = 1 then r.interval.toNat else 0 :=
  if_congr beq_iff_eq rfl rfl

end Sys2Proof.ScanRec

namespace Sys2Proof.Machine.Chip

/-- Settles O36: the latch stores the record's program (`scanLatch_none`), and no record is made of it. -/
theorem scanNoneStoresProgram : Obligations.ScanNoneStoresProgram := by
  unfold Obligations.ScanNoneStoresProgram
  refine ⟨fun s r hready hon hv => ?_, fun c p r => by cases r <;> rfl⟩
  refine (scanRow_answers (x := { s.hw.sense with stored := r.program, latchResult := .ok }) rfl hready
    fun _ _ => scanLatch_none hon hv).imp fun d ⟨hsense, hpath, hstored, hkept⟩ => ?_
  obtain ⟨hfirst, hlast⟩ := ScanRec.program_channels hv
  rw [hsense]
  exact ⟨rfl, hfirst, hlast, ScanRec.program_mode hv, r.program_interval, hpath, hstored, hkept⟩

/-- Settles O37: in STEP_WAIT the converter is asked for the channel at the position (`scanLatch_step`), elsewhere only the
result changes (`scanLatch_step_busy`). -/
theorem stepAcceptedOnlyInStepWait : Obligations.StepAcceptedOnlyInStepWait := by
  unfold Obligations.StepAcceptedOnlyInStepWait
  refine fun s r hready hon => ⟨fun hs => ?_, fun hs => scanRow_answers rfl hready fun _ _ => scanLatch_step_busy hon hs⟩
  refine (scanRow_answers (x := { s.hw.sense with
    scan := .converting, conv := s.hw.sense.conv.ask s.hw.sense.position, latchResult := .ok }) rfl hready
    fun _ _ => scanLatch_step hon hs).imp fun d ⟨hsense, hpath, hstored, hkept⟩ => ?_
  rw [hsense]
  exact ⟨rfl, fun hfree => congrArg (Converter.ask _) hfree, fun x hx => congrArg (Converter.ask _) hx, hpath, hstored,
    hkept⟩

/-- Settles O38: each command by its case of the latch (`scanLatch_start`, `scanLatch_stop`, `scanLatch_off`,
`scanLatch_badArg`); the converter after a cut is read off its state. -/
theorem scanStartStopRefused : Obligations.ScanStartStopRefused := by
  unfold Obligations.ScanStartStopRefused
  intro s r hready only asked cut
  have hcut : s.hw.sense.cutOff.conv = cut := by
    simp only [cut, Sense.cutOff]
    cases s.hw.sense.scan <;> cases s.hw.sense.conv <;> rfl
  have hasked : s.hw.sense.cutOff.conv.ask s.hw.sense.stored.first = asked := by
    simp only [asked, Sense.cutOff]
    cases s.hw.sense.scan <;> cases s.hw.sense.conv <;> rfl
  rw [← hcut, ← hasked]
  refine ⟨fun hon => scanRow_answers rfl hready fun _ _ => scanLatch_start hon,
    fun hon hs => scanRow_answers rfl hready fun _ _ => scanLatch_stop hon hs,
    fun hon hs => scanRow_answers rfl hready fun _ _ => scanLatch_stop_stopped hon hs,
    fun hon hr i n hin => ?_,
    fun hr hv => scanRow_answers rfl hready fun _ _ => scanLatch_badArg hr hv, r.valid_iff⟩
  have hoff (n : Nat) (hn : n ≤ 3) (hv : n = 0 → r.valid = true) (hi : exec i s = act (scanRow r n) s) :
      Answers i s (only n { s.hw.sense with latchResult := .off }) :=
    scanRow_answers hi hready fun _ _ => scanLatch_off hn hv hon hr
  simp only [List.mem_cons, List.not_mem_nil, or_false, Prod.mk.injEq] at hin
  rcases hin with (⟨rfl, rfl⟩ | ⟨rfl, rfl⟩ | ⟨rfl, rfl⟩) | ⟨⟨rfl, rfl⟩, hv⟩
  · exact hoff 1 (by omega) (by omega) rfl
  · exact hoff 2 (by omega) (by omega) rfl
  · exact hoff 3 (by omega) (by omega) rfl
  · exact hoff 0 (by omega) (fun _ => hv) rfl

end Sys2Proof.Machine.Chip
end

section

/-! ## The scan goes on (R79, R80) -/

namespace Sys2Proof
open Machine

/-- The scan state in which the end of a scan leaves a program (R80). -/
def Program.rests (now : Word) (p : Program) : ScanState :=
  match p.mode with
  | .single => .stopped
  | .stepped => .stepWait
  | .continuous => if p.interval = 0 then .converting else .waiting (now + BitVec.ofNat 32 p.interval)

end Sys2Proof

namespace Sys2Proof.Machine

/-- The scan is in a state at a channel, of which CONVERTING asks for a conversion. -/
def Sense.moved (x : ScanState) (ch : Fin 8) (s : Sense) : Sense :=
  { s with scan := x, position := ch, conv := if x = .converting then s.conv.ask ch else s.conv }

/-- The scan is counted and its end timed (R80). -/
def Sense.counted (now : Word) (s : Sense) : Sense := { s with scanCount := s.scanCount + 1, lastEnd := now }

namespace Chip
variable {a b c : Chip} {ch : Fin 8} {r : RecId}

theorem setScan_moved (x : ScanState) (hx : x ≠ .converting) (p : Fin 8) (c : Chip) :
    setScan x p c = scanned (c.sense.moved x p) c := by
  rw [setScan_eq, Sense.moved, if_neg hx]

theorem convert_moved (p : Fin 8) (c : Chip) : convert p c = scanned (c.sense.moved .converting p) c := convert_eq p c

/-- A raise does not see the sense unit. -/
theorem raiseCause_sense (k : Cause) (x : Sense) (c : Chip) :
    raiseCause k { c with sense := x } = { raiseCause k c with sense := x } := by
  unfold raiseCause changeAttention
  simp only [publishIf, publish_eq]
  split_ifs <;> rfl

theorem scanOn_below (h : ch < c.sense.active.last) : scanOn ch c
    = scanned (c.sense.moved (if c.sense.active.mode = .stepped then .stepWait else .converting) (ch + 1)) c := by
  unfold scanOn
  dsimp only
  rw [if_neg (not_le.mpr h)]
  split_ifs
  · exact setScan_moved _ (by simp) _ _
  · exact convert_moved _ _

theorem scanOn_last (h : c.sense.active.last ≤ ch) : scanOn ch c = scanned
    ((c.sense.counted c.control.ms).moved (c.sense.active.rests c.control.ms) c.sense.active.first) (raiseCause .scan c) := by
  have hms : (raiseCause .scan c).control.ms = c.control.ms := by simp
  unfold scanOn
  dsimp only
  rw [if_pos h]
  unfold scanEnd Program.rests
  dsimp only
  rw [raiseCause_sense]
  cases c.sense.active.mode with
  | single => exact setScan_moved _ (by simp) _ _
  | stepped => exact setScan_moved _ (by simp) _ _
  | continuous =>
    dsimp only
    rw [hms]
    split_ifs
    · exact convert_moved _ _
    · exact setScan_moved _ (by simp) _ _

/-- What the going on of a scan leaves of the sense unit, and of the other parts. -/
structure GoneOn (c d : Chip) : Prop where
  slots : d.sense.slots = c.sense.slots
  settings : d.sense.settings = c.sense.settings
  active : d.sense.active = c.sense.active
  stored : d.sense.stored = c.sense.stored
  latchResult : d.sense.latchResult = c.sense.latchResult
  told : .scanStatus ∈ d.path.pubs
  pubs : ∀ r ∈ c.path.pubs, r ∈ d.path.pubs
  kept : KeptBut [.sense, .attention, .path] c d

theorem mem_pubs_scanned {x : Sense} : r ∈ (scanned x c).path.pubs ↔ r = .scanStatus ∨ r ∈ c.path.pubs :=
  mem_joins _ _ _

theorem scanOn_goneOn (ch : Fin 8) (c : Chip) : GoneOn c (scanOn ch c) := by
  rcases lt_or_ge ch c.sense.active.last with h | h
  · rw [scanOn_below h]
    exact ⟨rfl, rfl, rfl, rfl, rfl, mem_pubs_scanned.mpr (.inl rfl), fun r hr => mem_pubs_scanned.mpr (.inr hr),
      (keptBut_scanned _ c).mono (by simp)⟩
  · rw [scanOn_last h]
    exact ⟨rfl, rfl, rfl, rfl, rfl, mem_pubs_scanned.mpr (.inl rfl),
      fun r hr => mem_pubs_scanned.mpr (.inr (mem_pubs_raiseCause .scan c r hr)),
      ((keptBut_raiseCause .scan c).mono (by simp)).trans ((keptBut_scanned _ _).mono (by simp))⟩

/-! ## A sample is stored (R83, R89, R90) -/

theorem keptBut_modSlot (ch : Fin 8) (f : SampleSlot → SampleSlot) (c : Chip) : KeptBut [.sense] c (c.modSlot ch f) :=
  keptBut_sense _ c

theorem unwatched_of_kept {l : List Part} (h : c.unwatched = true) (k : KeptBut l c b) (hc : .control ∉ l)
    (hr : .reflex ∉ l) :
    b.unwatched = true :=
  (unwatched_congr c b (congrArg Control.block (k .control hc)) (k .reflex hr)).trans h

/-- The COMPARE event of a stored sample (R90). -/
def compared (ch : Fin 8) (x : ChannelSettings) (slot : SampleSlot) (c : Chip) : Chip :=
  if slot.entered && x.event then c.append .compare (Bytes.ofNat ch.val) (Bytes.ofBool slot.side) else c

theorem keptBut_compared (ch : Fin 8) (x : ChannelSettings) (slot : SampleSlot) (c : Chip) :
    KeptBut [.ring, .attention, .path] c (compared ch x slot c) := by
  unfold compared
  split_ifs
  · exact keptBut_append _ _ _ _
  · exact .refl _ _

theorem compared_ring {x : ChannelSettings} {slot : SampleSlot} (h : RingAlike a b) :
    (compared ch x slot b).ring = (compared ch x slot a).ring := by
  unfold compared
  split_ifs
  · exact (h.append _ _ _).ring.symm
  · exact h.ring.symm

theorem mem_pubs_compared {x : ChannelSettings} {slot : SampleSlot} (h : r ∈ c.path.pubs) :
    r ∈ (compared ch x slot c).path.pubs := by
  unfold compared
  split_ifs
  · exact mem_pubs_append _ _ _ _ _ h
  · exact h

/-- A store, no reflex entry watching: the slot, its event, and the join of its record. -/
theorem storeSample_eq (ch : Fin 8) (v : BitVec 12) (t : Word) (h : c.unwatched = true) :
    storeSample ch v t c = publish (.sampleSlot ch) (compared ch c.sense.settings[ch]
      (SampleSlot.store c.sense.settings[ch] c.sense.scanCount v t c.sense.slots[ch])
      (c.modSlot ch (SampleSlot.store c.sense.settings[ch] c.sense.scanCount v t))) := by
  have hsame (x : Bool) {d : Chip} (hd : d.unwatched = true) : (if x then d.handChange else d) = d := by
    rw [handChange_of_unwatched d hd, ite_self]
  unfold storeSample
  dsimp only
  rw [modSlot_same, hsame]
  · rfl
  · exact unwatched_of_kept (unwatched_of_kept h (keptBut_modSlot ch _ c) (by simp) (by simp))
      (keptBut_compared ch _ _ _) (by simp) (by simp)

theorem keptBut_storeSample (ch : Fin 8) (v : BitVec 12) (t : Word) (h : c.unwatched = true) :
    KeptBut [.sense, .ring, .attention, .path] c (storeSample ch v t c) := by
  rw [storeSample_eq ch v t h]
  exact ((keptBut_modSlot ch _ c).mono (by simp)).trans
    (((keptBut_compared ch _ _ _).mono (by simp)).trans ((keptBut_publish _ _).mono (by simp)))

theorem ask_eq (k : Fin 8) (x : Converter) :
    x.ask k = match x with | .discarding _ => .discarding (some k) | _ => .running k := by
  cases x <;> rfl

/-- The slot of a sample that is stored over another, with this lost count (Table 5-3). -/
def storedSlot (v : BitVec 12) (t : Word) (lost : Half) (x : ChannelSettings) (scanCount : Half)
    (old : SampleSlot) : SampleSlot :=
  let judged := compare x v.toNat
  { seq := old.seq + 1, state := .fresh, condition := judged.1, value := v.setWidth 16, entered := judged.1 && !old.condition
    side := judged.2, lost := lost, scanCount := scanCount, time := t }

theorem slot_store (v : BitVec 12) (t : Word) (y : SlotState) (lost : Half) (x : ChannelSettings) (n : Half)
    (old : SampleSlot) :
    SampleSlot.store x n v t { old with state := y, lost := lost } = storedSlot v t lost x n old := rfl

/-- b is c but for what a store replaces: the slot's state and lost count, and the settings in force. -/
structure BeforeStore (ch : Fin 8) (y : SlotState) (lost : Half) (x : Vector ChannelSettings 8) (c b : Chip) : Prop
    extends Alike c b where
  unwatched : b.unwatched = true
  sense : b.sense = { c.sense with
    settings := x, slots := c.sense.slots.set ch { c.sense.slots[ch] with state := y, lost := lost } }

namespace BeforeStore
variable {y : SlotState} {lost : Half} {x : Vector ChannelSettings 8} {v : BitVec 12} {t : Word}

theorem storeSample_eq (h : BeforeStore ch y lost x c b) : storeSample ch v t b = publish (.sampleSlot ch)
    (compared ch x[ch] (storedSlot v t lost x[ch] c.sense.scanCount c.sense.slots[ch]) { b with sense := { c.sense with
      settings := x, slots := c.sense.slots.set ch (storedSlot v t lost x[ch] c.sense.scanCount c.sense.slots[ch]) } }) := by
  rw [Chip.storeSample_eq ch v t h.unwatched]
  unfold modSlot
  rw [h.sense]
  simp only [Fin.getElem_fin, Vector.getElem_set_self, slot_store, Vector.set_set]

theorem sense_stored (h : BeforeStore ch y lost x c b) : (storeSample ch v t b).sense = { c.sense with
    settings := x, slots := c.sense.slots.set ch (storedSlot v t lost x[ch] c.sense.scanCount c.sense.slots[ch]) } := by
  rw [h.storeSample_eq, keptBut_publish _ _ .sense (by simp), keptBut_compared _ _ _ _ .sense (by simp)]

theorem ring_stored (h : BeforeStore ch y lost x c b) : (storeSample ch v t b).ring
    = (compared ch x[ch] (storedSlot v t lost x[ch] c.sense.scanCount c.sense.slots[ch]) c).ring := by
  rw [h.storeSample_eq, keptBut_publish _ _ .ring (by simp)]
  exact compared_ring (h.toRingAlike.of_kept (keptBut_sense _ b) (by simp) (by simp))

theorem attention_stored (h : BeforeStore ch y lost x c b)
    (hq : ((storedSlot v t lost x[ch] c.sense.scanCount c.sense.slots[ch]).entered && x[ch].event) = false) :
    (storeSample ch v t b).attention = c.attention := by
  rw [h.storeSample_eq, keptBut_publish _ _ .attention (by simp), compared, if_neg (Bool.eq_false_iff.mp hq)]
  exact h.attention.symm

theorem mem_pubs_stored (h : BeforeStore ch y lost x c b) : .sampleSlot ch ∈ (storeSample ch v t b).path.pubs := by
  rw [h.storeSample_eq]
  exact (mem_pubs_publish _ _ _).mpr (.inl rfl)

/-- The store and the going on of the scan are those of a held sample. -/
theorem heldStored (h : BeforeStore ch y lost x c b) : HeldStored ch v t lost x[ch] c (scanOn ch (storeSample ch v t b)) := by
  have hkept := keptBut_storeSample ch v t h.unwatched
  have hms : (storeSample ch v t b).control.ms = c.control.ms :=
    (congrArg Control.ms (hkept .control (by simp))).trans h.ms.symm
  have hsense := h.sense_stored (v := v) (t := t)
  have hring := h.ring_stored (v := v) (t := t)
  have hpubs := h.mem_pubs_stored (v := v) (t := t)
  have hquiet := h.attention_stored (v := v) (t := t)
  generalize storeSample ch v t b = e at hms hsense hring hpubs hquiet
  have hgone := scanOn_goneOn ch e
  have hactive : e.sense.active = c.sense.active := by rw [hsense]
  have hcount : e.sense.scanCount = c.sense.scanCount := by rw [hsense]
  have hend : e.sense.lastEnd = c.sense.lastEnd := by rw [hsense]
  have hconv : e.sense.conv = c.sense.conv := by rw [hsense]
  have hasks (k : Fin 8) := (congrArg (Converter.ask k) hconv).trans (ask_eq k c.sense.conv)
  refine ⟨?_, ?_, ?_, ?_, hgone.pubs _ hpubs, hgone.told, ?_, fun hbelow => ?_, fun hlast => ?_⟩
  · rw [hgone.slots, hsense]; rfl
  · rw [hgone.active, hsense]
  · rw [hgone.stored, hsense]
  · rw [hgone.latchResult, hsense]
  · rw [hgone.kept .ring (by simp), hring]
    exact apply_ite Chip.ring _ _ _
  · rw [scanOn_below (hactive ▸ hbelow), hactive]
    refine ⟨rfl, hcount, hend, fun hm => ?_, fun hm => ?_, hquiet⟩
    · rw [if_pos hm]
      exact ⟨rfl, hconv⟩
    · rw [if_neg hm]
      exact ⟨rfl, hasks _⟩
  · rw [scanOn_last (hactive ▸ hlast), hactive, hms]
    refine ⟨rfl, ?_, rfl, raiseCause_pending .scan e, fun hm => ?_, fun hm => ?_, fun hm hi => ?_, fun hm hi => ?_⟩
    · exact congrArg (· + 1) hcount
    all_goals
      unfold Program.rests
      rw [hm]
    · exact ⟨rfl, hconv⟩
    · exact ⟨rfl, hconv⟩
    · dsimp only
      rw [if_pos hi]
      exact ⟨rfl, hasks _⟩
    · dsimp only
      rw [if_neg hi]
      exact ⟨rfl, hconv⟩

end BeforeStore
end Chip
end Sys2Proof.Machine
end

section
namespace Sys2Proof.Machine.Chip
variable {a b c : Chip} {ch : Fin 8} {y : SlotState} {lost : Half} {x : Vector ChannelSettings 8} {v : BitVec 12} {t : Word}

/-! ## What a store changes besides the slot and the scan -/

/-- From b the sample has been stored and the scan has gone on, where b is c before the store with settings x in force. -/
structure StoredFrom (ch : Fin 8) (v : BitVec 12) (t : Word) (lost : Half) (x : Vector ChannelSettings 8) (c b d : Chip) :
    Prop where
  held : HeldStored ch v t lost x[ch] c d
  settings : d.sense.settings = x
  response : d.path.response = b.path.response
  kept : KeptBut [.sense, .ring, .attention, .path] b d

theorem BeforeStore.storedFrom (h : BeforeStore ch y lost x c b) (v : BitVec 12) (t : Word) :
    StoredFrom ch v t lost x c b (scanOn ch (storeSample ch v t b)) where
  held := h.heldStored
  settings := by rw [(scanOn_goneOn ch _).settings, h.sense_stored]
  response := (scanOn_rest ch (storeSample_rest ch v t (Rest.refl b))).response
  kept := (keptBut_storeSample ch v t h.unwatched).trans ((scanOn_goneOn ch _).kept.mono (by simp))

theorem keptBut_countLoss (ch : Fin 8) (c : Chip) : KeptBut [.sense] c (countLoss ch c) := keptBut_modSlot ch _ c

/-- A FRESH sample about to be replaced is counted as lost (R87). -/
theorem beforeStore_countLoss (h : Alike c b) (hu : b.unwatched = true) (hs : b.sense = { c.sense with settings := x }) :
    BeforeStore ch c.sense.slots[ch].state
      (if c.sense.slots[ch].state = .fresh then satInc c.sense.slots[ch].lost else c.sense.slots[ch].lost) x c
      (countLoss ch b) where
  toAlike := h.of_kept (keptBut_countLoss ch b) (by simp) (by simp) (by simp)
  unwatched := unwatched_of_kept hu (keptBut_countLoss ch b) (by simp) (by simp)
  sense := by
    unfold countLoss modSlot
    rw [hs]
    dsimp only
    split_ifs <;> rfl

/-! ## The converter and the interval (R72, R78, R80) -/

/-- The chip with its converter in this state. -/
def withConv (x : Converter) (c : Chip) : Chip := { c with sense := { c.sense with conv := x } }

theorem keptBut_withConv (x : Converter) (c : Chip) : KeptBut [.sense] c (withConv x c) := keptBut_sense _ c

theorem conversion_held (hconv : c.sense.conv = .running ch) (hp : c.sense.settings[ch].protect = true)
    (hf : c.sense.slots[ch].state = .fresh) : conversion v c
      = scanned { c.sense with conv := .free, scan := .held v c.control.ms, position := ch } c := by
  unfold conversion completed
  rw [hconv]
  dsimp only
  rw [if_pos (by simpa using ⟨hp, hf⟩)]
  exact setScan_eq _ _ _

theorem conversion_stored (hconv : c.sense.conv = .running ch)
    (h : ¬ (c.sense.settings[ch].protect = true ∧ c.sense.slots[ch].state = .fresh)) : conversion v c
      = scanOn ch (storeSample ch v c.control.ms (countLoss ch (withConv .free c))) := by
  unfold conversion completed
  rw [hconv]
  dsimp only
  exact if_neg (by simpa using h)

theorem conversion_discarded {k : Option (Fin 8)} (hconv : c.sense.conv = .discarding k) : conversion v c
    = withConv (k.elim .free .running) c := by
  unfold conversion
  rw [hconv]
  cases k <;> rfl

theorem conversion_free (hconv : c.sense.conv = .free) : conversion v c = c := by
  unfold conversion
  rw [hconv]

theorem intervalExpiry_early (hs : c.sense.scan = .waiting t) (h : reached c.control.ms t = false) :
    intervalExpiry c = c := by
  unfold intervalExpiry
  rw [hs]
  exact if_neg (by simp [h])

theorem intervalExpiry_reached (hs : c.sense.scan = .waiting t) (hon : c.on .sense = true)
    (h : reached c.control.ms t = true) : intervalExpiry c = convert c.sense.active.first c := by
  unfold intervalExpiry
  rw [hs]
  exact if_pos (by simp [hon, h])

/-- The comparator of Table 5-4's modes (R89). -/
theorem compare_eq (x : ChannelSettings) (n : Nat) : compare x n =
    if x.enabled = false then (false, false)
    else if x.inside then (decide (x.lower ≤ n ∧ n ≤ x.upper), false)
    else (decide (x.upper < n ∨ n < x.lower), decide (x.upper < n)) := by
  unfold compare
  rw [Bool.decide_and, Bool.decide_or]
  exact if_congr (by simp) rfl rfl

/-- Settles O39: a sample that is stored is stored as a held one with the converter free (`BeforeStore.heldStored`). -/
theorem sampleStoredHeldOrDiscarded : Obligations.SampleStoredHeldOrDiscarded := by
  unfold Obligations.SampleStoredHeldOrDiscarded
  intro s v hinv hu p
  refine ⟨fun ch hconv => ⟨fun hp hf => act_answers rfl ?_, fun h => act_answers rfl ?_⟩, fun k hconv => act_answers rfl ?_,
    fun hconv => act_same rfl (conversion_free hconv),
    fun t hs hon hconv => ⟨fun h => act_same rfl (intervalExpiry_early hs h), fun h => act_answers rfl ?_⟩, compare_eq⟩
  · rw [conversion_held hconv hp hf]
    exact ⟨rfl, rfl, keptBut_scanned _ _⟩
  · rw [conversion_stored hconv h]
    have hfree := keptBut_withConv .free s.hw
    have hbefore := beforeStore_countLoss (ch := ch) (c := withConv .free s.hw) ⟨⟨rfl, rfl⟩, rfl⟩
      (unwatched_of_kept hu hfree (by simp) (by simp)) rfl
    obtain ⟨⟨hslots, hactive, hstored, hresult, hpubs, htold, hring, hbelow, hlast⟩, hsettings, -, hkept⟩ :=
      hbefore.storedFrom v s.hw.control.ms
    have hloss := keptBut_countLoss ch (withConv .free s.hw)
    refine ⟨?_, fun k hk => ?_, hsettings, hactive, hstored, hresult, hpubs, htold, ?_, fun hch => ?_, fun hch => ?_,
      (hfree.mono (by simp)).trans ((hloss.mono (by simp)).trans hkept)⟩
    · rw [hslots]
      exact Vector.getElem_set_self _
    · rw [hslots]
      exact Vector.getElem_set_ne _ _ fun he => hk (Fin.ext he.symm)
    · rw [hring, append_ring_congr _ _ _ (withConv .free s.hw) s.hw rfl rfl]
      rfl
    · obtain ⟨hposition, hcount, -, hstepped, hothers, -⟩ := hbelow hch
      exact ⟨hposition, hcount, hstepped, hothers⟩
    · obtain ⟨hposition, hcount, hend, hraised, hsingle, hstepped, hzero, hinterval⟩ := hlast hch
      exact ⟨hposition, hcount, hend, hraised, fun hm => (hsingle hm).1, fun hm => (hstepped hm).1, hzero,
        fun hm hi => (hinterval hm hi).1⟩
  · rw [conversion_discarded hconv]
    exact ⟨by cases k <;> rfl, keptBut_withConv _ _⟩
  · rw [intervalExpiry_reached hs hon h, convert_eq, hconv]
    exact ⟨rfl, rfl, keptBut_scanned _ _⟩

end Sys2Proof.Machine.Chip
end

section
namespace Sys2Proof.ChannelRec

theorem valid_iff (r : ChannelRec) : r.valid = true ↔ r.consume.toNat ≤ 1 ∧ r.enable.toNat ≤ 1 ∧ r.mode.toNat ≤ 1
    ∧ r.event.toNat ≤ 1 ∧ r.lower.toNat ≤ r.upper.toNat ∧ r.upper.toNat ≤ 4095 := by
  simp only [valid, bit?, Bool.and_eq_true, decide_eq_true_eq]
  omega

end Sys2Proof.ChannelRec

namespace Sys2Proof.Machine.Chip
variable {b c : Chip} {ch : Fin 8} {r : ChannelRec} {v : BitVec 12} {t : Word} {image : List Byte}

/-! ## A hold and its release (R84, R85, R93) -/

/-- The scan is HELD at a channel. -/
def HeldAt (ch : Fin 8) (c : Chip) : Prop := ∃ v t, c.sense.scan = .held v t ∧ c.sense.position = ch

theorem releaseHold_held (hs : c.sense.scan = .held v t) (hp : c.sense.position = ch) :
    releaseHold ch c = scanOn ch (storeSample ch v t c) := by
  unfold releaseHold
  rw [hs]
  exact if_pos hp

theorem releaseHold_not_held (h : ¬ HeldAt ch c) : releaseHold ch c = c := by
  unfold releaseHold
  cases hs : c.sense.scan with
  | held v t => exact if_neg fun hp => h ⟨v, t, hs, hp⟩
  | _ => rfl

/-- The sample that a READ returned is FRESH and still in its slot (R84). -/
def ReturnedFresh (ch : Fin 8) (image : List Byte) (c : Chip) : Prop :=
  c.on .sense = true ∧ Bytes.get image 2 = 1 ∧ c.sense.slots[ch].state = .fresh
  ∧ c.sense.slots[ch].seq = Bytes.half image 0

/-- The chip after the sample in a slot has been consumed and the slot's record has joined the publication list (R85). -/
def consumed (ch : Fin 8) (c : Chip) : Chip := { c with
  sense := { c.sense with slots := c.sense.slots.set ch { c.sense.slots[ch] with state := .consumed } }
  path := c.path.join (.sampleSlot ch) }

theorem keptBut_consumed (ch : Fin 8) (c : Chip) : KeptBut [.sense, .path] c (consumed ch c) := fun p hp => by
  cases p <;> simp at hp <;> rfl

theorem consumeSample_of_fresh (h : ReturnedFresh ch image c) :
    consumeSample ch image c = releaseHold ch (consumed ch c) := by
  obtain ⟨hon, hread, hfresh, hseq⟩ := h
  refine (if_pos (by simp only [hon, hread, hfresh, hseq, BEq.rfl, Bool.and_self])).trans ?_
  rw [publish_eq]
  rfl

theorem consumeSample_of_not_fresh (h : ¬ ReturnedFresh ch image c) : consumeSample ch image c = c := by
  refine if_neg fun hb => h ?_
  simp only [Bool.and_eq_true, beq_iff_eq, and_assoc] at hb
  exact hb

/-- The chip after a READ has been answered with the words of these bytes. -/
def readOut (image : List Byte) (c : Chip) : Chip :=
  { c with path := { c.path with response := some (.done (wordsOf image)) } }

/-- A consuming read of a sample slot in a ready state: the image that it returned is reported on the chip with the READ
answered (R1, R12). -/
theorem sampleConsume_answers {s : State} {P : Chip → Prop} (h : s.hw.ready = true)
    (himage : image = s.hw.mem.bytes 16 (0xFF0400 + 16 * ch.val))
    (hu : (consumeSample ch image (s.hw.readOut image)).unwatched = true)
    (hp : P (consumeSample ch image (s.hw.readOut image)).timed) : Answers (.sampleConsume ch) s P := by
  have hg : s.hw.control.gen = .idle := ((ready_iff _).mp h).2.2
  have hread : s.hw.mem.bytes (RecId.sampleSlot ch).size (RecId.sampleSlot ch).addr = image := by
    rw [himage, RecId.addr, RecId.offset, ← Nat.add_assoc]
    rfl
  have hrow : readRow (.sampleSlot ch) (consumeSample ch) s.hw = touch (consumeSample ch image (s.hw.readOut image)) := by
    rw [readRow_eq (by rw [hg]; simp), (prst_iff s.hw).mpr hg, if_neg (by simp), hread]
    rfl
  refine act_answers rfl ?_
  rw [hrow, touch_of_unwatched _ hu]
  exact hp

/-! ## A latch of channel settings (R92, R93) -/

theorem keptBut_reportLatch (o : Nat) (x : Code) (c : Chip) : KeptBut [.control, .path] c (reportLatch o x c) := by
  rw [reportLatch_eq]
  exact fun p hp => by cases p <;> simp at hp <;> rfl

theorem keptBut_timed (c : Chip) : KeptBut [.path] c c.timed := keptBut_path c _

/-- The chip with the settings of a channel replaced. -/
def withSettings (ch : Fin 8) (x : ChannelSettings) (c : Chip) : Chip :=
  { c with sense := { c.sense with settings := c.sense.settings.set ch x } }

theorem keptBut_withSettings (ch : Fin 8) (x : ChannelSettings) (c : Chip) : KeptBut [.sense] c (withSettings ch x c) :=
  keptBut_sense _ c

theorem channelLatch_refused (h : r.valid = false ∨ c.on .sense = false) : channelLatch ch r c
    = reportLatch (RecId.channelSettings ch).offset (if r.valid then .off else .badArg) c := by
  unfold channelLatch
  dsimp only
  cases hv : r.valid with
  | false => rfl
  | true =>
    have hoff : c.on .sense = false := h.resolve_left (by simp [hv])
    rw [hoff]
    rfl

theorem channelLatch_taken (hv : r.valid = true) (hon : c.on .sense = true) (h : ¬ HeldAt ch c ∨ r.consume = 1) :
    channelLatch ch r c = reportLatch (RecId.channelSettings ch).offset .ok (withSettings ch r.settings c) := by
  unfold channelLatch
  dsimp only
  rw [if_neg (by simp [hv]), if_neg (by simp [hon])]
  refine congrArg _ (if_neg fun hb => ?_)
  obtain ⟨hheld, hprotect⟩ := Bool.and_eq_true_iff.mp hb
  rcases h with hn | h1
  · cases hs : c.sense.scan with
    | held v t => exact hn ⟨v, t, hs, by simpa [hs] using hheld⟩
    | _ => simp [hs] at hheld
  · simp [ChannelRec.settings, h1] at hprotect

theorem channelLatch_released (hv : r.valid = true) (hon : c.on .sense = true) (h0 : r.consume = 0)
    (hs : c.sense.scan = .held v t) (hp : c.sense.position = ch) : channelLatch ch r c
      = reportLatch (RecId.channelSettings ch).offset .ok
          (scanOn ch (storeSample ch v t (countLoss ch (withSettings ch r.settings c)))) := by
  unfold channelLatch
  dsimp only
  rw [if_neg (by simp [hv]), if_neg (by simp [hon]), if_pos (by simp [hs, hp, ChannelRec.settings, h0])]
  exact congrArg _ (releaseHold_held (c := countLoss ch (withSettings ch r.settings c)) hs hp)

/-- Of the later chip, a held sample's store is about the sense unit, the ring, the attention flags and the publication
list. -/
theorem heldStored_of_same {lost : Half} {x : ChannelSettings} {a d e : Chip} (h : HeldStored ch v t lost x a d)
    (hs : e.sense = d.sense) (hr : e.ring = d.ring) (ha : e.attention = d.attention)
    (hp : ∀ q ∈ d.path.pubs, q ∈ e.path.pubs) : HeldStored ch v t lost x a e := by
  unfold HeldStored at h ⊢
  rw [hs, hr, ha]
  obtain ⟨hslots, hactive, hstored, hresult, hslot, hstatus, hrest⟩ := h
  exact ⟨hslots, hactive, hstored, hresult, hp _ hslot, hp _ hstatus, hrest⟩

/-- The chip before the store by which settings with OVERWRITE release a hold (R93): they are in force, and a FRESH sample
in the slot has been counted as lost. -/
theorem beforeStore_settings {y : Chip} (h : Alike y c) (hu : c.unwatched = true) (hs : c.sense = y.sense)
    (x : ChannelSettings) :
    BeforeStore ch y.sense.slots[ch].state
      (if y.sense.slots[ch].state = .fresh then satInc y.sense.slots[ch].lost else y.sense.slots[ch].lost)
      (y.sense.settings.set ch x) y (countLoss ch (withSettings ch x c)) := by
  have hk := keptBut_withSettings ch x c
  refine beforeStore_countLoss (h.of_kept hk (by simp) (by simp) (by simp)) (unwatched_of_kept hu hk (by simp) (by simp)) ?_
  rw [withSettings, hs]

theorem unwatched_reportLatch (o : Nat) (x : Code) (h : c.unwatched = true) : (reportLatch o x c).unwatched = true := by
  rw [reportLatch_eq]
  exact h

/-- Settles O40: a consumed sample and settings with OVERWRITE release a hold by the store of O39
(`BeforeStore.heldStored`); the other cases are those of `consumeSample` and `channelLatch`. -/
theorem sampleConsumedAndChannelSettings : Obligations.SampleConsumedAndChannelSettings := by
  unfold Obligations.SampleConsumedAndChannelSettings
  intro s ch r hready old image off held taken
  have hu : s.hw.unwatched = true := ((ready_iff _).mp hready).2.1
  have hread : KeptBut [.path] s.hw (s.hw.readOut image) := keptBut_path _ _
  have hrow {P : Chip → Prop} := latchRow_answers (P := P) (i := .channelSettingsLatch ch r) (s := s) rfl hready
    (Machine.ChannelRec.length_toBytes ch r)
  refine ⟨fun hf hh => ?_, fun hf => ?_, fun v t hf hs hp => ?_, fun hv hon hh => ?_, fun v t hv hon h0 hs hp => ?_,
    fun h => ?_, r.valid_iff, rfl⟩
  · have hd := consumeSample_of_fresh (c := s.hw.readOut image) hf
    rw [releaseHold_not_held (c := consumed ch (s.hw.readOut image)) hh] at hd
    refine sampleConsume_answers hready rfl ?_ ?_ <;> rw [hd]
    · exact hu
    · exact ⟨rfl, rfl, (hread.mono (by simp)).trans ((keptBut_consumed _ _).trans ((keptBut_timed _).mono (by simp)))⟩
  · have hd := consumeSample_of_not_fresh (c := s.hw.readOut image) hf
    refine sampleConsume_answers hready rfl ?_ ?_ <;> rw [hd]
    · exact hu
    · exact ⟨rfl, hread.trans (keptBut_timed _)⟩
  · have hd := consumeSample_of_fresh (c := s.hw.readOut image) hf
    rw [releaseHold_held (c := consumed ch (s.hw.readOut image)) hs hp] at hd
    have hbefore : BeforeStore ch .consumed old.lost s.hw.sense.settings s.hw (consumed ch (s.hw.readOut image)) :=
      ⟨⟨⟨rfl, rfl⟩, rfl⟩, hu, rfl⟩
    obtain ⟨hheld, hsettings, hresponse, hkept⟩ := hbefore.storedFrom v t
    generalize scanOn ch (storeSample ch v t (consumed ch (s.hw.readOut image))) = d at hd hheld hsettings hresponse hkept
    refine sampleConsume_answers hready rfl ?_ ?_ <;> rw [hd]
    · exact unwatched_of_kept hbefore.unwatched hkept (by simp) (by simp)
    · exact ⟨heldStored_of_same hheld rfl rfl rfl fun _ => id, hsettings, hresponse, (hread.mono (by simp)).trans
        (((keptBut_consumed _ _).mono (by simp)).trans (hkept.trans ((keptBut_timed _).mono (by simp))))⟩
  · refine hrow fun m sh hm hsh _ hunwatched => ?_
    rw [channelLatch_taken (c := s.hw.written m sh) hv hon hh, reportLatch_eq]
    refine ⟨hunwatched, rfl, rfl, rfl, ⟨hm, hsh⟩, fun p hp => ?_⟩
    cases p <;> simp at hp <;> rfl
  · refine hrow fun m sh hm hsh _ hunwatched => ?_
    have hbefore := beforeStore_settings (ch := ch) (y := s.hw) (c := s.hw.written m sh) ⟨⟨rfl, rfl⟩, rfl⟩ hunwatched rfl
      r.settings
    have hcounted := (keptBut_withSettings ch r.settings (s.hw.written m sh)).trans (keptBut_countLoss ch _)
    obtain ⟨hheld, hsettings, hresponse, hstored⟩ := hbefore.storedFrom v t
    have hkept := (hcounted.mono (by simp)).trans hstored
    rw [channelLatch_released (c := s.hw.written m sh) hv hon h0 hs hp]
    generalize scanOn ch (storeSample ch v t (countLoss ch (withSettings ch r.settings (s.hw.written m sh)))) = d
      at hkept hresponse hheld hsettings
    have hforce : (s.hw.sense.settings.set ch r.settings)[ch] = r.settings := Vector.getElem_set_self _
    rw [hforce] at hheld
    have hreport := keptBut_reportLatch (RecId.channelSettings ch).offset .ok d
    refine ⟨unwatched_reportLatch _ _ (unwatched_of_kept hunwatched hkept (by simp) (by simp)), ?_⟩
    rw [reportLatch_eq] at hreport ⊢
    refine ⟨heldStored_of_same hheld rfl rfl rfl fun q hq => (mem_joins _ _ _).mpr (.inr hq), hsettings, ?_,
      (mem_joins _ _ _).mpr (.inl rfl), hresponse, ⟨?_, ?_⟩, ((keptBut_written m sh s.hw).mono (by simp)).trans
        ((hkept.mono (by simp)).trans ((hreport.mono (by simp)).trans ((keptBut_timed _).mono (by simp))))⟩
    · exact congrArg (Control.reported off .ok) (hkept .control (by simp))
    · exact (hkept .mem (by simp) : d.mem = m) ▸ hm
    · exact (hkept .shadow (by simp) : d.shadow = sh) ▸ hsh
  · refine hrow fun m sh hm hsh _ hunwatched => ?_
    rw [channelLatch_refused (c := s.hw.written m sh) h, reportLatch_eq]
    refine ⟨hunwatched, rfl, rfl, ⟨hm, hsh⟩, fun p hp => ?_⟩
    cases p <;> simp at hp <;> rfl

end Sys2Proof.Machine.Chip
end

section
namespace Sys2Proof.Machine

/-! ## Appends to the event ring (R104 to R106) -/

/-- A publication in flight of another record, or none, is not marked stale (R107). -/
theorem stalePort_other {r : RecId} {p : Option InFlight} (h : ∀ data stale, p ≠ some (.publication r data stale)) :
    stalePort r p = p := by
  rcases p with _ | ⟨⟩ | ⟨q, data, stale⟩ | ⟨⟩ | ⟨⟩
  case some.publication =>
    have hq : q ≠ r := fun hq => h data stale (by rw [hq])
    rw [stalePort, if_neg hq]
  all_goals rfl

theorem stalePort_same (r : RecId) (data : List Byte) (stale : Bool) :
    stalePort r (some (.publication r data stale)) = some (.publication r data true) := by
  rw [stalePort, if_pos rfl]

namespace Chip
variable {c : Chip} {k : EventKind} {x y : Byte}

theorem append_of_full (h : c.ring.held = 32) : c.append k x y = c.appendDropped :=
  if_pos (Nat.le_of_eq h.symm)

theorem append_of_room (h : c.ring.held < 32) (hl : c.ring.lostPending = 0) : c.append k x y = c.appendRoom k x y :=
  (if_neg (Nat.not_le.mpr h)).trans (if_pos hl)

/-- The chip after a LOST entry has told of the appends that found no room (R106 steps 1 and 2). -/
def lossTold (c : Chip) : Chip :=
  publish .ringStatus { c.appendRoom .lost 0 c.ring.lostPending with
    ring := { (c.appendRoom .lost 0 c.ring.lostPending).ring with lostPending := 0 } }

/-- An append that finds losses to tell of is an append after their LOST entry (R106). -/
theorem append_of_losses (h : c.ring.held < 32) (hl : c.ring.lostPending ≠ 0) :
    c.append k x y = c.lossTold.append k x y := by
  have hnone : c.lossTold.ring.lostPending = 0 := by simp [lossTold]
  refine ((if_neg (Nat.not_le.mpr h)).trans (if_neg hl)).trans ?_
  unfold append
  change (if c.lossTold.ring.held < Config.ringSize then _ else _) = _
  by_cases hroom : c.lossTold.ring.held < Config.ringSize
  · rw [if_pos hroom, if_neg (Nat.not_le.mpr hroom), if_pos hnone]
    rfl
  · rw [if_neg hroom, if_pos (Nat.le_of_not_lt hroom)]
    rfl

/-- An append that finds room raises EVENT where the ring was empty (R104). -/
theorem appendRoom_attention (h : c.inv = true) : (c.appendRoom k x y).attention
    = if c.ring.held = 0 then c.attention.raised .event else c.attention := by
  unfold appendRoom
  dsimp only
  simp only [beq_iff_eq]
  split_ifs
  · rw [raiseCause_attention _ _ (by simpa using inv_lineOk h)]
    simp
  · simp

/-- What an append that finds room reports: its slot's record, and the attention record where it raises EVENT; a publication
of the slot in flight is older than the entry (R104, R107). -/
theorem appendRoom_path : (c.appendRoom k x y).path =
    { (if c.ring.held = 0 ∧ c.attention.pending[Cause.event.idx] = false
        then (c.path.join (.ringEntry c.ring.tail)).join .attention else c.path.join (.ringEntry c.ring.tail)) with
      port := stalePort (.ringEntry c.ring.tail) c.path.port } := by
  unfold appendRoom
  dsimp only
  by_cases hempty : c.ring.held = 0
  · rw [if_pos (by simp [hempty]), raiseCause_path, markStale_path, publish_path]
    cases hp : c.attention.pending[Cause.event.idx] with
    | true => simp [hp, Path.join]
    | false => simp [hp, hempty, Path.join]
  · rw [if_neg (by simp [hempty]), markStale_path, publish_path, if_neg fun h => hempty h.1]
    rfl

theorem mem_pubs_appendRoom : RecId.ringEntry c.ring.tail ∈ (c.appendRoom k x y).path.pubs := by
  rw [appendRoom_path]
  split_ifs <;> simp [Path.join, mem_joins]

theorem keptBut_appendRoom (k : EventKind) (x y : Byte) (c : Chip) :
    KeptBut [.ring, .attention, .path] c (appendRoom k x y c) := fun p hp => by
  cases p <;> simp at hp <;> simp [Part.same]

theorem lossTold_ring : c.lossTold.ring
    = { c.ring.push c.control.ms .lost 0 c.ring.lostPending with lostPending := 0 } := by
  simp [lossTold, appendRoom_ring]

theorem lossTold_attention (h : c.inv = true) : c.lossTold.attention
    = if c.ring.held = 0 then c.attention.raised .event else c.attention := by
  simp [lossTold, appendRoom_attention h]

theorem mem_pubs_lossTold {r : RecId} :
    r ∈ c.lossTold.path.pubs ↔ r = .ringStatus ∨ r ∈ (c.appendRoom .lost 0 c.ring.lostPending).path.pubs :=
  mem_pubs_publish _ _ _

theorem keptBut_ring (x : Ring) (c : Chip) : KeptBut [.ring] c { c with ring := x } := fun p hp => by
  cases p <;> simp at hp <;> rfl

theorem keptBut_lossTold (c : Chip) : KeptBut [.ring, .attention, .path] c c.lossTold :=
  (keptBut_appendRoom _ _ _ c).trans (((keptBut_ring _ _).mono (by simp)).trans ((keptBut_publish _ _).mono (by simp)))

/-! ## A pop of the event ring (R108) -/

/-- The slot under the head holds an entry that is PUBLISHED (R108). -/
def Poppable (i : Fin 32) (c : Chip) : Prop := c.ring.head = i ∧ 0 < c.ring.held ∧ c.ring.published[i] = true

/-- The chip with the entry under the head popped. -/
def popped (i : Fin 32) (c : Chip) : Chip :=
  { c with ring := { c.ring with head := i + 1, held := c.ring.held - 1 }, path := c.path.join .ringStatus }

theorem keptBut_popped (i : Fin 32) (c : Chip) : KeptBut [.ring, .path] c (popped i c) := fun p hp => by
  cases p <;> simp at hp <;> rfl

theorem popEvent_of_poppable {i : Fin 32} (h : Poppable i c) : popEvent i c = popped i c := by
  have hnext : c.ring.slot 1 = i + 1 := by
    rw [← h.1]
    exact Fin.ext (by simp [Ring.slot, Fin.val_add])
  refine (if_pos h).trans ?_
  rw [publish_eq, Ring.pop, hnext]
  rfl

theorem popEvent_of_not_poppable {i : Fin 32} (h : ¬ Poppable i c) : popEvent i c = c := if_neg h

/-! ### Rows that stand for a consuming read -/

variable {r : RecId} {f : List Byte → Chip → Chip} {i : Instr} {s : State} {P : Chip → Prop}

/-- A consuming read with PRST released: the image that memory holds is reported on the chip with the READ answered (R1,
R12). -/
theorem readRow_answers (hi : exec i s = act (readRow r f) s) (hg : s.hw.control.gen = .idle)
    (hu : (f (s.hw.mem.bytes r.size r.addr) (s.hw.readOut (s.hw.mem.bytes r.size r.addr))).unwatched = true)
    (hp : P (f (s.hw.mem.bytes r.size r.addr) (s.hw.readOut (s.hw.mem.bytes r.size r.addr))).timed) : Answers i s P := by
  refine act_answers hi ?_
  rw [readRow_eq (by rw [hg]; simp), (prst_iff s.hw).mpr hg, if_neg (by simp)]
  exact (touch_of_unwatched _ hu).symm ▸ hp

/-- A consuming read while a restart pulse runs is timed, and neither answered nor reported (R21). -/
theorem readRow_discarded (hi : exec i s = act (readRow r f) s) (hg : s.hw.control.gen ≠ .holding)
    (hn : s.hw.control.gen ≠ .idle) (hu : s.hw.unwatched = true) : Answers i s (KeptBut [.path] s.hw) := by
  refine act_answers hi ?_
  rw [readRow_eq hg, prst_eq_true.mpr hn]
  exact (touch_of_unwatched _ hu).symm ▸ keptBut_timed s.hw

/-- Settles O22: the append by its three cases (`append_of_room`, `append_of_full`, `append_of_losses`), the pop by
`popEvent` on the chip with the READ answered. -/
theorem eventRingAppendsAndPops : Obligations.EventRingAppendsAndPops := by
  unfold Obligations.EventRingAppendsAndPops
  refine ⟨fun c k x y hinv => ⟨keptBut_append k x y c, fun hroom hl => ?_, fun hfull => ?_, fun hroom hl => ?_⟩,
    fun s i hu hg => ?_⟩
  · rw [append_of_room hroom hl, appendRoom_path]
    exact ⟨appendRoom_ring k x y c, appendRoom_attention hinv, rfl, stalePort_other,
      fun data stale hport => hport ▸ stalePort_same _ data stale⟩
  · rw [append_of_full hfull]
    exact ⟨appendDropped_ring c, by simp, publish_path _ _⟩
  · exact ⟨c.lossTold, lossTold_ring, mem_pubs_lossTold.mpr (.inl rfl), mem_pubs_lossTold.mpr (.inr mem_pubs_appendRoom),
      lossTold_attention hinv, keptBut_lossTold c, append_of_losses hroom hl⟩
  · intro words
    have hread (image : List Byte) : KeptBut [.path] s.hw (s.hw.readOut image) := keptBut_path _ _
    have hwords : wordsOf (s.hw.mem.bytes (RecId.ringEntry i).size (RecId.ringEntry i).addr) = words := by
      simp only [words, RecId.addr, RecId.offset, ← Nat.add_assoc]
      rfl
    refine ⟨fun hidle hhead hheld hpub => ?_, fun hidle hnot => ?_, fun hn => readRow_discarded rfl hg hn hu⟩
    · have hd (image : List Byte) := popEvent_of_poppable (c := s.hw.readOut image) ⟨hhead, hheld, hpub⟩
      refine readRow_answers (f := fun _ => popEvent i) rfl hidle ?_ ?_ <;> rw [hd]
      · exact hu
      · exact ⟨rfl, hwords ▸ rfl, ((hread _).mono (by simp)).trans
          ((keptBut_popped i _).trans ((keptBut_timed _).mono (by simp)))⟩
    · have hd (image : List Byte) := popEvent_of_not_poppable (c := s.hw.readOut image) hnot
      refine readRow_answers (f := fun _ => popEvent i) rfl hidle ?_ ?_ <;> rw [hd]
      · exact hu
      · exact ⟨hwords ▸ rfl, (hread _).trans (keptBut_timed _)⟩

end Chip
end Sys2Proof.Machine
end

section
namespace Sys2Proof.Machine.Chip
variable {c : Chip} {n : Fin 11}

/-! ## A line judged (R96 to R98) -/

theorem keptBut_modInput (n : Fin 11) (f : InputLine → InputLine) (c : Chip) : KeptBut [.input] c (c.modInput n f) :=
  keptBut_input _ c

theorem keptBut_pins (x : Pins) (c : Chip) : KeptBut [.pins] c { c with pins := x } := fun p hp => by
  cases p <;> simp at hp <;> rfl

theorem disagrees_iff : c.disagrees n = true ↔ c.rawState n ≠ c.input.line[n].stable := bne_iff_ne

/-- An event mode calls for an event at changes in both directions, or at those in its own (R98). -/
theorem wantsEvent_iff (mode : EventMode) (active : Bool) : wantsEvent mode active = true
    ↔ mode = .both ∨ (mode = .press ∧ active = true) ∨ (mode = .release ∧ active = false) := by
  cases mode <;> simp [wantsEvent]

/-- The chip after the stable state of an input has become what the raw level means, and the input state record has joined
the publication list (R98). -/
def turned (n : Fin 11) (c : Chip) : Chip := { c with
  input := { line := c.input.line.set n { c.input.line[n] with stable := c.rawState n, timer := none },
             lastChange := c.control.ms }
  path := c.path.join .inputState }

theorem keptBut_turned (n : Fin 11) (c : Chip) : KeptBut [.input, .path] c (turned n c) := fun p hp => by
  cases p <;> simp at hp <;> rfl

/-- The INPUT event of a stable state that has changed (R98). -/
def turnTold (n : Fin 11) (x : InputSettings) (new : Bool) (c : Chip) : Chip :=
  if wantsEvent x.event new then c.append .input (Bytes.ofNat n.val) (Bytes.ofBool new) else c

theorem keptBut_turnTold (n : Fin 11) (x : InputSettings) (new : Bool) (c : Chip) :
    KeptBut [.ring, .attention, .path] c (turnTold n x new c) := by
  unfold turnTold
  split_ifs
  · exact keptBut_append _ _ _ _
  · exact .refl _ _

theorem turnTold_response (n : Fin 11) (x : InputSettings) (new : Bool) (c : Chip) :
    (turnTold n x new c).path.response = c.path.response := by
  unfold turnTold
  split_ifs <;> simp

theorem echoes_turnTold {a b : Chip} (n : Fin 11) (x : InputSettings) (new : Bool) (h : Echoes a b) :
    Echoes (turnTold n x new a) (turnTold n x new b) := by
  unfold turnTold
  split_ifs
  · exact h.append _ _ _
  · exact h

/-- A change of a stable state with no reflex entry watching: the turn and its event (R98). -/
theorem changeStable_eq (h : c.unwatched = true) :
    changeStable n c = turnTold n c.input.line[n].settings (c.rawState n) (turned n c) := by
  have hsettings : (turned n c).input.line[n].settings = c.input.line[n].settings := by simp [turned]
  have hkept := ((keptBut_turned n c).mono (l' := [.input, .ring, .attention, .path]) (by simp)).trans
    ((keptBut_turnTold n c.input.line[n].settings (c.rawState n) (turned n c)).mono (by simp))
  refine Eq.trans ?_ (handChange_of_unwatched _ (unwatched_of_kept h hkept (by simp) (by simp)))
  unfold changeStable turnTold
  rw [← hsettings]
  simp only [publish_eq]
  rfl

theorem turnTold_iff (n : Fin 11) (x : InputSettings) (new : Bool) (c : Chip) : turnTold n x new c
    = if x.event = .both ∨ (x.event = .press ∧ new = true) ∨ (x.event = .release ∧ new = false)
      then c.append .input (Bytes.ofNat n.val) (Bytes.ofBool new) else c :=
  if_congr (wantsEvent_iff x.event new) rfl rfl

/-- The stable state of an input has turned: the line, and what is told of it (R98). -/
structure TurnedFrom (n : Fin 11) (new : Bool) (c d : Chip) : Prop where
  input : d.input = { line := c.input.line.set n { c.input.line[n] with stable := new, timer := none },
                      lastChange := c.control.ms }
  reports : Reports (turnTold n c.input.line[n].settings new { c with path := c.path.join .inputState }) d
  kept : KeptBut [.input, .ring, .attention, .path] c d

theorem TurnedFrom.mem_pubs {d : Chip} {new : Bool} (h : TurnedFrom n new c d) : RecId.inputState ∈ d.path.pubs := by
  obtain ⟨-, -, hpath⟩ := h.reports
  have hjoined : RecId.inputState ∈ (c.path.join .inputState).pubs := (mem_joins _ _ _).mpr (.inl rfl)
  rw [hpath, turnTold]
  split_ifs
  · exact mem_pubs_append _ _ _ _ _ hjoined
  · exact hjoined

theorem changeStable_turnedFrom (h : c.unwatched = true) : TurnedFrom n (c.rawState n) c (changeStable n c) := by
  rw [changeStable_eq h]
  have htold := keptBut_turnTold n c.input.line[n].settings (c.rawState n) (turned n c)
  have hsame : Echoes { c with path := c.path.join .inputState } (turned n c) := ⟨⟨⟨rfl, rfl⟩, rfl⟩, rfl⟩
  refine ⟨htold .input (by simp), (echoes_turnTold n _ _ hsame).reports ?_,
    ((keptBut_turned n c).mono (by simp)).trans (htold.mono (by simp))⟩
  rw [turnTold_response, turnTold_response]
  rfl

theorem judgeEdge_agrees (h : c.rawState n = c.input.line[n].stable) :
    judgeEdge n c = c.modInput n (fun x => { x with timer := none }) :=
  if_neg fun hd => disagrees_iff.mp hd h

theorem judgeEdge_runs (h : c.rawState n ≠ c.input.line[n].stable) (hd : c.input.line[n].settings.debounce ≠ 0) :
    judgeEdge n c = c.modInput n (fun x => { x with timer := some c.control.ms }) :=
  (if_pos (disagrees_iff.mpr h)).trans (if_neg hd)

theorem judgeEdge_turns (h : c.rawState n ≠ c.input.line[n].stable) (hd : c.input.line[n].settings.debounce = 0) :
    judgeEdge n c = changeStable n c :=
  (if_pos (disagrees_iff.mpr h)).trans (if_pos hd)

/-! ## Edges and expiries (R96, R97) -/

/-- The chip with a level on an input's line. -/
def levelled (n : Fin 11) (level : Bool) (c : Chip) : Chip :=
  { c with pins := { c.pins with input := c.pins.input.set n level } }

theorem rawState_levelled (level : Bool) :
    (levelled n level c).rawState n = (level == c.input.line[n].settings.activeHigh) := by
  simp [rawState, levelled]

theorem levelled_same {level : Bool} (h : c.pins.input[n] = level) : levelled n level c = c := by
  have hset : c.pins.input.set n level = c.pins.input := h ▸ Vector.set_getElem_self _
  unfold levelled
  rw [hset]

theorem inputLine_same {level : Bool} (h : c.pins.input[n] = level) : inputLine n level c = c := if_pos h

theorem inputLine_off {level : Bool} (h : c.on .input = false) : inputLine n level c = levelled n level c := by
  by_cases hl : c.pins.input[n] = level
  · rw [inputLine_same hl, levelled_same hl]
  · exact (if_neg hl).trans (if_neg fun hon : c.on .input = true => by simp [h] at hon)

theorem inputLine_on {level : Bool} (h : c.pins.input[n] ≠ level) (hon : c.on .input = true) :
    inputLine n level c = judgeEdge n (levelled n level c) :=
  (if_neg h).trans (if_pos hon)

theorem debounceDue_iff : c.debounceDue n = true ↔ ∃ t, c.input.line[n].timer = some t ∧ c.on .input = true
    ∧ c.input.line[n].settings.debounce ≤ since c.control.ms t := by
  unfold debounceDue
  cases c.input.line[n].timer <;> simp

theorem debounceExpiry_due (h : c.debounceDue n = true) : debounceExpiry n c = changeStable n c := if_pos h

theorem debounceExpiry_early (h : ¬ c.debounceDue n = true) : debounceExpiry n c = c := if_neg h

/-- Settles O41: an edge by the cases of `judgeEdge` on the chip with the level on its line, an expiry by `debounceDue`; a
turn leaves what `TurnedFrom` says. -/
theorem inputEdgesDebounced : Obligations.InputEdgesDebounced := by
  unfold Obligations.InputEdgesDebounced
  intro s n level _ hu x becomes c raw
  have hpins : KeptBut [.pins] s.hw (levelled n level s.hw) := keptBut_pins _ _
  have hraw : (levelled n level s.hw).rawState n = raw := rawState_levelled level
  have hbecomes (a d : Chip) (new : Bool) (hi : a.input.line[n] = x) (ha : KeptBut [.pins] s.hw a)
      (h : TurnedFrom n new a d) : becomes a new d := by
    obtain ⟨hinput, hreports, hkept⟩ := h
    rw [hi] at hinput hreports
    rw [turnTold_iff] at hreports
    exact ⟨hinput, hreports, hkept .pins (by simp), (ha.mono (by simp)).trans (hkept.mono (by simp))⟩
  have hedge (hl : s.hw.pins.input[n] ≠ level) (hon : s.hw.on .input = true) {P : Chip → Prop}
      (hp : P (judgeEdge n (levelled n level s.hw))) : Answers (.inputEdge n level) s P :=
    act_answers rfl ((inputLine_on hl hon).symm ▸ hp)
  refine ⟨fun hl => act_same rfl (inputLine_same hl), fun hoff => act_answers rfl ?_, fun hl hon => ⟨fun hne hd => ?_,
    fun heq => ?_, fun hne hd => ?_⟩, fun t ht hon => ⟨fun hlt => ?_, fun hle => ?_⟩, fun h => ?_⟩
  · rw [inputLine_off hoff]
    exact ⟨rfl, hpins⟩
  · refine hedge hl hon ?_
    rw [judgeEdge_runs (hraw.trans_ne hne) hd]
    exact ⟨rfl, rfl, (hpins.mono (by simp)).trans ((keptBut_modInput n _ _).mono (by simp))⟩
  · refine hedge hl hon ?_
    rw [judgeEdge_agrees (hraw.trans heq)]
    exact ⟨rfl, rfl, (hpins.mono (by simp)).trans ((keptBut_modInput n _ _).mono (by simp))⟩
  · refine hedge hl hon ?_
    rw [judgeEdge_turns (hraw.trans_ne hne) hd]
    exact hbecomes c _ raw rfl hpins (hraw ▸ changeStable_turnedFrom (c := levelled n level s.hw) hu)
  · refine act_same rfl (debounceExpiry_early fun hdue => ?_)
    obtain ⟨t', ht', -, hle⟩ := debounceDue_iff.mp hdue
    obtain rfl : t' = t := Option.some.inj (ht'.symm.trans ht)
    exact absurd hle (Nat.not_le.mpr hlt)
  · refine act_answers rfl ?_
    rw [debounceExpiry_due (debounceDue_iff.mpr ⟨t, ht, hon, hle⟩)]
    exact hbecomes s.hw _ _ rfl (.refl _ _) (changeStable_turnedFrom hu)
  · refine act_same rfl (debounceExpiry_early fun hdue => ?_)
    obtain ⟨t, ht, hon, -⟩ := debounceDue_iff.mp hdue
    rcases h with hnone | hoff
    · exact nomatch hnone.symm.trans ht
    · exact nomatch hoff.symm.trans hon

end Sys2Proof.Machine.Chip
end

section
namespace Sys2Proof.Machine

theorem InputRec.valid_iff (r : InputRec) :
    r.valid = true ↔ r.debounce.toNat ≤ 3 ∧ r.polarity.toNat ≤ 1 ∧ r.event.toNat ≤ 3 := by
  unfold Sys2Proof.InputRec.valid
  rw [Bool.and_eq_true, Bool.and_eq_true, bit?_iff, decide_eq_true_iff, decide_eq_true_iff, and_assoc]

namespace Chip
variable {c : Chip} {n : Fin 11} {r : InputRec} {y : InputSettings}

/-! ## New settings of an input (R99) -/

theorem modInput_modInput (n : Fin 11) (f g : InputLine → InputLine) (c : Chip) :
    modInput n g (modInput n f c) = modInput n (fun x => g (f x)) c := by
  simp [modInput]

/-- The chip with new settings of an input in force and its timer like this. -/
def retimed (n : Fin 11) (y : InputSettings) (timer : Option Word) (c : Chip) : Chip :=
  c.modInput n (fun x => { x with settings := y, timer := timer })

/-- When the debounce timer of an input started, or now where it is idle (R99). -/
def timerStart (n : Fin 11) (c : Chip) : Word := c.input.line[n].timer.getD c.control.ms

theorem rawState_retimed (timer : Option Word) : (retimed n y timer c).rawState n = (c.pins.input[n] == y.activeHigh) := by
  unfold rawState retimed
  rw [modInput_same]
  rfl

/-- The raw level under new settings disagrees with the stable state. -/
theorem disagrees_settings : (c.modInput n (fun x => { x with settings := y })).disagrees n = true
    ↔ (c.pins.input[n] == y.activeHigh) ≠ c.input.line[n].stable := by
  rw [disagrees_iff, rawState, modInput_same]
  rfl

theorem takeInputSettings_agrees (h : (c.pins.input[n] == y.activeHigh) = c.input.line[n].stable) :
    takeInputSettings n y c = retimed n y none c := by
  refine (if_pos ?_).trans (modInput_modInput n _ _ c)
  rw [Bool.eq_false_iff.mpr fun hd => disagrees_settings.mp hd h]
  rfl

/-- Settings under which the raw level disagrees start an idle timer, and end one that has run for the debounce time. -/
theorem takeInputSettings_disagrees (h : (c.pins.input[n] == y.activeHigh) ≠ c.input.line[n].stable) :
    takeInputSettings n y c = if y.debounce ≤ since c.control.ms (timerStart n c)
      then changeStable n (retimed n y (some (timerStart n c)) c) else retimed n y (some (timerStart n c)) c := by
  have hmod : (c.modInput n (fun x => { x with settings := y })).modInput n
      (fun x => { x with timer := some (x.timer.getD c.control.ms) }) = retimed n y (some (timerStart n c)) c := by
    simp [modInput, retimed, timerStart]
  have htimer : (retimed n y (some (timerStart n c)) c).input.line[n].timer = some (timerStart n c) := by
    rw [retimed, modInput_same]
  unfold takeInputSettings
  dsimp only
  rw [if_neg (by rw [disagrees_settings.mpr h]; simp), modInput_control, hmod, htimer]
  rfl

/-! ### A latch of input settings, case by case -/

theorem inputLatch_refused (h : r.valid = false ∨ c.on .input = false) : inputLatch n r c
    = reportLatch (RecId.inputSettings n).offset (if r.valid then .off else .badArg) c := by
  unfold inputLatch
  dsimp only
  cases hv : r.valid with
  | false => rfl
  | true =>
    have hoff : c.on .input = false := h.resolve_left (by simp [hv])
    rw [hoff]
    rfl

/-- The chip after a latch's settings have been compared with those in force, and taken where they differ (R99). -/
def resettle (n : Fin 11) (y : InputSettings) (c : Chip) : Chip :=
  if y = c.input.line[n].settings then c else takeInputSettings n y c

theorem inputLatch_accepted (hv : r.valid = true) (hon : c.on .input = true) :
    inputLatch n r c = reportLatch (RecId.inputSettings n).offset .ok (resettle n r.settings c) := by
  unfold inputLatch
  dsimp only
  rw [if_neg (by simp [hv]), if_neg (by simp [hon])]
  rfl

/-- Settings that turn no stable state touch their line alone. -/
structure Resettled (n : Fin 11) (line : InputLine) (c d : Chip) : Prop where
  input : d.input = { c.input with line := c.input.line.set n line }
  kept : KeptBut [.input] c d

theorem resettled_retimed (n : Fin 11) (y : InputSettings) (timer : Option Word) (c : Chip) :
    Resettled n { c.input.line[n] with settings := y, timer := timer } c (retimed n y timer c) :=
  ⟨rfl, keptBut_modInput n _ c⟩

theorem resettle_same (h : y = c.input.line[n].settings) : Resettled n c.input.line[n] c (resettle n y c) := by
  rw [resettle, if_pos h]
  exact ⟨by rw [Fin.getElem_fin, Vector.set_getElem_self], .refl _ _⟩

theorem resettle_agrees (h : y ≠ c.input.line[n].settings)
    (ha : (c.pins.input[n] == y.activeHigh) = c.input.line[n].stable) :
    Resettled n { c.input.line[n] with settings := y, timer := none } c (resettle n y c) := by
  rw [resettle, if_neg h, takeInputSettings_agrees ha]
  exact resettled_retimed n y none c

theorem resettle_waits (h : y ≠ c.input.line[n].settings)
    (ha : (c.pins.input[n] == y.activeHigh) ≠ c.input.line[n].stable)
    (ht : since c.control.ms (timerStart n c) < y.debounce) :
    Resettled n { c.input.line[n] with settings := y, timer := some (timerStart n c) } c (resettle n y c) := by
  rw [resettle, if_neg h, takeInputSettings_disagrees ha, if_neg (Nat.not_le.mpr ht)]
  exact resettled_retimed n y _ c

theorem resettle_turns (hu : c.unwatched = true) (h : y ≠ c.input.line[n].settings)
    (ha : (c.pins.input[n] == y.activeHigh) ≠ c.input.line[n].stable)
    (ht : y.debounce ≤ since c.control.ms (timerStart n c)) :
    TurnedFrom n (c.pins.input[n] == y.activeHigh) (retimed n y (some (timerStart n c)) c) (resettle n y c) := by
  rw [resettle, if_neg h, takeInputSettings_disagrees ha, if_pos ht, ← rawState_retimed (some (timerStart n c))]
  exact changeStable_turnedFrom ((unwatched_congr c _ rfl rfl).trans hu)

theorem TurnedFrom.input_retimed {new : Bool} {timer : Option Word} {d : Chip}
    (h : TurnedFrom n new (retimed n y timer c) d) : d.input
      = { line := c.input.line.set n ⟨new, none, y⟩, lastChange := c.control.ms } := by
  rw [h.input]
  simp [retimed, modInput]

/-- A row that latches input settings, accepted: d is e, the chip after `resettle`, with the result reported and the WRITE
stored and timed. -/
structure InputLatched (n : Fin 11) (r : InputRec) (c e d : Chip) : Prop where
  input : d.input = e.input
  control : d.control = c.control.reported (RecId.inputSettings n).offset .ok
  path : d.path = (e.path.join .status).timed c.control.ms
  stored : RecordStored (.inputSettings n) r.toBytes c d

theorem inputRow_accepted {s : State} {P : Chip → Prop} {l : List Part} (hready : s.hw.ready = true) (hv : r.valid = true)
    (hon : s.hw.on .input = true) (hl : .control ∉ l ∧ .reflex ∉ l ∧ .mem ∉ l ∧ .shadow ∉ l)
    (H : ∀ m sh, (s.hw.written m sh).unwatched = true →
      KeptBut l (s.hw.written m sh) (resettle n r.settings (s.hw.written m sh))
      ∧ ∀ d, InputLatched n r s.hw (resettle n r.settings (s.hw.written m sh)) d →
        KeptBut (l ++ [.control, .path, .mem, .shadow]) s.hw d → P d) :
    Answers (.inputSettingsLatch n r) s P := by
  obtain ⟨hcontrol, hreflex, hmem, hshadow⟩ := hl
  refine latchRow_answers rfl hready (Machine.InputRec.length_toBytes n r) fun m sh hm hsh _ hunwatched => ?_
  obtain ⟨hkept, hp⟩ := H m sh hunwatched
  rw [inputLatch_accepted (c := s.hw.written m sh) hv hon]
  generalize resettle n r.settings (s.hw.written m sh) = e at hkept hp
  have hsame : e.control = s.hw.control := hkept .control hcontrol
  have hreport := (keptBut_reportLatch (RecId.inputSettings n).offset .ok e).trans ((keptBut_timed _).mono (by simp))
  have hquiet : e.unwatched = true := unwatched_of_kept hunwatched hkept hcontrol hreflex
  refine ⟨unwatched_reportLatch _ _ hquiet, hp _ ⟨?_, ?_, ?_, ?_, ?_⟩ ?_⟩
  · exact hreport .input (by simp)
  · rw [reportLatch_eq, ← hsame]
    rfl
  · rw [reportLatch_timed_path rfl, hsame]
  · exact (hreport .mem (by simp)).trans (hkept .mem hmem) ▸ hm
  · exact (hreport .shadow (by simp)).trans (hkept .shadow hshadow) ▸ hsh
  · exact ((keptBut_written m sh s.hw).mono (by simp)).trans
      ((hkept.mono (by simp +contextual)).trans (hreport.mono (by simp)))

/-- Settles O42: the latch by its cases (`inputRow_accepted`, `inputLatch_refused`), settings taken by the cases of
`resettle`. -/
theorem inputSettingsTaken : Obligations.InputSettingsTaken := by
  unfold Obligations.InputSettingsTaken
  intro s n r hready x off y raw start latched
  have hlatched {line : InputLine} (hv : r.valid = true) (hon : s.hw.on .input = true)
      (h : ∀ m sh, Resettled n line (s.hw.written m sh) (resettle n y (s.hw.written m sh))) :
      Answers (.inputSettingsLatch n r) s (latched line) := by
    refine inputRow_accepted (l := [.input]) hready hv hon (by simp) fun m sh _ => ⟨(h m sh).kept, fun d hd hkept => ?_⟩
    have hpath : (resettle n y (s.hw.written m sh)).path = (s.hw.written m sh).path := (h m sh).kept .path (by simp)
    refine ⟨hd.input.trans (h m sh).input, hd.control, ?_, hd.stored, hkept⟩
    rw [hd.path, hpath]
    rfl
  refine ⟨fun hv hon => ⟨fun heq => ?_, fun hne ha => ?_, fun hne ha hlt => ?_, fun hne ha hle => ?_⟩, fun h => ?_,
    InputRec.valid_iff r, rfl, ?_, ?_⟩
  · exact hlatched hv hon fun m sh => resettle_same (c := s.hw.written m sh) heq
  · exact hlatched hv hon fun m sh => resettle_agrees (c := s.hw.written m sh) hne ha
  · exact hlatched hv hon fun m sh => resettle_waits (c := s.hw.written m sh) hne ha hlt
  · refine inputRow_accepted (l := [.input, .ring, .attention, .path]) hready hv hon (by simp) fun m sh hu => ?_
    have h := resettle_turns (c := s.hw.written m sh) hu hne ha hle
    refine ⟨((keptBut_modInput n _ _).mono (by simp)).trans h.kept, fun d hd hkept => ⟨?_, hd.control, ?_, ?_, hd.stored,
      hkept.mono (by simp)⟩⟩
    · exact hd.input.trans h.input_retimed
    · rw [hd.path]
      exact (mem_joins _ _ _).mpr (.inr h.mem_pubs)
    · rw [hd.path]
      exact (mem_joins _ _ _).mpr (.inl rfl)
  · refine latchRow_answers rfl hready (Machine.InputRec.length_toBytes n r) fun m sh hm hsh _ hunwatched => ?_
    rw [inputLatch_refused (c := s.hw.written m sh) h, reportLatch_eq]
    refine ⟨hunwatched, rfl, rfl, ⟨hm, hsh⟩, fun p hp => ?_⟩
    cases p <;> simp at hp <;> rfl
  · intro code ms hin hcode
    simp only [List.mem_cons, Prod.mk.injEq, List.not_mem_nil, or_false] at hin
    obtain ⟨rfl, rfl⟩ | ⟨rfl, rfl⟩ | ⟨rfl, rfl⟩ | ⟨rfl, rfl⟩ := hin <;> simp [y, InputRec.settings, hcode]
  · intro code mode hin hcode
    simp only [List.mem_cons, Prod.mk.injEq, List.not_mem_nil, or_false] at hin
    obtain ⟨rfl, rfl⟩ | ⟨rfl, rfl⟩ | ⟨rfl, rfl⟩ | ⟨rfl, rfl⟩ := hin <;> simp [y, InputRec.settings, hcode]

end Chip
end Sys2Proof.Machine
end

section
namespace Sys2Proof.Machine.Chip
variable {c d : Chip} {i k : Fin 8} {r : ReflexRec}

/-! ## One entry watches alone (R114) -/

/-- Every entry but i is DISABLED or SPENT: a change is judged on i alone (`Sole` is the
narrower case of a unit's start). -/
def WatchesAlone (i : Fin 8) (c : Chip) : Prop :=
  ∀ k, k ≠ i → c.reflex.entry[k].state = .disabled ∨ c.reflex.entry[k].state = .spent

theorem forEach_idle {α : Type} {xs : List α} {f : α → Chip → Chip} (h : ∀ x ∈ xs, f x c = c) : forEach xs f c = c :=
  forEach_inv (fun d => d = c) c rfl fun x hx _ hd => hd ▸ h x hx

theorem firesNow_of_idle (h : c.reflex.entry[k].state = .disabled ∨ c.reflex.entry[k].state = .spent) :
    c.firesNow k = false := by
  refine firesNow_of_state c k ?_
  rcases h with h | h <;> rw [h] <;> exact EntryState.noConfusion

namespace WatchesAlone

theorem of_others (h : WatchesAlone i c) (hd : ∀ k, k ≠ i → d.reflex.entry[k] = c.reflex.entry[k]) : WatchesAlone i d :=
  fun k hk => by
    rw [hd k hk]
    exact h k hk

theorem modEntry (h : WatchesAlone i c) (f : ReflexEntry → ReflexEntry) : WatchesAlone i (c.modEntry i f) :=
  h.of_others fun k hk => modEntry_other i k f c hk

theorem rejudge (h : WatchesAlone i c) : WatchesAlone i (rejudge i c) := h.of_others fun _ hk => rejudge_entry_other hk c

theorem fire (h : WatchesAlone i c) : WatchesAlone i (fire i c) := h.of_others fun k hk => by
  rw [fire_reflex]
  simp [Fin.ext_iff.not.mp (Ne.symm hk)]

/-- A judgement of the table is the judgement of the entry that watches. -/
theorem judgeAll (h : WatchesAlone i c) : forEach (List.finRange 8) Chip.rejudge c = Chip.rejudge i c := by
  obtain ⟨xs, ys, hall⟩ := List.append_of_mem (List.mem_finRange i)
  have hnodup := hall ▸ List.nodup_finRange 8
  obtain ⟨hxs, hys⟩ := not_or.mp (List.mem_append.not.mp (List.nodup_cons.mp (List.nodup_middle.mp hnodup)).1)
  have hidle {zs : List (Fin 8)} {e : Chip} (he : WatchesAlone i e) (hz : i ∉ zs) : forEach zs Chip.rejudge e = e :=
    forEach_idle fun k hk => rejudge_of_state e k (he k fun hki => hz (hki ▸ hk))
  calc forEach (List.finRange 8) Chip.rejudge c
      = forEach ys Chip.rejudge (Chip.rejudge i (forEach xs Chip.rejudge c)) := by
        rw [hall, forEach, List.foldl_append]
        rfl
    _ = Chip.rejudge i c := by rw [hidle h hxs, hidle h.rejudge hys]

/-- The entries that fire on a change. -/
theorem firing (h : WatchesAlone i c) : (List.finRange 8).filter c.firesNow = if c.firesNow i then [i] else [] := by
  have hother (k : Fin 8) (hk : c.firesNow k = true) : k = i :=
    by_contra fun hne => Bool.noConfusion (hk.symm.trans (firesNow_of_idle (h k hne)))
  split_ifs with hi
  · have hpick : (List.finRange 8).filter c.firesNow = (List.finRange 8).filter (· == i) :=
      List.filter_congr fun k _ => Bool.eq_iff_iff.mpr
        ⟨fun hk => beq_iff_eq.mpr (hother k hk), fun hk => beq_iff_eq.mp hk ▸ hi⟩
    rw [hpick, List.filter_beq, List.count_eq_one_of_mem (List.nodup_finRange 8) (List.mem_finRange i)]
    rfl
  · exact List.filter_eq_nil_iff.mpr fun k _ hk => hi (hother k hk ▸ hk)

/-- A change on which the entry does not fire judges it once. -/
theorem handChange_of_not_fires (h : WatchesAlone i c) (hon : c.on .reflex = true) (hi : c.firesNow i = false) :
    handChange c = Chip.rejudge i c := by
  rw [handChange_on hon, settle_of_none 5 (h.firing.trans (if_neg (by simp [hi]))), h.judgeAll]

theorem not_firesNow_fire (i : Fin 8) (c : Chip) : (Chip.fire i c).firesNow i = false := by
  refine firesNow_of_state _ _ ?_
  rw [fire_reflex]
  simp only [Fin.getElem_fin, Vector.getElem_set_self]
  split_ifs <;> exact EntryState.noConfusion

/-- The changes of the entry's own firing judge it once. -/
theorem handChange_fire (h : WatchesAlone i c) (hon : c.on .reflex = true) :
    handChange (Chip.fire i c) = Chip.rejudge i (Chip.fire i c) :=
  h.fire.handChange_of_not_fires (by simpa [on] using hon) (not_firesNow_fire i c)

/-- A change on which the entry fires (R114, R117). -/
theorem handChange_of_fires (h : WatchesAlone i c) (hon : c.on .reflex = true) (hi : c.firesNow i = true) :
    handChange c = Chip.rejudge i (Chip.fire i c) := by
  rw [handChange_on hon, settle_of_firing 5 (h.firing.trans (if_pos hi)), h.judgeAll, rejudge_firesNow hi, forEach_cons]
  exact (settle_of_none 4 (h.fire.firing.trans (if_neg (by simp [not_firesNow_fire])))).trans h.fire.judgeAll

theorem of_unwatched (hu : c.unwatched = true) (hon : c.on .reflex = true) (i : Fin 8) : WatchesAlone i c := fun k _ => by
  simp only [unwatched, hon, Bool.not_true, Bool.false_or, List.all_eq_true, List.mem_finRange, forall_const,
    Bool.or_eq_true, beq_iff_eq] at hu
  exact hu k

theorem unwatched (h : WatchesAlone i c) (hi : c.reflex.entry[i].state = .disabled) : c.unwatched = true := by
  simp only [Chip.unwatched, Bool.or_eq_true, List.all_eq_true, List.mem_finRange, forall_const, beq_iff_eq]
  refine .inr fun k => ?_
  by_cases hk : k = i
  · exact .inl (hk ▸ hi)
  · exact h k hk

end WatchesAlone

/-! ## An entry that fires while no other watches (R119 to R125) -/

variable {a : Chip} {m : Fin 4} {n : Byte} {x : Code}

/-- A motor that STOP takes (R121). -/
theorem performed_stopped (hs : r.stop = 1 ∧ c.on .motor = true) (hm : r.motors[m] = 1) : (performed i r x c).motor.ch[m]
    = halted (.reflex i) none (stopsIn r) c.control.ms c.motor.ch[m] := by
  have hstop := (fireStop_channel i r c m).trans (if_pos ⟨hs, hm⟩)
  obtain ⟨howner, -⟩ := halted_spec (stops_stopCmd r) (.reflex i) none c.control.ms c.motor.ch[m]
  refine (performed_channel (.inr ?_)).trans hstop
  rw [hstop, howner]
  exact Owner.noConfusion

/-- A motor that STOP does not take stays, unless a restart frees it from PROC. -/
theorem performed_not_stopped (hm : r.stop ≠ 1 ∨ r.motors[m] ≠ 1) (ho : r.restart ≠ 1 ∨ c.motor.ch[m].owner ≠ .proc) :
    (performed i r x c).motor.ch[m] = c.motor.ch[m] := by
  have hstop := (fireStop_channel i r c m).trans (if_neg fun h => hm.elim (fun hs => hs h.1.1) fun hm => hm h.2)
  exact (performed_channel (by rwa [hstop])).trans hstop

/-- The chip a with another entry i, this path and these memories. -/
def withEntry (i : Fin 8) (e : ReflexEntry) (p : Path) (mem sh : Mem) (a : Chip) : Chip :=
  { a with reflex := ⟨a.reflex.entry.set i e⟩, path := p, mem := mem, shadow := sh }

theorem withEntry_entry (i : Fin 8) (e : ReflexEntry) (p : Path) (mem sh : Mem) (a : Chip) :
    (withEntry i e p mem sh a).reflex.entry[i] = e := by simp [withEntry]

theorem entrySpent_withEntry (i : Fin 8) (e : ReflexEntry) (p : Path) (mem sh : Mem) (a : Chip) :
    ∃ e' p', entrySpent i (withEntry i e p mem sh a) = withEntry i e' p' mem sh a := by
  refine ⟨{ e with state := if e.record.rearm = 1 then .spent else .fired, fires := satInc e.fires },
    p.join .reflexStatus, ?_⟩
  rw [entrySpent, publish_eq, withEntry_entry]
  simp [modEntry, withEntry]

/-- An entry of a has performed its actions: what they leave, apart from the entry itself. -/
theorem fired_of_performed {e : ReflexEntry} {p : Path} {mem sh : Mem}
    (hd : KeptBut [.reflex, .path] (performed i r (firstNotOk (fireResults r a)) (withEntry i e p mem sh a)) d)
    (hentry : d.reflex = ⟨a.reflex.entry.set i
      ⟨r, if r.rearm = 1 then .spent else if d.condition r then .fired else .armed, n⟩⟩)
    (hpubs : .reflexStatus ∈ d.path.pubs) : Fired i r n a d := by
  have hmotor : d.motor = _ := hd .motor (by simp)
  have hlink : d.link = _ := hd .link (by simp)
  obtain ⟨hsame, halarm⟩ := performed_link i r (firstNotOk (fireResults r a)) (withEntry i e p mem sh a)
  refine ⟨hentry, hpubs, fun hs m hm => ?_, fun m hm ho => ?_, fun ht hon => ?_, fun ha hup => ?_, fun ha => ?_,
    fun hr hg => ?_, fun ht hr => ?_, ?_⟩
  · have hch : d.motor.ch[m] = halted (.reflex i) none (stopsIn r) a.control.ms a.motor.ch[m] := by
      rw [hmotor]
      exact performed_stopped hs hm
    obtain ⟨howner, hdeadline, hmode, hstage, hstall⟩ :=
      halted_spec (stops_stopCmd r) (.reflex i) none a.control.ms a.motor.ch[m]
    rw [hch]
    refine ⟨howner, hdeadline, hmode, hstage.trans ?_, hstall⟩
    unfold stopsIn
    split_ifs <;> rfl
  · rw [hmotor]
    exact performed_not_stopped hm ho
  · rw [hd .sound (by simp)]
    exact performed_voice ht hon
  · rw [hlink]
    exact halarm ha hup
  · rw [hd .attention (by simp)]
    exact performed_pending ha
  · rw [hd .control (by simp)]
    exact performed_restart hr hg
  · rw [hd .ring (by simp), ← firstNotOk_fireResults ht]
    exact performed_ring (a := a) ⟨rfl, rfl⟩ rfl rfl ht hr
  · rw [hlink]
    exact hsame

/-- A firing of an entry of a, and the judgement of its changes (R117, R119). -/
theorem fired_of_fire (i : Fin 8) (e : ReflexEntry) (p : Path) (mem sh : Mem) (a : Chip) :
    Fired i e.record (satInc e.fires) a (rejudge i (fire i (withEntry i e p mem sh a))) := by
  have hentry := rejudge_fire_reflex i (withEntry i e p mem sh a)
  have hset (z : ReflexEntry) : (withEntry i e p mem sh a).reflex.entry.set i z = a.reflex.entry.set i z :=
    Vector.set_set ..
  obtain ⟨e', p', hspent⟩ := entrySpent_withEntry i e p mem sh a
  have hfire : fire i (withEntry i e p mem sh a)
      = performed i e.record (firstNotOk (fireResults e.record a)) (withEntry i e' p' mem sh a) := by
    rw [fire_performed, withEntry_entry, hspent]
    rfl
  rw [withEntry_entry, hset] at hentry
  refine fired_of_performed (e := e') (p := p') (mem := mem) (sh := sh) ?_ hentry (rejudge_pubs i (fire_pubs i _).1)
  rw [← hfire]
  exact keptBut_rejudge i _

theorem keptBut_fire (i : Fin 8) (c : Chip) :
    KeptBut [.control, .ring, .attention, .path, .motor, .reflex, .sound, .link] c (fire i c) := fun p hp => by
  cases p <;> simp at hp <;> simp [Part.same]

/-! ## The end of a hold (O44) -/

theorem holdExpiryOf_early {t : Word} (hs : c.reflex.entry[i].state = .timing t) (ht : reached c.control.ms t = false) :
    holdExpiryOf i c = c := by
  unfold holdExpiryOf
  rw [hs]
  simp [ht]

theorem holdExpiryOf_reached {t : Word} (hs : c.reflex.entry[i].state = .timing t) (hon : c.on .reflex = true)
    (ht : reached c.control.ms t = true) : holdExpiryOf i c = handChange (fire i c) := by
  unfold holdExpiryOf
  rw [hs]
  simp [hon, ht]

theorem withEntry_self (i : Fin 8) (c : Chip) : withEntry i c.reflex.entry[i] c.path c.mem c.shadow c = c := by
  simp [withEntry]

/-- Settles O44: the expiry fires the entry, whose changes are judged on it alone (`WatchesAlone.handChange_fire`,
`fired_of_fire`); a change on which none fires is `handChange_of_noneFires`. -/
theorem entryFiresAtHoldExpiry : Obligations.EntryFiresAtHoldExpiry := by
  unfold Obligations.EntryFiresAtHoldExpiry
  refine ⟨fun s i t _ hon hs => ⟨fun ht => act_same rfl (holdExpiryOf_early hs ht), fun ht halone => act_answers rfl ?_⟩,
    fun c => handChange_of_noneFires⟩
  have hfired := fired_of_fire i s.hw.reflex.entry[i] s.hw.path s.hw.mem s.hw.shadow s.hw
  rw [withEntry_self] at hfired
  rw [holdExpiryOf_reached hs hon ht, WatchesAlone.handChange_fire halone hon]
  exact ⟨hfired, (keptBut_fire i _).trans ((keptBut_rejudge i _).mono (by simp))⟩

end Sys2Proof.Machine.Chip
end

section
namespace Sys2Proof

/-! ## The content of a reflex entry (R115) -/

theorem within_iff (lo hi n : Nat) : within lo hi n = true ↔ lo ≤ n ∧ n ≤ hi := by simp [within]

theorem TermRec.valid_iff (x : TermRec) : x.valid = true ↔ x.kind.toNat ≤ 6 ∧ (x.kind = 1 → x.index.toNat ≤ 10)
    ∧ (x.kind = 2 → x.index.toNat ≤ 7) ∧ (x.kind = 3 → x.index.toNat ≤ 3) ∧ (x.kind ≠ 0 → x.invert.toNat ≤ 1) := by
  simp only [valid, Bool.and_eq_true, Bool.or_eq_true, decide_eq_true_eq, bne_iff_ne, beq_iff_eq, Machine.bit?_iff, ne_eq,
    ← imp_iff_not_or, ← or_iff_not_imp_left, and_assoc]

/-- The flags of the motors that a STOP takes. -/
theorem ReflexRec.motors_iff (r : ReflexRec) : (r.motors.toList.all bit? = true ↔ ∀ m : Fin 4, r.motors[m].toNat ≤ 1)
    ∧ (r.motors.toList.any (· == 1) = true ↔ ∃ m : Fin 4, r.motors[m] = 1) := by
  have hmem (b : Byte) : b ∈ r.motors.toList ↔ ∃ m : Fin 4, r.motors[m] = b := by
    rw [Vector.mem_toList_iff]
    exact ⟨fun h => by
      obtain ⟨k, hk, hb⟩ := Vector.getElem_of_mem h
      exact ⟨⟨k, hk⟩, hb⟩, fun ⟨m, hm⟩ => hm ▸ Vector.getElem_mem m.isLt⟩
  constructor
  · simp only [List.all_eq_true, hmem, Machine.bit?_iff, forall_exists_index, forall_apply_eq_imp_iff]
  · simp only [List.any_eq_true, hmem, beq_iff_eq, exists_eq_right]

theorem ReflexRec.valid_iff (r : ReflexRec) : r.valid = true ↔
    (∀ x ∈ [r.enable, r.rearm, r.combine, r.stop, r.tone, r.alarm, r.attention, r.restart], x.toNat ≤ 1)
    ∧ (∀ x ∈ [r.term1, r.term2, r.term3], x.kind.toNat ≤ 6 ∧ (x.kind = 1 → x.index.toNat ≤ 10)
      ∧ (x.kind = 2 → x.index.toNat ≤ 7) ∧ (x.kind = 3 → x.index.toNat ≤ 3) ∧ (x.kind ≠ 0 → x.invert.toNat ≤ 1))
    ∧ (∃ x ∈ [r.term1, r.term2, r.term3], x.kind ≠ 0)
    ∧ (∃ x ∈ [r.stop, r.tone, r.alarm, r.attention, r.restart], x = 1) ∧ r.hold.toNat ≤ 10000
    ∧ (r.stop = 1 → r.stopMode.toNat ≤ 1 ∧ (∀ m : Fin 4, r.motors[m].toNat ≤ 1) ∧ ∃ m : Fin 4, r.motors[m] = 1)
    ∧ (r.tone = 1 → (50 ≤ r.frequency.toNat ∧ r.frequency.toNat ≤ 8000)
      ∧ 1 ≤ r.duration.toNat ∧ r.duration.toNat ≤ 60000)
    ∧ (r.restart = 1 → 1 ≤ r.pulse.toNat ∧ r.pulse.toNat ≤ 100) := by
  obtain ⟨hall, hany⟩ := r.motors_iff
  simp only [valid, terms, TermRec.used, Bool.and_eq_true, Bool.or_eq_true, List.all_eq_true, List.any_eq_true,
    decide_eq_true_eq, bne_iff_ne, beq_iff_eq, Machine.bit?_iff, within_iff, TermRec.valid_iff, hall, hany, ne_eq,
    ← imp_iff_not_or, List.mem_cons, exists_eq_or_imp, List.not_mem_nil, or_assoc]
  simp [and_assoc]

end Sys2Proof
end

section
namespace Sys2Proof.Machine.Chip
variable {c d : Chip} {i : Fin 8} {r : ReflexRec} {x : EntryState} {n k j : Byte}

/-! ## Conditions and their terms (R112, R113) -/

theorem condition_iff (c : Chip) (r : ReflexRec) : c.condition r = true ↔
    if r.combine = 1 then ∃ x ∈ r.terms, x.kind ≠ 0 ∧ c.termValue x = true
    else ∀ x ∈ r.terms, x.kind ≠ 0 → c.termValue x = true := by
  unfold condition
  split_ifs <;> simp [TermRec.used, or_iff_not_imp_left]

/-- A term reads its kind's state (R112). -/
theorem termValue_eq (c : Chip) (k j : Byte) : c.termValue ⟨k, j, 0⟩ = c.termReads ⟨k, j, 0⟩ := Bool.xor_false _

theorem termValue_inverted (c : Chip) (k j : Byte) : c.termValue ⟨k, j, 1⟩ = !c.termValue ⟨k, j, 0⟩ := by
  rw [termValue_eq]
  exact Bool.xor_true _

theorem peerCount_eq_zero (l : Link) : (l.peerCount == 0) = (List.finRange 8).all (fun p => l.peer[p].isNone) := by
  rw [Bool.eq_iff_iff]
  simp only [Link.peerCount, beq_iff_eq, List.length_eq_zero_iff, List.filter_eq_nil_iff, List.all_eq_true,
    List.mem_finRange, forall_const, Vector.mem_toList_iff, Bool.not_eq_true, Option.isSome_eq_false_iff]
  exact ⟨fun h p => h _ (Vector.getElem_mem p.isLt), fun h y hy => by
    obtain ⟨k, hk, rfl⟩ := Vector.getElem_of_mem hy
    exact h ⟨k, hk⟩⟩

theorem ofNat_eq_of_val {m : Nat} [NeZero m] {j : Byte} {p : Fin m} (h : j.toNat = p.val) : Fin.ofNat m j.toNat = p :=
  Fin.ext ((congrArg (· % m) h).trans (Nat.mod_eq_of_lt p.isLt))

/-! Each kind of term (Table 7-1). -/

theorem termValue_input {n : Fin 11} (hk : k = 1) (hj : j.toNat = n.val) :
    c.termValue ⟨k, j, 0⟩ = if c.on .input then c.input.line[n].stable else false := by
  obtain rfl := ofNat_eq_of_val hj
  rw [termValue_eq, Bool.if_false_right, Bool.decide_eq_true, hk]
  rfl

theorem termValue_sense {n : Fin 8} (hk : k = 2) (hj : j.toNat = n.val) :
    c.termValue ⟨k, j, 0⟩ = if c.on .sense then c.sense.slots[n].condition else false := by
  obtain rfl := ofNat_eq_of_val hj
  rw [termValue_eq, Bool.if_false_right, Bool.decide_eq_true, hk]
  rfl

theorem termValue_motor {n : Fin 4} (hk : k = 3) (hj : j.toNat = n.val) :
    c.termValue ⟨k, j, 0⟩ = if c.on .motor then c.motor.ch[n].stall == .stalled else false := by
  obtain rfl := ofNat_eq_of_val hj
  rw [termValue_eq, Bool.if_false_right, Bool.decide_eq_true, hk]
  rfl

theorem termValue_noPeer (hk : k = 4) : c.termValue ⟨k, j, 0⟩
    = if c.on .link then (List.finRange 8).all (fun p => c.link.peer[p].isNone) else false := by
  rw [termValue_eq, Bool.if_false_right, Bool.decide_eq_true, hk, ← peerCount_eq_zero]
  rfl

theorem termValue_linkDown (hk : k = 5) : c.termValue ⟨k, j, 0⟩ = if c.on .link then !c.pins.linkReady else false := by
  rw [termValue_eq, hk]
  show (c.on .link && !(c.on .link && c.pins.linkReady)) = _
  cases c.on .link <;> rfl

theorem termValue_quiet (hk : k = 6) : c.termValue ⟨k, j, 0⟩ = c.path.procQuiet := by
  rw [termValue_eq, hk]
  rfl

/-! ## The latch of an entry (R115, R116) -/

theorem touch_of_procQuiet (h : c.path.procQuiet = false) : touch c = c.timed := by
  unfold touch setProcQuiet
  rw [if_pos h, timed, ← h]

theorem reflexLatch_refused (h : r.valid = false ∨ c.on .reflex = false) : reflexLatch i r c
    = reportLatch (RecId.reflexEntry i).offset (if r.valid then .off else .badArg) c := by
  unfold reflexLatch
  cases hv : r.valid with
  | false => rfl
  | true => simp [h.resolve_left (by simp [hv])]

theorem reflexLatch_taken (hv : r.valid = true) (hon : c.on .reflex = true) :
    reflexLatch i r c = reportLatch (RecId.reflexEntry i).offset .ok (takeEntry i r c) := by
  simp [reflexLatch, hv, hon]

/-- An entry that a latch puts into the table (R116 step 1). -/
def putEntry (i : Fin 8) (r : ReflexRec) (x : EntryState) (c : Chip) : Chip := c.modEntry i (fun _ => ⟨r, x, 0⟩)

theorem putEntry_entry (i : Fin 8) (r : ReflexRec) (x : EntryState) (c : Chip) :
    (putEntry i r x c).reflex.entry[i] = ⟨r, x, 0⟩ := modEntry_same ..

theorem condition_putEntry (i : Fin 8) (r q : ReflexRec) (x : EntryState) (c : Chip) :
    (putEntry i r x c).condition q = c.condition q := condition_congr ((keptBut_modEntry i _ c).mono (by simp)) rfl q

theorem takeEntry_disabled (h : r.enable = 0) : takeEntry i r c = publish .reflexStatus (putEntry i r .disabled c) := by
  simp [takeEntry, putEntry, h]

theorem takeEntry_enabled (h : r.enable = 1) :
    takeEntry i r c = publish .reflexStatus (handChange (putEntry i r .armed c)) := by
  simp [takeEntry, putEntry, h]

theorem judgedState_putEntry (i : Fin 8) (r : ReflexRec) (x : EntryState) (c : Chip) (e : ReflexEntry) :
    (putEntry i r x c).judgedState e = c.judgedState e := by
  rw [judgedState, judgedState, condition_putEntry]
  rfl

theorem WatchesAlone.putEntry (h : WatchesAlone i c) (r : ReflexRec) (x : EntryState) :
    WatchesAlone i (putEntry i r x c) := h.modEntry _

theorem publish_of_mem {q : RecId} (h : q ∈ c.path.pubs) : publish q c = c := if_pos h

/-- An enabled entry that does not fire waits as it is judged: in ARMED, or in TIMING for its hold time (R117). -/
theorem takeEntry_waits (ha : WatchesAlone i c) (hon : c.on .reflex = true) (h : r.enable = 1)
    (hn : c.condition r = true → r.hold ≠ 0) :
    takeEntry i r c = publish .reflexStatus (putEntry i r (c.judgedState ⟨r, .armed, 0⟩) c) := by
  have hnot : (putEntry i r .armed c).firesNow i = false := by
    refine Bool.eq_false_iff.mpr fun hf => ?_
    obtain ⟨-, hcond, hhold⟩ := (firesNow_iff _ i).mp hf
    rw [putEntry_entry] at hcond hhold
    exact hn ((condition_putEntry ..).symm.trans hcond) hhold
  have hjudged : rejudge i (putEntry i r .armed c) = if c.judgedState ⟨r, .armed, 0⟩ = .armed then putEntry i r .armed c
      else publish .reflexStatus (putEntry i r (c.judgedState ⟨r, .armed, 0⟩) c) := by
    rw [rejudge_eq, putEntry_entry, judgedEntry, judgedState_putEntry]
    · simp [putEntry, Chip.modEntry]
    · rw [putEntry_entry, condition_putEntry]
      exact fun _ => hn
  rw [takeEntry_enabled h, (ha.putEntry r _).handChange_of_not_fires hon hnot, hjudged]
  split_ifs with hs
  · rw [hs]
  · exact publish_of_mem ((mem_pubs_publish _ _ _).mpr (.inl rfl))

/-- An enabled entry whose condition is true and that has no hold time fires. -/
theorem takeEntry_fires (ha : WatchesAlone i c) (hon : c.on .reflex = true) (h : r.enable = 1)
    (hc : c.condition r = true) (hh : r.hold = 0) :
    takeEntry i r c = rejudge i (fire i (putEntry i r .armed c)) := by
  have hcond := (condition_putEntry i r r .armed c).trans hc
  rw [takeEntry_enabled h, (ha.putEntry r _).handChange_of_fires hon]
  · exact publish_of_mem (rejudge_pubs i (fire_pubs i _).1)
  · rw [firesNow_iff, putEntry_entry]
    exact ⟨rfl, hcond, hh⟩

theorem condition_written (m sh : Mem) (c : Chip) (q : ReflexRec) : (c.written m sh).condition q = c.condition q :=
  condition_of_parts rfl rfl rfl rfl rfl rfl rfl q

theorem judgedState_written (m sh : Mem) (c : Chip) (e : ReflexEntry) :
    (c.written m sh).judgedState e = c.judgedState e := by
  rw [judgedState, judgedState, condition_written]
  rfl

theorem judgedState_armed_false (h : c.condition r = false) : c.judgedState ⟨r, .armed, n⟩ = .armed := by
  simp only [judgedState, h]
theorem judgedState_armed_true (h : c.condition r = true) :
    c.judgedState ⟨r, .armed, n⟩ = .timing (c.control.ms + r.hold.setWidth 32) := by
  simp only [judgedState, h]

/-- A latch row of an entry after whose latch no change of PROC_QUIET is judged. -/
theorem reflexRow_answers {s : State} {P : Chip → Prop} (hi : s.hw.inv = true) (hg : s.hw.control.gen = .idle)
    (H : ∀ m sh, Stored (RecId.reflexEntry i).addr r.toBytes s.hw.mem m →
      Stored (RecId.reflexEntry i).offset r.toBytes s.hw.shadow sh →
      ((reflexLatch i r (s.hw.written m sh)).unwatched = true
        ∨ (reflexLatch i r (s.hw.written m sh)).path.procQuiet = false)
      ∧ P (reflexLatch i r (s.hw.written m sh)).timed) : Answers (.reflexEntryLatch i r) s P := by
  obtain ⟨hmem, hshadow⟩ := storeRecord_stored (.reflexEntry i) r.toBytes s.hw (inv_mem hi) (inv_shadow hi)
    (ReflexRec.length_toBytes i r)
  obtain ⟨hquiet, hp⟩ := H _ _ hmem hshadow
  refine act_answers rfl ?_
  rw [latchRow_of_idle _ _ _ _ hg]
  rcases hquiet with hq | hq
  · rw [touch_of_unwatched _ hq]
    exact hp
  · rw [touch_of_procQuiet hq]
    exact hp

/-- What a latch row reports of an entry that has not fired. -/
def EntryTaken (i : Fin 8) (r : ReflexRec) (x : EntryState) (c d : Chip) : Prop :=
  d.reflex = { c.reflex with entry := c.reflex.entry.set i ⟨r, x, 0⟩ }
  ∧ d.control = c.control.reported (0x0500 + 32 * i.val) .ok
  ∧ d.path = ((c.path.join .reflexStatus).join .status).served (.done []) c.control.ms
  ∧ RecordStored (.reflexEntry i) r.toBytes c d ∧ KeptBut [.reflex, .control, .path, .mem, .shadow] c d

theorem reflexRow_taken {s : State} (hi : s.hw.inv = true) (hg : s.hw.control.gen = .idle) (hv : r.valid = true)
    (hon : s.hw.on .reflex = true) (hq : x = .disabled ∧ WatchesAlone i s.hw ∨ s.hw.path.procQuiet = false)
    (ht : ∀ m sh, takeEntry i r (s.hw.written m sh) = publish .reflexStatus (putEntry i r x (s.hw.written m sh))) :
    Answers (.reflexEntryLatch i r) s (EntryTaken i r x s.hw) := by
  refine reflexRow_answers hi hg fun m sh hm hsh => ?_
  rw [reflexLatch_taken (c := s.hw.written m sh) hv hon, ht, reportLatch_eq, publish_eq]
  refine ⟨?_, rfl, rfl, rfl, ⟨hm, hsh⟩, fun p hp => ?_⟩
  · refine hq.imp (fun ⟨hx, ha⟩ => ?_) id
    have hput : WatchesAlone i (putEntry i r x s.hw) := ha.modEntry _
    exact hput.unwatched (by rw [putEntry_entry, hx])
  · cases p <;> simp at hp <;> rfl

/-- The result of a latch, reported after a firing and timed, changes nothing that the firing has left. -/
theorem fired_reported (h : Fired i r n c d) (hq : d.path.procQuiet = false) (o : Nat) (y : Code) :
    Fired i r n c (reportLatch o y d).timed := by
  have hcond : (reportLatch o y d).timed.condition r = d.condition r := by
    rw [reportLatch_eq]
    refine condition_of_parts ?_ ?_ ?_ ?_ ?_ ?_ ?_ r
    exacts [rfl, rfl, rfl, rfl, rfl, rfl, hq.symm]
  unfold Fired at h ⊢
  rw [hcond, reportLatch_eq]
  obtain ⟨hentry, hpubs, hrest⟩ := h
  exact ⟨hentry, (mem_joins _ _ _).mpr (.inr hpubs), hrest⟩

/-- The firing of a latched entry, before the latch's result is reported (R116). -/
theorem takeEntry_fired (m sh : Mem) (ha : WatchesAlone i c) (hon : c.on .reflex = true) (h : r.enable = 1)
    (hc : c.condition r = true) (hh : r.hold = 0) : Fired i r 1 c (takeEntry i r (c.written m sh))
    ∧ (takeEntry i r (c.written m sh)).path.response = some (.done [])
    ∧ (takeEntry i r (c.written m sh)).path.procQuiet = c.path.procQuiet
    ∧ KeptBut [.control, .ring, .attention, .path, .motor, .reflex, .sound, .link] (c.written m sh)
      (takeEntry i r (c.written m sh)) := by
  have hcond := (condition_written m sh c r).trans hc
  rw [takeEntry_fires (c := c.written m sh) ha hon h hcond hh]
  refine ⟨fired_of_fire i ⟨r, .armed, 0⟩ (c.written m sh).path m sh c, by simp [putEntry], by simp [putEntry], ?_⟩
  exact ((keptBut_modEntry i _ _).mono (by simp)).trans ((keptBut_fire i _).trans ((keptBut_rejudge i _).mono (by simp)))

/-- An entry that fires on its latch (R116). -/
theorem reflexRow_fired {s : State} (hi : s.hw.inv = true) (hg : s.hw.control.gen = .idle) (hv : r.valid = true)
    (hon : s.hw.on .reflex = true) (ha : WatchesAlone i s.hw) (hq : s.hw.path.procQuiet = false) (h : r.enable = 1)
    (hc : s.hw.condition r = true) (hh : r.hold = 0) : Answers (.reflexEntryLatch i r) s fun d => Fired i r 1 s.hw d
      ∧ d.control.latchOffset = BitVec.ofNat 16 (0x0500 + 32 * i.val) ∧ d.control.latchCode = .ok
      ∧ .status ∈ d.path.pubs ∧ d.path.response = some (.done []) ∧ RecordStored (.reflexEntry i) r.toBytes s.hw d
      ∧ KeptBut [.control, .ring, .attention, .path, .motor, .reflex, .sound, .link, .mem, .shadow] s.hw d := by
  refine reflexRow_answers hi hg fun m sh hm hsh => ?_
  rw [reflexLatch_taken (c := s.hw.written m sh) hv hon]
  obtain ⟨hfired, hresponse, hquiet, hkept⟩ := takeEntry_fired m sh ha hon h hc hh
  generalize takeEntry i r (s.hw.written m sh) = d at *
  have hmem : d.mem = m := hkept .mem (by simp)
  have hshadow : d.shadow = sh := hkept .shadow (by simp)
  have hreported := fired_reported hfired (hquiet.trans hq) (RecId.reflexEntry i).offset .ok
  have hreport := (keptBut_reportLatch (RecId.reflexEntry i).offset .ok d).trans ((keptBut_timed _).mono (by simp))
  rw [reportLatch_eq] at hreported hreport ⊢
  exact ⟨.inr (hquiet.trans hq), hreported, rfl, rfl, (mem_joins _ _ _).mpr (.inl rfl), hresponse,
    ⟨hmem.symm ▸ hm, hshadow.symm ▸ hsh⟩,
    ((keptBut_written m sh s.hw).mono (by simp)).trans ((hkept.mono (by simp +contextual)).trans (hreport.mono (by simp)))⟩

/-- Settles O43: a latch by its cases (`reflexLatch_refused`, `takeEntry_disabled`, `takeEntry_waits`, `takeEntry_fires`),
and the condition, its terms and the content test by their own lemmas. -/
theorem reflexEntryLatched : Obligations.ReflexEntryLatched := by
  unfold Obligations.ReflexEntryLatched
  refine ⟨?_, condition_iff, ?_, ReflexRec.valid_iff⟩
  · intro s i r hi hg hw off holds entered
    constructor
    · intro hv hon
      have ha : WatchesAlone i s.hw := hw.elim (fun hu => .of_unwatched hu hon i) fun h => h.2
      have hwaits (he : r.enable = 1) (hq : s.hw.path.procQuiet = false) (hn : s.hw.condition r = true → r.hold ≠ 0) :
          Answers (.reflexEntryLatch i r) s (EntryTaken i r (s.hw.judgedState ⟨r, .armed, 0⟩) s.hw) := by
        refine reflexRow_taken hi hg hv hon (.inr hq) fun m sh => ?_
        rw [takeEntry_waits (c := s.hw.written m sh) ha hon he (by rwa [condition_written]), judgedState_written]
      refine ⟨fun he => ?_, fun he hq hc => ?_, fun he hq hc hh => ?_, fun he hq hc hh => ?_⟩
      · exact reflexRow_taken hi hg hv hon (.inl ⟨rfl, ha⟩) fun m sh => takeEntry_disabled he
      · have hstate : s.hw.judgedState ⟨r, .armed, 0⟩ = .armed := judgedState_armed_false hc
        exact hstate ▸ hwaits he hq fun ht => Bool.noConfusion (hc.symm.trans ht)
      · have hstate : s.hw.judgedState ⟨r, .armed, 0⟩ = .timing (s.hw.control.ms + r.hold.setWidth 32) :=
          judgedState_armed_true hc
        exact hstate ▸ hwaits he hq fun _ => hh
      · exact reflexRow_fired hi hg hv hon ha hq he hc hh
    · intro h
      refine reflexRow_answers hi hg fun m sh hm hsh => ?_
      rw [reflexLatch_refused (c := s.hw.written m sh) h, reportLatch_eq]
      refine ⟨hw.imp id And.left, rfl, rfl, ⟨hm, hsh⟩, fun p hp => ?_⟩
      cases p <;> simp at hp <;> rfl
  · intro c k j x
    exact ⟨termValue_inverted c k j, fun n hk hj => termValue_input hk hj, fun n hk hj => termValue_sense hk hj,
      fun n hk hj => termValue_motor hk hj, termValue_noPeer, termValue_linkDown, termValue_quiet⟩

end Sys2Proof.Machine.Chip
end

section
namespace Sys2Proof

/-! ## The content of a sound request (R131 step 1) -/

theorem toneOk_iff (f v d : Nat) :
    toneOk f v d = true ↔ (50 ≤ f ∧ f ≤ 8000) ∧ v ≤ 100 ∧ (1 ≤ d ∧ d ≤ 60000) := by
  simp only [toneOk, Bool.and_eq_true, within_iff, decide_eq_true_eq, and_assoc]

theorem wordAddrOk_iff (a : Word) : wordAddrOk a = true ↔ a.toNat % 4 = 0 ∧ a.toNat < 0x1000000 := by
  simp [wordAddrOk]

namespace SoundRec
variable {r : SoundRec}

theorem command_tone (h : toneOk r.frequency.toNat r.volume.toNat r.duration.toNat = true) :
    r.command 1 = some (.tone r.frequency.toNat r.volume.toNat r.duration.toNat) := if_pos h
theorem command_tone_none (h : ¬ toneOk r.frequency.toNat r.volume.toNat r.duration.toNat = true) :
    r.command 1 = none := if_neg h

theorem stream_iff (r : SoundRec) :
    (decide (r.volume.toNat ≤ 100) && bit? r.rate && wordAddrOk r.desc && r.desc != 0) = true
      ↔ r.volume.toNat ≤ 100 ∧ r.rate.toNat ≤ 1 ∧ r.desc.toNat % 4 = 0 ∧ r.desc ≠ 0 ∧ r.desc.toNat < 0x1000000 := by
  simp only [Bool.and_eq_true, decide_eq_true_eq, Machine.bit?_iff, wordAddrOk_iff, bne_iff_ne, and_assoc]
  rw [and_comm (a := r.desc.toNat < 0x1000000)]

theorem command_stream (h : r.volume.toNat ≤ 100 ∧ r.rate.toNat ≤ 1 ∧ r.desc.toNat % 4 = 0 ∧ r.desc ≠ 0
    ∧ r.desc.toNat < 0x1000000) : r.command 2 = some (.stream r.volume.toNat (r.rate == 1) r.desc) :=
  if_pos ((stream_iff r).mpr h)

theorem command_stream_none (h : ¬ (r.volume.toNat ≤ 100 ∧ r.rate.toNat ≤ 1 ∧ r.desc.toNat % 4 = 0 ∧ r.desc ≠ 0
    ∧ r.desc.toNat < 0x1000000)) : r.command 2 = none := if_neg fun ht => h ((stream_iff r).mp ht)

end SoundRec
end Sys2Proof

namespace Sys2Proof.Machine

namespace Chip

/-! ## The sound unit, its path and the end of a sound -/

/-- The chip with another sound unit and path. -/
def withSound (y : Sound) (p : Path) (c : Chip) : Chip := { c with sound := y, path := p }

theorem keptBut_withSound (y : Sound) (p : Path) (c : Chip) : KeptBut [.sound, .path] c (withSound y p c) := fun q hq => by
  cases q <;> simp at hq <;> rfl

theorem keptBut_endSound (x : Code) (c : Chip) :
    KeptBut [.sound, .ring, .attention, .path] c (endSound x c) := fun p hp => by
  cases p <;> simp at hp <;> simp [Part.same]

end Chip

namespace SoundEnded
variable {b c d : Chip} {o : Owner} {x : Code}

/-- What the end of a sound tells depends on the ring, the time and the port of the chip alone. -/
theorem of_alike (h : SoundEnded o x b d) (hr : b.ring = c.ring) (ht : b.control.ms = c.control.ms)
    (hp : b.path.port = c.path.port) : SoundEnded o x c d := by
  obtain ⟨hend, hring, hcause, hpub, hflight⟩ := h
  exact ⟨hend, hring.trans (Chip.append_ring_congr _ _ _ _ _ hr ht), hcause, hpub,
    fun q w hq => hflight q w (hp.trans hq)⟩

/-- The end of a sound stays told while the unit goes on, as long as its end code, its status record's publication and its
request in flight stay. -/
theorem goesOn (h : SoundEnded o x c d) {y : Sound} {p : Path} (hl : y.lastEnd = d.sound.lastEnd)
    (hp : .soundStatus ∈ p.pubs) (hport : p.port = d.path.port) : SoundEnded o x c (Chip.withSound y p d) := by
  obtain ⟨hend, hring, hcause, -, hflight⟩ := h
  exact ⟨hl.trans hend, hring, hcause, hp, fun q w hq => hport.trans (hflight q w hq)⟩

end SoundEnded

namespace Chip
variable {c d : Chip} {r : SoundRec} {n : Nat} {x : Code} {cmd : SoundCmd}

/-! ## The latch of the sound request slot, case by case (R131) -/

/-- The chip after a latch of the slot has told its result in the sound status record. -/
def soundTold (x : Code) (c : Chip) : Chip := withSound { c.sound with latchResult := x } (c.path.join .soundStatus) c

theorem soundResult_eq (x : Code) (h : c.resetting .sound = false) : soundResult x c = soundTold x c := by
  unfold soundResult
  rw [if_neg (by simp [h])]
  exact publish_eq _ _

theorem soundResult_resetting (x : Code) (h : c.resetting .sound = true) : soundResult x c = c := if_pos h

theorem soundLatch_badArg (hr : c.resetting .sound = false) (hcmd : r.command n = none) :
    soundLatch r n c = soundTold .badArg c := by
  unfold soundLatch
  rw [hcmd]
  exact soundResult_eq _ hr

theorem soundLatch_off (hon : c.on .sound = false) (hr : c.resetting .sound = false) (hcmd : r.command n = some cmd) :
    soundLatch r n c = soundTold .off c := by
  unfold soundLatch
  rw [hcmd]
  exact (if_pos (by simp [hon])).trans (soundResult_eq _ hr)

theorem not_on_of_resetting {u : BlockUnit} (h : c.resetting u = true) : c.on u = false := by
  cases hon : c.on u with
  | false => rfl
  | true => exact Bool.noConfusion ((not_resetting_of_on hon).symm.trans h)

theorem soundLatch_resetting (hr : c.resetting .sound = true) : soundLatch r n c = c := by
  unfold soundLatch
  cases hcmd : r.command n with
  | none => exact soundResult_resetting _ hr
  | some cmd => exact (if_pos (by simp [not_on_of_resetting hr])).trans (soundResult_resetting _ hr)

/-- With the unit ON a valid command acts and its result is told. -/
theorem soundLatch_on (hon : c.on .sound = true) (hcmd : r.command n = some cmd)
    (hdone : c.soundRequest cmd = (d, x)) (hd : d.control = c.control) : soundLatch r n c = soundTold x d := by
  unfold soundLatch
  rw [hcmd]
  dsimp only
  rw [if_neg (by simp [hon]), hdone]
  exact soundResult_eq _ (not_resetting_of_on ((on_eq (congrArg Control.block hd) _).trans hon))

theorem keptBut_soundTold (x : Code) (c : Chip) : KeptBut [.sound, .path] c (soundTold x c) := keptBut_withSound _ _ c

/-! ## The commands (R129, R132) -/

/-- A sound begins: this voice at this level, its requests placed, and the status record joining the publication list. -/
def soundBegun (y : Voice) (level : Byte) (more : List PartReq) (c : Chip) : Chip :=
  withSound { c.sound with voice := y, output := level }
    { c.path.join .soundStatus with parts := c.path.parts ++ more } c

@[simp] theorem soundBegun_control (y : Voice) (level : Byte) (more : List PartReq) (c : Chip) :
    (soundBegun y level more c).control = c.control := rfl

theorem startTone_eq (o : Owner) (f v k : Nat) (c : Chip) : startTone o f v k c = soundBegun
    (.tone o f v c.control.ms (c.control.ms + BitVec.ofNat 32 k)) (toneHigh v) [] (endSound .preempted c) := by
  have hms : (endSound .preempted c).control.ms = c.control.ms := by simp
  rw [startTone, publish_eq, soundBegun, List.append_nil, ← hms]
  rfl

theorem startStream_eq (v : Nat) (fast : Bool) (a : Word) (c : Chip) : startStream v fast a c = soundBegun
    (.stream {
      fast := fast, volume := v, addr := a, block := none, fetched := 0, staging := [], lastBlock := false,
      chainDone := false, starved := none, tookSample := false })
    128 [.descRead a.toNat] (endSound .preempted c) := by
  dsimp only [startStream]
  rw [publish_eq]
  rfl

theorem voiceAccepts_proc (h : ∀ i, c.sound.voice.source ≠ .reflex i) : c.voiceAccepts 2 = true := by
  unfold voiceAccepts
  cases hs : c.sound.voice.source with
  | none | link p | proc => rfl
  | reflex i => exact absurd hs (h i)

theorem voiceAccepts_reflex {i : Fin 8} (h : c.sound.voice.source = .reflex i) : c.voiceAccepts 2 = false := by
  unfold voiceAccepts
  rw [h]
  rfl

theorem voiceStop_ends (h : ∀ i, c.sound.voice.source ≠ .reflex i) : c.voiceStop = (c.endSound .ended, .ok) := by
  unfold voiceStop
  cases hs : c.sound.voice.source with
  | none | link p | proc => rfl
  | reflex i => exact absurd hs (h i)

theorem voiceStop_reflex {i : Fin 8} (h : c.sound.voice.source = .reflex i) : c.voiceStop = (c, .busy) := by
  unfold voiceStop
  rw [h]

/-! ## Rows of the sound request slot -/

theorem keptBut_soundRequest (cmd : SoundCmd) (c : Chip) :
    KeptBut [.sound, .ring, .attention, .path] c (c.soundRequest cmd).1 := by
  have hbegun (y : Voice) (level : Byte) (more : List PartReq) (e : Chip) :
      KeptBut [.sound, .ring, .attention, .path] e (soundBegun y level more e) :=
    KeptBut.mono (keptBut_withSound _ _ e) (by simp)
  have hsame : KeptBut [.sound, .ring, .attention, .path] c c := .refl _ c
  unfold soundRequest
  cases cmd with
  | none => exact hsame
  | tone f v k =>
    dsimp only
    split_ifs
    · rw [startTone_eq]
      exact (keptBut_endSound _ c).trans (hbegun _ _ _ _)
    · exact hsame
  | stream v fast a =>
    dsimp only
    split_ifs
    · rw [startStream_eq]
      exact (keptBut_endSound _ c).trans (hbegun _ _ _ _)
    · exact hsame
  | stop =>
    dsimp only [voiceStop]
    split
    · exact hsame
    · exact keptBut_endSound _ c

theorem keptBut_soundResult (x : Code) (c : Chip) : KeptBut [.sound, .ring, .attention, .path] c (soundResult x c) := by
  cases hr : c.resetting .sound with
  | true =>
    rw [soundResult_resetting x hr]
    exact .refl _ c
  | false =>
    rw [soundResult_eq x hr]
    exact (keptBut_soundTold x c).mono (by simp)

theorem keptBut_soundLatch (r : SoundRec) (n : Nat) (c : Chip) :
    KeptBut [.sound, .ring, .attention, .path] c (soundLatch r n c) := by
  unfold soundLatch
  split
  · exact keptBut_soundResult _ c
  · split_ifs
    · exact keptBut_soundResult _ c
    · exact (keptBut_soundRequest _ c).trans (keptBut_soundResult _ _)

/-- A row of the slot by what its latch does on the chip with the WRITE stored and answered. -/
theorem soundRow_answers {i : Instr} {s : State} {P : Chip → Prop} (hi : exec i s = act (soundRow r n) s)
    (h : s.hw.ready = true) (H : ∀ m sh, P (soundLatch r n (s.hw.written m sh)).timed) :
    Answers i s fun d => P d ∧ RecordStored .soundRequest (r.toBytes n) s.hw d
      ∧ KeptBut [.sound, .ring, .attention, .path, .mem, .shadow] s.hw d := by
  refine latchRow_answers hi h (SoundRec.length_toBytes r n) fun m sh hm hsh _ hunwatched => ?_
  have hkept := keptBut_soundLatch r n (s.hw.written m sh)
  refine ⟨unwatched_of_kept hunwatched hkept (by simp) (by simp), H m sh, ⟨?_, ?_⟩, ?_⟩
  · exact (hkept .mem (by simp) : _ = m) ▸ hm
  · exact (hkept .shadow (by simp) : _ = sh) ▸ hsh
  · exact ((keptBut_written m sh s.hw).mono (by simp)).trans
      ((hkept.mono (by simp +contextual)).trans ((keptBut_timed _).mono (by simp)))

/-- What a latch leaves that only tells its result: the WRITE stored and answered, and the status record joining. -/
def SoundLatched (r : SoundRec) (n : Nat) (x : Code) (c d : Chip) : Prop :=
  d.sound = { c.sound with latchResult := x } ∧ d.path = (c.path.join .soundStatus).served (.done []) c.control.ms
  ∧ RecordStored .soundRequest (r.toBytes n) c d ∧ KeptBut [.sound, .path, .mem, .shadow] c d

theorem soundRow_told {i : Instr} {s : State} (hi : exec i s = act (soundRow r n) s) (h : s.hw.ready = true)
    (H : ∀ m sh, soundLatch r n (s.hw.written m sh) = soundTold x (s.hw.written m sh)) :
    Answers i s (SoundLatched r n x s.hw) := by
  refine (soundRow_answers (P := fun d => d.sound = { s.hw.sound with latchResult := x }
      ∧ d.path = (s.hw.path.join .soundStatus).served (.done []) s.hw.control.ms
      ∧ KeptBut [.sound, .path, .mem, .shadow] s.hw d) hi h fun m sh => ?_).imp
    fun d ⟨⟨hsound, hpath, hkept⟩, hstored, _⟩ => ⟨hsound, hpath, hstored, hkept⟩
  rw [H]
  refine ⟨rfl, rfl, fun p hp => ?_⟩
  cases p <;> simp at hp <;> rfl

/-- While the unit is RESETTING a latch only stores its record (R131). -/
theorem soundRow_resetting {i : Instr} {s : State} (hi : exec i s = act (soundRow r n) s) (h : s.hw.ready = true)
    (hr : s.hw.resetting .sound = true) : Answers i s fun d => d.path = s.hw.path.served (.done []) s.hw.control.ms
      ∧ RecordStored .soundRequest (r.toBytes n) s.hw d ∧ KeptBut [.path, .mem, .shadow] s.hw d := by
  refine (soundRow_answers (P := fun d => d.path = s.hw.path.served (.done []) s.hw.control.ms
      ∧ KeptBut [.path, .mem, .shadow] s.hw d) hi h fun m sh => ?_).imp
    fun d ⟨⟨hpath, hkept⟩, hstored, _⟩ => ⟨hpath, hstored, hkept⟩
  rw [soundLatch_resetting (c := s.hw.written m sh) hr]
  exact ⟨rfl, ((keptBut_written m sh s.hw).mono (by simp)).trans ((keptBut_timed _).mono (by simp))⟩

/-- A sound that ends in the course of a latch row (R130). -/
theorem endSound_written (code : Code) (m sh : Mem) (hv : c.sound.voice ≠ .silent) :
    (endSound code (c.written m sh)).sound = { c.sound with voice := .silent, output := 128, lastEnd := code }
    ∧ SoundEnded c.sound.voice.source code c (endSound code (c.written m sh))
    ∧ (endSound code (c.written m sh)).path.parts = c.path.soundless
    ∧ (endSound code (c.written m sh)).path.response = some (.done []) := by
  obtain ⟨hsound, hended, hparts, -⟩ := endSound_spec code (c.written m sh) hv
  exact ⟨hsound, SoundEnded.of_alike hended rfl rfl rfl, hparts, by simp⟩

/-- What a command that takes the voice leaves: the sound in progress has ended, and this voice plays from now. -/
def SoundTaken (r : SoundRec) (n : Nat) (y : Voice) (level : Byte) (more : List PartReq) (c d : Chip) : Prop :=
  d.sound = { c.sound with
    voice := y, output := level, lastEnd := (if c.sound.voice = .silent then c.sound.lastEnd else .preempted),
    latchResult := .ok }
  ∧ d.path.parts = (if c.sound.voice = .silent then c.path.parts else c.path.soundless) ++ more
  ∧ (c.sound.voice = .silent → d.path = { (c.path.join .soundStatus).served (.done []) c.control.ms with
      parts := c.path.parts ++ more } ∧ KeptBut [.sound, .path, .mem, .shadow] c d)
  ∧ (c.sound.voice ≠ .silent → SoundEnded c.sound.voice.source .preempted c d ∧ d.path.response = some (.done []))
  ∧ RecordStored .soundRequest (r.toBytes n) c d ∧ KeptBut [.sound, .ring, .attention, .path, .mem, .shadow] c d

theorem soundRow_taken {i : Instr} {s : State} {y : Voice} {level : Byte} {more : List PartReq}
    (hi : exec i s = act (soundRow r n) s) (h : s.hw.ready = true)
    (H : ∀ m sh, soundLatch r n (s.hw.written m sh)
      = soundTold .ok (soundBegun y level more (endSound .preempted (s.hw.written m sh)))) :
    Answers i s (SoundTaken r n y level more s.hw) := by
  by_cases hv : s.hw.sound.voice = .silent
  · refine (soundRow_answers (P := fun d => d.sound = { s.hw.sound with voice := y, output := level, latchResult := .ok }
        ∧ d.path = { (s.hw.path.join .soundStatus).served (.done []) s.hw.control.ms with parts := s.hw.path.parts ++ more }
        ∧ KeptBut [.sound, .path, .mem, .shadow] s.hw d) hi h fun m sh => ?_).imp
      fun d ⟨⟨hsound, hpath, hkept⟩, hstored, hall⟩ => ?_
    · rw [H, endSound_silent _ (s.hw.written m sh) hv]
      refine ⟨rfl, ?_, fun p hp => by cases p <;> simp at hp <;> rfl⟩
      exact congrArg (fun p : Path => { p.served (.done []) s.hw.control.ms with parts := s.hw.path.parts ++ more })
        (join_idem .soundStatus s.hw.path)
    · unfold SoundTaken
      rw [if_pos hv, if_pos hv]
      exact ⟨hsound, congrArg Path.parts hpath, fun _ => ⟨hpath, hkept⟩, fun hn => absurd hv hn, hstored, hall⟩
  · refine (soundRow_answers (P := fun d => d.sound = { s.hw.sound with
          voice := y, output := level, lastEnd := .preempted, latchResult := .ok }
        ∧ d.path.parts = s.hw.path.soundless ++ more ∧ SoundEnded s.hw.sound.voice.source .preempted s.hw d
        ∧ d.path.response = some (.done [])) hi h fun m sh => ?_).imp
      fun d ⟨⟨hsound, hparts, hended, hresponse⟩, hstored, hall⟩ => ?_
    · obtain ⟨hsound, hended, hparts, hresponse⟩ := endSound_written .preempted m sh hv
      rw [H]
      exact ⟨congrArg (fun z : Sound => { z with voice := y, output := level, latchResult := .ok }) hsound,
        congrArg (· ++ more) hparts, SoundEnded.goesOn hended rfl ((mem_joins ..).mpr (.inl rfl)) rfl, hresponse⟩
    · unfold SoundTaken
      rw [if_neg hv, if_neg hv]
      exact ⟨hsound, hparts, fun hs => absurd hs hv, fun _ => ⟨hended, hresponse⟩, hstored, hall⟩

/-- Settles O45: each row by its case of the latch (`soundLatch_on`, `soundLatch_off`, `soundLatch_badArg`,
`soundLatch_resetting`); an accepted request is `soundBegun` after the end of the sound that it pre-empts. -/
theorem soundRequestsTaken : Obligations.SoundRequestsTaken := by
  unfold Obligations.SoundRequestsTaken
  intro s r hready v now toneFits streamFits begun only
  have htone (h : toneFits) := SoundRec.command_tone ((toneOk_iff ..).mpr h)
  have hstream (h : streamFits) : r.command 2 = some (.stream r.volume.toNat (r.rate == 1) r.desc) :=
    SoundRec.command_stream h
  refine ⟨fun hon hsource => ?_, fun hon ⟨i, hi⟩ => ?_,
    fun hon => soundRow_told rfl hready fun _ _ => soundLatch_on hon rfl rfl rfl, fun hr => ?_, fun hon hr => ?_,
    fun hr i n hin => ?_⟩
  · have haccepted (m sh : Mem) : (s.hw.written m sh).voiceAccepts 2 = true := voiceAccepts_proc hsource
    constructor
    · refine fun h => soundRow_taken rfl hready fun m sh => soundLatch_on hon (htone h) ?_ (by simp)
      refine (if_pos (haccepted m sh)).trans ?_
      rw [startTone_eq, BitVec.ofNat_toNat, BitVec.setWidth_eq]
      rfl
    · refine fun h => soundRow_taken rfl hready fun m sh => soundLatch_on hon (hstream h) ?_ (by simp)
      refine (if_pos (haccepted m sh)).trans ?_
      rw [startStream_eq]
  · have hbusy (m sh : Mem) : ¬ (s.hw.written m sh).voiceAccepts 2 = true :=
      ne_true_of_eq_false (voiceAccepts_reflex hi)
    exact ⟨fun h => soundRow_told rfl hready fun m sh => soundLatch_on hon (htone h) (if_neg (hbusy m sh)) rfl,
      fun h => soundRow_told rfl hready fun m sh => soundLatch_on hon (hstream h) (if_neg (hbusy m sh)) rfl⟩
  · have hbad (n : Nat) (hn : r.command n = none) (m sh : Mem) :
        soundLatch r n (s.hw.written m sh) = soundTold .badArg (s.hw.written m sh) := soundLatch_badArg hr hn
    exact ⟨fun h => soundRow_told rfl hready (hbad 1 (SoundRec.command_tone_none (mt (toneOk_iff ..).mp h))),
      fun h => soundRow_told rfl hready (hbad 2 (SoundRec.command_stream_none h))⟩
  · have hoff (n : Nat) (cmd : SoundCmd) (hn : r.command n = some cmd) (m sh : Mem) :
        soundLatch r n (s.hw.written m sh) = soundTold .off (s.hw.written m sh) := soundLatch_off hon hr hn
    exact ⟨fun h => soundRow_told rfl hready (hoff 1 _ (htone h)), fun h => soundRow_told rfl hready (hoff 2 _ (hstream h)),
      soundRow_told rfl hready (hoff 0 .none rfl), soundRow_told rfl hready (hoff 3 .stop rfl)⟩
  · simp only [List.mem_cons, List.not_mem_nil, or_false, Prod.mk.injEq] at hin
    rcases hin with ⟨rfl, rfl⟩ | ⟨rfl, rfl⟩ | ⟨rfl, rfl⟩ | ⟨rfl, rfl⟩
    all_goals exact soundRow_resetting rfl hready hr

/-- A sound that a STOP ends (R132). -/
theorem soundStop_ends {s : State} (hready : s.hw.ready = true) (hon : s.hw.on .sound = true)
    (hv : s.hw.sound.voice ≠ .silent) (hyields : ∀ i, s.hw.sound.voice.source ≠ .reflex i) :
    Answers (.soundStop r) s fun d =>
      d.sound = { s.hw.sound with voice := .silent, output := 128, lastEnd := .ended, latchResult := .ok }
      ∧ SoundEnded s.hw.sound.voice.source .ended s.hw d ∧ d.path.parts = s.hw.path.soundless
      ∧ d.path.response = some (.done []) ∧ RecordStored .soundRequest (r.toBytes 3) s.hw d
      ∧ KeptBut [.sound, .ring, .attention, .path, .mem, .shadow] s.hw d := by
  refine (soundRow_answers (P := fun d =>
      d.sound = { s.hw.sound with voice := .silent, output := 128, lastEnd := .ended, latchResult := .ok }
      ∧ SoundEnded s.hw.sound.voice.source .ended s.hw d ∧ d.path.parts = s.hw.path.soundless
      ∧ d.path.response = some (.done [])) rfl hready fun m sh => ?_).imp
    fun d ⟨⟨hsound, hended, hparts, hresponse⟩, hstored, hall⟩ => ⟨hsound, hended, hparts, hresponse, hstored, hall⟩
  obtain ⟨hsound, hended, hparts, hresponse⟩ := endSound_written .ended m sh hv
  have hlatch : soundLatch r 3 (s.hw.written m sh) = soundTold .ok (endSound .ended (s.hw.written m sh)) :=
    soundLatch_on hon rfl (voiceStop_ends (c := s.hw.written m sh) hyields) (by simp)
  rw [hlatch]
  exact ⟨congrArg (fun z : Sound => { z with latchResult := .ok }) hsound,
    SoundEnded.goesOn hended rfl ((mem_joins ..).mpr (.inl rfl)) rfl, hparts, hresponse⟩

/-- On SILENT no sound is left for its own timers to end. -/
theorem timers_silent (hv : c.sound.voice = .silent) : toneEnd c = c ∧ period c = c ∧ starvedLimit c = c := by
  unfold toneEnd period starvedLimit
  rw [hv]
  exact ⟨rfl, rfl, rfl⟩

/-- Settles O46: a STOP by its source (`voiceStop_ends`, `voiceStop_reflex`); on SILENT no sound is left to end, by a
command or by its own timers (`endSound_silent`, `timers_silent`). -/
theorem stopActsOnTheVoice : Obligations.StopActsOnTheVoice := by
  unfold Obligations.StopActsOnTheVoice
  constructor
  · intro s r hready hon v only
    refine ⟨fun hv => soundRow_told rfl hready fun m sh => ?_, fun hsource => ?_,
      fun ⟨i, hi⟩ => soundRow_told rfl hready fun m sh => ?_⟩
    · have hnone : s.hw.sound.voice.source = .none := congrArg Voice.source hv
      have hstop := voiceStop_ends (c := s.hw.written m sh) fun i hi => Owner.noConfusion (hnone.symm.trans hi)
      rw [endSound_silent _ (s.hw.written m sh) hv] at hstop
      exact soundLatch_on hon rfl hstop rfl
    · refine soundStop_ends hready hon (fun hv => ?_) fun i hi => ?_
      · have hnone : s.hw.sound.voice.source = .none := congrArg Voice.source hv
        rcases hsource with h | ⟨p, h⟩ <;> exact Owner.noConfusion (hnone.symm.trans h)
      · rcases hsource with h | ⟨p, h⟩ <;> exact Owner.noConfusion (hi.symm.trans h)
    · exact soundLatch_on hon rfl (voiceStop_reflex (c := s.hw.written m sh) hi) rfl
  · intro s hv
    obtain ⟨htone, hperiod, hstarved⟩ := timers_silent hv
    exact ⟨act_same rfl htone, act_same rfl hperiod, act_same rfl hstarved⟩

end Chip
end Sys2Proof.Machine
end

section
namespace Sys2Proof.Machine

/-! ## Fetches of sample bytes (R136) -/

namespace Path

theorem mayFetch_iff {p : Path} {length fetched staged : Nat} : p.mayFetch length fetched staged = true ↔
    fetched < length ∧ p.placed PartReq.isFetch = false ∧ staged + 64 ≤ Config.stagingSize := by
  have hroom : staged ≤ 192 ↔ staged + 64 ≤ 256 := by omega
  simp only [mayFetch, Bool.and_eq_true, decide_eq_true_eq, Bool.not_eq_true', and_assoc, hroom]
  rw [and_comm (a := staged + 64 ≤ 256)]

/-- The path after the walker has placed the fetch of a block's next bytes, where R136 calls for one. -/
def fetching (b : SoundBlock) (fetched staged : Nat) (p : Path) : Path :=
  { p with
    parts := p.parts ++ if p.mayFetch b.length fetched staged then [.sampleFetch (b.sample.toNat + fetched)] else [] }

end Path

namespace Chip
variable {c d : Chip} {st : Stream} {b : SoundBlock} {x : Starved} {k : Byte} {rest : List Byte} {t : Word}

theorem placeFetch_none (hv : c.sound.voice = .stream st) (hb : st.block = none) : placeFetch c = c := by
  unfold placeFetch
  rw [hv]
  dsimp only
  rw [hb]

theorem placeFetch_block (hv : c.sound.voice = .stream st) (hb : st.block = some b) :
    placeFetch c = withSound c.sound (c.path.fetching b st.fetched st.staging.length) c := by
  unfold placeFetch Path.fetching
  rw [hv]
  dsimp only
  rw [hb]
  dsimp only
  rw [if_congr Path.mayFetch_iff.symm rfl rfl]
  split_ifs
  · rfl
  · rw [List.append_nil]
    rfl

/-! ## The timers of the voice (R134, R138) -/

theorem toneEnd_tone {q : Owner} {f v : Nat} {u : Word} (hv : c.sound.voice = .tone q f v u t) :
    toneEnd c = if reached c.control.ms t then c.endSound .ended else c := by
  unfold toneEnd
  rw [hv]

theorem starvedLimit_starved (hv : c.sound.voice = .stream st) (hx : st.starved = some x) :
    starvedLimit c = if reached c.control.ms x.limit then c.endSound .starvedOut else c := by
  unfold starvedLimit
  rw [hv]
  dsimp only
  rw [hx]

theorem rereadDue_starved (hv : c.sound.voice = .stream st) (hx : st.starved = some x) (ht : x.reread = some t) :
    rereadDue c = if reached c.control.ms t then
      withSound { c.sound with voice := .stream { st with starved := some { x with reread := none } } }
        { c.path with parts := c.path.parts ++ [.descRead st.addr.toNat] } c
    else c := by
  obtain ⟨limit, reread⟩ := x
  obtain rfl : reread = some t := ht
  unfold rereadDue
  rw [hv]
  dsimp only
  rw [hx]
  rfl

/-! ## A sample period (R136) -/

/-- The sound unit once its stream has taken the byte k from the head of its buffer. -/
def sampled (st : Stream) (k : Byte) (rest : List Byte) (y : Sound) : Sound :=
  { y with voice := .stream { st with staging := rest, tookSample := true }, output := sampleOutput st.volume k }

theorem period_sample (hv : c.sound.voice = .stream st) (hs : st.staging = k :: rest) :
    period c = placeFetch (withSound (sampled st k rest c.sound) c.path c) := by
  unfold period
  rw [hv]
  dsimp only
  rw [hs]
  rfl

theorem period_sample_none (hv : c.sound.voice = .stream st) (hs : st.staging = k :: rest) (hb : st.block = none) :
    period c = withSound (sampled st k rest c.sound) c.path c :=
  (period_sample hv hs).trans (placeFetch_none (st := { st with staging := rest, tookSample := true }) rfl hb)

theorem period_sample_block (hv : c.sound.voice = .stream st) (hs : st.staging = k :: rest) (hb : st.block = some b) :
    period c = withSound (sampled st k rest c.sound) (c.path.fetching b st.fetched rest.length) c :=
  (period_sample hv hs).trans (placeFetch_block (st := { st with staging := rest, tookSample := true }) rfl hb)

theorem period_empty (hv : c.sound.voice = .stream st) (hs : st.staging = []) : period c = emptyPeriod st c := by
  unfold period
  rw [hv]
  dsimp only
  rw [hs]

theorem emptyPeriod_starved (h : st.starved ≠ none) : emptyPeriod st c = withSound { c.sound with
    voice := .stream { st with tookSample := false }, output := 128 } c.path c :=
  if_pos (Option.isSome_iff_ne_none.mpr h)

theorem emptyPeriod_flowing (h : st.starved = none) : emptyPeriod st c = if st.chainDone then c.endSound .ended
    else if st.tookSample then withSound { c.sound with
      voice := .stream { st with tookSample := false }, underruns := satInc c.sound.underruns } (c.path.join .soundStatus) c
    else c := by
  unfold emptyPeriod
  rw [if_neg (by simp [h]), publish_eq]
  rfl

/-- Settles O47: each timer and each period by its case; an end is `endSound_spec`, and a fetch is placed as
`placeFetch_block` says. -/
theorem soundTimersAndPeriods : Obligations.SoundTimersAndPeriods := by
  unfold Obligations.SoundTimersAndPeriods
  intro s _ now ended
  have hends (code : Code) (h : s.hw.sound.voice ≠ .silent) : ended code (s.hw.endSound code) := endSound_spec code s.hw h
  constructor
  · intro q f v x t hv
    have hend := toneEnd_tone hv
    refine ⟨fun ht => act_same rfl (hend.trans (if_neg (ne_true_of_eq_false ht))), fun ht => act_answers rfl ?_⟩
    rw [hend, if_pos ht]
    exact hends .ended (by simp [hv])
  intro st hv
  have hplays : s.hw.sound.voice ≠ .silent := by simp [hv]
  refine ⟨fun x hx => ?_, fun b rest hs => act_answers rfl ?_, fun hs hn => act_answers rfl ?_, fun hs hn => ?_⟩
  · have hlimit := starvedLimit_starved hv hx
    refine ⟨fun ht => act_same rfl (hlimit.trans (if_neg (ne_true_of_eq_false ht))), fun ht => act_answers rfl ?_,
      fun t hreread => ?_⟩
    · rw [hlimit, if_pos ht]
      exact hends .starvedOut hplays
    · have hread := rereadDue_starved hv hx hreread
      refine ⟨fun ht => act_same rfl (hread.trans (if_neg (ne_true_of_eq_false ht))), fun ht => act_answers rfl ?_⟩
      rw [hread, if_pos ht]
      exact ⟨rfl, rfl, keptBut_withSound _ _ _⟩
  · obtain hb | ⟨k, hb⟩ := Option.eq_none_or_eq_some st.block
    · rw [period_sample_none hv hs hb]
      exact ⟨rfl, fun _ => rfl, fun k hk => absurd (hb.symm.trans hk) nofun, keptBut_withSound _ _ _⟩
    · rw [period_sample_block hv hs hb]
      refine ⟨rfl, fun hnone => absurd (hnone.symm.trans hb) nofun, fun j hj => ?_, keptBut_withSound _ _ s.hw⟩
      obtain rfl := Option.some.inj (hb.symm.trans hj)
      rfl
  · rw [period_empty hv hs, emptyPeriod_starved hn]
    exact ⟨rfl, fun p hp => by cases p <;> simp at hp <;> rfl⟩
  · have hempty := (period_empty hv hs).trans (emptyPeriod_flowing hn)
    refine ⟨fun hdone => act_answers rfl ?_, fun hdone htook => act_answers rfl ?_, fun hdone htook => act_same rfl ?_⟩
    · rw [hempty, if_pos hdone]
      exact hends .ended hplays
    · rw [hempty, if_neg (ne_true_of_eq_false hdone), if_pos htook]
      exact ⟨rfl, rfl, keptBut_withSound _ _ _⟩
    · rw [hempty, if_neg (ne_true_of_eq_false hdone), if_neg (ne_true_of_eq_false htook)]

end Chip
end Sys2Proof.Machine
end

section
namespace Sys2Proof.Machine

/-- Equal bytes written one by one: they stand at their addresses, and every other byte reads as before. -/
theorem Mem.read_writeCells_same (v : Byte) (k : Nat) : ∀ (cs : List Host.Cell) (m : Mem), (∀ x ∈ cs, x.2 = v) →
    m.wf = true → (m.writeCells cs).read k = if k ∈ cs.map Prod.fst then v else m.read k
  | [], m, _, _ => by simp [writeCells]
  | x :: cs, m, hv, hm => by
    have hrest := Mem.read_writeCells_same v k cs (m.write x.1 x.2) (fun y hy => hv y (List.mem_cons_of_mem x hy))
      (wf_write _ _ _ hm)
    rw [read_write _ _ _ _ hm, hv x List.mem_cons_self, ← ite_or] at hrest
    show (Mem.writeCells (m.write x.1 x.2) cs).read k = _
    rw [hv x List.mem_cons_self, List.map_cons]
    exact hrest.trans (if_congr (or_comm.trans List.mem_cons.symm) rfl rfl)

/-! ## A descriptor as it was read (Table 8-2, R135 step 2) -/

theorem DescWords.valid_iff (x : DescWords) : x.valid = true ↔ x.sample.toNat % 4 = 0 ∧ x.sample.toNat < 0x1000000
    ∧ 1 ≤ x.length.toNat ∧ x.length.toNat ≤ 4096
    ∧ (x.next = 0 ∨ (x.next.toNat % 4 = 0 ∧ x.next.toNat < 0x1000000)) := by
  simp only [valid, Bool.and_eq_true, Bool.or_eq_true, beq_iff_eq, wordAddrOk_iff, within_iff, and_assoc]

namespace Stream

/-- The stream at the start of the block that a descriptor gives (R135 step 3). -/
def atBlock (desc : DescWords) (st : Stream) : Stream := { st with
  block := some ⟨desc.sample, desc.length.toNat, desc.next⟩, fetched := 0, lastBlock := desc.next == 0
  chainDone := false, starved := none }

/-- The stream with more bytes of its block in the buffer (R136). -/
def fed (bs : List Byte) (st : Stream) : Stream :=
  { st with staging := st.staging ++ bs, fetched := st.fetched + bs.length }

end Stream

namespace Chip
variable {c d : Chip} {st : Stream} {b : SoundBlock} {x : Starved} {a : Nat} {desc : DescWords}

/-! ## The three completions at the port (R130) -/

theorem keptBut_freePort (c : Chip) : KeptBut [.path] c c.freePort := keptBut_path c _

theorem descReadDone_withdrawn (hp : c.path.port = some (.part (.descRead a) true)) : descReadDone c = c.freePort := by
  unfold descReadDone
  rw [hp]
  rfl

theorem descReadDone_stream (hp : c.path.port = some (.part (.descRead a) false)) (hv : c.sound.voice = .stream st) :
    descReadDone c = c.freePort.judgeDesc (descWords (c.mem.bytes 16 a)) st := by
  unfold descReadDone
  rw [hp]
  dsimp only [freePort]
  rw [hv]
  rfl

theorem fetchDone_withdrawn (hp : c.path.port = some (.part (.sampleFetch a) true)) : fetchDone c = c.freePort := by
  unfold fetchDone
  rw [hp]
  rfl

theorem fetchDone_stream (hp : c.path.port = some (.part (.sampleFetch a) false)) (hv : c.sound.voice = .stream st)
    (hb : st.block = some b) : fetchDone c = c.freePort.stage (c.mem.bytes 64 a) st b := by
  unfold fetchDone
  rw [hp]
  dsimp only [freePort]
  rw [hv]
  dsimp only
  rw [hb]
  rfl

/-- The chip after the ready word of a block has been cleared (R137). -/
def readyCleared (a : Nat) (c : Chip) : Chip := (c.writeMem a (Bytes.zeros 4)).freePort

theorem doneWriteDone_withdrawn (hp : c.path.port = some (.part (.doneWrite a) true)) :
    doneWriteDone c = c.readyCleared a := by
  unfold doneWriteDone
  rw [hp]
  rfl

theorem doneWriteDone_stream (hp : c.path.port = some (.part (.doneWrite a) false)) (hv : c.sound.voice = .stream st) :
    doneWriteDone c = (c.readyCleared a).blockDone st := by
  have hv' : (c.readyCleared a).sound.voice = .stream st := hv
  unfold doneWriteDone
  rw [hp]
  exact (if_neg Bool.false_ne_true).trans (by rw [← readyCleared, hv'])

/-! ## The judgement of a descriptor (R135, R138) -/

theorem judgeDesc_waits (hr : desc.ready = 0) (hs : st.starved = none) : judgeDesc desc st c
    = raiseCause .sound (withSound { c.sound with voice := .stream { st with
        starved := some ⟨c.control.ms + 2000, some (c.control.ms + 10)⟩ } } (c.path.join .soundStatus) c) := by
  unfold judgeDesc notReady
  rw [if_pos hr, hs]
  exact congrArg (raiseCause .sound) (publish_eq _ _)

theorem judgeDesc_rereads (hr : desc.ready = 0) (hs : st.starved = some x) : judgeDesc desc st c
    = withSound { c.sound with voice := .stream { st with
        starved := some { x with reread := some (c.control.ms + 10) } } } c.path c := by
  unfold judgeDesc notReady
  rw [if_pos hr, hs]
  rfl

theorem judgeDesc_invalid (hr : desc.ready ≠ 0) (hd : desc.valid = false) :
    judgeDesc desc st c = c.endSound .badDesc := by
  unfold judgeDesc
  rw [if_neg hr, if_pos (by simp [hd])]

theorem judgeDesc_block (hr : desc.ready ≠ 0) (hd : desc.valid = true) : judgeDesc desc st c
    = withSound { c.sound with voice := .stream (st.atBlock desc) }
      (Path.fetching ⟨desc.sample, desc.length.toNat, desc.next⟩ 0 st.staging.length
        { c.path with pubs := if st.starved.isSome then joins .soundStatus c.path.pubs else c.path.pubs }) c := by
  have hpub : publishIf st.starved.isSome .soundStatus (c.setStream (st.atBlock desc))
      = withSound { c.sound with voice := .stream (st.atBlock desc) }
        { c.path with pubs := if st.starved.isSome then joins .soundStatus c.path.pubs else c.path.pubs } c := by
    unfold publishIf
    split_ifs
    · exact publish_eq _ _
    · rfl
  have hjudge : judgeDesc desc st c
      = placeFetch (publishIf st.starved.isSome .soundStatus (c.setStream (st.atBlock desc))) := by
    unfold judgeDesc
    rw [if_neg hr, if_neg (by simp [hd])]
    rfl
  rw [hjudge, hpub]
  exact placeFetch_block (st := st.atBlock desc) rfl rfl

/-! ## The bytes of a fetch (R136) -/

theorem stage_eq (bs : List Byte) (hb : st.block = some b) : stage bs st b c
    = let next := st.fed (bs.take (b.length - st.fetched));
      withSound { c.sound with voice := .stream next } (if next.fetched = b.length
        then { c.path with parts := c.path.parts ++ [.doneWrite (st.addr.toNat + 12)] }
        else c.path.fetching b next.fetched next.staging.length) c := by
  unfold stage
  dsimp only
  split_ifs with hfull hfull' hfull'
  · rfl
  · exact absurd hfull hfull'
  · exact absurd hfull' hfull
  · exact placeFetch_block (st := st.fed _) rfl hb

/-! ## The done-write of a block (R137) -/

theorem blockDone_last (hb : st.block = some b) (hl : st.lastBlock = true) :
    blockDone st c = withSound { c.sound with voice := .stream { st with chainDone := true } } c.path c := by
  unfold blockDone
  rw [hb]
  exact if_pos hl

theorem blockDone_next (hb : st.block = some b) (hl : st.lastBlock = false) :
    blockDone st c = withSound { c.sound with voice := .stream { st with addr := b.next, block := none } }
      { c.path.join .soundStatus with parts := c.path.parts ++ [.descRead b.next.toNat] } c := by
  unfold blockDone
  rw [hb]
  refine (if_neg (ne_true_of_eq_false hl)).trans ?_
  rw [publish_eq]
  rfl

theorem keptBut_blockDone (st : Stream) (c : Chip) : KeptBut [.sound, .path] c (blockDone st c) := by
  cases hb : st.block with
  | none =>
    unfold blockDone
    rw [hb]
    exact .refl _ c
  | some b =>
    cases hl : st.lastBlock with
    | true =>
      rw [blockDone_last hb hl]
      exact keptBut_withSound _ _ c
    | false =>
      rw [blockDone_next hb hl]
      exact keptBut_withSound _ _ c

/-- A completed done-write clears the ready word, and beyond that moves only the stream and the path. -/
theorem keptBut_doneWriteDone {w : Bool} (hp : c.path.port = some (.part (.doneWrite a) w)) :
    KeptBut [.sound, .path] (c.readyCleared a) (doneWriteDone c) := by
  unfold doneWriteDone
  rw [hp]
  dsimp only
  split_ifs
  · exact .refl _ _
  · split
    · exact keptBut_blockDone _ _
    · exact .refl _ _

theorem keptBut_readyCleared (a : Nat) (c : Chip) : KeptBut [.path, .mem] c (c.readyCleared a) := fun p hp => by
  cases p <;> simp at hp <;> rfl

theorem readyCleared_read (h : c.mem.wf = true) (a k : Nat) : (c.readyCleared a).mem.read k
    = if k ∈ [a % 0x1000000, (a + 1) % 0x1000000, (a + 2) % 0x1000000, (a + 3) % 0x1000000] then 0 else c.mem.read k :=
  Mem.read_writeCells_same 0 k (cells (Bytes.zeros 4) a) c.mem (by simp [cells, Bytes.zeros]) h

/-- A free port stays free. -/
theorem lasting_free : Lasting (fun p => p.port = none) where
  join _ _ h := h
  stale r c h := by rw [markStale_path, h]; rfl
  withdraw k c h := by
    unfold Chip.withdraw Path.settleCount
    dsimp only
    split_ifs <;> simp [h]

/-- Settles O48: a descriptor by its judgement (`judgeDesc_waits`, `judgeDesc_rereads`, `judgeDesc_block`,
`judgeDesc_invalid`), a fetch by `stage_eq`, a done-write by `blockDone_last` and `blockDone_next`, its bytes by
`readyCleared_read`. -/
theorem streamWalked : Obligations.StreamWalked := by
  unfold Obligations.StreamWalked
  intro s a w hinv freed
  refine ⟨fun hp => ⟨?_, ?_⟩, fun hp => ⟨?_, ?_⟩, fun hp => act_answers rfl ?_⟩
  · rintro rfl
    refine act_answers rfl ?_
    rw [descReadDone_withdrawn hp]
    exact ⟨rfl, keptBut_freePort _⟩
  · rintro st hv rfl word valid
    have hjudge := descReadDone_stream hp hv
    have hvalid : (descWords (s.hw.mem.bytes 16 a)).valid = true ↔ valid := DescWords.valid_iff _
    refine ⟨fun hr hs => act_answers rfl ?_, fun x hr hs => act_answers rfl ?_, fun hr hd => act_answers rfl ?_,
      fun hr hd => act_answers rfl ?_⟩
    · rw [hjudge, judgeDesc_waits hr hs]
      refine ⟨by simp [withSound, freePort], raiseCause_pending _ _,
        mem_pubs_raiseCause _ _ _ ((mem_joins ..).mpr (.inl rfl)), by simp [withSound, freePort, Path.join],
        by simp [withSound, freePort, Path.join], ?_⟩
      exact ((keptBut_freePort s.hw).mono (by simp)).trans (((keptBut_withSound _ _ _).mono (by simp)).trans
        ((keptBut_raiseCause _ _).mono (by simp)))
    · rw [hjudge, judgeDesc_rereads hr hs]
      exact ⟨rfl, rfl, keptBut_withSound _ _ s.hw⟩
    · rw [hjudge, judgeDesc_block hr (hvalid.mpr hd)]
      exact ⟨rfl, rfl, keptBut_withSound _ _ s.hw⟩
    · rw [hjudge, judgeDesc_invalid hr (Bool.eq_false_iff.mpr fun h => hd (hvalid.mp h))]
      obtain ⟨hsound, hended, hparts, hkept⟩ := endSound_spec .badDesc s.hw.freePort (by simp [freePort, hv])
      have hsource : s.hw.freePort.sound.voice.source = .proc := congrArg Voice.source hv
      rw [hsource] at hended
      exact ⟨hsound, hended, hparts, lasting_free.endSound .badDesc rfl,
        ((keptBut_freePort s.hw).mono (by simp)).trans hkept⟩
  · rintro rfl
    refine act_answers rfl ?_
    rw [fetchDone_withdrawn hp]
    exact ⟨rfl, keptBut_freePort _⟩
  · rintro st b hv hb rfl staging fetched
    refine act_answers rfl ?_
    have hfed : st.fed ((s.hw.mem.bytes 64 a).take (b.length - st.fetched))
        = { st with staging := staging, fetched := fetched } := by
      rw [Stream.fed, List.length_take, Mem.bytes_length, Nat.min_comm]
    rw [fetchDone_stream hp hv hb, stage_eq _ hb, hfed]
    refine ⟨rfl, ?_, keptBut_withSound _ _ s.hw⟩
    by_cases hfull : fetched = b.length
    · rw [if_pos hfull]
      exact if_pos hfull
    · rw [if_neg hfull]
      exact if_neg hfull
  · have hkept := keptBut_doneWriteDone hp
    have hmem : s.hw.doneWriteDone.mem = (s.hw.readyCleared a).mem := hkept .mem (by simp)
    refine ⟨fun k => by rw [hmem, readyCleared_read (inv_mem hinv)], ?_, ?_, ?_⟩
    · rintro rfl
      rw [doneWriteDone_withdrawn hp]
      exact ⟨rfl, keptBut_readyCleared a s.hw⟩
    · rintro st b hv hb rfl
      rw [doneWriteDone_stream hp hv]
      refine ⟨fun hl => ?_, fun hl => ?_⟩
      · rw [blockDone_last hb hl]
        exact ⟨rfl, rfl⟩
      · rw [blockDone_next hb hl]
        exact ⟨rfl, rfl⟩
    · exact ((keptBut_readyCleared a s.hw).mono (by simp)).trans (hkept.mono (by simp))

end Chip
end Sys2Proof.Machine
end
section
namespace Sys2Proof.Machine

/-! ## The link moved, all else kept

Most of what the link unit does moves its own state and lets records join the publication list. `Relinked` says so, with
the link state that comes of it, and each shared operation of the unit has one lemma under that name. -/

/-- From c to d the link has become l and records have joined the publication list; beyond the path nothing else has
changed. -/
structure Relinked (l : Link) (c d : Chip) : Prop where
  link : d.link = l
  kept : KeptBut [.link, .path] c d
  pubs : ∀ r ∈ c.path.pubs, r ∈ d.path.pubs

namespace Link

theorem withPeer_withPeer (p : Fin 8) (x y : Option Peer) (l : Link) : (l.withPeer p x).withPeer p y = l.withPeer p y := by
  simp [withPeer]

theorem withPeer_self {p : Fin 8} {x : Option Peer} {l : Link} (h : l.peer[p] = x) : l.withPeer p x = l := by
  subst h
  simp [withPeer]

theorem withPeer_same (p : Fin 8) (x : Option Peer) (l : Link) : (l.withPeer p x).peer[p] = x := by simp [withPeer]

theorem withPeer_other {p q : Fin 8} (x : Option Peer) (l : Link) (h : q ≠ p) : (l.withPeer p x).peer[q] = l.peer[q] := by
  have hne : p.val ≠ q.val := fun he => h (Fin.ext he.symm)
  simp [withPeer, hne]

end Link

namespace Relinked
variable {l m : Link} {c d e : Chip}

theorem refl (c : Chip) : Relinked c.link c c := ⟨rfl, .refl _ c, fun _ => id⟩

theorem trans (h : Relinked l c d) (k : Relinked m d e) : Relinked m c e :=
  ⟨k.link, h.kept.trans k.kept, fun r hr => k.pubs r (h.pubs r hr)⟩

theorem control (h : Relinked l c d) : d.control = c.control := h.kept .control (by simp)

theorem ms (h : Relinked l c d) : d.control.ms = c.control.ms := congrArg Control.ms h.control

theorem up (h : Relinked l c d) : d.linkUp = c.linkUp :=
  Chip.linkUp_eq (congrArg Pins.linkReady (h.kept .pins (by simp))) (congrArg Control.block h.control)

theorem unwatched (h : Relinked l c d) (hu : c.unwatched = true) : d.unwatched = true :=
  Chip.unwatched_of_kept hu h.kept (by simp) (by simp)

theorem publish (r : RecId) (h : Relinked l c d) : Relinked l c (d.publish r) :=
  h.trans ⟨by simpa using h.link, (Chip.keptBut_publish r d).mono (by simp), fun _ hq => (Chip.mem_pubs_publish _ _ _).mpr (.inr hq)⟩

theorem publishIf (b : Bool) (r : RecId) (h : Relinked l c d) : Relinked l c (d.publishIf b r) := by
  unfold Chip.publishIf
  split_ifs
  · exact h.publish r
  · exact h

theorem modLink (f : Link → Link) (h : Relinked l c d) : Relinked (f l) c (d.modLink f) :=
  h.trans ⟨congrArg f h.link, (Chip.keptBut_link _ d).mono (by simp), fun _ => id⟩

theorem setReceiver (r : Receiver) (h : Relinked l c d) : Relinked { l with receiver := r } c (d.setReceiver r) :=
  h.modLink fun l => { l with receiver := r }

theorem modPeer (p : Fin 8) (f : Peer → Peer) (h : Relinked l c d) :
    Relinked (l.withPeer p (l.peer[p].map f)) c (d.modPeer p f) :=
  h.modLink fun l => l.withPeer p (l.peer[p].map f)

/-- A counter increases (R161). -/
theorem count (k : Counter) (h : Relinked l c d) : Relinked (l.counted k.idx) c (d.count k) :=
  (h.modLink (Link.counted k.idx)).publish .linkStatus

/-- The free list changes (R149, R150). -/
theorem setFree (free : List (Fin 48)) (h : Relinked l c d) : Relinked { l with
      free := free
      poolLow := poolLowAt l.settings free.length l.poolLow
      poolFrame := poolFrameAt c.linkUp l.poolLow (poolLowAt l.settings free.length l.poolLow) l.poolFrame }
    c (d.setFree free) := by
  obtain ⟨p, hp, he⟩ := Chip.setFree_eq free d
  have hlink : (d.setFree free).link = _ := congrArg Chip.link he
  rw [h.link, h.up] at hlink
  refine h.trans ⟨hlink, fun q hq => ?_, fun r hr => ?_⟩
  · rw [he]
    cases q <;> simp at hq <;> rfl
  · rw [he]
    rcases hp with rfl | rfl
    · exact hr
    · exact (Chip.mem_joins _ r _).mpr (.inr hr)

/-- Blocks return (R149, R150). -/
theorem returnBlocks (bs : List (Fin 48)) (h : Relinked l c d) : Relinked (l.returned c.linkUp bs) c (d.returnBlocks bs) := by
  have hfree := h.setFree (d.link.free ++ bs)
  rw [h.link] at hfree
  rw [Chip.returnBlocks, h.link]
  simpa [Link.returned] using hfree


theorem withdraw (k : PartReq → Bool) (h : Relinked l c d) : Relinked l c (d.withdraw k) :=
  h.trans ⟨by simpa using h.link, (Chip.keptBut_withdraw k d).mono (by simp), fun r => (Chip.lasting_pubs r).withdraw k d⟩

theorem place (q : PartReq) (h : Relinked l c d) : Relinked l c (d.place q) :=
  h.trans ⟨h.link, (Chip.keptBut_path d _).mono (by simp), fun _ => id⟩

end Relinked

/-! ## Requests withdrawn (R16) -/

/-- From p to q the requests of a kind have left their queue, or are marked where one is in flight, and no other request has
moved. -/
structure Withdraws (gone : PartReq → Prop) (p q : Path) : Prop where
  parts : ∀ x, x ∈ q.parts ↔ x ∈ p.parts ∧ ¬ gone x
  marked : ∀ x w, p.port = some (.part x w) → gone x → q.port = some (.part x true)
  flies : ∀ x w, p.port = some (.part x w) → ¬ gone x → q.port = some (.part x w)

namespace Withdraws
variable {g h : PartReq → Prop} {p q r : Path}

theorem none (hparts : q.parts = p.parts) (hport : ∀ x w, p.port = some (.part x w) → q.port = some (.part x w)) :
    Withdraws (fun _ => False) p q :=
  ⟨fun x => by simp [hparts], fun _ _ _ h => h.elim, fun x w hp _ => hport x w hp⟩

theorem trans (hg : Withdraws g p q) (hh : Withdraws h q r) : Withdraws (fun x => g x ∨ h x) p r where
  parts x := by rw [hh.parts, hg.parts, not_or, and_assoc]
  marked x w hp hx := by
    by_cases hgx : g x
    · have hq := hg.marked x w hp hgx
      by_cases hhx : h x
      · exact hh.marked x _ hq hhx
      · exact hh.flies x _ hq hhx
    · exact hh.marked x w (hg.flies x w hp hgx) (hx.resolve_left hgx)
  flies x w hp hx := hh.flies x w (hg.flies x w hp fun h => hx (.inl h)) fun h => hx (.inr h)

theorem congr (hg : Withdraws g p q) (hgh : ∀ x, g x ↔ h x) : Withdraws h p q := by
  rwa [← funext fun x => propext (hgh x)]

end Withdraws

variable {c d : Chip}

namespace Chip

theorem withdraws_withdraw (k : PartReq → Bool) (c : Chip) : Withdraws (fun x => k x = true) c.path (c.withdraw k).path where
  parts x := by
    unfold withdraw Path.settleCount
    dsimp only
    split_ifs <;> simp
  marked x w hp hx := by
    unfold withdraw Path.settleCount
    dsimp only
    rw [hp]
    split_ifs <;> simp [hx]
  flies x w hp hx := by
    unfold withdraw Path.settleCount
    dsimp only
    rw [hp]
    split_ifs <;> simp [hx]

/-! ## A frame given up (R148) -/

/-- What a frame given up leaves of a chunk buffer: its own, and while it is being received every buffer that waits for no
store, is free (R148 step 2). -/
def freedBuf (side : FrameSide) (x : ChunkBuf) : ChunkBuf :=
  if x.store = some side ∨ x.store = none ∧ side = .receiving then ChunkBuf.reset else x

theorem freedBuf_receiving (x : ChunkBuf) :
    freedBuf .receiving x = if x.store = some .finishing then x else ⟨[], none⟩ := by
  unfold freedBuf
  rcases hx : x.store with _ | _ | _ <;> rfl

/-- Step 2 of R148 for one chunk buffer. -/
def clearBuf (side : FrameSide) (b : Fin 2) (c : Chip) : Chip :=
  let buf := c.link.buf[b]
  if buf.store = some side then
    (c.withdraw (PartReq.isChunk b)).modLink (fun l => { l with buf := l.buf.set b ChunkBuf.reset })
  else if buf.store = none ∧ side = .receiving then
    c.modLink (fun l => { l with buf := l.buf.set b ChunkBuf.reset })
  else c

theorem dropFrame_eq (side : FrameSide) (f : RxFrame) (c : Chip) :
    c.dropFrame side f = ((c.clearBuf side 0).clearBuf side 1).returnBlocks f.blocks := rfl

/-- The store of a chunk buffer that a frame given up withdraws. -/
def StoreOf (side : FrameSide) (l : Link) (b : Fin 2) (x : PartReq) : Prop := x.isChunk b = true ∧ l.buf[b].store = some side

theorem withdraws_clearBuf (side : FrameSide) (b : Fin 2) (c : Chip) :
    Withdraws (StoreOf side c.link b) c.path (c.clearBuf side b).path := by
  unfold clearBuf StoreOf
  dsimp only
  split_ifs with h
  · exact (withdraws_withdraw _ c).congr fun x => (and_iff_left h).symm
  · exact (Withdraws.none rfl fun _ _ => id).congr fun x => ⟨False.elim, fun hx => h hx.2⟩
  · exact (Withdraws.none rfl fun _ _ => id).congr fun x => ⟨False.elim, fun hx => h hx.2⟩

end Chip

theorem Relinked.clearBuf {l : Link} (side : FrameSide) (b : Fin 2) (h : Relinked l c d) :
    Relinked { l with buf := l.buf.set b (Chip.freedBuf side l.buf[b]) } c (d.clearBuf side b) := by
  unfold Chip.clearBuf Chip.freedBuf
  dsimp only
  rw [h.link]
  by_cases hown : l.buf[b].store = some side
  · rw [if_pos hown, if_pos (.inl hown)]
    exact (h.withdraw _).modLink fun l => { l with buf := l.buf.set b ChunkBuf.reset }
  · rw [if_neg hown]
    by_cases hfree : l.buf[b].store = none ∧ side = .receiving
    · rw [if_pos hfree, if_pos (.inr hfree)]
      exact h.modLink fun l => { l with buf := l.buf.set b ChunkBuf.reset }
    · rw [if_neg hfree, if_neg (not_or.mpr ⟨hown, hfree⟩)]
      simpa using h

namespace Chip

/-- A frame is given up: its chunk buffers are free, its blocks are back (R148). -/
theorem dropFrame_relinked (side : FrameSide) (f : RxFrame) (c : Chip) :
    Relinked (Link.returned c.linkUp f.blocks { c.link with buf := c.link.buf.map (freedBuf side) }) c (c.dropFrame side f) := by
  have hbufs : (c.link.buf.set (0 : Fin 2) (freedBuf side c.link.buf[(0 : Fin 2)])).set (1 : Fin 2)
      (freedBuf side (c.link.buf.set (0 : Fin 2) (freedBuf side c.link.buf[(0 : Fin 2)]))[(1 : Fin 2)])
      = c.link.buf.map (freedBuf side) := by
    apply Vector.ext
    intro i hi
    obtain rfl | rfl : i = 0 ∨ i = 1 := by omega
    · simp
    · simp
  rw [dropFrame_eq, ← hbufs]
  exact (((Relinked.refl c).clearBuf side 0).clearBuf side 1).returnBlocks f.blocks

/-- A frame given up withdraws its chunk stores, and nothing else (R148). -/
theorem withdraws_dropFrame (side : FrameSide) (f : RxFrame) (c : Chip) :
    Withdraws (fun x => ∃ b, StoreOf side c.link b x) c.path (c.dropFrame side f).path := by
  have hlink := ((Relinked.refl c).clearBuf side 0).link
  have hsecond : ∀ x, StoreOf side (c.clearBuf side 0).link 1 x ↔ StoreOf side c.link 1 x := fun x => by
    simp [StoreOf, hlink]
  have hboth := (withdraws_clearBuf side 0 c).trans (withdraws_clearBuf side 1 (c.clearBuf side 0))
  have hreturn := hboth.trans (Withdraws.none (q := (c.dropFrame side f).path)
    (by rw [dropFrame_eq]; simp) (fun x w hp => by rw [dropFrame_eq]; simpa using hp))
  exact hreturn.congr fun x => by simp [hsecond, Fin.exists_fin_two]

end Chip
end Sys2Proof.Machine
end

section
namespace Sys2Proof.Machine.Chip
variable {c d : Chip} {f g : RxFrame} {b : Byte}

/-! ## A frame discarded while it is being received (R148) -/

/-- A frame being received is discarded and the receiver goes on in r: the counter, the blocks, the chunk buffers and their
stores, the link status record (R148). -/
def Lost (k : Fin 12) (f : RxFrame) (r : Receiver) (c d : Chip) : Prop :=
  d.link = c.link.discarded true k f r ∧ .linkStatus ∈ d.path.pubs
  ∧ (∀ i a x, c.link.buf[i].store = some .receiving → PartReq.chunkStore i a x ∉ d.path.parts)
  ∧ KeptBut [.link, .path] c d

theorem count_relinked (k : Counter) (c : Chip) : Relinked (c.link.counted k.idx) c (c.count k) := (Relinked.refl c).count k

theorem mem_pubs_count (k : Counter) (c : Chip) : RecId.linkStatus ∈ (c.count k).path.pubs :=
  (mem_pubs_publish _ _ _).mpr (.inl rfl)

theorem discard_relinked (k : Counter) (f : RxFrame) (c : Chip) :
    Relinked (c.link.discarded c.linkUp k.idx f c.link.receiver) c (c.discard k .receiving f) := by
  have hdrop := dropFrame_relinked .receiving f (c.count k)
  rw [(count_relinked k c).up, (count_relinked k c).link, funext freedBuf_receiving] at hdrop
  exact (count_relinked k c).trans hdrop

theorem mem_pubs_discard {side : FrameSide} (k : Counter) (f : RxFrame) (c : Chip) :
    RecId.linkStatus ∈ (c.discard k side f).path.pubs :=
  (dropFrame_relinked side f (c.count k)).pubs _ (mem_pubs_count k c)

theorem discard_withdraws (k : Counter) (f : RxFrame) (c : Chip) {i : Fin 2} (a : Nat) (x : List Byte)
    (hi : c.link.buf[i].store = some .receiving) : PartReq.chunkStore i a x ∉ (c.discard k .receiving f).path.parts := by
  intro hm
  refine (((withdraws_dropFrame .receiving f (c.count k)).parts _).mp hm).2 ⟨i, beq_self_eq_true i, ?_⟩
  rw [(count_relinked k c).link]
  exact hi

theorem lost_discard (hup : c.linkUp = true) (k : Counter) (r : Receiver) (hb : g.blocks = f.blocks) :
    Lost k.idx f r c ((c.discard k .receiving g).setReceiver r) := by
  have hlinked := (discard_relinked k g c).setReceiver r
  rw [hup] at hlinked
  refine ⟨hlinked.link.trans ?_, mem_pubs_discard (side := .receiving) k g c, fun i a x hi => discard_withdraws k g c a x hi, hlinked.kept⟩
  unfold Link.discarded
  rw [hb]
  rfl

theorem lost_discard_hunt (hup : c.linkUp = true) (k : Counter) (hb : g.blocks = f.blocks) :
    Lost k.idx f .hunt c ((c.setReceiver .hunt).discard k .receiving g) := by
  have hunted := (Relinked.refl c).setReceiver .hunt
  have hlinked := discard_relinked k g (c.setReceiver .hunt)
  rw [hunted.up, hup, hunted.link] at hlinked
  refine ⟨hlinked.link.trans ?_, mem_pubs_discard (side := .receiving) k g _, fun i a x hi => discard_withdraws k g _ a x hi,
    (hunted.trans hlinked).kept⟩
  unfold Link.discarded
  rw [hb]
  rfl

/-! ## The receiver, state by state (R144) -/

theorem rxByte_down (h : c.linkUp = false) (b : Byte) : c.rxByte b = c := by
  unfold rxByte
  rw [h]
  rfl

theorem lineGap_down (h : c.linkUp = false) : c.lineGap = c := by
  unfold lineGap
  rw [h]
  rfl

theorem rxByte_hunt (hup : c.linkUp = true) (hr : c.link.receiver = .hunt) (b : Byte) :
    c.rxByte b = if b = 0x5A then c.setReceiver (.header RxFrame.new) else c := by
  unfold rxByte
  rw [hup, hr]
  rfl

theorem rxByte_header (hup : c.linkUp = true) (hr : c.link.receiver = .header f) (b : Byte) :
    c.rxByte b = c.headerByte f b := by
  unfold rxByte
  rw [hup, hr]
  rfl

theorem rxByte_payload (hup : c.linkUp = true) (hr : c.link.receiver = .payload f) (b : Byte) :
    c.rxByte b = c.payloadByte f b := by
  unfold rxByte
  rw [hup, hr]
  rfl

theorem rxByte_crc (hup : c.linkUp = true) (hr : c.link.receiver = .crc f) (b : Byte) :
    c.rxByte b = c.crcFieldByte f b := by
  unfold rxByte
  rw [hup, hr]
  rfl

theorem rxByte_skip {n : Nat} (hup : c.linkUp = true) (hr : c.link.receiver = .skip (some n)) (b : Byte) :
    c.rxByte b = c.setReceiver (if n ≤ 1 then .hunt else .skip (some (n - 1))) := by
  unfold rxByte
  rw [hup, hr]
  rfl

theorem rxByte_skip_uncounted (hup : c.linkUp = true) (hr : c.link.receiver = .skip none) (b : Byte) : c.rxByte b = c := by
  unfold rxByte
  rw [hup, hr]
  rfl

theorem lineGap_hunt (hup : c.linkUp = true) (hr : c.link.receiver = .hunt) : c.lineGap = c := by
  unfold lineGap
  rw [hup, hr]
  rfl

theorem lineGap_skip {n : Option Nat} (hup : c.linkUp = true) (hr : c.link.receiver = .skip n) :
    c.lineGap = c.setReceiver .hunt := by
  unfold lineGap
  rw [hup, hr]
  rfl

theorem lineGap_frame (hup : c.linkUp = true)
    (hr : c.link.receiver = .header f ∨ c.link.receiver = .payload f ∨ c.link.receiver = .crc f) :
    c.lineGap = (c.discard .runt .receiving f).setReceiver .hunt := by
  unfold lineGap
  rw [hup]
  rcases hr with hr | hr | hr <;> rw [hr] <;> rfl

/-- A frame with one more header byte. -/
def headed (f : RxFrame) (b : Byte) : RxFrame := { f with header := f.header ++ [b], crc := crcByte f.crc b }

theorem headerByte_oversize (h2 : (headed f b).header.length = 2) (hn : 1000 < (headed f b).length) :
    c.headerByte f b = (c.discard .oversize .receiving (headed f b)).setReceiver (.skip none) :=
  if_pos ⟨h2, hn⟩

theorem headerByte_last (h8 : (headed f b).header.length = 8) : c.headerByte f b
    = c.setReceiver (if (headed f b).length = 0 then .crc (headed f b) else .payload (headed f b)) := by
  have h2 : ¬ ((headed f b).header.length = 2 ∧ Config.maxPayload < (headed f b).length) := fun h => by omega
  refine (if_neg h2).trans ((if_pos h8).trans ?_)
  by_cases h0 : (headed f b).length = 0
  · rw [if_pos h0]
    exact congrArg (c.setReceiver ·) (if_neg (Nat.not_lt.mpr (Nat.le_of_eq h0)))
  · rw [if_neg h0]
    exact congrArg (c.setReceiver ·) (if_pos (Nat.pos_of_ne_zero h0))

theorem headerByte_goes_on (h8 : (headed f b).header.length ≠ 8)
    (hn : (headed f b).header.length = 2 → (headed f b).length ≤ 1000) :
    c.headerByte f b = c.setReceiver (.header (headed f b)) :=
  (if_neg fun h => Nat.not_le.mpr h.2 (hn h.1)).trans (if_neg h8)

/-- A frame with one more byte of its CRC field. -/
def crcTaken (f : RxFrame) (b : Byte) : RxFrame := { f with crcField := f.crcField ++ [b] }

theorem crcFieldByte_first (h : f.crcField = []) : c.crcFieldByte f b = c.setReceiver (.crc { f with crcField := [b] }) := by
  unfold crcFieldByte
  simp [h]

theorem crcTaken_length (h : f.crcField ≠ []) : ¬ (crcTaken f b).crcField.length < 2 := by
  have hpos := List.length_pos_iff.mpr h
  simp [crcTaken]
  omega

theorem finishBufs (v : Vector ChunkBuf 2) : #v[finishBuf v[0], finishBuf v[1]]
    = v.map (fun x => if x.store = some .receiving then { x with store := some .finishing } else x) := by
  apply Vector.ext
  intro i hi
  obtain rfl | rfl : i = 0 ∨ i = 1 := by omega
  · simp [finishBuf]
  · simp [finishBuf]

/-- The link with its frame being received finished, whose chunk stores are now those of the finishing frame (R147). -/
def finishedBy (f : RxFrame) (l : Link) : Link := { l with
  receiver := .hunt
  finishing := some f
  buf := l.buf.map (fun x => if x.store = some .receiving then { x with store := some .finishing } else x) }

theorem crcFieldByte_finish (h : f.crcField ≠ []) (hfin : c.link.finishing = none) :
    c.crcFieldByte f b = c.modLink (finishedBy (crcTaken f b)) := by
  have hlink : c.modLink (finishedBy (crcTaken f b)) = (c.setReceiver .hunt).modLink (fun l => { l with
      finishing := some (crcTaken f b), buf := #v[finishBuf l.buf[0], finishBuf l.buf[1]] }) := by
    simp only [modLink, setReceiver, finishBufs, finishedBy]
  rw [hlink]
  refine (if_neg (crcTaken_length h)).trans (if_neg ?_)
  show ¬ c.link.finishing.isSome = true
  simp [hfin]

theorem crcFieldByte_overrun (h : f.crcField ≠ []) (hfin : c.link.finishing ≠ none) :
    c.crcFieldByte f b = (c.setReceiver .hunt).discard .overrun .receiving (crcTaken f b) :=
  (if_neg (crcTaken_length h)).trans (if_pos (Option.isSome_iff_ne_none.mpr hfin))

/-! ## A whole frame without payload (Table 9-1) -/

theorem rxByte_setReceiver_header (hup : c.linkUp = true) (f : RxFrame) (b : Byte) :
    (c.setReceiver (.header f)).rxByte b = (c.setReceiver (.header f)).headerByte f b :=
  rxByte_header (c := c.setReceiver (.header f)) hup rfl b

theorem rxByte_setReceiver_crc (hup : c.linkUp = true) (f : RxFrame) (b : Byte) :
    (c.setReceiver (.crc f)).rxByte b = (c.setReceiver (.crc f)).crcFieldByte f b :=
  rxByte_crc (c := c.setReceiver (.crc f)) hup rfl b

/-- Header bytes after the second and before the eighth (R144). -/
theorem foldl_rxByte_header (hup : c.linkUp = true) (bs : List Byte) {f : RxFrame} (h2 : 2 ≤ f.header.length)
    (h8 : f.header.length + bs.length < 8) : bs.foldl (fun x b => rxByte b x) (c.setReceiver (.header f))
      = c.setReceiver (.header (bs.foldl headed f)) := by
  induction bs generalizing f with
  | nil => rfl
  | cons b bs ih =>
    have hlength : (headed f b).header.length = f.header.length + 1 := by simp [headed]
    rw [List.length_cons] at h8
    rw [List.foldl_cons, rxByte_setReceiver_header hup, headerByte_goes_on (by omega) (fun h => by omega)]
    exact ih (by omega) (by omega)

/-- The frame of a header: its bytes and their CRC. -/
def headerFrame (bs : List Byte) : RxFrame := bs.foldl headed RxFrame.new

/-- The eight header bytes of Table 9-1 for a frame without payload. -/
def emptyHeader (tag : Word) (seq kind : Byte) : List Byte := [0, 0] ++ Bytes.ofWord tag ++ [seq, kind]

theorem headerFrame_concat (bs : List Byte) (b : Byte) : headerFrame (bs ++ [b]) = headed (headerFrame bs) b :=
  List.foldl_concat ..

theorem foldl_headed (bs : List Byte) (f : RxFrame) :
    bs.foldl headed f = { f with header := f.header ++ bs, crc := bs.foldl crcByte f.crc } := by
  induction bs generalizing f with
  | nil => simp
  | cons b bs ih =>
    rw [List.foldl_cons, ih]
    simp [headed]

theorem headerFrame_eq (bs : List Byte) : headerFrame bs = { RxFrame.new with header := bs, crc := crc16 bs } :=
  foldl_headed bs RxFrame.new

theorem length_headerFrame_emptyHeader (tag : Word) (seq kind : Byte) : (headerFrame (emptyHeader tag seq kind)).length = 0 := by
  have hlength : Bytes.half (emptyHeader tag seq kind) 0 = 0 := Bytes.half_eq rfl rfl
  rw [headerFrame_eq, RxFrame.length, hlength]
  rfl

/-- The sync byte and the header of a frame without payload lead from HUNT to CRC (R144). -/
theorem foldl_rxByte_emptyHeader (hup : c.linkUp = true) (hr : c.link.receiver = .hunt) (tag : Word) (seq kind : Byte) :
    (0x5A :: emptyHeader tag seq kind).foldl (fun x b => rxByte b x) c
      = c.setReceiver (.crc (headerFrame (emptyHeader tag seq kind))) := by
  have hsync : c.rxByte 0x5A = c.setReceiver (.header RxFrame.new) := (rxByte_hunt hup hr _).trans (if_pos rfl)
  have hlow : (c.setReceiver (.header RxFrame.new)).rxByte 0 = c.setReceiver (.header (headerFrame [0])) := by
    rw [rxByte_setReceiver_header hup]
    exact headerByte_goes_on (by decide) (by decide)
  have hhigh : (c.setReceiver (.header (headerFrame [0]))).rxByte 0 = c.setReceiver (.header (headerFrame [0, 0])) := by
    rw [rxByte_setReceiver_header hup]
    exact headerByte_goes_on (by decide) (by decide)
  have htag : (Bytes.ofWord tag ++ [seq]).foldl (fun x b => rxByte b x) (c.setReceiver (.header (headerFrame [0, 0])))
      = c.setReceiver (.header (headerFrame ([0, 0] ++ Bytes.ofWord tag ++ [seq]))) :=
    foldl_rxByte_header hup (Bytes.ofWord tag ++ [seq]) (by decide) (by decide : 2 + 5 < 8)
  have hkind : (c.setReceiver (.header (headerFrame ([0, 0] ++ Bytes.ofWord tag ++ [seq])))).rxByte kind
      = c.setReceiver (.crc (headerFrame (emptyHeader tag seq kind))) := by
    have hframe : headed (headerFrame ([0, 0] ++ Bytes.ofWord tag ++ [seq])) kind = headerFrame (emptyHeader tag seq kind) :=
      (headerFrame_concat _ _).symm
    rw [rxByte_setReceiver_header hup, headerByte_last rfl, hframe, if_pos (length_headerFrame_emptyHeader tag seq kind)]
    rfl
  have hsplit : 0x5A :: emptyHeader tag seq kind = 0x5A :: 0 :: 0 :: ((Bytes.ofWord tag ++ [seq]) ++ [kind]) := rfl
  rw [hsplit, List.foldl_cons, List.foldl_cons, List.foldl_cons, List.foldl_concat, hsync, hlow, hhigh, htag, hkind]

/-- The frame that a header and two bytes of CRC field make. -/
def emptyFrame (tag : Word) (seq kind : Byte) (crc : Half) : RxFrame :=
  { headerFrame (emptyHeader tag seq kind) with crcField := Bytes.ofHalf crc }

theorem emptyFrame_fields (tag : Word) (seq kind : Byte) (crc : Half) :
    (emptyFrame tag seq kind crc).length = 0 ∧ (emptyFrame tag seq kind crc).tag = tag
    ∧ (emptyFrame tag seq kind crc).seq = seq ∧ (emptyFrame tag seq kind crc).kind = kind :=
  ⟨length_headerFrame_emptyHeader tag seq kind, Bytes.word_eq rfl rfl rfl rfl, rfl, rfl⟩

theorem emptyFrame_crcOk (tag : Word) (seq kind : Byte) :
    (emptyFrame tag seq kind (crc16 (emptyHeader tag seq kind))).crcOk := by
  rw [RxFrame.crcOk, emptyFrame, headerFrame_eq]
  exact Bytes.half_eq rfl rfl

/-- The eleven bytes of Table 9-1 finish a frame. -/
theorem foldl_rxByte_emptyFrame (hup : c.linkUp = true) (hr : c.link.receiver = .hunt) (hfin : c.link.finishing = none)
    (tag : Word) (seq kind : Byte) (crc : Half) :
    ((0x5A :: emptyHeader tag seq kind ++ Bytes.ofHalf crc).foldl (fun x b => rxByte b x) c).link.finishing
      = some (emptyFrame tag seq kind crc)
    ∧ ((0x5A :: emptyHeader tag seq kind ++ Bytes.ofHalf crc).foldl (fun x b => rxByte b x) c).link.receiver = .hunt := by
  have hfirst (x : Byte) {g : RxFrame} (hg : g.crcField = []) : rxByte x (c.setReceiver (.crc g))
      = c.setReceiver (.crc { g with crcField := [x] }) :=
    (rxByte_setReceiver_crc hup g x).trans (crcFieldByte_first hg)
  have hsecond (x : Byte) {g : RxFrame} (hg : g.crcField ≠ []) : (rxByte x (c.setReceiver (.crc g))).link.finishing
      = some (crcTaken g x) ∧ (rxByte x (c.setReceiver (.crc g))).link.receiver = .hunt := by
    rw [rxByte_setReceiver_crc hup, crcFieldByte_finish (c := c.setReceiver (.crc g)) hg hfin]
    exact ⟨rfl, rfl⟩
  rw [List.foldl_append, foldl_rxByte_emptyHeader hup hr, Bytes.ofHalf, List.foldl_cons, List.foldl_cons, List.foldl_nil,
    hfirst _ rfl]
  exact hsecond _ (List.cons_ne_nil _ _)

/-- Settles O50: the receiver state by state, a discard by `lost_discard`, the eleven bytes by `foldl_rxByte_emptyFrame`. -/
theorem receiverTakesBytes : Obligations.ReceiverTakesBytes := by
  unfold Obligations.ReceiverTakesBytes
  refine ⟨?_, ?_, ?_⟩
  · intro s b _ hup l got lost
    have hgot (r : Receiver) : got r (s.hw.setReceiver r) := ⟨rfl, keptBut_link _ s.hw⟩
    refine ⟨fun hr => ⟨fun hb => act_answers rfl ?_, fun hb => act_same rfl ?_, act_same rfl (lineGap_hunt hup hr)⟩,
      ?_, ?_, fun n hr => ⟨act_answers rfl ?_, act_answers rfl ?_⟩,
      fun hr => ⟨act_same rfl (rxByte_skip_uncounted hup hr b), act_answers rfl ?_⟩, fun f hr => act_answers rfl ?_⟩
    · rw [rxByte_hunt hup hr, if_pos hb]
      exact hgot _
    · rw [rxByte_hunt hup hr, if_neg hb]
    · intro f hr g n
      refine ⟨fun h2 hn => act_answers rfl ?_, fun h8 => act_answers rfl ?_, fun h8 hn => act_answers rfl ?_⟩
      · rw [rxByte_header hup hr, headerByte_oversize h2 hn]
        exact lost_discard (g := headed f b) hup .oversize _ rfl
      · rw [rxByte_header hup hr, headerByte_last h8]
        exact hgot _
      · rw [rxByte_header hup hr, headerByte_goes_on h8 hn]
        exact hgot _
    · intro f hr
      refine ⟨fun h0 => act_answers rfl ?_, fun h0 hfin => act_answers rfl ?_, fun h0 hfin => act_answers rfl ?_⟩
      · rw [rxByte_crc hup hr, crcFieldByte_first h0]
        exact hgot _
      · rw [rxByte_crc hup hr, crcFieldByte_finish h0 hfin]
        exact ⟨rfl, keptBut_link _ s.hw⟩
      · rw [rxByte_crc hup hr, crcFieldByte_overrun h0 hfin]
        exact lost_discard_hunt (g := crcTaken f b) hup .overrun rfl
    · rw [rxByte_skip hup hr]
      exact hgot _
    · rw [lineGap_skip hup hr]
      exact hgot _
    · rw [lineGap_skip hup hr]
      exact hgot _
    · rw [lineGap_frame hup hr]
      exact lost_discard (g := f) hup .runt .hunt rfl
  · intro s b hdown
    exact ⟨act_same rfl (rxByte_down hdown b), act_same rfl (lineGap_down hdown)⟩
  · intro c tag seq kind hup hr hfin
    obtain ⟨hfinished, hhunt⟩ := foldl_rxByte_emptyFrame hup hr hfin tag seq kind (crc16 (emptyHeader tag seq kind))
    obtain ⟨hlength, htag, hseq, hkind⟩ := emptyFrame_fields tag seq kind (crc16 (emptyHeader tag seq kind))
    have hbytes : [0x5A, 0, 0] ++ Bytes.ofWord tag ++ [seq, kind]
        ++ Bytes.ofHalf (crc16 ([0, 0] ++ Bytes.ofWord tag ++ [seq, kind]))
        = 0x5A :: emptyHeader tag seq kind ++ Bytes.ofHalf (crc16 (emptyHeader tag seq kind)) := rfl
    rw [hbytes]
    exact ⟨_, hfinished, hhunt, hlength, htag, hseq, hkind, emptyFrame_crcOk tag seq kind⟩

end Sys2Proof.Machine.Chip
end

section
namespace Sys2Proof.Machine.Chip
variable {c d : Chip} {f : RxFrame} {b : Byte}

/-! ## A payload byte (R145, R146) -/

theorem payloadByte_overrun (h : c.link.buf[c.link.cur].store ≠ none) : c.payloadByte f b = c.discardInPayload .overrun f :=
  if_pos (Option.isSome_iff_ne_none.mpr h)

theorem store_free (h : c.link.buf[c.link.cur].store = none) : ¬ c.link.buf[c.link.cur].store.isSome = true := by
  rw [h]
  exact Bool.false_ne_true

theorem payloadByte_noBuffer (h : c.link.buf[c.link.cur].store = none) (hn : f.received % 128 = 0) (hfree : c.link.free = []) :
    c.payloadByte f b = c.discardInPayload .noBuffer f :=
  (if_neg (store_free h)).trans ((if_neg (not_not.mpr hn)).trans (if_pos (List.isEmpty_iff.mpr hfree)))

theorem payloadByte_keeps (h : c.link.buf[c.link.cur].store = none) (hn : f.received % 128 ≠ 0) :
    c.payloadByte f b = c.keepByte f b :=
  (if_neg (store_free h)).trans (if_pos hn)

theorem payloadByte_takes {x : Fin 48} {rest : List (Fin 48)} (h : c.link.buf[c.link.cur].store = none)
    (hn : f.received % 128 = 0) (hfree : c.link.free = x :: rest) :
    c.payloadByte f b = (c.setFree rest).keepByte { f with blocks := f.blocks ++ [x] } b := by
  have htake : c.takeBlock f = ({ f with blocks := f.blocks ++ [x] }, c.setFree rest) := by
    unfold takeBlock
    rw [hfree]
  refine (if_neg (store_free h)).trans ((if_neg (not_not.mpr hn)).trans ((if_neg (by simp [hfree])).trans ?_))
  rw [htake]

/-- The link after the block that payload byte n needs has left the free list (R146, R150). -/
def blockTaken (n : Nat) (l : Link) : Link :=
  let low := if n % 128 = 0 then poolLowAt l.settings (l.free.length - 1) l.poolLow else l.poolLow
  { l with
    free := if n % 128 = 0 then l.free.drop 1 else l.free
    poolLow := low
    poolFrame := poolFrameAt true l.poolLow low l.poolFrame }

/-- The frame with the block that its next payload byte needs (R146). -/
def withBlock (l : Link) (f : RxFrame) : RxFrame :=
  { f with blocks := if f.received % 128 = 0 then f.blocks ++ l.free.take 1 else f.blocks }

/-- A payload byte that is kept is kept once the block it needs is taken (R146). -/
theorem payloadByte_kept (hup : c.linkUp = true) (h : c.link.buf[c.link.cur].store = none)
    (hfree : f.received % 128 = 0 → c.link.free ≠ []) : ∃ e, c.payloadByte f b = e.keepByte (withBlock c.link f) b
      ∧ Relinked (blockTaken f.received c.link) c e ∧ e.path.parts = c.path.parts := by
  by_cases hn : f.received % 128 = 0
  · obtain ⟨x, rest, hx⟩ := List.exists_cons_of_ne_nil (hfree hn)
    have hframe : withBlock c.link f = { f with blocks := f.blocks ++ [x] } := by simp [withBlock, hn, hx]
    have hlink : blockTaken f.received c.link = { c.link with
        free := rest
        poolLow := poolLowAt c.link.settings rest.length c.link.poolLow
        poolFrame := poolFrameAt c.linkUp c.link.poolLow (poolLowAt c.link.settings rest.length c.link.poolLow)
          c.link.poolFrame } := by
      simp [blockTaken, hn, hx, hup]
    refine ⟨c.setFree rest, by rw [payloadByte_takes h hn hx, hframe], hlink ▸ (Relinked.refl c).setFree rest, ?_⟩
    simp [setFree]
  · have hframe : withBlock c.link f = f := by simp [withBlock, hn]
    have hlink : blockTaken f.received c.link = c.link := by simp [blockTaken, hn, poolFrameAt]
    exact ⟨c, by rw [payloadByte_keeps h hn, hframe], by rw [hlink]; exact .refl c, rfl⟩

/-- A frame with one more payload byte. -/
def fed (f : RxFrame) (b : Byte) : RxFrame := { f with
  received := f.received + 1
  crc := crcByte f.crc b
  first := if f.first.length < 16 then f.first ++ [b] else f.first }

/-- The receiver after a payload byte: in CRC after the last. -/
def afterByte (f : RxFrame) (b : Byte) : Receiver := if f.received + 1 = f.length then .crc (fed f b) else .payload (fed f b)

/-- The current chunk buffer with one more byte. -/
def filled (b : Byte) (l : Link) : Link := { l with buf := l.buf.set l.cur ⟨l.buf[l.cur].bytes ++ [b], none⟩ }

theorem filled_bytes (b : Byte) (l : Link) : (filled b l).buf[l.cur].bytes = l.buf[l.cur].bytes ++ [b] := by
  simp [filled]

theorem keepByte_eq_if (f : RxFrame) (b : Byte) (c : Chip) : c.keepByte f b
    = (if f.received + 1 = f.length ∨ (c.link.buf[c.link.cur].bytes ++ [b]).length = 64
        then (c.modLink (filled b)).storeChunk (fed f b) else c.modLink (filled b)).setReceiver (afterByte f b) := by
  have hlast : ((fed f b).received == (fed f b).length) = decide (f.received + 1 = f.length) := rfl
  have hbytes : (c.modLink (filled b)).link.buf[c.link.cur].bytes = c.link.buf[c.link.cur].bytes ++ [b] := filled_bytes b c.link
  show setReceiver (if ((fed f b).received == (fed f b).length) = true then .crc (fed f b) else .payload (fed f b))
    (if ((fed f b).received == (fed f b).length || (c.modLink (filled b)).link.buf[c.link.cur].bytes.length == 64) = true
      then (c.modLink (filled b)).storeChunk (fed f b) else c.modLink (filled b)) = _
  rw [hlast, hbytes, afterByte]
  simp only [decide_eq_true_eq, Bool.or_eq_true, beq_iff_eq]

theorem keepByte_more (h1 : f.received + 1 ≠ f.length) (h2 : (c.link.buf[c.link.cur].bytes ++ [b]).length ≠ 64) :
    c.keepByte f b = (c.modLink (filled b)).setReceiver (afterByte f b) := by
  rw [keepByte_eq_if, if_neg (not_or.mpr ⟨h1, h2⟩)]

theorem keepByte_full (h : f.received + 1 = f.length ∨ (c.link.buf[c.link.cur].bytes ++ [b]).length = 64) :
    c.keepByte f b = ((c.modLink (filled b)).storeChunk (fed f b)).setReceiver (afterByte f b) := by
  rw [keepByte_eq_if, if_pos h]

/-- The link with its current chunk buffer waiting for its store, the other one current (R145). -/
def bufStored (l : Link) : Link := { l with buf := l.buf.set l.cur ⟨[], some .receiving⟩, cur := l.cur + 1 }

theorem padTo_of_le {bs : List Byte} {n : Nat} (h : bs.length ≤ n) : padTo n 0 bs = bs ++ List.replicate (n - bs.length) 0 := by
  rw [padTo, List.take_of_length_le h]

/-- The store of a chunk lies in the block of its stretch (R145). -/
theorem storeChunk_eq {x : Fin 48} (hx : (fed f b).blocks[f.received / 128]? = some x)
    (hle : c.link.buf[c.link.cur].bytes.length ≤ 64) : c.storeChunk (fed f b) = (c.place (.chunkStore c.link.cur
        (0xFF4000 + 128 * x.val + 64 * (f.received / 64 % 2))
        (c.link.buf[c.link.cur].bytes ++ List.replicate (64 - c.link.buf[c.link.cur].bytes.length) 0))).modLink bufStored := by
  have hstretch : ((fed f b).received - 1) / 64 = f.received / 64 := congrArg (· / 64) (Nat.add_sub_cancel f.received 1)
  have hblock : (fed f b).blocks[f.received / 64 / 2]? = some x := by rw [Nat.div_div_eq_div_mul]; exact hx
  unfold storeChunk
  dsimp only
  rw [hstretch, hblock, padTo_of_le hle]
  rfl

theorem bufStored_filled (b : Byte) (l : Link) :
    bufStored (filled b l) = { l with buf := l.buf.set l.cur ⟨[], some .receiving⟩, cur := l.cur + 1 } := by
  simp [bufStored, filled]

theorem lost_inPayload (hup : c.linkUp = true) (k : Counter) (f : RxFrame) :
    Lost k.idx f (.skip (some (f.length - (f.received + 1) + 2))) c (c.discardInPayload k f) :=
  lost_discard hup k _ rfl

/-! ## A chunk store completes (R145) -/

theorem chunkStoreDone_eq {i : Fin 2} {a : Nat} {data : List Byte} {w : Bool}
    (h : c.path.port = some (.part (.chunkStore i a data) w)) : c.chunkStoreDone
      = if w then (c.writeMem a data).freePort
        else (c.writeMem a data).freePort.modLink (fun l => { l with buf := l.buf.set i ChunkBuf.reset }) := by
  unfold chunkStoreDone
  rw [h]

/-- Settles O51: a byte that is kept by `payloadByte_kept` with `keepByte_more` or `keepByte_full`, its store by
`storeChunk_eq`, a discard by `lost_inPayload`, the store's completion by `chunkStoreDone_eq`. -/
theorem payloadStoredInChunks : Obligations.PayloadStoredInChunks := by
  unfold Obligations.PayloadStoredInChunks
  refine ⟨?_, ?_⟩
  · intro s b f _ hup hr l needs lost
    refine ⟨fun hs => act_answers rfl ?_, fun hs hn hfree => act_answers rfl ?_, ?_⟩
    · rw [rxByte_payload hup hr, payloadByte_overrun hs]
      exact lost_inPayload hup .overrun f
    · rw [rxByte_payload hup hr, payloadByte_noBuffer hs hn hfree]
      exact lost_inPayload hup .noBuffer f
    · intro hs hfree g bytes low base
      obtain ⟨e, hkeep, hlinked, hparts⟩ := payloadByte_kept (b := b) hup hs hfree
      have hbytes : e.link.buf[e.link.cur].bytes ++ [b] = bytes :=
        (congrArg (fun y : Link => y.buf[y.cur].bytes ++ [b]) hlinked.link : _ = (blockTaken f.received l).buf[l.cur].bytes ++ [b])
      have hfilled := hlinked.modLink (filled b)
      refine ⟨fun h1 h2 => act_answers rfl ?_, fun x hlast hx hle => act_answers rfl ?_⟩
      · rw [rxByte_payload hup hr, hkeep, keepByte_more (f := withBlock l f) h1 (by rw [hbytes]; exact h2)]
        have hall := hfilled.setReceiver (afterByte (withBlock l f) b)
        exact ⟨hall.link, hparts, hall.kept⟩
      · have hcur : (e.modLink (filled b)).link.buf[(e.modLink (filled b)).link.cur].bytes = bytes :=
          (filled_bytes b e.link).trans hbytes
        rw [rxByte_payload hup hr, hkeep, keepByte_full (f := withBlock l f) (by rw [hbytes]; exact hlast),
          storeChunk_eq (c := e.modLink (filled b)) (f := withBlock l f) (b := b) hx (by rw [hcur]; exact hle), hcur]
        have hall (q : PartReq) := ((hfilled.place q).modLink bufStored).setReceiver (afterByte (withBlock l f) b)
        refine ⟨(hall _).link.trans ?_, ?_, (hall _).kept⟩
        · rw [bufStored_filled]
          rfl
        · show e.path.parts ++ [PartReq.chunkStore e.link.cur _ _] = _
          rw [hparts, hlinked.link]
          rfl
  · intro s i a data w hinv hp hle
    refine act_answers rfl ?_
    rw [chunkStoreDone_eq hp]
    have hstored := writeMem_stored a data s.hw (inv_mem hinv) hle
    cases w with
    | true => exact ⟨hstored, rfl, rfl, fun p hp => by cases p <;> simp at hp <;> rfl⟩
    | false => exact ⟨hstored, rfl, rfl, fun p hp => by cases p <;> simp at hp <;> rfl⟩

end Sys2Proof.Machine.Chip
end

section
namespace Sys2Proof.Machine
variable {l : Link} {c d : Chip} {f : RxFrame} {p : Fin 8} {x : Peer}

namespace Relinked

theorem mapPeer (g : Peer → Peer) (h : Relinked l c d) (hx : l.peer[p] = some x) :
    Relinked (l.withPeer p (some (g x))) c (d.modPeer p g) := by
  have hmod := h.modPeer p g
  rwa [hx] at hmod

/-- A frame counts in its peer's storm window (R156). -/
theorem countStorm (h : Relinked l c d) (hx : l.peer[p] = some x) :
    Relinked (l.withPeer p (some (x.stormed l.settings.rising))) c (d.countStorm p) := by
  have hd : d.link.peer[p] = some x := by rw [h.link]; exact hx
  have hthrottled : (x.throttled || (!x.throttled && decide (l.settings.rising < min 255 (x.window + 1))))
      = (x.throttled || decide (l.settings.rising < min 255 (x.window + 1))) := by cases x.throttled <;> rfl
  have hmod := (h.mapPeer (p := p) (fun y => { y with
      window := min 255 (x.window + 1)
      throttled := y.throttled || (!x.throttled && decide (l.settings.rising < min 255 (x.window + 1))) }) hx).publishIf
    (!x.throttled && decide (l.settings.rising < min 255 (x.window + 1))) (.peerImage p)
  rw [hthrottled] at hmod
  unfold Chip.countStorm
  rw [hd]
  dsimp only
  rw [h.link]
  exact hmod

/-- An accepted frame refreshes its peer (R154). -/
theorem hear (h : Relinked l c d) (hx : l.peer[p] = some x) :
    Relinked (l.withPeer p (some (x.heard c.control.ms))) c (d.hear p) := by
  rw [← h.ms]
  exact (h.mapPeer (p := p) (Peer.heard d.control.ms) hx).publish (.peerImage p)

/-- A finishing frame is discarded, none of its stores outstanding (R148). -/
theorem discardFinishing (k : Counter) (f : RxFrame) (h : Relinked l c d)
    (hb : ∀ b : Fin 2, l.buf[b].store ≠ some .finishing) :
    Relinked ((l.counted k.idx).returned c.linkUp f.blocks) c (d.discard k .finishing f) := by
  rw [Chip.discard_finishing k f d (by rw [h.link]; exact hb)]
  exact (h.count k).returnBlocks f.blocks

end Relinked

/-! ## Kinds of frames (Table 9-2) -/

/-- The kinds that a tablet sends. -/
def tabletKinds : List Byte := [0x01, 0x02, 0x10, 0x11, 0x12, 0x13, 0x20, 0x30, 0x31]

theorem frameKind_eq_some {b : Byte} {k : FrameKind} : frameKind b = some k ↔ k.byte = b := by
  constructor
  · intro h
    exact beq_iff_eq.mp (List.find?_some (p := fun k : FrameKind => k.byte == b) h)
  · rintro rfl
    cases k <;> rfl

theorem byte_mem_tabletKinds {k : FrameKind} : k.byte ∈ tabletKinds ↔ Chip.fromTablet k = true := by cases k <;> decide

theorem tabletKinds_subset {b : Byte} (h : b ∈ tabletKinds) : ∃ k : FrameKind, k.byte = b := by
  simp only [tabletKinds, List.mem_cons, List.not_mem_nil, or_false] at h
  obtain rfl | rfl | rfl | rfl | rfl | rfl | rfl | rfl | rfl := h
  exacts [⟨.hello, rfl⟩, ⟨.bye, rfl⟩, ⟨.motor, rfl⟩, ⟨.sense, rfl⟩, ⟨.subscribe, rfl⟩, ⟨.tone, rfl⟩, ⟨.mail, rfl⟩,
    ⟨.hold, rfl⟩, ⟨.resume, rfl⟩]

theorem throttledKind_iff {k : FrameKind} : Chip.throttledKind k = true ↔ k.byte ∉ ([0x02, 0x30, 0x31] : List Byte) := by
  cases k <;> decide

namespace Chip

/-! ## Who sent a frame (R147 step 4) -/

theorem find?_finRange {n : Nat} {q : Fin n → Bool} {k : Fin n} (hk : q k = true) (hlow : ∀ j < k, q j = false) :
    (List.finRange n).find? q = some k := by
  refine List.find?_eq_some_iff_getElem.mpr ⟨hk, k.val, by simp, by simp, fun j hj => ?_⟩
  have hjn : j < n := hj.trans k.isLt
  rw [List.getElem_finRange]
  simpa using hlow ⟨j, hjn⟩ hj

/-- The slot holds a peer of this tag. -/
def holdsTag (l : Link) (tag : Word) (p : Fin 8) : Bool := match l.peer[p] with | some x => x.tag == tag | none => false

theorem holdsTag_iff {l : Link} {tag : Word} {p : Fin 8} :
    holdsTag l tag p = true ↔ ∃ x, l.peer[p] = some x ∧ x.tag = tag := by
  unfold holdsTag
  cases l.peer[p] <;> simp

theorem findPeer_eq (tag : Word) (c : Chip) :
    c.findPeer tag = if tag = 0 then none else (List.finRange 8).find? (holdsTag c.link tag) := rfl

theorem findPeer_stranger {tag : Word} (h : c.stranger tag) : c.findPeer tag = none := by
  rw [findPeer_eq]
  rcases h with rfl | h
  · exact if_pos rfl
  · split_ifs
    · rfl
    · refine List.find?_eq_none.mpr fun p _ hp => ?_
      obtain ⟨x, hx, ht⟩ := holdsTag_iff.mp hp
      exact h p x hx ht

theorem findPeer_joinedAs {tag : Word} (h : c.joinedAs p tag x) : c.findPeer tag = some p := by
  obtain ⟨h0, hx, ht, hlow⟩ := h
  rw [findPeer_eq, if_neg h0]
  refine find?_finRange (holdsTag_iff.mpr ⟨x, hx, ht⟩) fun q hq => Bool.eq_false_iff.mpr fun hh => ?_
  obtain ⟨y, hy, hyt⟩ := holdsTag_iff.mp hh
  exact hlow q hq y hy hyt

/-! ## The judgement, case by case (R147) -/

theorem good_iff (f : RxFrame) : f.good = true ↔ f.crcOk := beq_iff_eq

/-- The chip whose finished frame is taken for its judgement. -/
def taking (c : Chip) : Chip := c.modLink (fun l => { l with finishing := none })

theorem anyFinishing_iff (l : Link) : l.buf.toList.any (fun b => b.store == some .finishing) = true
    ↔ ∃ b : Fin 2, l.buf[b].store = some .finishing := by
  simp only [List.any_eq_true, beq_iff_eq, Vector.mem_toList_iff, Vector.mem_iff_getElem]
  constructor
  · rintro ⟨x, ⟨i, hi, rfl⟩, hx⟩
    exact ⟨⟨i, hi⟩, hx⟩
  · rintro ⟨b, hb⟩
    exact ⟨_, ⟨b.val, b.isLt, rfl⟩, hb⟩

theorem frameJudge_of_judging (h : c.judging f) : c.frameJudge = c.taking.judgeFrame f := by
  obtain ⟨hfin, hstores⟩ := h
  have hready : c.readyFrame = some f := by
    unfold readyFrame
    rw [if_neg fun hany => ?_, hfin]
    obtain ⟨b, hb⟩ := (anyFinishing_iff c.link).mp hany
    exact hstores b hb
  unfold frameJudge
  rw [hready]
  rfl

theorem frameJudge_waits (h : c.link.finishing = none ∨ ∃ b : Fin 2, c.link.buf[b].store = some .finishing) :
    c.frameJudge = c := by
  have hready : c.readyFrame = none := by
    unfold readyFrame
    split_ifs with hany
    · rfl
    · exact h.resolve_right fun hb => hany ((anyFinishing_iff c.link).mpr hb)
  unfold frameJudge
  rw [hready]

theorem judgeFrame_badCrc (h : ¬ f.crcOk) : c.judgeFrame f = c.discard .badCrc .finishing f := by
  have hbad : f.good = false := Bool.eq_false_iff.mpr fun hg => h ((good_iff f).mp hg)
  unfold judgeFrame
  rw [hbad]
  exact if_pos rfl

/-- The chip once a good frame has counted in the storm window of its peer. -/
def stormCounted (peer : Option (Fin 8)) (c : Chip) : Chip := match peer with
  | some p => c.countStorm p
  | none => c

theorem judgeFrame_badKind (h : f.crcOk) (hk : f.kind ∉ tabletKinds) :
    c.judgeFrame f = (stormCounted (c.findPeer f.tag) c).discard .badKind .finishing f := by
  unfold judgeFrame
  rw [(good_iff f).mpr h]
  cases hkind : frameKind f.kind with
  | none => exact if_neg (by decide)
  | some k =>
    have hnot : fromTablet k = false := Bool.eq_false_iff.mpr fun hf =>
      hk (frameKind_eq_some.mp hkind ▸ byte_mem_tabletKinds.mpr hf)
    dsimp only
    rw [hnot]
    exact (if_neg (by decide)).trans (if_pos rfl)

section
variable {k : FrameKind} (h : f.crcOk) (hk : k.byte = f.kind) (ht : fromTablet k = true)
include h hk ht

theorem judgeFrame_stranger (hp : c.findPeer f.tag = none) : c.judgeFrame f
    = if f.tag ≠ 0 ∧ k = .hello then (c.helloUnknown f).returnBlocks f.blocks else c.discard .unknownPeer .finishing f := by
  unfold judgeFrame
  rw [(good_iff f).mpr h, frameKind_eq_some.mpr hk, hp]
  dsimp only
  rw [ht]
  rfl

theorem judgeFrame_joined (hp : c.findPeer f.tag = some p) : c.judgeFrame f
    = if (c.countStorm p).isThrottled p && throttledKind k then (c.countStorm p).discard .throttled .finishing f
      else ((c.countStorm p).hear p).handle k p f := by
  unfold judgeFrame
  rw [(good_iff f).mpr h, frameKind_eq_some.mpr hk, hp]
  dsimp only
  rw [ht]
  rfl

end

end Chip

theorem Relinked.isThrottled (h : Relinked l c d) (hx : l.peer[p] = some x) : d.isThrottled p = x.throttled := by
  have hd : d.link.peer[p] = some x := by rw [h.link]; exact hx
  unfold Chip.isThrottled
  rw [hd]

namespace Chip

theorem taking_relinked (c : Chip) : Relinked { c.link with finishing := none } c c.taking :=
  (Relinked.refl c).modLink fun l => { l with finishing := none }

theorem taking_stormed (hp : c.joinedAs p f.tag x) : Relinked
    (Link.withPeer p (some (x.stormed c.link.settings.rising)) { c.link with finishing := none }) c (c.taking.countStorm p) :=
  c.taking_relinked.countStorm hp.2.1

/-- A finished frame is discarded, its peer's part of the link being l (R148). -/
def LostAtJudgement (k : Fin 12) (f : RxFrame) (l : Link) (c d : Chip) : Prop :=
  d.link = (l.counted k).returned c.linkUp f.blocks ∧ .linkStatus ∈ d.path.pubs ∧ KeptBut [.link, .path] c d

theorem lostAtJudgement (k : Counter) (h : Relinked l c d) (hb : ∀ b : Fin 2, l.buf[b].store ≠ some .finishing) :
    LostAtJudgement k.idx f l c (d.discard k .finishing f) :=
  have hlost := h.discardFinishing k f hb
  ⟨hlost.link, mem_pubs_discard k f d, hlost.kept⟩

/-- Settles O52: the judgement case by case (`judgeFrame_badCrc` and on), the discard by `lostAtJudgement`. -/
theorem frameDiscardedAtJudgement : Obligations.FrameDiscardedAtJudgement := by
  unfold Obligations.FrameDiscardedAtJudgement
  intro s _ l tablet lost
  refine ⟨fun f hj => ?_, fun hw => act_same rfl (frameJudge_waits hw)⟩
  have hstores : ∀ b : Fin 2, l.buf[b].store ≠ some .finishing := hj.2
  have htaken := s.hw.taking_relinked
  refine ⟨fun hcrc => act_answers rfl ?_, fun hcrc hp => ⟨fun hk => act_answers rfl ?_, fun hk hno => act_answers rfl ?_⟩,
    fun p x hcrc hp => ⟨fun hk => act_answers rfl ?_, fun hk hslow hthrottled => act_answers rfl ?_⟩⟩
  · rw [frameJudge_of_judging hj, judgeFrame_badCrc hcrc]
    exact lostAtJudgement .badCrc htaken hstores
  · rw [frameJudge_of_judging hj, judgeFrame_badKind hcrc hk, findPeer_stranger (c := s.hw.taking) hp]
    exact lostAtJudgement .badKind htaken hstores
  · obtain ⟨k, hkf⟩ := tabletKinds_subset hk
    have htablet : fromTablet k = true := byte_mem_tabletKinds.mp (hkf ▸ hk)
    have hno' : ¬ (f.tag ≠ 0 ∧ k = .hello) := fun h => hno.elim h.1 fun hne => hne (by rw [← hkf, h.2]; rfl)
    rw [frameJudge_of_judging hj, judgeFrame_stranger hcrc hkf htablet (findPeer_stranger (c := s.hw.taking) hp), if_neg hno']
    exact lostAtJudgement .unknownPeer htaken hstores
  · rw [frameJudge_of_judging hj, judgeFrame_badKind hcrc hk, findPeer_joinedAs (c := s.hw.taking) hp]
    exact lostAtJudgement .badKind (taking_stormed hp) hstores
  · obtain ⟨k, hkf⟩ := tabletKinds_subset hk
    have htablet : fromTablet k = true := byte_mem_tabletKinds.mp (hkf ▸ hk)
    have hstormed := taking_stormed hp
    have hdrop : ((s.hw.taking.countStorm p).isThrottled p && throttledKind k) = true := by
      rw [hstormed.isThrottled (Link.withPeer_same ..), throttledKind_iff.mpr (hkf ▸ hslow)]
      simpa using hthrottled
    rw [frameJudge_of_judging hj, judgeFrame_joined hcrc hkf htablet (findPeer_joinedAs (c := s.hw.taking) hp), if_pos hdrop]
    exact lostAtJudgement .throttled hstormed hstores

end Chip
end Sys2Proof.Machine
end

section
namespace Sys2Proof.Machine
variable {l : Link} {c d e : Chip} {f : RxFrame} {p : Fin 8} {x : Peer}

/-! ## Replies, and peers that are heard -/

namespace Relinked

/-- A reply queued behind fewer than eight (R170). -/
theorem queueReply {tag : Word} {seq : Byte} {kind : FrameKind} {code : Code} {data : List Byte} (h : Relinked l c d)
    (hroom : l.replies.length < 8) :
    Relinked (l.replied tag ([seq, kind.byte, code.byte] ++ data)) c (d.queueReply tag seq kind code data) := by
  have hfull : ¬ Config.replyQueueSize ≤ d.link.replies.length := by
    rw [h.link]
    exact Nat.not_le.mpr hroom
  rw [Chip.queueReply, if_neg hfull]
  exact h.modLink (Link.replied tag ([seq, kind.byte, code.byte] ++ data))

/-- A reply behind eight is dropped and counted (R170). -/
theorem queueReply_drops {tag : Word} {seq : Byte} {kind : FrameKind} {code : Code} {data : List Byte} (h : Relinked l c d)
    (hfull : ¬ l.replies.length < 8) : Relinked (l.counted 10) c (d.queueReply tag seq kind code data) := by
  have hfull' : Config.replyQueueSize ≤ d.link.replies.length := by
    rw [h.link]
    exact Nat.not_lt.mp hfull
  rw [Chip.queueReply, if_pos hfull']
  exact h.count .replyDrops

/-- A peer's role changes (R153). -/
theorem setRole (b : Bool) (h : Relinked l c d) (hx : l.peer[p] = some x) :
    Relinked (l.withPeer p (some { x with driver := b })) c (d.setRole p b) :=
  ((h.mapPeer (p := p) (fun y => { y with driver := b }) hx).publish (.peerImage p)).publish .linkStatus

theorem isDriver (h : Relinked l c d) (hx : l.peer[p] = some x) : d.isDriver p = x.driver := by
  have hd : d.link.peer[p] = some x := by rw [h.link]; exact hx
  unfold Chip.isDriver
  rw [hd]

end Relinked

/-- The driver count does not move with a peer that keeps its role. -/
theorem Link.driverCount_withPeer {y : Peer} (hx : l.peer[p] = some x) (hy : y.driver = x.driver) :
    (l.withPeer p (some y)).driverCount = l.driverCount := by
  have hsum := sum_set l.peer p (some y) driverOne
  have hone : driverOne (some y) = driverOne (some x) := congrArg Bool.toNat hy
  rw [hx, hone] at hsum
  rw [Link.driverCount_eq, Link.driverCount_eq]
  exact Nat.add_right_cancel hsum

namespace Chip

/-! ### A peer's claims end -/

/-- What `releasePeerClaims_of_unwatched` says, for every reason that raises no cause. -/
theorem releasePeerClaims_eq (p : Fin 8) {z : Code} (hz : raisesClaim z = false) (h : d.unwatched = true) :
    releasePeerClaims p z d = if d.on .motor then releaseClaimsOf (.link p) z d else d := by
  unfold releasePeerClaims releaseClaimsOf
  refine if_congr Iff.rfl ?_ rfl
  suffices ∀ xs : List (Fin 4), ∀ e, Unseen linkParts d e →
      forEach xs (fun m c => if c.motor.ch[m].owner = .link p then (c.releaseClaim m z).handChange else c) e
        = forEach xs (fun m c => if c.motor.ch[m].owner = .link p then c.releaseClaim m z else c) e from
    this _ d (Unseen.refl h)
  intro xs
  induction xs with
  | nil => exact fun _ _ => rfl
  | cons m xs ih =>
    intro e he
    rw [forEach_cons, forEach_cons]
    split_ifs with ho
    · have hm := he.releaseClaim m hz
      rw [hm.hand]
      exact ih _ hm
    · exact ih e he

theorem unseen_releasePeerClaims (p : Fin 8) {z : Code} (hz : raisesClaim z = false) (h : d.unwatched = true) :
    Unseen linkParts d (releasePeerClaims p z d) := by
  rw [releasePeerClaims_eq p hz h]
  split_ifs
  · exact (Unseen.refl h).forEach fun m _ he => by
      split_ifs
      · exact he.releaseClaim m hz
      · exact he
  · exact Unseen.refl h

theorem releasePeerClaims_keepsLink (p : Fin 8) {z : Code} (hz : raisesClaim z = false) (h : d.unwatched = true) :
    (releasePeerClaims p z d).link = d.link := by
  rw [releasePeerClaims_eq p hz h]
  split_ifs <;> simp

/-- The motors that a peer owns come free, and no other motor moves. -/
theorem releasePeerClaims_channel (p : Fin 8) {z : Code} (hz : raisesClaim z = false) (h : d.unwatched = true) (m : Fin 4) :
    (releasePeerClaims p z d).motor.ch[m] = if d.on .motor = true ∧ d.motor.ch[m].owner = .link p
      then freed d.control.ms d.motor.ch[m] else d.motor.ch[m] := by
  rw [releasePeerClaims_eq p hz h]
  cases d.on .motor with
  | false => simp
  | true =>
    rw [if_pos rfl, releaseClaimsOf_channel (by simp)]
    exact if_congr (by simp) rfl rfl

/-! ### A frame that is handled (R147 step 6) -/

theorem unwatched_taking (h : c.unwatched = true) : c.taking.unwatched = true := c.taking_relinked.unwatched h

/-- The chip once a finished frame of the peer in slot p has been taken, counted and accepted. -/
def accepting (p : Fin 8) (c : Chip) : Chip := (c.taking.countStorm p).hear p

theorem accepting_relinked (hp : c.joinedAs p f.tag x) : Relinked (Link.withPeer p
    (some ((x.stormed c.link.settings.rising).heard c.control.ms)) { c.link with finishing := none }) c (c.accepting p) := by
  have hheard := (taking_stormed hp).hear (Link.withPeer_same ..)
  rwa [Link.withPeer_withPeer] at hheard

section
variable {k : FrameKind} (hj : c.judging f) (hcrc : f.crcOk) (hk : k.byte = f.kind) (ht : fromTablet k = true)
include hj hcrc hk ht

theorem frameJudge_handles (hp : c.joinedAs p f.tag x)
    (hok : throttledKind k = false ∨ (x.stormed c.link.settings.rising).throttled = false) :
    c.frameJudge = (c.accepting p).handle k p f := by
  have hpass : ¬ ((c.taking.countStorm p).isThrottled p && throttledKind k) = true := by
    rw [(taking_stormed hp).isThrottled (Link.withPeer_same ..), Bool.and_eq_true]
    rintro ⟨hslow, hkind⟩
    rcases hok with hok | hok
    · exact Bool.false_ne_true (hok.symm.trans hkind)
    · exact Bool.false_ne_true (hok.symm.trans hslow)
  rw [frameJudge_of_judging hj, judgeFrame_joined hcrc hk ht (findPeer_joinedAs (c := c.taking) hp), if_neg hpass]
  rfl

end

/-! ### HELLO (R152, R153) -/

theorem helloOk_iff (f : RxFrame) :
    helloOk f = true ↔ 1 ≤ f.length ∧ f.length ≤ 16 ∧ (Bytes.get f.first 0).toNat ≤ 1 := by
  rw [helloOk, Bool.and_eq_true, within_iff, bit?_iff, and_assoc]

theorem asksDriver_eq (f : RxFrame) : asksDriver f = ((Bytes.get f.first 0).toNat == 1) :=
  Bool.eq_iff_iff.mpr (by
    rw [asksDriver, beq_iff_eq, beq_iff_eq]
    exact BitVec.toNat_inj.symm)

theorem asksDriver_of_one (h : (Bytes.get f.first 0).toNat = 1) : asksDriver f = true := by rw [asksDriver_eq, h]; rfl
theorem asksDriver_of_zero (h : (Bytes.get f.first 0).toNat = 0) : asksDriver f = false := by rw [asksDriver_eq, h]; rfl

theorem ofBool_asksDriver (h : (Bytes.get f.first 0).toNat ≤ 1) :
    Bytes.ofBool (asksDriver f) = BitVec.ofNat 8 (Bytes.get f.first 0).toNat := by
  rw [asksDriver_eq]
  obtain h0 | h1 := Nat.le_one_iff_eq_zero_or_eq_one.mp h
  · rw [h0]
    rfl
  · rw [h1]
    rfl

theorem emptySlot_eq (hp : c.link.peer[p] = none) (hlow : ∀ q < p, c.link.peer[q] ≠ none) : c.emptySlot = some p :=
  find?_finRange (q := fun p : Fin 8 => c.link.peer[p].isNone) (Option.isNone_iff_eq_none.mpr hp) fun q hq =>
    Bool.eq_false_iff.mpr fun hn => hlow q hq (Option.isNone_iff_eq_none.mp hn)

theorem emptySlot_none (h : ∀ p : Fin 8, c.link.peer[p] ≠ none) : c.emptySlot = none :=
  List.find?_eq_none.mpr fun p _ hn => h p (Option.isNone_iff_eq_none.mp hn)

/-- A HELLO's reply to its tag. -/
def helloReply (f : RxFrame) (code : Code) (data : List Byte) (c : Chip) : Chip := c.queueReply f.tag f.seq .hello code data

section
variable (hok : helloOk f = true)

theorem helloUnknown_bad (h : helloOk f = false) : c.helloUnknown f = c.helloReply f .badArg [] := by
  unfold helloUnknown
  rw [h]
  rfl

theorem helloJoined_bad (h : helloOk f = false) : c.helloJoined p f = c.helloReply f .badArg [] := by
  unfold helloJoined
  rw [h]
  rfl

include hok

theorem helloUnknown_locked (h : c.link.settings.lock = true) :
    c.helloUnknown f = (c.count .locked).helloReply f .locked [] := by
  unfold helloUnknown
  rw [hok, h]
  rfl

theorem helloUnknown_full (h : c.link.settings.lock = false) (hn : c.emptySlot = none) :
    c.helloUnknown f = c.helloReply f .full [] := by
  unfold helloUnknown
  rw [hok, h, hn]
  rfl

theorem helloUnknown_slot (h : c.link.settings.lock = false) (hp : c.emptySlot = some p) : c.helloUnknown f
    = if asksDriver f && decide (c.link.settings.driverLimit ≤ c.link.driverCount) then c.helloReply f .driverFull []
      else (c.join p f.tag (asksDriver f)).helloReply f .ok [Bytes.ofNat p.val] := by
  unfold helloUnknown
  rw [hok, h, hp]
  rfl

theorem helloJoined_same (h : asksDriver f = c.isDriver p) : c.helloJoined p f = c.helloReply f .ok [Bytes.ofNat p.val] := by
  unfold helloJoined
  rw [hok, h]
  cases c.isDriver p <;> rfl

theorem helloJoined_promoted (ha : asksDriver f = true) (hd : c.isDriver p = false) : c.helloJoined p f
    = if c.link.driverCount < c.link.settings.driverLimit then (c.setRole p true).helloReply f .ok [Bytes.ofNat p.val]
      else c.helloReply f .driverFull [] := by
  unfold helloJoined
  rw [hok, ha, hd]
  rfl

theorem helloJoined_demoted (ha : asksDriver f = false) (hd : c.isDriver p = true) : c.helloJoined p f
    = ((c.setRole p false).releasePeerClaims p .notDriver).helloReply f .ok [Bytes.ofNat p.val] := by
  unfold helloJoined
  rw [hok, ha, hd]
  rfl

end

end Chip

theorem Relinked.of_link (h : c.link = l) : Relinked l c c := h ▸ .refl c

theorem Chip.linkUp_of_kept {ps : List Part} (h : KeptBut ps c d) (hpins : .pins ∉ ps := by simp)
    (hcontrol : .control ∉ ps := by simp) : d.linkUp = c.linkUp :=
  Chip.linkUp_eq (congrArg Pins.linkReady (h .pins hpins)) (congrArg Control.block (h .control hcontrol))

/-- The reply to a HELLO is queued and the frame's blocks return. -/
theorem Relinked.helloAnswered (h : Relinked l c d) (hroom : l.replies.length < 8) (code : Code) (data : List Byte) :
    Relinked ((l.replied f.tag ([f.seq, 0x01, code.byte] ++ data)).returned c.linkUp f.blocks) c
      ((d.helloReply f code data).returnBlocks f.blocks) :=
  Relinked.returnBlocks f.blocks
    (h.queueReply (tag := f.tag) (seq := f.seq) (kind := .hello) (code := code) (data := data) hroom)

namespace Chip

/-- The peer that a HELLO makes (R152 step 5). -/
def joinedPeer (tag : Word) (driver : Bool) (now : Word) : Peer :=
  { tag := tag, driver := driver, lastHeard := now, silence := 0, window := 0, throttled := false, held := none, accepted := 1 }

/-- A peer joins: its slot, its event, the PEER cause, its records (R152 step 5). -/
structure Joined (p : Fin 8) (x : Peer) (c d : Chip) : Prop where
  link : d.link = c.link.withPeer p (some x)
  ring : d.ring = (c.append .peerJoin (BitVec.ofNat 8 p.val) (Bytes.ofBool x.driver)).ring
  pending : d.attention.pending[Cause.peer.idx] = true
  image : .peerImage p ∈ d.path.pubs
  status : .linkStatus ∈ d.path.pubs
  kept : KeptBut [.link, .ring, .attention, .path] c d

theorem joined_join (p : Fin 8) (tag : Word) (driver : Bool) (hu : c.unwatched = true) :
    Joined p (joinedPeer tag driver c.control.ms) c (c.join p tag driver) := by
  have hslot : Relinked (c.link.withPeer p (some (joinedPeer tag driver c.control.ms))) c
      (publish .linkStatus (publish (.peerImage p) (c.modLink (Link.withPeer p (some (joinedPeer tag driver c.control.ms)))))) :=
    (((Relinked.refl c).modLink (Link.withPeer p (some (joinedPeer tag driver c.control.ms)))).publish _).publish _
  have himage : RecId.peerImage p ∈ (publish .linkStatus (publish (.peerImage p)
      (c.modLink (Link.withPeer p (some (joinedPeer tag driver c.control.ms)))))).path.pubs :=
    (mem_pubs_publish _ _ _).mpr (.inr ((mem_pubs_publish _ _ _).mpr (.inl rfl)))
  have hstatus : RecId.linkStatus ∈ (publish .linkStatus (publish (.peerImage p)
      (c.modLink (Link.withPeer p (some (joinedPeer tag driver c.control.ms)))))).path.pubs :=
    (mem_pubs_publish _ _ _).mpr (.inl rfl)
  have hjoin : c.join p tag driver = (raiseCause .peer (append .peerJoin (Bytes.ofNat p.val) (Bytes.ofBool driver)
      (publish .linkStatus (publish (.peerImage p)
        (c.modLink (Link.withPeer p (some (joinedPeer tag driver c.control.ms)))))))).handChange := rfl
  rw [hjoin]
  generalize publish .linkStatus _ = e at hslot himage hstatus ⊢
  have hkept : KeptBut [.link, .ring, .attention, .path] c
      (raiseCause .peer (append .peerJoin (Bytes.ofNat p.val) (Bytes.ofBool driver) e)) :=
    ((hslot.kept.mono (by simp)).trans ((keptBut_append _ _ _ e).mono (by simp))).trans
      ((keptBut_raiseCause .peer _).mono (by simp))
  rw [handChange_of_unwatched _ (unwatched_of_kept hu hkept (by simp) (by simp))]
  refine ⟨?_, ?_, raiseCause_pending .peer _, ?_, ?_, hkept⟩
  · simpa using hslot.link
  · have hring := append_ring_congr .peerJoin (Bytes.ofNat p.val) (Bytes.ofBool driver) e c (hslot.kept .ring (by simp)) hslot.ms
    exact Eq.trans (by simp) hring
  · exact (lasting_pubs _).raiseCause .peer ((lasting_pubs _).append _ _ _ himage)
  · exact (lasting_pubs _).raiseCause .peer ((lasting_pubs _).append _ _ _ hstatus)

section
variable (hj : c.judging f) (hcrc : f.crcOk) (hk : FrameKind.hello.byte = f.kind)
include hj hcrc hk

theorem frameJudge_helloUnknown (ht : f.tag ≠ 0) (hp : c.stranger f.tag) :
    c.frameJudge = (c.taking.helloUnknown f).returnBlocks f.blocks := by
  rw [frameJudge_of_judging hj, judgeFrame_stranger hcrc hk rfl (findPeer_stranger (c := c.taking) hp), if_pos ⟨ht, rfl⟩]

theorem frameJudge_helloJoined (hp : c.joinedAs p f.tag x) (hok : (x.stormed c.link.settings.rising).throttled = false) :
    c.frameJudge = ((c.accepting p).helloJoined p f).returnBlocks f.blocks :=
  frameJudge_handles hj hcrc hk rfl hp (.inr hok)

end

theorem mem_pubs_setRole (p : Fin 8) (b : Bool) (c : Chip) :
    RecId.peerImage p ∈ (c.setRole p b).path.pubs ∧ RecId.linkStatus ∈ (c.setRole p b).path.pubs :=
  ⟨(mem_pubs_publish _ _ _).mpr (.inr ((mem_pubs_publish _ _ _).mpr (.inl rfl))), (mem_pubs_publish _ _ _).mpr (.inl rfl)⟩

/-- Settles O53: HELLO case by case (`helloUnknown_bad` and on), the join by `joined_join`, the claims of a former driver by
`releasePeerClaims_channel`. -/
theorem helloJudged : Obligations.HelloJudged := by
  unfold Obligations.HelloJudged
  intro s f _ hu hroom hj hcrc hkind htag l up role fits answered only kept
  have hk : FrameKind.hello.byte = f.kind := hkind.symm
  have htaken := s.hw.taking_relinked
  have hbad (hf : ¬ fits) : helloOk f = false := Bool.eq_false_iff.mpr fun h => hf ((helloOk_iff f).mp h)
  refine ⟨fun hp => ?_, fun p x hp hquiet => ?_⟩
  · have hunknown := frameJudge_helloUnknown hj hcrc hk htag hp
    refine ⟨fun hf => act_answers rfl ?_, fun hf hlock => act_answers rfl ?_, fun hf hlock hfull => act_answers rfl ?_,
      fun p hf hlock hempty hlow => ⟨fun hone hlimit => act_answers rfl ?_, fun hlimit => act_answers rfl ?_⟩⟩
    · rw [hunknown, helloUnknown_bad (hbad hf)]
      have h := htaken.helloAnswered (f := f) hroom .badArg []
      exact ⟨h.link, h.kept⟩
    · rw [hunknown, helloUnknown_locked ((helloOk_iff f).mpr hf) (c := s.hw.taking) hlock]
      have h := (htaken.count .locked).helloAnswered (f := f) hroom .locked []
      exact ⟨h.link, h.kept⟩
    · rw [hunknown, helloUnknown_full ((helloOk_iff f).mpr hf) (c := s.hw.taking) hlock (emptySlot_none (c := s.hw.taking) hfull)]
      have h := htaken.helloAnswered (f := f) hroom .full []
      exact ⟨h.link, h.kept⟩
    · have hrefused : (asksDriver f && decide (s.hw.taking.link.settings.driverLimit ≤ s.hw.taking.link.driverCount)) = true := by
        rw [asksDriver_of_one hone]
        exact decide_eq_true hlimit
      rw [hunknown, helloUnknown_slot ((helloOk_iff f).mpr hf) (c := s.hw.taking) hlock
        (emptySlot_eq (c := s.hw.taking) hempty hlow), if_pos hrefused]
      have h := htaken.helloAnswered (f := f) hroom .driverFull []
      exact ⟨h.link, h.kept⟩
    · have hjoins : ¬ (asksDriver f && decide (s.hw.taking.link.settings.driverLimit ≤ s.hw.taking.link.driverCount)) = true := by
        rw [Bool.and_eq_true, asksDriver_eq, beq_iff_eq, decide_eq_true_iff]
        exact fun h => Nat.not_le.mpr (hlimit h.1) h.2
      rw [hunknown, helloUnknown_slot ((helloOk_iff f).mpr hf) (c := s.hw.taking) hlock
        (emptySlot_eq (c := s.hw.taking) hempty hlow), if_neg hjoins]
      have hjoined := joined_join p f.tag (asksDriver f) (unwatched_taking hu)
      have hup := (linkUp_of_kept hjoined.kept).trans htaken.up
      generalize s.hw.taking.join p f.tag (asksDriver f) = g at hjoined hup ⊢
      have h := (Relinked.of_link hjoined.link).helloAnswered (f := f) hroom .ok [Bytes.ofNat p.val]
      rw [hup] at h
      refine ⟨h.link.trans ?_, ?_, ?_, h.pubs _ hjoined.image, h.pubs _ hjoined.status,
        ((htaken.kept.mono (by simp)).trans hjoined.kept).trans (h.kept.mono (by simp))⟩
      · rw [asksDriver_eq]
        rfl
      · have hrole : BitVec.ofNat 8 role = Bytes.ofBool (asksDriver f) := (ofBool_asksDriver hf.2.2).symm
        rw [h.kept .ring (by simp), hjoined.ring, hrole]
        exact append_ring_congr _ _ _ _ _ rfl rfl
      · rw [h.kept .attention (by simp)]
        exact hjoined.pending
  · have hjoined := frameJudge_helloJoined hj hcrc hk hp hquiet
    have haccepted := accepting_relinked hp
    have hpeer := Link.withPeer_same p (some ((x.stormed l.settings.rising).heard s.hw.control.ms)) l
    have hdriver : (s.hw.accepting p).isDriver p = x.driver := by
      rw [haccepted.isDriver hpeer]
      rfl
    have hcounted : (s.hw.accepting p).link.driverCount = l.driverCount := by
      rw [haccepted.link]
      exact Link.driverCount_withPeer (l := l) hp.2.1 rfl
    have hsettings : (s.hw.accepting p).link.settings = l.settings := by
      rw [haccepted.link]
      rfl
    refine ⟨fun hf => act_answers rfl ?_, fun hf hsame => act_answers rfl ?_, fun hf hone hwatcher hlimit => act_answers rfl ?_,
      fun hf hone hwatcher hlimit => act_answers rfl ?_, fun hf hzero hd => act_answers rfl ?_⟩
    · rw [hjoined, helloJoined_bad (hbad hf)]
      have h := haccepted.helloAnswered (f := f) hroom .badArg []
      exact ⟨h.link, h.kept⟩
    · have hask : asksDriver f = (s.hw.accepting p).isDriver p := by
        rw [hdriver, asksDriver_eq, Bool.eq_iff_iff, beq_iff_eq]
        exact hsame
      rw [hjoined, helloJoined_same ((helloOk_iff f).mpr hf) hask]
      have h := haccepted.helloAnswered (f := f) hroom .ok [Bytes.ofNat p.val]
      exact ⟨h.link, h.kept⟩
    · have hcount : (s.hw.accepting p).link.driverCount < (s.hw.accepting p).link.settings.driverLimit := by
        rw [hcounted, hsettings]
        exact hlimit
      rw [hjoined, helloJoined_promoted ((helloOk_iff f).mpr hf) (asksDriver_of_one hone) (hdriver.trans hwatcher), if_pos hcount]
      have hset := haccepted.setRole true hpeer
      rw [Link.withPeer_withPeer] at hset
      have h := hset.helloAnswered (f := f) hroom .ok [Bytes.ofNat p.val]
      exact ⟨h.link, h.kept⟩
    · have hcount : ¬ (s.hw.accepting p).link.driverCount < (s.hw.accepting p).link.settings.driverLimit := by
        rw [hcounted, hsettings]
        exact Nat.not_lt.mpr hlimit
      rw [hjoined, helloJoined_promoted ((helloOk_iff f).mpr hf) (asksDriver_of_one hone) (hdriver.trans hwatcher), if_neg hcount]
      have h := haccepted.helloAnswered (f := f) hroom .driverFull []
      exact ⟨h.link, h.kept⟩
    · rw [hjoined, helloJoined_demoted ((helloOk_iff f).mpr hf) (asksDriver_of_zero hzero) (hdriver.trans hd)]
      have hset := haccepted.setRole false hpeer
      rw [Link.withPeer_withPeer] at hset
      have hpubs := mem_pubs_setRole p false (s.hw.accepting p)
      generalize (s.hw.accepting p).setRole p false = e at hset hpubs ⊢
      have hu' := hset.unwatched hu
      have hclaims := unseen_releasePeerClaims p (z := .notDriver) rfl hu'
      have hchannel := releasePeerClaims_channel p (z := .notDriver) rfl hu'
      have hlink := (releasePeerClaims_keepsLink p (z := .notDriver) rfl hu').trans hset.link
      generalize e.releasePeerClaims p .notDriver = g at hclaims hchannel hlink ⊢
      have h := (Relinked.of_link hlink).helloAnswered (f := f) hroom .ok [Bytes.ofNat p.val]
      rw [(linkUp_of_kept hclaims.kept).trans hset.up] at h
      have hmotor : e.motor = s.hw.motor := hset.kept .motor (by simp)
      have hon : e.on .motor = s.hw.on .motor := on_eq (congrArg Control.block hset.control) .motor
      rw [hmotor, hon] at hchannel
      refine ⟨h.link, fun hm m ho => ?_, fun m ho => ?_, h.pubs _ (hclaims.pubs _ hpubs.1), h.pubs _ (hclaims.pubs _ hpubs.2),
        ((hset.kept.mono (by simp)).trans hclaims.kept).trans (h.kept.mono (by simp))⟩
      · obtain ⟨howner, -, hmode, -⟩ := freed_spec e.control.ms s.hw.motor.ch[m]
        rw [h.kept .motor (by simp), hchannel, if_pos ⟨hm, ho⟩]
        exact ⟨howner, hmode⟩
      · rw [h.kept .motor (by simp), hchannel, if_neg fun hh => ho hh.2]

end Chip
end Sys2Proof.Machine
end

section
namespace Sys2Proof.Machine
variable {l : Link} {c d e : Chip} {p q : Fin 8} {x y : Peer} {z : Code}

namespace Link

/-! ## A peer is removed (R155) -/

/-- The subscription of a peer slot, if it has one: the lowest (section 10.2). -/
def subOf (p : Fin 8) (l : Link) : Option (Fin 4) :=
  (List.finRange 4).find? fun k => match l.sub[k] with | some x => x.slot == p | none => false

/-- The subscriptions once that of a peer slot has ended (R165). -/
def subWithout (p : Fin 8) (l : Link) : Vector (Option Subscription) 4 := match l.subOf p with
  | some k => l.sub.set k none
  | none => l.sub

/-- The link once the peer of a slot and tag has been removed. -/
def without (p : Fin 8) (tag : Word) (l : Link) : Link :=
  { l.withPeer p none with sub := l.subWithout p, replies := l.replies.filter (fun r => r.tag != tag) }

theorem without_withPeer (p : Fin 8) (tag : Word) (x : Option Peer) (l : Link) :
    (l.withPeer p x).without p tag = l.without p tag := by
  unfold without
  rw [withPeer_withPeer]
  rfl

theorem subWithout_other {k : Fin 4} (h : ∀ z, l.sub[k] = some z → z.slot ≠ p) : (l.subWithout p)[k] = l.sub[k] := by
  unfold subWithout
  cases hf : l.subOf p with
  | none => rfl
  | some j =>
    have hj := List.find?_some hf
    have hne : j.val ≠ k.val := by
      rintro hjk
      obtain rfl : j = k := Fin.ext hjk
      cases hs : l.sub[j] with
      | none => simp [hs] at hj
      | some z => exact h z hs (by simpa [hs] using hj)
    simp [hne]

theorem subWithout_sole {k : Fin 4} {z : Subscription} (hz : l.sub[k] = some z) (hp : z.slot = p)
    (hsole : ∀ (j : Fin 4) (w : Subscription), l.sub[j] = some w → w.slot = p → j = k) : (l.subWithout p)[k] = none := by
  unfold subWithout
  cases hf : l.subOf p with
  | none =>
    have hk := List.find?_eq_none.mp hf k (List.mem_finRange k)
    simp [hz, hp] at hk
  | some j =>
    have hj := List.find?_some hf
    cases hs : l.sub[j] with
    | none => simp [hs] at hj
    | some w =>
      obtain rfl := hsole j w hs (by simpa [hs] using hj)
      simp

end Link

namespace Chip

theorem cancelSub_link (p : Fin 8) (c : Chip) : (c.cancelSub p).link = { c.link with sub := c.link.subWithout p } := by
  have hfind : c.findSub p = c.link.subOf p := rfl
  unfold cancelSub Link.subWithout
  rw [hfind]
  cases c.link.subOf p with
  | none => rfl
  | some k => simp [setSub]

/-- Nothing ends with a peer that owns no motor. -/
theorem releasePeerClaims_idle (z : Code) (h : ∀ m : Fin 4, c.motor.ch[m].owner ≠ .link p) : c.releasePeerClaims p z = c := by
  unfold releasePeerClaims
  split_ifs
  · exact forEach_idle fun m _ => if_neg (h m)
  · rfl

/-- The peer of a slot and tag has been removed for a reason (R155): its slot, replies and subscription, its event, its
motors, the PEER cause and the records. -/
structure PeerRemoved (p : Fin 8) (tag : Word) (z : Code) (c d : Chip) : Prop where
  link : d.link = c.link.without p tag
  ring : d.ring = ((c.releasePeerClaims p .peerGone).append .peerLeave (BitVec.ofNat 8 p.val) z.byte).ring
  channel : ∀ m : Fin 4, d.motor.ch[m] = if c.on .motor = true ∧ c.motor.ch[m].owner = .link p
    then freed c.control.ms c.motor.ch[m] else c.motor.ch[m]
  raised : d.attention.pending[Cause.peer.idx] = true
  image : .peerImage p ∈ d.path.pubs
  status : .linkStatus ∈ d.path.pubs
  unseen : Unseen linkParts c d

theorem mem_pubs_slotEmptied (p : Fin 8) (c : Chip) :
    RecId.peerImage p ∈ (slotEmptied p c).path.pubs ∧ RecId.linkStatus ∈ (slotEmptied p c).path.pubs :=
  ⟨(mem_pubs_publish _ _ _).mpr (.inr ((mem_pubs_publish _ _ _).mpr (.inl rfl))), (mem_pubs_publish _ _ _).mpr (.inl rfl)⟩

theorem peerRemoved (z : Code) (hu : c.unwatched = true) (hx : c.link.peer[p] = some x) :
    PeerRemoved p x.tag z c (c.removePeer p z) := by
  have hsome : c.link.peer[p] ≠ none := hx ▸ Option.some_ne_none x
  have hclaims := releasePeerClaims_link p hu
  have hring : RingAlike (c.releasePeerClaims p .peerGone) ((c.releasePeerClaims p .peerGone).cancelSub p) :=
    RingAlike.of_kept ⟨rfl, rfl⟩ (cancelSub_spec p _).2.2 (by simp) (by simp)
  refine ⟨?_, ?_, fun m => ?_, removePeer_raises z hu hsome, ?_, ?_, (Unseen.refl hu).removePeer p z⟩
  · have hsub := cancelSub_link p (c.releasePeerClaims p .peerGone)
    rw [hclaims] at hsub
    rw [removePeer_of_some z hu hx, slotEmptied, peerLeft]
    simp [hsub, Link.without, Link.withPeer]
  · rw [removePeer_of_some z hu hx, slotEmptied, peerLeft]
    refine Eq.trans ?_ (hring.append _ _ _).ring.symm
    simp only [publish_keeps, modLink_keeps, raiseCause_keeps]
    exact append_ring_congr _ _ _ _ _ rfl rfl
  · rw [removePeer_channel p z hu]
    exact if_congr (and_iff_right hsome) rfl rfl
  · rw [removePeer_of_some z hu hx]
    exact (mem_pubs_slotEmptied p _).1
  · rw [removePeer_of_some z hu hx]
    exact (mem_pubs_slotEmptied p _).2

theorem PeerRemoved.motor_freed {tag : Word} {m : Fin 4} (h : PeerRemoved p tag z c d) (hon : c.on .motor = true)
    (ho : c.motor.ch[m].owner = .link p) : d.motor.ch[m].owner = .none ∧ d.motor.ch[m].mode = .coast := by
  obtain ⟨howner, -, hmode, -⟩ := freed_spec c.control.ms c.motor.ch[m]
  rw [h.channel, if_pos ⟨hon, ho⟩]
  exact ⟨howner, hmode⟩

theorem PeerRemoved.motor_kept {tag : Word} {m : Fin 4} (h : PeerRemoved p tag z c d) (ho : c.motor.ch[m].owner ≠ .link p) :
    d.motor.ch[m] = c.motor.ch[m] := by
  rw [h.channel, if_neg fun hh => ho hh.2]

/-- The event of a peer that owned no motor is its departure alone. -/
theorem PeerRemoved.ring_of_idle {tag : Word} (h : PeerRemoved p tag z c d) (hm : ∀ m : Fin 4, c.motor.ch[m].owner ≠ .link p) :
    d.ring = (c.append .peerLeave (BitVec.ofNat 8 p.val) z.byte).ring := by
  rw [h.ring, releasePeerClaims_idle .peerGone hm]

end Chip
end Sys2Proof.Machine
end

section
namespace Sys2Proof.Machine
variable {l : Link} {c d e : Chip} {f : RxFrame} {p : Fin 8} {x : Peer}

/-! ## Holds (R157) -/

namespace Relinked

theorem holdPeer (h : Relinked l c d) (hx : l.peer[p] = some x) : Relinked
    (l.withPeer p (some { x with held := some (c.control.ms + BitVec.ofNat 32 l.settings.holdTimeout) })) c (d.holdPeer p) := by
  have hold : d.holdPeer p = Chip.publish (.peerImage p) (d.modPeer p fun x =>
      { x with held := some (c.control.ms + BitVec.ofNat 32 l.settings.holdTimeout) }) := by
    unfold Chip.holdPeer
    rw [h.link, h.ms]
  rw [hold]
  exact (h.mapPeer (p := p) (fun x => { x with
    held := some (c.control.ms + BitVec.ofNat 32 l.settings.holdTimeout) }) hx).publish (.peerImage p)

theorem endHold (h : Relinked l c d) (hx : l.peer[p] = some x) :
    Relinked (l.withPeer p (some { x with held := none })) c (d.endHold p) := by
  have hd : d.link.peer[p] = some x := by rw [h.link]; exact hx
  unfold Chip.endHold
  rw [hd]
  dsimp only
  split_ifs with hheld
  · exact (h.mapPeer (p := p) (fun x => { x with held := none }) hx).publish (.peerImage p)
  · have hsame : ({ x with held := none } : Peer) = x := by
      cases x
      simp_all
    rw [hsame, Link.withPeer_self hx]
    exact h

/-! ## Mail (R167) -/

theorem keptBut_markStale (r : RecId) (c : Chip) : KeptBut [.path] c (Chip.markStale r c) := fun q hq => by
  cases q <;> simp at hq <;> simp [Part.same]

theorem markStale (r : RecId) (h : Relinked l c d) : Relinked l c (Chip.markStale r d) :=
  h.trans ⟨by simpa using h.link, (keptBut_markStale r d).mono (by simp), fun q hq => by simpa using hq⟩

end Relinked

/-- The link after a reply to a MAIL: queued, or dropped and counted behind eight (R170). -/
def Link.mailAnswered (tag : Word) (payload : List Byte) (m l : Link) : Link :=
  if m.replies.length < 8 then l.replied tag payload else l.counted 10

theorem Relinked.queueReply_either {tag : Word} {seq : Byte} {kind : FrameKind} {code : Code} {m : Link} (h : Relinked l c d)
    (hm : m.replies = l.replies) :
    Relinked (m.mailAnswered tag [seq, kind.byte, code.byte] l) c (d.queueReply tag seq kind code []) := by
  unfold Link.mailAnswered
  rw [hm]
  split_ifs with hroom
  · exact h.queueReply hroom
  · exact h.queueReply_drops hroom

namespace Chip

theorem raiseCause_pendings (k : Cause) (c : Chip) :
    (raiseCause k c).attention.pending = c.attention.pending.set k.idx true := by
  apply Vector.ext
  intro i hi
  have hflag := raiseCause_flags k c ⟨i, hi⟩
  rw [Vector.getElem_set]
  refine hflag.trans (if_congr ?_ rfl rfl)
  rw [Fin.ext_iff]
  exact eq_comm

theorem emptyDesc_eq {k : Fin 16} (hk : c.link.desc[k] = none) (hlow : ∀ j < k, c.link.desc[j] ≠ none) :
    c.emptyDesc = some k :=
  find?_finRange (q := fun k : Fin 16 => c.link.desc[k].isNone) (Option.isNone_iff_eq_none.mpr hk) fun q hq =>
    Bool.eq_false_iff.mpr fun hn => hlow q hq (Option.isNone_iff_eq_none.mp hn)

theorem emptyDesc_none (h : ∀ k : Fin 16, c.link.desc[k] ≠ none) : c.emptyDesc = none :=
  List.find?_eq_none.mpr fun k _ hn => h k (Option.isNone_iff_eq_none.mp hn)

/-- The descriptor of a message that has arrived (R167). -/
def arrived (p : Fin 8) (f : RxFrame) (now : Word) : Descriptor :=
  { slot := p, tag := f.tag, seq := f.seq, length := BitVec.ofNat 16 f.length, time := now, blocks := f.blocks, shown := false }

theorem mail_full (h : ∀ k : Fin 16, c.link.desc[k] ≠ none) :
    c.mail p f = ((c.count .queueFull).returnBlocks f.blocks, .queueFull) := by
  unfold mail
  rw [emptyDesc_none h]

/-- The chip once an arrived message is in descriptor k (R167). -/
def mailKept (p : Fin 8) (f : RxFrame) (k : Fin 16) (c : Chip) : Chip :=
  markStale (.inboundDesc k) (publish (.inboundDesc k) (c.modLink fun l =>
    { l with desc := l.desc.set k (some (arrived p f c.control.ms)), order := l.order ++ [k] }))

/-- The chip once an arrived message has raised MAIL, where the order was empty before it (R167). -/
def mailRaised (first : Bool) (c : Chip) : Chip := if first then c.raiseCause .mail else c

theorem mailRaised_spec (first : Bool) (c : Chip) : KeptBut [.attention, .path] c (c.mailRaised first)
    ∧ (c.mailRaised first).attention.pending
      = (if first then c.attention.pending.set Cause.mail.idx true else c.attention.pending)
    ∧ ∀ r ∈ c.path.pubs, r ∈ (c.mailRaised first).path.pubs := by
  unfold mailRaised
  cases first with
  | true => exact ⟨keptBut_raiseCause .mail c, raiseCause_pendings .mail c, fun r => (lasting_pubs r).raiseCause .mail⟩
  | false => exact ⟨.refl _ c, rfl, fun _ => id⟩

theorem mail_kept {k : Fin 16} (hk : c.emptyDesc = some k) :
    c.mail p f = ((c.mailKept p f k).mailRaised c.link.order.isEmpty, .ok) := by
  unfold mail
  rw [hk]
  rfl

theorem mailKept_relinked (k : Fin 16) (h : Relinked l c d) : Relinked { l with
      desc := l.desc.set k (some (arrived p f c.control.ms)), order := l.order ++ [k] } c (d.mailKept p f k) := by
  rw [← h.ms]
  exact ((h.modLink fun l => { l with
    desc := l.desc.set k (some (arrived p f d.control.ms)), order := l.order ++ [k] }).publish _).markStale _

theorem mem_pubs_mailKept (k : Fin 16) (c : Chip) : RecId.inboundDesc k ∈ (c.mailKept p f k).path.pubs := by
  unfold mailKept
  rw [(markStale_keeps _ _).2.2.2.2.2.2.1]
  exact (mem_pubs_publish _ _ _).mpr (.inl rfl)

/-- Hearing a peer puts its image on the publication list (R154). -/
theorem mem_pubs_accepting (p : Fin 8) (c : Chip) : RecId.peerImage p ∈ (c.accepting p).path.pubs :=
  (mem_pubs_publish _ _ _).mpr (.inl rfl)

/-- Settles O54: HOLD and RESUME by `Relinked`, BYE by `peerRemoved`, MAIL by `mail_kept` and `mail_full`. -/
theorem mailAndHoldsJudged : Obligations.MailAndHoldsJudged := by
  unfold Obligations.MailAndHoldsJudged
  intro s f p x _ hu hj hcrc hp l now up y mailed answered
  have haccepted := accepting_relinked hp
  have himage := mem_pubs_accepting p s.hw
  have hpeer := Link.withPeer_same p (some y) l
  generalize hc : s.hw.accepting p = c at haccepted himage
  have hlinked := Relinked.of_link haccepted.link
  refine ⟨fun hkind => act_answers rfl ?_, fun hkind => act_answers rfl ?_, fun hkind => act_answers rfl ?_,
    fun hkind hquiet => ⟨fun k hempty hlow => act_answers rfl ?_, fun hfull => act_answers rfl ?_⟩⟩
  · rw [frameJudge_handles (k := .hold) hj hcrc hkind.symm rfl hp (.inl rfl), hc]
    have h := (hlinked.holdPeer hpeer).returnBlocks f.blocks
    rw [Link.withPeer_withPeer, haccepted.up, haccepted.ms] at h
    exact ⟨h.link, h.pubs _ himage, (haccepted.trans h).kept⟩
  · rw [frameJudge_handles (k := .resume) hj hcrc hkind.symm rfl hp (.inl rfl), hc]
    have h := (hlinked.endHold hpeer).returnBlocks f.blocks
    rw [Link.withPeer_withPeer, haccepted.up] at h
    exact ⟨h.link, h.pubs _ himage, (haccepted.trans h).kept⟩
  · have hbye : s.hw.frameJudge = (c.removePeer p .ended).returnBlocks f.blocks :=
      hc ▸ frameJudge_handles (k := .bye) hj hcrc hkind.symm rfl hp (.inl rfl)
    have hgone := peerRemoved (p := p) (x := y) .ended (haccepted.unwatched hu) (by rw [haccepted.link]; exact hpeer)
    have hup := (linkUp_of_kept hgone.unseen.kept).trans haccepted.up
    have htag : y.tag = f.tag := hp.2.2.1
    have hmotor : c.motor = s.hw.motor := haccepted.kept .motor (by simp)
    have hon : c.on .motor = s.hw.on .motor := on_eq (congrArg Control.block haccepted.control) .motor
    have hring := append_ring_congr .peerLeave (BitVec.ofNat 8 p.val) Code.ended.byte c s.hw (haccepted.kept .ring (by simp))
      haccepted.ms
    have hidle (hm : ∀ m : Fin 4, s.hw.motor.ch[m].owner ≠ .link p) := hgone.ring_of_idle (by rw [hmotor]; exact hm)
    have hfreed {m : Fin 4} := hgone.motor_freed (m := m)
    have hothers {m : Fin 4} := hgone.motor_kept (m := m)
    have hlink := hgone.link
    rw [haccepted.link, Link.without_withPeer, htag] at hlink
    rw [hmotor, hon] at hfreed
    rw [hmotor] at hothers
    have h := (Relinked.of_link hlink).returnBlocks f.blocks
    rw [hup] at h
    rw [hbye]
    generalize returnBlocks f.blocks (c.removePeer p .ended) = d at h
    have hsub : d.link.sub = l.subWithout p := congrArg Link.sub h.link
    refine ⟨?_, fun k z hz hzp hsole => ?_, fun k hk => ?_, fun hm m ho => ?_, fun m ho => ?_,
      fun hm => ((h.kept .ring (by simp)).trans (hidle hm)).trans hring, ?_,
      h.pubs _ hgone.image, h.pubs _ hgone.status,
      ((haccepted.kept.mono (by simp)).trans hgone.unseen.kept).trans (h.kept.mono (by simp))⟩
    · rw [hsub]
      exact h.link
    · rw [hsub]
      exact Link.subWithout_sole hz hzp hsole
    · rw [hsub]
      exact Link.subWithout_other hk
    · rw [h.kept .motor (by simp)]
      exact hfreed hm ho
    · rw [h.kept .motor (by simp)]
      exact hothers ho
    · rw [h.kept .attention (by simp)]
      exact hgone.raised
  · have hwas : c.link.order = l.order := by
      rw [haccepted.link]
      rfl
    have hdesc : c.emptyDesc = some k := emptyDesc_eq (by rw [haccepted.link]; exact hempty) (by rw [haccepted.link]; exact hlow)
    have hmail : s.hw.frameJudge = ((c.mailKept p f k).mailRaised l.order.isEmpty).queueReply f.tag f.seq .mail .ok [] := by
      rw [frameJudge_handles (k := .mail) hj hcrc hkind.symm rfl hp (.inr hquiet), hc, handle, mail_kept hdesc, hwas]
    have hkept := mailKept_relinked (f := f) (p := p) k hlinked
    have hpub := mem_pubs_mailKept (p := p) (f := f) k c
    rw [haccepted.ms] at hkept
    rw [hmail]
    generalize c.mailKept p f k = e at hkept hpub
    obtain ⟨hraised, hpending, hpubs⟩ := mailRaised_spec l.order.isEmpty e
    have h := (Relinked.of_link ((hraised .link (by simp)).trans hkept.link)).queueReply_either (tag := f.tag) (seq := f.seq)
      (kind := .mail) (code := .ok) (m := l) rfl
    refine ⟨h.link, ?_, h.pubs _ (hpubs _ hpub),
      ((haccepted.trans hkept).kept.mono (by simp)).trans ((hraised.mono (by simp)).trans (h.kept.mono (by simp)))⟩
    rw [h.kept .attention (by simp), hpending, (haccepted.trans hkept).kept .attention (by simp)]
    exact if_congr List.isEmpty_iff rfl rfl
  · have hdesc : ∀ k : Fin 16, c.link.desc[k] ≠ none := by
      rw [haccepted.link]
      exact hfull
    have hmail : s.hw.frameJudge
        = ((c.count .queueFull).returnBlocks f.blocks).queueReply f.tag f.seq .mail .queueFull [] := by
      rw [frameJudge_handles (k := .mail) hj hcrc hkind.symm rfl hp (.inr hquiet), hc, handle, mail_full hdesc]
    have hcount := haccepted.count .queueFull
    have h := ((Relinked.of_link hcount.link).returnBlocks f.blocks).queueReply_either (tag := f.tag) (seq := f.seq)
      (kind := .mail) (code := .queueFull) (m := l) rfl
    rw [hcount.up] at h
    rw [hmail]
    exact ⟨h.link, h.pubs _ (mem_pubs_count .queueFull c), (hcount.trans h).kept⟩

end Chip
end Sys2Proof.Machine
end

section
namespace Sys2Proof.Machine
variable {l : Link} {c d : Chip} {p : Fin 8} {k : Fin 4} {x : Peer}

/-! ## The storm window (R156) -/

/-- A peer once a storm window has ended: the throttling ends at or below the falling threshold. -/
def Peer.calmed (falling : Nat) (x : Peer) : Peer :=
  { x with window := 0, throttled := x.throttled && decide (falling < x.window) }

namespace Relinked

theorem stormOf (p : Fin 8) (h : Relinked l c d) :
    Relinked (l.withPeer p (l.peer[p].map (Peer.calmed l.settings.falling))) c (d.stormOf p) := by
  unfold Chip.stormOf
  rw [h.link]
  cases hx : l.peer[p] with
  | none =>
    rw [Option.map_none, Link.withPeer_self hx]
    exact h
  | some x =>
    have hcalm : (x.throttled && !(x.throttled && decide (x.window ≤ l.settings.falling)))
        = (x.throttled && decide (l.settings.falling < x.window)) := by
      have hnot : decide (x.window ≤ l.settings.falling) = !decide (l.settings.falling < x.window) := by
        rw [← decide_not]
        exact decide_eq_decide.mpr Nat.not_lt.symm
      rw [hnot]
      cases x.throttled <;> simp
    have hstep := (h.mapPeer (p := p) (fun y => { y with
        window := 0, throttled := y.throttled && !(x.throttled && decide (x.window ≤ l.settings.falling)) }) hx).publishIf
      (x.throttled && decide (x.window ≤ l.settings.falling)) (.peerImage p)
    rw [hcalm] at hstep
    exact hstep

/-- A link of which the peers alone have moved. -/
theorem peers {v : Vector (Option Peer) 8} {y : Option Peer} (h : Relinked (Link.withPeer p y { l with peer := v }) c d) :
    Relinked { l with peer := d.link.peer } c d :=
  ⟨by rw [h.link]; rfl, h.kept, h.pubs⟩

end Relinked

namespace Chip

theorem stormOf_peer (p : Fin 8) (h : d.link.settings = l.settings) :
    (d.stormOf p).link.peer[p] = d.link.peer[p].map (Peer.calmed l.settings.falling)
    ∧ ∀ q, q ≠ p → (d.stormOf p).link.peer[q] = d.link.peer[q] := by
  have hlink := ((Relinked.refl d).stormOf p).link
  rw [hlink, h]
  exact ⟨Link.withPeer_same .., fun q hq => Link.withPeer_other _ _ hq⟩

theorem stormOf_forEach (c : Chip) :
    Relinked { c.link with peer := c.link.peer.map (Option.map (Peer.calmed c.link.settings.falling)) } c
      (c.forEach (List.finRange 8) stormOf) := by
  have hpeers := forEach_inv (xs := List.finRange 8) (f := stormOf) (fun d => Relinked { c.link with peer := d.link.peer } c d) c
    (Relinked.refl c) fun p _ d hd => (hd.stormOf p).peers
  have heach := forEach_each (f := stormOf) (c := c) (fun (p : Fin 8) d => d.link.peer[p])
    (fun _ x => x.map (Peer.calmed c.link.settings.falling)) (fun d => d.link.settings = c.link.settings)
    (fun p d hd => (congrArg Link.settings ((Relinked.refl d).stormOf p).link).trans hd)
    (fun p d hd => (stormOf_peer p hd).1) (fun q p d hd hq => (stormOf_peer p hd).2 q hq) (List.nodup_finRange 8) rfl
  have hvector : (c.forEach (List.finRange 8) stormOf).link.peer
      = c.link.peer.map (Option.map (Peer.calmed c.link.settings.falling)) := by
    apply Vector.ext
    intro i hi
    have hp := heach ⟨i, hi⟩
    rw [if_pos (List.mem_finRange _)] at hp
    rw [Vector.getElem_map]
    exact hp
  rwa [hvector] at hpeers

/-- The next multiple of a period, where the counter does not wrap (R156). -/
theorem nextMultiple_spec {k : Nat} (hk : 0 < k) {now : Word} (h : now.toNat + k < 2 ^ 32) :
    (nextMultiple k now).toNat % k = 0 ∧ now.toNat < (nextMultiple k now).toNat
    ∧ (nextMultiple k now).toNat ≤ now.toNat + k := by
  have hdiv := Nat.div_add_mod now.toNat k
  have hmod := Nat.mod_lt now.toNat hk
  have hnext : (now.toNat / k + 1) * k = k * (now.toNat / k) + k := by ring
  have hlt : (now.toNat / k + 1) * k < 4294967296 := by omega
  have hvalue : (nextMultiple k now).toNat = (now.toNat / k + 1) * k := by
    unfold nextMultiple
    rw [if_pos hlt, BitVec.toNat_ofNat]
    exact Nat.mod_eq_of_lt hlt
  rw [hvalue]
  exact ⟨Nat.mul_mod_left _ _, by omega, by omega⟩

theorem stormWindow_over (hon : c.on .link = true) (ht : reached c.control.ms c.link.stormEnd = true) : c.stormWindow
    = (c.forEach (List.finRange 8) stormOf).modLink fun l => { l with stormEnd := nextMultiple 50 c.control.ms } :=
  if_pos (by rw [hon, ht]; rfl)

theorem stormWindow_runs (h : ¬ c.on .link = true ∨ reached c.control.ms c.link.stormEnd = false) : c.stormWindow = c :=
  if_neg fun hb => by
    obtain ⟨hon, ht⟩ := Bool.and_eq_true_iff.mp hb
    exact h.elim (fun h => h hon) fun h => Bool.false_ne_true (h.symm.trans ht)

/-! ## Aging (R154) -/

theorem aged_iff (c : Chip) (p : Fin 8) : c.aged p = true
    ↔ ∃ x, c.link.peer[p] = some x ∧ c.link.settings.aging ≠ 0 ∧ 1000 * c.link.settings.aging ≤ x.silence := by
  unfold aged
  cases c.link.peer[p] with
  | none => simp
  | some x => simp

theorem ageOut_aged (hon : c.on .link = true) (h : c.aged p = true) : c.ageOut p = c.removePeer p .expired :=
  if_pos (by rw [hon, h]; rfl)

theorem ageOut_young (h : ¬ c.on .link = true ∨ ¬ c.aged p = true) : c.ageOut p = c :=
  if_neg fun hb => by
    obtain ⟨hon, ha⟩ := Bool.and_eq_true_iff.mp hb
    exact h.elim (fun h => h hon) fun h => h ha

/-! ## Holds and subscriptions (R157, R166) -/

theorem holdOver_reached {t : Word} (hx : c.link.peer[p] = some x) (hheld : x.held = some t) (hon : c.on .link = true)
    (ht : reached c.control.ms t = true) : c.holdOver p = publish (.peerImage p) (c.modPeer p fun x => { x with held := none }) := by
  have hend : c.holdOver p = c.endHold p := by
    unfold holdOver
    rw [hx]
    dsimp only
    rw [hheld, hon]
    exact if_pos ht
  rw [hend, endHold, hx]
  dsimp only
  rw [hheld]
  rfl

theorem holdOver_waits (h : ¬ c.on .link = true ∨ ∀ (x : Peer) (t : Word), c.link.peer[p] = some x → x.held = some t →
    reached c.control.ms t = false) : c.holdOver p = c := by
  unfold holdOver
  cases hx : c.link.peer[p] with
  | none => rfl
  | some x =>
    dsimp only
    cases hheld : x.held with
    | none => rfl
    | some t =>
      refine if_neg fun hb => ?_
      obtain ⟨hon, ht⟩ := Bool.and_eq_true_iff.mp hb
      exact h.elim (fun h => h hon) fun h => Bool.false_ne_true ((h x t hx hheld).symm.trans ht)

theorem subDue_reached {z : Subscription} (hz : c.link.sub[k] = some z) (hon : c.on .link = true) (hdue : z.due = false)
    (ht : reached c.control.ms z.dueTime = true) : c.subDue k
      = c.setSub k (some { z with due := true, lateness := min 1000 (c.control.ms - z.dueTime).toNat }) := by
  unfold subDue
  rw [hz]
  dsimp only
  rw [hon, hdue, ht]
  rfl

theorem subDue_waits (h : ¬ c.on .link = true ∨ ∀ z : Subscription, c.link.sub[k] = some z →
    z.due = true ∨ reached c.control.ms z.dueTime = false) : c.subDue k = c := by
  unfold subDue
  cases hz : c.link.sub[k] with
  | none => rfl
  | some z =>
    refine if_neg fun hb => ?_
    rw [Bool.and_eq_true, Bool.and_eq_true, Bool.not_eq_true'] at hb
    obtain ⟨⟨hon, hdue⟩, ht⟩ := hb
    refine h.elim (fun h => h hon) fun h => (h z hz).elim (fun h => ?_) fun h => ?_
    · exact Bool.false_ne_true (hdue.symm.trans h)
    · exact Bool.false_ne_true (h.symm.trans ht)

/-- Settles O56: aging by `peerRemoved`, the storm window by `stormOf_forEach`, hold and subscription by their cases. -/
theorem peerTimersReached : Obligations.PeerTimersReached := by
  unfold Obligations.PeerTimersReached
  intro s _ hu l now on
  refine ⟨?_, fun hon ht => act_answers rfl ?_, fun h => act_same rfl (stormWindow_runs h),
    fun p x t hx hheld hon ht => act_answers rfl ?_, fun p h => act_same rfl (holdOver_waits h),
    fun k x hx hon hdue ht => act_answers rfl ?_, fun k h => act_same rfl (subDue_waits h)⟩
  · intro p aged
    refine ⟨fun x hx hon haged => act_answers rfl ?_, fun h => act_same rfl (ageOut_young (h.imp_right fun h hold => ?_))⟩
    · rw [ageOut_aged hon ((aged_iff s.hw p).mpr ⟨x, hx, haged⟩)]
      have hgone := peerRemoved .expired hu hx
      have hsub : (s.hw.removePeer p .expired).link.sub = l.subWithout p := congrArg Link.sub hgone.link
      refine ⟨?_, fun k hk => ?_, fun hm _ => hgone.motor_freed hm, fun _ => hgone.motor_kept, hgone.ring_of_idle,
        hgone.raised, hgone.image, hgone.status, hgone.unseen.kept⟩
      · rw [hsub]
        exact hgone.link
      · rw [hsub]
        exact Link.subWithout_other hk
    · obtain ⟨x, hx, haged⟩ := (aged_iff s.hw p).mp hold
      exact h x hx haged
  · have hcalm := stormOf_forEach s.hw
    rw [stormWindow_over hon ht]
    have h := hcalm.modLink fun l => { l with stormEnd := nextMultiple 50 now }
    have hend : ((s.hw.forEach (List.finRange 8) stormOf).modLink
        fun l => { l with stormEnd := nextMultiple 50 now }).link.stormEnd = nextMultiple 50 now := rfl
    refine ⟨?_, fun hroom => ?_, h.kept⟩
    · rw [hend]
      exact h.link
    · rw [hend]
      exact nextMultiple_spec (by omega) hroom
  · rw [holdOver_reached hx hheld hon ht]
    have h := ((Relinked.refl s.hw).mapPeer (p := p) (fun x => { x with held := none }) hx).publish (.peerImage p)
    exact ⟨h.link, publish_path _ _, h.kept⟩
  · rw [subDue_reached hx hon hdue ht]
    exact ⟨rfl, keptBut_link _ s.hw⟩

end Chip
end Sys2Proof.Machine
end

section
namespace Sys2Proof.Machine
variable {l : Link} {c d : Chip} {p : Fin 8} {r : LinkRec} {v : Word}

/-- The content test of the link settings, field by field (Table 9-4). -/
theorem LinkRec.valid_iff (r : LinkRec) : r.valid = true ↔ r.lock.toNat ≤ 1 ∧ r.driverLimit.toNat ≤ 8 ∧ 1 ≤ r.rising.toNat
    ∧ r.falling.toNat < r.rising.toNat ∧ 1 ≤ r.low.toNat ∧ r.low.toNat ≤ 47 ∧ 2 ≤ r.high.toNat ∧ r.high.toNat ≤ 48
    ∧ r.low.toNat < r.high.toNat ∧ 100 ≤ r.holdTimeout.toNat ∧ r.holdTimeout.toNat ≤ 2000 := by
  simp only [LinkRec.valid, Bool.and_eq_true, bit?_iff, within_iff, decide_eq_true_iff, and_assoc]

namespace Chip

/-! ## Latch rows by what their latch keeps -/

/-- A latch row whose latch touches neither memory nor response: the record is stored and the WRITE answered (R6, R7). -/
theorem latchRow_stores {rec : RecId} {bs : List Byte} {take : Chip → Chip} {i : Instr} {s : State} {P : Chip → Prop}
    (hi : exec i s = act (latchRow rec bs take) s) (hready : s.hw.ready = true) (hl : bs.length = rec.size)
    (hrest : ∀ c, Rest c (take c))
    (H : ∀ m sh, (s.hw.written m sh).unwatched = true → (take (s.hw.written m sh)).unwatched = true
      ∧ ∀ d, d = (take (s.hw.written m sh)).timed → d.path.response = some (.done []) → RecordStored rec bs s.hw d → P d) :
    Answers i s P := by
  refine latchRow_answers hi hready hl fun m sh hm hsh _ hu => ?_
  obtain ⟨hquiet, hp⟩ := H m sh hu
  have h := hrest (s.hw.written m sh)
  refine ⟨hquiet, hp _ rfl h.response ⟨?_, ?_⟩⟩
  · exact h.mem ▸ hm
  · exact h.shadow ▸ hsh

/-- What a latch row leaves that only reports a result (R32). -/
def OnlyReported (rec : RecId) (bs : List Byte) (code : Code) (c d : Chip) : Prop :=
  d.control = c.control.reported rec.offset code
  ∧ d.path = (c.path.join .status).served (.done []) c.control.ms
  ∧ (d.path.response = some (.done []) ∧ RecordStored rec bs c d) ∧ KeptBut [.control, .path, .mem, .shadow] c d

theorem latchRow_reports {rec : RecId} {bs : List Byte} {take : Chip → Chip} {code : Code} {i : Instr} {s : State}
    (hi : exec i s = act (latchRow rec bs take) s) (hready : s.hw.ready = true) (hl : bs.length = rec.size)
    (h : ∀ m sh, take (s.hw.written m sh) = (s.hw.written m sh).reportLatch rec.offset code) :
    Answers i s (OnlyReported rec bs code s.hw) := by
  refine latchRow_answers hi hready hl fun m sh hm hsh _ hu => ?_
  rw [h, reportLatch_eq]
  refine ⟨hu, rfl, rfl, ⟨rfl, hm, hsh⟩, fun q hq => ?_⟩
  cases q <;> simp at hq <;> rfl

/-! ## Peers that age all at once (R158) -/

/-- The slot's peer has reached an aging time. -/
def agedSlot (aging : Nat) (x : Option Peer) : Bool := match x with
  | some x => aging != 0 && decide (1000 * aging ≤ x.silence)
  | none => false

theorem aged_eq (c : Chip) (p : Fin 8) : c.aged p = agedSlot c.link.settings.aging c.link.peer[p] := rfl

theorem agedSlot_iff {aging : Nat} {x : Option Peer} :
    agedSlot aging x = true ↔ ∃ y, x = some y ∧ aging ≠ 0 ∧ 1000 * aging ≤ y.silence := by
  cases x <;> simp [agedSlot]

/-- Peers have aged out: of the link their slots, subscriptions and replies alone have moved. -/
structure AgedOut (c d : Chip) : Prop where
  unseen : Unseen linkParts c d
  link : d.link = { c.link with peer := d.link.peer, sub := d.link.sub, replies := d.link.replies }

theorem AgedOut.ageOut (p : Fin 8) (h : AgedOut c d) : AgedOut c (d.ageOut p) := by
  unfold Chip.ageOut
  split_ifs with ha
  · obtain ⟨x, hx, -⟩ := (aged_iff d p).mp (Bool.and_eq_true_iff.mp ha).2
    have hlink := (peerRemoved .expired h.unseen.watch hx).link
    refine ⟨h.unseen.removePeer p .expired, ?_⟩
    rw [hlink, h.link]
    rfl
  · exact h

theorem AgedOut.on (h : AgedOut c d) : d.on .link = c.on .link :=
  on_eq (congrArg Control.block (h.unseen.kept .control (by simp))) .link

theorem AgedOut.settings (h : AgedOut c d) : d.link.settings = c.link.settings := by rw [h.link]

theorem AgedOut.slots (h : AgedOut c d) (hon : c.on .link = true) (p : Fin 8) :
    (d.ageOut p).link.peer[p] = (if agedSlot c.link.settings.aging d.link.peer[p] then none else d.link.peer[p])
    ∧ ∀ q, q ≠ p → (d.ageOut p).link.peer[q] = d.link.peer[q] := by
  have hpeers := (removePeer_link p .expired h.unseen.watch).1
  unfold Chip.ageOut
  rw [h.on, hon, Bool.true_and, aged_eq, h.settings]
  cases agedSlot c.link.settings.aging d.link.peer[p] with
  | false => exact ⟨rfl, fun _ _ => rfl⟩
  | true => exact ⟨(hpeers p).trans (if_pos rfl), fun q hq => (hpeers q).trans (if_neg hq)⟩

theorem agedOut_forEach (hu : c.unwatched = true) : AgedOut c (c.forEach (List.finRange 8) Chip.ageOut) :=
  forEach_inv (AgedOut c) c ⟨.refl hu, rfl⟩ fun p _ _ h => h.ageOut p

theorem forEach_ageOut_peer (hu : c.unwatched = true) (hon : c.on .link = true) (p : Fin 8) :
    (c.forEach (List.finRange 8) Chip.ageOut).link.peer[p]
      = if agedSlot c.link.settings.aging c.link.peer[p] then none else c.link.peer[p] := by
  have h := forEach_each (f := Chip.ageOut) (c := c) (fun (p : Fin 8) d => d.link.peer[p])
    (fun _ x => if agedSlot c.link.settings.aging x then none else x) (AgedOut c) (fun p d hd => hd.ageOut p)
    (fun p d hd => (hd.slots hon p).1) (fun q p d hd hq => (hd.slots hon p).2 q hq) (List.nodup_finRange 8)
    ⟨.refl hu, rfl⟩ p
  rw [if_pos (List.mem_finRange p)] at h
  exact h

theorem forEach_ageOut_idle (h : ∀ p : Fin 8, ¬ c.aged p = true) : c.forEach (List.finRange 8) Chip.ageOut = c :=
  forEach_idle fun p _ => ageOut_young (.inr (h p))

/-! ## The latch of the link settings (R158) -/

/-- The chip with new link settings in force: peers have aged and the pool is judged (R158). -/
def resetLink (x : LinkSettings) (c : Chip) : Chip :=
  let c := (c.modLink fun l => { l with settings := x }).forEach (List.finRange 8) Chip.ageOut
  c.setFree c.link.free

theorem linkLatch_invalid (h : r.valid = false) : c.linkLatch r = c.reportLatch RecId.linkSettings.offset .badArg := by
  unfold linkLatch
  rw [h]
  rfl

section
variable (hv : r.valid = true)
include hv

theorem linkLatch_off (h : c.on .link = false) : c.linkLatch r = c.reportLatch RecId.linkSettings.offset .off := by
  unfold linkLatch
  rw [hv, h]
  rfl

variable (hon : c.on .link = true)
include hon

theorem linkLatch_tooFew (h : r.settings.driverLimit < c.link.driverCount) :
    c.linkLatch r = c.reportLatch RecId.linkSettings.offset .badArg := by
  unfold linkLatch
  rw [hv, hon]
  exact if_pos h

variable (h : c.link.driverCount ≤ r.settings.driverLimit)
include h

theorem linkLatch_same (hx : r.settings = c.link.settings) : c.linkLatch r = c.reportLatch RecId.linkSettings.offset .ok := by
  unfold linkLatch
  rw [hv, hon]
  refine (if_neg (Nat.not_lt.mpr h)).trans ?_
  rw [if_pos hx]

theorem linkLatch_replaces (hx : r.settings ≠ c.link.settings) :
    c.linkLatch r = (c.resetLink r.settings).reportLatch RecId.linkSettings.offset .ok := by
  unfold linkLatch
  rw [hv, hon]
  refine (if_neg (Nat.not_lt.mpr h)).trans ?_
  rw [if_neg hx]
  rfl

end

/-- New link settings are in force (R158): c has become d. -/
structure LinkReset (x : LinkSettings) (c d : Chip) : Prop where
  link : d.link = { c.link with
    settings := x
    peer := d.link.peer
    sub := d.link.sub
    replies := d.link.replies
    poolLow := poolLowAt x c.link.free.length c.link.poolLow
    poolFrame := poolFrameAt c.linkUp c.link.poolLow (poolLowAt x c.link.free.length c.link.poolLow) c.link.poolFrame }
  peer : ∀ p : Fin 8, d.link.peer[p] = if agedSlot x.aging c.link.peer[p] then none else c.link.peer[p]
  kept : KeptBut linkParts c d
  idle : (∀ p : Fin 8, ¬ agedSlot x.aging c.link.peer[p] = true) →
    d.link.sub = c.link.sub ∧ d.link.replies = c.link.replies ∧ KeptBut [.link, .path] c d

theorem linkReset_resetLink (x : LinkSettings) (hu : c.unwatched = true) (hon : c.on .link = true) :
    LinkReset x c (c.resetLink x) := by
  have hset : Relinked { c.link with settings := x } c (c.modLink fun l => { l with settings := x }) :=
    (Relinked.refl c).modLink fun l => { l with settings := x }
  have haged := agedOut_forEach (c := c.modLink fun l => { l with settings := x }) hu
  have hpeer := forEach_ageOut_peer (c := c.modLink fun l => { l with settings := x }) hu hon
  have hidle := forEach_ageOut_idle (c := c.modLink fun l => { l with settings := x })
  have hreset : c.resetLink x = ((c.modLink fun l => { l with settings := x }).forEach (List.finRange 8) Chip.ageOut).setFree
    ((c.modLink fun l => { l with settings := x }).forEach (List.finRange 8) Chip.ageOut).link.free := rfl
  rw [hreset]
  generalize he : (c.modLink fun l => { l with settings := x }).forEach (List.finRange 8) Chip.ageOut = e
    at haged hpeer hidle ⊢
  have hlink : e.link = { c.link with settings := x, peer := e.link.peer, sub := e.link.sub, replies := e.link.replies } :=
    haged.link
  have hup : e.linkUp = c.linkUp := (linkUp_of_kept haged.unseen.kept).trans hset.up
  have h := (Relinked.refl e).setFree e.link.free
  generalize e.setFree e.link.free = d at h
  have hd := h.link
  rw [hup] at hd
  refine ⟨?_, fun p => ?_, ?_, fun hyoung => ?_⟩
  · rw [hd, hlink]
  · rw [hd]
    exact hpeer p
  · exact ((hset.kept.mono (by simp)).trans haged.unseen.kept).trans (h.kept.mono (by simp))
  · obtain rfl := hidle fun p => hyoung p
    rw [hd]
    exact ⟨rfl, rfl, hset.kept.trans h.kept⟩

/-! ## The latch of the release word (R168) -/

theorem releaseLatch_off (h : c.on .link = false) : c.releaseLatch v = c.reportLatch RecId.releaseWord.offset .off := by
  unfold releaseLatch
  rw [h]
  rfl

/-- The descriptor that a release word names. -/
def namedDesc (v : Word) (l : Link) : Option Descriptor := if v.toNat ≤ 15 then l.desc[Fin.ofNat 16 v.toNat] else none

theorem namedDesc_none (h : ∀ k : Fin 16, v.toNat = k.val → l.desc[k] = none) : namedDesc v l = none := by
  unfold namedDesc
  split_ifs with hv
  · exact h _ (Nat.mod_eq_of_lt (Nat.lt_succ_of_le hv)).symm
  · rfl

theorem namedDesc_index {k : Fin 16} (h : v.toNat = k.val) : Fin.ofNat 16 v.toNat = k :=
  Fin.ext ((congrArg (· % 16) h).trans (Nat.mod_eq_of_lt k.isLt))

theorem namedDesc_of_index {k : Fin 16} (h : v.toNat = k.val) : namedDesc v l = l.desc[k] := by
  obtain rfl := namedDesc_index h
  exact if_pos (h ▸ Nat.le_of_lt_succ (Fin.isLt _))

theorem releaseLatch_bad (hon : c.on .link = true) (h : namedDesc v c.link = none) :
    c.releaseLatch v = (c.count .badReleases).releaseResult v .badArg := by
  unfold namedDesc at h
  unfold releaseLatch
  rw [hon]
  dsimp only
  rw [h]
  rfl

theorem releaseLatch_frees {x : Descriptor} {k : Fin 16} (hon : c.on .link = true) (hk : v.toNat = k.val)
    (h : c.link.desc[k] = some x) : c.releaseLatch v
      = (publish (.inboundDesc k) ((c.returnBlocks x.blocks).modLink fun l => { l with
        desc := l.desc.set k none, order := l.order.filter (fun j => j != k) })).releaseResult v .ok := by
  have hnamed := (namedDesc_of_index (l := c.link) hk).trans h
  obtain rfl := namedDesc_index hk
  unfold namedDesc at hnamed
  unfold releaseLatch
  rw [hon]
  dsimp only
  rw [hnamed]
  rfl

/-- The link with the last release fields set (R168). -/
def released (v : Word) (code : Code) (l : Link) : Link := { l with releaseIndex := v.setWidth 8, releaseResult := code }

end Chip

theorem Relinked.releaseResult (v : Word) (code : Code) (h : Relinked l c d) :
    Relinked (Chip.released v code l) c (d.releaseResult v code) :=
  (h.modLink (Chip.released v code)).publish .inboundStatus

namespace Chip

theorem mem_pubs_releaseResult (v : Word) (code : Code) (c : Chip) :
    RecId.inboundStatus ∈ (c.releaseResult v code).path.pubs := (mem_pubs_publish _ _ _).mpr (.inl rfl)

/-- A release word that is taken: the latch moves the link alone (R168). -/
theorem releaseRow_taken {s : State} {P : Chip → Prop} (hready : s.hw.ready = true)
    (h : ∀ e : Chip, e.link = s.hw.link → e.linkUp = s.hw.linkUp → e.on .link = s.hw.on .link →
      ∃ m, Relinked m e (e.releaseLatch v) ∧ ∀ d : Chip, d.link = m → (∀ q ∈ (e.releaseLatch v).path.pubs, q ∈ d.path.pubs) →
        (d.path.response = some (.done []) ∧ RecordStored .releaseWord (Bytes.ofWord v) s.hw d) →
        KeptBut [.link, .path, .mem, .shadow] s.hw d → P d) : Answers (.releaseWord v) s P := by
  refine latchRow_stores rfl hready (Bytes.length_ofWord v) (fun c => releaseLatch_rest v (Rest.refl c)) fun m sh hu => ?_
  obtain ⟨x, htaken, hp⟩ := h (s.hw.written m sh) rfl rfl rfl
  refine ⟨htaken.unwatched hu, fun d hd hresponse hstored => ?_⟩
  subst hd
  exact hp _ htaken.link (fun _ => id) ⟨hresponse, hstored⟩ (((keptBut_written m sh s.hw).mono (by simp)).trans
    ((htaken.kept.mono (by simp)).trans ((keptBut_timed _).mono (by simp))))

/-- Settles O57: the rows that only report by `latchRow_reports`, new settings by `linkReset_resetLink`, a release by
`releaseRow_taken`. -/
theorem linkLatchesTaken : Obligations.LinkLatchesTaken := by
  unfold Obligations.LinkLatchesTaken
  refine ⟨?_, ?_⟩
  · intro s r hready l stored only fits x aged
    have hlength := Machine.LinkRec.length_toBytes r
    refine ⟨fun hf => ?_, fun hf hoff => ?_, fun hf hon hlimit => ?_, fun hf hon hlimit => ⟨fun hx => ?_, fun hx => ?_⟩⟩
    · exact latchRow_reports rfl hready hlength fun m sh =>
        linkLatch_invalid (Bool.eq_false_iff.mpr fun hv => hf ((Machine.LinkRec.valid_iff r).mp hv))
    · exact latchRow_reports rfl hready hlength fun m sh =>
        linkLatch_off (c := s.hw.written m sh) ((Machine.LinkRec.valid_iff r).mpr hf) hoff
    · exact latchRow_reports rfl hready hlength fun m sh =>
        linkLatch_tooFew (c := s.hw.written m sh) ((Machine.LinkRec.valid_iff r).mpr hf) hon hlimit
    · exact latchRow_reports rfl hready hlength fun m sh =>
        linkLatch_same (c := s.hw.written m sh) ((Machine.LinkRec.valid_iff r).mpr hf) hon hlimit hx
    · refine latchRow_stores rfl hready hlength (fun c => linkLatch_rest r (Rest.refl c)) fun m sh hu => ?_
      rw [linkLatch_replaces (c := s.hw.written m sh) ((Machine.LinkRec.valid_iff r).mpr hf) hon hlimit hx]
      have h := linkReset_resetLink (c := s.hw.written m sh) x hu hon
      have haged (p : Fin 8) : agedSlot x.aging l.peer[p] = true ↔ aged p := agedSlot_iff
      have hwritten := keptBut_written m sh s.hw
      generalize he : (s.hw.written m sh).resetLink r.settings = e
      rw [show (s.hw.written m sh).resetLink x = e from he] at h
      have hcontrol : e.control = s.hw.control := h.kept .control (by simp)
      refine ⟨unwatched_reportLatch _ _ (unwatched_of_kept hu h.kept (by simp) (by simp)), fun d hd hresponse hstored => ?_⟩
      have hreport := (keptBut_reportLatch RecId.linkSettings.offset .ok e).trans ((keptBut_timed _).mono (by simp))
      rw [← hd] at hreport
      have hlink : d.link = e.link := hreport .link (by simp)
      refine ⟨?_, fun p hp => ?_, fun p hp => ?_, fun hyoung => ?_, ?_, ?_, ⟨hresponse, hstored⟩, ?_⟩
      · rw [hlink]
        exact h.link
      · rw [hlink]
        exact (h.peer p).trans (if_pos ((haged p).mpr hp))
      · rw [hlink]
        exact (h.peer p).trans (if_neg fun hh => hp ((haged p).mp hh))
      · obtain ⟨hsub, hreplies, hkept⟩ := h.idle fun p hp => hyoung p ((haged p).mp hp)
        rw [hlink]
        exact ⟨hsub, hreplies, (hwritten.mono (by simp)).trans ((hkept.mono (by simp)).trans (hreport.mono (by simp)))⟩
      · rw [hd, reportLatch_eq, ← hcontrol]
        rfl
      · rw [hd, reportLatch_timed_path rfl]
        exact (mem_joins _ _ _).mpr (.inl rfl)
      · exact (hwritten.mono (by simp)).trans ((h.kept.mono (by simp)).trans (hreport.mono (by simp)))
  · intro s v hready l stored noted
    refine ⟨fun hoff => ?_, fun hon hnone => ?_, fun k x hon hk hx => ?_⟩
    · obtain ⟨t, hexec, hgap, hcontrol, hpath, hstored, hkept⟩ := latchRow_reports (i := .releaseWord v) rfl hready
        (Bytes.length_ofWord v) fun m sh => releaseLatch_off (c := s.hw.written m sh) hoff
      refine ⟨t, hexec, hgap, hcontrol, ?_, hstored, hkept⟩
      rw [hpath]
      exact (mem_joins _ _ _).mpr (.inl rfl)
    · refine releaseRow_taken hready fun e hl hup he => ?_
      have hcount := count_relinked .badReleases e
      rw [releaseLatch_bad (he.trans hon) (by rw [hl]; exact namedDesc_none hnone)]
      refine ⟨_, hcount.releaseResult v .badArg, fun d hd hpubs hstored hkept => ⟨?_, hpubs _ ?_, hpubs _ ?_, hstored, hkept⟩⟩
      · rw [hd, hl]
        rfl
      · exact ((Relinked.refl _).releaseResult v .badArg).pubs _ (mem_pubs_count .badReleases e)
      · exact mem_pubs_releaseResult v .badArg _
    · refine releaseRow_taken hready fun e hl hup he => ?_
      have hfreed := ((((Relinked.refl e).returnBlocks x.blocks).modLink fun l => { l with
        desc := l.desc.set k none, order := l.order.filter (fun j => j != k) }).publish (.inboundDesc k)).releaseResult v .ok
      rw [releaseLatch_frees (he.trans hon) hk (by rw [hl]; exact hx)]
      refine ⟨_, hfreed, fun d hd hpubs hstored hkept => ⟨?_, hpubs _ ?_, hpubs _ ?_, hstored, hkept⟩⟩
      · rw [hd, hl, hup]
        rfl
      · exact ((Relinked.refl _).releaseResult v .ok).pubs _ ((mem_pubs_publish _ _ _).mpr (.inl rfl))
      · exact mem_pubs_releaseResult v .ok _

end Chip
end Sys2Proof.Machine
end

section
namespace Sys2Proof.Machine
variable {c d : Chip} {p : Path} {r : RecId}

/-! ## What leaves the part requests alone

Reports join the publication list; the requests of the part, queued or in flight, stay. -/

/-- From p to q no request has left the queue, and one in flight is as it was. -/
abbrev PartsKept (p q : Path) : Prop := Withdraws (fun _ => False) p q

namespace PartsKept

theorem refl (p : Path) : PartsKept p p := .none rfl fun _ _ => id

theorem step {q t : Path} (h : PartsKept p q) (hparts : t.parts = q.parts)
    (hport : ∀ x w, q.port = some (.part x w) → t.port = some (.part x w)) : PartsKept p t :=
  (h.trans (.none hparts hport)).congr fun _ => or_self_iff

theorem join {q : Path} (r : RecId) (h : PartsKept p q) : PartsKept p (q.join r) := h.step rfl fun _ _ => id

theorem publish (r : RecId) (h : PartsKept p d.path) : PartsKept p (Chip.publish r d).path := by
  rw [Chip.publish_path]
  exact h.join r

theorem raiseCause (k : Cause) (h : PartsKept p d.path) : PartsKept p (Chip.raiseCause k d).path :=
  h.step (by simp) fun x w hx => by simpa using hx

theorem append (k : EventKind) (a b : Byte) (h : PartsKept p d.path) : PartsKept p (Chip.append k a b d).path :=
  h.step (by simp) fun x w => Chip.append_port k a b d x w

theorem endOperation (m : Fin 4) (z : Code) (h : PartsKept p d.path) : PartsKept p (Chip.endOperation m z d).path := by
  unfold Chip.endOperation
  split_ifs
  · exact h.append _ _ _
  · exact h

theorem claimLost (m : Fin 4) (o : Owner) (z : Code) (h : PartsKept p d.path) : PartsKept p (Chip.claimLost m o z d).path := by
  unfold Chip.claimLost
  dsimp only
  split_ifs
  · exact raiseCause _ (h.append _ _ _)
  · exact h.append _ _ _

theorem releaseClaim (m : Fin 4) (z : Code) (h : PartsKept p d.path) : PartsKept p (Chip.releaseClaim m z d).path := by
  unfold Chip.releaseClaim
  dsimp only
  split_ifs
  · exact h
  · exact publish _ (claimLost _ _ _ (publish _
      (endOperation (d := d.modCh m fun ch => { ch with owner := .none, deadline := none }) m z h)))

theorem releasePeerClaims (s : Fin 8) (hu : d.unwatched = true) (h : PartsKept p d.path) :
    PartsKept p (Chip.releasePeerClaims s .peerGone d).path := by
  rw [Chip.releasePeerClaims_of_unwatched s hu]
  split_ifs
  · refine Chip.forEach_inv (fun e => PartsKept p e.path) d h fun m _ e he => ?_
    split_ifs
    · exact he.releaseClaim m _
    · exact he
  · exact h

theorem cancelSub (s : Fin 8) (h : PartsKept p d.path) : PartsKept p (Chip.cancelSub s d).path := by
  unfold Chip.cancelSub
  split
  · exact publish _ h
  · exact h

theorem removePeer (s : Fin 8) (z : Code) (hu : d.unwatched = true) (h : PartsKept p d.path) :
    PartsKept p (Chip.removePeer s z d).path := by
  cases hx : d.link.peer[s] with
  | none =>
    rw [Chip.removePeer_of_none z hx]
    exact h
  | some x =>
    have hsub := cancelSub s (h.releasePeerClaims s hu)
    rw [Chip.removePeer_of_some z hu hx, Chip.slotEmptied, Chip.peerLeft]
    generalize Chip.cancelSub s (Chip.releasePeerClaims s .peerGone d) = e at hsub
    exact publish _ (publish _ (raiseCause (d := Chip.append .peerLeave _ _ _) _ (append (d := Chip.modLink _ e) _ _ _ hsub)))

theorem slotDone (k : Fin 4) (z : Code) (h : PartsKept p d.path) : PartsKept p (Chip.slotDone k z d).path := by
  unfold Chip.slotDone
  refine raiseCause _ (publish _ ?_)
  exact h

theorem endSlots (z : Code) (h : PartsKept p d.path) : PartsKept p (Chip.endSlots z d).path := by
  have hslots := Chip.forEach_inv (f := Chip.endSlot z) (xs := List.finRange 4) (fun e => PartsKept p e.path) d h
    fun k _ e he => by
      unfold Chip.endSlot
      split_ifs
      · exact he.slotDone k z
      · exact he
  rw [Chip.endSlots_eq]
  generalize Chip.forEach (List.finRange 4) (Chip.endSlot z) d = e at hslots
  exact hslots

end PartsKept

namespace Chip

/-! ## LINK_READY rises (R142) -/

/-- The chip with its LINK_READY line at a level. -/
def withReady (b : Bool) (c : Chip) : Chip := { c with pins := { c.pins with linkReady := b } }

theorem keptBut_withReady (b : Bool) (c : Chip) : KeptBut [.pins] c (c.withReady b) := fun q hq => by
  cases q <;> simp at hq <;> rfl

theorem linkRise_still (h : c.on .link = false ∨ c.pins.linkReady = true) : c.linkRise = c.withReady true := by
  have hstays : (c.linkUp || !(c.withReady true).linkUp) = true := by
    have hup : (c.withReady true).linkUp = c.on .link := Bool.and_true _
    rw [hup, linkUp]
    rcases h with h | h
    · rw [h]
      rfl
    · rw [h, Bool.and_true, Bool.or_not_self]
  exact if_pos hstays

theorem linkRise_up (hu : c.unwatched = true) (hon : c.on .link = true) (hr : c.pins.linkReady = false) : c.linkRise
    = (publish .linkStatus ((c.withReady true).setReceiver .hunt)).modLink fun l =>
      { l with poolFrame := if l.poolLow then .hold else l.poolFrame } := by
  have hrises : ¬ (c.linkUp || !(c.withReady true).linkUp) = true := by
    have hup : (c.withReady true).linkUp = c.on .link := Bool.and_true _
    rw [hup, linkUp, hr, hon]
    decide
  have hlinked := ((Relinked.refl (c.withReady true)).setReceiver .hunt).publish .linkStatus
  have hquiet := (hlinked.modLink fun l => { l with poolFrame := if l.poolLow then .hold else l.poolFrame }).unwatched
    (c := c.withReady true) hu
  exact (if_neg hrises).trans (handChange_of_unwatched _ hquiet)

/-! ## LINK_READY falls (R159) -/

theorem linkFall_still (h : c.on .link = false ∨ c.pins.linkReady = false) : c.linkFall = c.withReady false := by
  have hdown : ¬ c.linkUp = true := by
    rw [linkUp, Bool.and_eq_true]
    exact fun hb => h.elim (fun h => Bool.false_ne_true (h.symm.trans hb.1)) fun h => Bool.false_ne_true (h.symm.trans hb.2)
  exact if_neg hdown

/-- The fall in its steps: the line and the link state, the peers, the frames, the slots (R159). -/
def fellLine (c : Chip) : Chip := publish .linkStatus (c.withReady false)
def fellPeers (c : Chip) : Chip := removeAllPeers .linkDown (fellLine c)
def fellFrames (c : Chip) : Chip := abandonFrame (giveUpFrames (fellPeers c))
def fellSlots (c : Chip) : Chip := endSlots .linkDown (fellFrames c)

theorem linkFall_eq (hu : c.unwatched = true) (hon : c.on .link = true) (hr : c.pins.linkReady = true) :
    c.linkFall = (fellSlots c).modLink fun l => { l with replies := [], alarms := [], poolFrame := .none } := by
  have hup : c.linkUp = true := by rw [linkUp, hon, hr]; rfl
  have hstate : (c.withReady false).linkStateDown = fellLine c :=
    handChange_of_unwatched _ (((Relinked.refl (c.withReady false)).publish .linkStatus).unwatched hu)
  have hlost (e : Chip) : e.linkLost .linkDown
      = (endSlots .linkDown (abandonFrame (giveUpFrames (removeAllPeers .linkDown e)))).modLink fun l =>
        { l with replies := [], alarms := [], poolFrame := .none } := rfl
  unfold linkFall
  rw [hup]
  refine (if_pos rfl).trans ?_
  rw [fellSlots, fellFrames, fellPeers, ← hstate, ← hlost]
  rfl

/-! ### The peers -/

/-- Peers have been removed one after another, from c to d (R159 step 2). -/
structure PeersRemoved (c d : Chip) : Prop where
  unseen : Unseen linkParts c d
  parts : PartsKept c.path d.path
  link : d.link = { c.link with peer := d.link.peer, sub := d.link.sub, replies := d.link.replies }
  sub : ∀ (k : Fin 4) (z : Subscription), d.link.sub[k] = some z → c.link.sub[k] = some z

theorem subWithout_some {l : Link} {p : Fin 8} {k : Fin 4} {z : Subscription} (h : (l.subWithout p)[k] = some z) :
    l.sub[k] = some z := by
  unfold Link.subWithout at h
  cases hs : l.subOf p with
  | none =>
    rw [hs] at h
    exact h
  | some j =>
    rw [hs] at h
    by_cases hjk : j = k
    · subst hjk
      simp at h
    · have hne : j.val ≠ k.val := fun hv => hjk (Fin.ext hv)
      simpa [hne] using h

theorem PeersRemoved.removePeer (p : Fin 8) (z : Code) (h : PeersRemoved c d) : PeersRemoved c (d.removePeer p z) := by
  cases hx : d.link.peer[p] with
  | none =>
    rw [removePeer_of_none z hx]
    exact h
  | some x =>
    have hlink := (peerRemoved z h.unseen.watch hx).link
    have hsub : (Chip.removePeer p z d).link.sub = d.link.subWithout p := congrArg Link.sub hlink
    refine ⟨h.unseen.removePeer p z, h.parts.removePeer p z h.unseen.watch, ?_, fun k y hy => ?_⟩
    · rw [hlink, h.link]
      rfl
    · rw [hsub] at hy
      exact h.sub k y (subWithout_some hy)

theorem peersRemoved (z : Code) (hu : c.unwatched = true) : PeersRemoved c (removeAllPeers z c) :=
  forEach_inv (PeersRemoved c) c ⟨.refl hu, .refl _, rfl, fun _ _ => id⟩ fun p _ _ h => h.removePeer p z

/-- With one subscription for each slot, those of joined peers end with them (R155 step 2). -/
theorem removeAllPeers_sub (z : Code) (hu : c.unwatched = true)
    (hone : ∀ (k j : Fin 4) (x y : Subscription), c.link.sub[k] = some x → c.link.sub[j] = some y → x.slot = y.slot → k = j)
    {k : Fin 4} {x : Subscription} (hk : c.link.sub[k] = some x) (hx : c.link.peer[x.slot] ≠ none) :
    (removeAllPeers z c).link.sub[k] = none := by
  have hnone := removeAllPeers_none z c x.slot
  unfold removeAllPeers at hnone ⊢
  refine (forEach_inv (fun d => PeersRemoved c d ∧ (d.link.peer[x.slot] = none → d.link.sub[k] = none)) c
    ⟨⟨.refl hu, .refl _, rfl, fun _ _ => id⟩, fun hn => absurd hn hx⟩ fun p _ d hd => ?_).2 hnone
  obtain ⟨hd, hended⟩ := hd
  refine ⟨hd.removePeer p z, fun hgone => ?_⟩
  cases hy : d.link.peer[p] with
  | none =>
    rw [removePeer_of_none z hy] at hgone ⊢
    exact hended hgone
  | some y =>
    have hsub : (Chip.removePeer p z d).link.sub = d.link.subWithout p :=
      congrArg Link.sub (peerRemoved z hd.unseen.watch hy).link
    rw [hsub]
    cases hs : d.link.sub[k] with
    | none =>
      refine (Link.subWithout_other fun w hw => ?_).trans hs
      rw [hs] at hw
      cases hw
    | some w =>
      have hwx : w = x := Option.some.inj ((hd.sub k w hs).symm.trans hk)
      by_cases hp : x.slot = p
      · refine Link.subWithout_sole hs (hwx ▸ hp) fun j u hu hup => ?_
        exact hone j k u x (hd.sub j u hu) hk (hup.trans hp.symm)
      · rw [(removePeer_link p z hd.unseen.watch).1, if_neg hp] at hgone
        exact absurd ((hended hgone).symm.trans hs) nofun

/-- No peer owns a motor. -/
def PeersIdle (c : Chip) : Prop := ∀ (m : Fin 4) (p : Fin 8), c.motor.ch[m].owner ≠ .link p

theorem PeersIdle.removePeer (p : Fin 8) (z : Code) (hu : d.unwatched = true) (h : PeersIdle d) :
    PeersIdle (d.removePeer p z) := fun m q => by
  rw [removePeer_channel p z hu, if_neg fun hh => h m p hh.2.2]
  exact h m q

/-- Nothing watches, no peer owns a motor, and slot p is as it was in c. -/
structure SlotIdle (c : Chip) (p : Fin 8) (d : Chip) : Prop where
  watch : d.unwatched = true
  idle : PeersIdle d
  peer : d.link.peer[p] = c.link.peer[p]

theorem SlotIdle.removePeer {p q : Fin 8} (z : Code) (hq : q ≠ p) (h : SlotIdle c q d) : SlotIdle c q (d.removePeer p z) :=
  ⟨((Unseen.refl h.watch : Unseen linkParts d d).removePeer p z).watch, h.idle.removePeer p z h.watch,
    ((removePeer_link p z h.watch).1 q).trans ((if_neg hq).trans h.peer)⟩

theorem RingAlike.removePeer_idle {a : Chip} {p : Fin 8} (z : Code) (hs : SlotIdle c p d) (hp : c.link.peer[p].isSome = true)
    (h : RingAlike a d) : RingAlike (a.append .peerLeave (BitVec.ofNat 8 p.val) z.byte) (d.removePeer p z) := by
  obtain ⟨x, hx⟩ := Option.isSome_iff_exists.mp (hs.peer ▸ hp)
  have hgone := peerRemoved z hs.watch hx
  have happ := h.append .peerLeave (BitVec.ofNat 8 p.val) z.byte
  refine ⟨happ.ring.trans (hgone.ring_of_idle fun m => hs.idle m p).symm, happ.ms.trans ?_⟩
  rw [hgone.unseen.kept .control (by simp)]
  simp

/-- What peers that own no motor tell as the link goes down: their departures, in slot order (R155). -/
theorem RingAlike.removeAllPeers_idle {a : Chip} (z : Code) (hu : c.unwatched = true) (hm : PeersIdle c) (h : RingAlike a c) :
    RingAlike (((List.finRange 8).filter (fun p => c.link.peer[p].isSome)).foldl (fun x p =>
      x.append .peerLeave (BitVec.ofNat 8 p.val) z.byte) a) (c.removeAllPeers z) := by
  refine forEach_simulates (List.nodup_finRange 8) RingAlike (SlotIdle c) (fun p => c.link.peer[p].isSome)
    (fun x p => x.append .peerLeave (BitVec.ofNat 8 p.val) z.byte) (f := fun p => Chip.removePeer p z)
    (fun p q e hq _ he => he.removePeer z hq) (fun p a e hae he hp => hae.removePeer_idle z he hp)
    (fun p a e hae he hp => ?_) h fun p _ => ⟨hu, hm, rfl⟩
  have hnone : e.link.peer[p] = none := he.peer.trans (by simpa using hp)
  rw [removePeer_of_none z hnone]
  exact hae

end Chip
end Sys2Proof.Machine
end

section
namespace Sys2Proof.Machine
variable {l : Link} {c d e : Chip} {x : ChunkBuf} {f : Option RxFrame} {side : FrameSide}

/-! ## The frames given up as the link goes down (R159 step 3) -/

/-- The frame that the receiver is in. -/
def Receiver.frame : Receiver → Option RxFrame
  | .header f | .payload f | .crc f => some f
  | .hunt | .skip _ => none

theorem Receiver.frame_isSome (r : Receiver) : r.frame.isSome = true ↔ r ≠ .hunt ∧ ∀ n, r ≠ .skip n := by
  cases r <;> simp [frame]

/-- The blocks of a frame, where there is one. -/
def blocksOf : Option RxFrame → List (Fin 48)
  | some f => f.blocks
  | none => []

namespace Chip

theorem freedBuf_finishing (x : ChunkBuf) : freedBuf .finishing x = if x.store = some .finishing then ⟨[], none⟩ else x := by
  unfold freedBuf
  rcases hx : x.store with _ | _ | _ <;> rfl

theorem freedBuf_finishing_store : (freedBuf .finishing x).store = some .receiving ↔ x.store = some .receiving := by
  rw [freedBuf_finishing]
  split_ifs with hx
  · simp [hx]
  · exact Iff.rfl

/-- A frame is given up, where there is one. -/
def dropAny (side : FrameSide) (f : Option RxFrame) (c : Chip) : Chip := match f with
  | some f => c.dropFrame side f
  | none => c

/-- The frame f, where there is one, has been given up (R148). -/
structure Dropped (side : FrameSide) (f : Option RxFrame) (c d : Chip) : Prop where
  kept : KeptBut [.link, .path] c d
  pubs : ∀ r ∈ c.path.pubs, r ∈ d.path.pubs
  link : d.link = { c.link with
    buf := d.link.buf, free := c.link.free ++ blocksOf f, poolLow := d.link.poolLow, poolFrame := d.link.poolFrame }
  buf : ∀ b : Fin 2, d.link.buf[b] = if f.isSome then freedBuf side c.link.buf[b] else c.link.buf[b]
  withdraws : Withdraws (fun q => f.isSome = true ∧ ∃ b, StoreOf side c.link b q) c.path d.path

theorem dropped_dropAny (side : FrameSide) (f : Option RxFrame) (c : Chip) : Dropped side f c (c.dropAny side f) := by
  cases f with
  | none =>
    refine ⟨.refl _ c, fun _ => id, ?_, fun _ => rfl, (PartsKept.refl c.path).congr fun q => ?_⟩
    · show c.link = { c.link with free := c.link.free ++ [] }
      rw [List.append_nil]
    · simp
  | some f =>
    have hdrop : c.dropAny side (some f) = c.dropFrame side f := rfl
    have h := dropFrame_relinked side f c
    rw [hdrop]
    refine ⟨h.kept, h.pubs, ?_, fun b => ?_, (withdraws_dropFrame side f c).congr fun q => ?_⟩
    · rw [h.link]
      rfl
    · rw [h.link]
      simp [Link.returned]
    · simp

/-- The chip once its finishing frame, where there is one, has been given up. -/
def finishingDropped (c : Chip) : Chip := (c.modLink fun l => { l with finishing := none }).dropAny .finishing c.link.finishing

theorem finishingDropped_some {f : RxFrame} (h : c.link.finishing = some f) :
    c.finishingDropped = (c.modLink fun l => { l with finishing := none }).dropFrame .finishing f := by
  unfold finishingDropped
  rw [h]
  rfl

theorem finishingDropped_none (h : c.link.finishing = none) : c.finishingDropped = c := by
  have hsame : ({ c.link with finishing := none } : Link) = c.link := by rw [← h]
  have hset : (c.modLink fun l => { l with finishing := none }) = c := congrArg (fun x : Link => { c with link := x }) hsame
  unfold finishingDropped
  rw [h, hset]
  rfl

theorem giveUpFrames_eq (c : Chip) : c.giveUpFrames
    = (c.finishingDropped.dropAny .receiving c.finishingDropped.link.receiver.frame).setReceiver .hunt := by
  unfold giveUpFrames
  cases hf : c.link.finishing with
  | none =>
    rw [finishingDropped_none hf]
    dsimp only
    cases c.link.receiver <;> rfl
  | some f =>
    rw [finishingDropped_some hf]
    dsimp only
    generalize (c.modLink fun l => { l with finishing := none }).dropFrame .finishing f = e
    cases e.link.receiver <;> rfl

/-- The frames under reception have been given up (R159 step 3). -/
structure FramesDropped (c d : Chip) : Prop where
  kept : KeptBut [.link, .path] c d
  link : d.link = { c.link with
    finishing := none, receiver := .hunt, buf := d.link.buf
    free := c.link.free ++ blocksOf c.link.finishing ++ blocksOf c.link.receiver.frame
    poolLow := d.link.poolLow, poolFrame := d.link.poolFrame }
  buf : ∀ b : Fin 2, d.link.buf[b] = if (if c.link.buf[b].store = some .finishing then c.link.finishing.isSome
    else c.link.receiver.frame.isSome) then ⟨[], none⟩ else c.link.buf[b]
  withdraws : Withdraws (fun q => (c.link.finishing.isSome = true ∧ ∃ b, StoreOf .finishing c.link b q)
    ∨ (c.link.receiver.frame.isSome = true ∧ ∃ b, StoreOf .receiving c.link b q)) c.path d.path

theorem framesDropped (c : Chip) : FramesDropped c c.giveUpFrames := by
  have hset := (Relinked.refl c).modLink fun l => { l with finishing := none }
  have hfirst := dropped_dropAny .finishing c.link.finishing (c.modLink fun l => { l with finishing := none })
  rw [giveUpFrames_eq, finishingDropped]
  generalize (c.modLink fun l => { l with finishing := none }).dropAny .finishing c.link.finishing = e at hfirst
  have hreceiver : e.link.receiver = c.link.receiver := by
    rw [hfirst.link]
    rfl
  rw [hreceiver]
  have hsecond := dropped_dropAny .receiving c.link.receiver.frame e
  generalize e.dropAny .receiving c.link.receiver.frame = d at hsecond
  refine ⟨(hset.kept.trans hfirst.kept).trans (hsecond.kept.trans ((keptBut_link _ d).mono (by simp))), ?_, fun b => ?_, ?_⟩
  · show { d.link with receiver := .hunt } = _
    rw [hsecond.link, hfirst.link]
    rfl
  · show d.link.buf[b] = _
    rw [hsecond.buf, hfirst.buf]
    show (if _ then freedBuf .receiving (if _ then freedBuf .finishing c.link.buf[b] else c.link.buf[b])
      else if _ then freedBuf .finishing c.link.buf[b] else c.link.buf[b]) = _
    rw [freedBuf_finishing, freedBuf_receiving]
    by_cases hstore : c.link.buf[b].store = some .finishing
    · simp only [hstore, if_true]
      split_ifs <;> simp_all
    · simp only [hstore, if_false]
      split_ifs <;> simp_all
  · have hstores : ∀ q, (∃ b, StoreOf .receiving e.link b q) ↔ ∃ b, StoreOf .receiving c.link b q := fun q => by
      refine exists_congr fun b => and_congr_right fun _ => ?_
      rw [hfirst.buf]
      split_ifs
      · exact freedBuf_finishing_store
      · exact Iff.rfl
    refine (hfirst.withdraws.trans hsecond.withdraws).congr fun q => ?_
    rw [hstores]
    exact Iff.rfl

end Chip
end Sys2Proof.Machine
end

section
namespace Sys2Proof.Machine.Chip
variable {c d e : Chip} {z : Code}

/-! ## The slots that end as the link goes down (R159 step 5) -/

/-- An outbound slot once it has ended, if it had something to send. -/
def endedOut (z : Code) (now : Word) (o : OutSlot) : OutSlot :=
  if o.state = .queued ∨ o.state = .sending then { o with state := .done, doneResult := z, doneTime := now } else o

theorem slotDone_link_eq (k : Fin 4) (z : Code) (c : Chip) : (slotDone k z c).link
    = { c.link with out := (modOut k (fun o => { o with state := .done, doneResult := z, doneTime := c.control.ms }) c).link.out } := by
  simp [slotDone, modOut]

theorem slotDone_same (k : Fin 4) (z : Code) (c : Chip) : (slotDone k z c).link.out[k]
    = { c.link.out[k] with state := .done, doneResult := z, doneTime := c.control.ms } := by
  have hsame := modOut_same k (fun o => { o with state := .done, doneResult := z, doneTime := c.control.ms }) c
  exact (congrArg (fun l : Link => l.out[k]) (slotDone_link_eq k z c)).trans hsame

theorem endSlot_out (k : Fin 4) (z : Code) (c : Chip) : (endSlot z k c).link.out[k] = endedOut z c.control.ms c.link.out[k] := by
  by_cases hbusy : c.link.out[k].state = .queued ∨ c.link.out[k].state = .sending
  · have hend : endSlot z k c = slotDone k z c := if_pos hbusy
    rw [hend]
    exact (slotDone_same k z c).trans (if_pos hbusy).symm
  · have hend : endSlot z k c = c := if_neg hbusy
    rw [hend]
    exact (if_neg hbusy).symm

theorem endSlot_other (k j : Fin 4) (z : Code) (c : Chip) (h : j ≠ k) : (endSlot z k c).link.out[j] = c.link.out[j] := by
  unfold endSlot
  split_ifs
  · exact (slotDone_link k z c).2 j h
  · rfl

/-- Of the link, outbound slots alone have moved from c to d, and no time has passed. -/
def OutsMoved (c d : Chip) : Prop := d.link = { c.link with out := d.link.out } ∧ d.control.ms = c.control.ms

theorem OutsMoved.endSlot (k : Fin 4) (h : OutsMoved c d) : OutsMoved c (d.endSlot z k) := by
  obtain ⟨hlink, hms⟩ := h
  unfold Chip.endSlot
  split_ifs
  · refine ⟨?_, ?_⟩
    · rw [slotDone_link_eq, hlink]
    · simpa [slotDone] using hms
  · exact ⟨hlink, hms⟩

theorem endSlots_link (z : Code) (c : Chip) :
    (endSlots z c).link = { c.link with out := c.link.out.map (endedOut z c.control.ms), outOrder := [] } := by
  obtain ⟨hlink, -⟩ := forEach_inv (xs := List.finRange 4) (f := endSlot z) (OutsMoved c) c ⟨rfl, rfl⟩
    fun k _ d hd => hd.endSlot k
  have heach := forEach_each (f := endSlot z) (c := c) (fun (k : Fin 4) d => d.link.out[k]) (fun _ => endedOut z c.control.ms)
    (OutsMoved c) (fun k d hd => hd.endSlot k) (fun k d hd => by rw [endSlot_out, hd.2])
    (fun j k d _ hj => endSlot_other k j z d hj) (List.nodup_finRange 4) ⟨rfl, rfl⟩
  have hout : (forEach (List.finRange 4) (endSlot z) c).link.out = c.link.out.map (endedOut z c.control.ms) := by
    apply Vector.ext
    intro i hi
    have hk := heach ⟨i, hi⟩
    rw [if_pos (List.mem_finRange _)] at hk
    rw [Vector.getElem_map]
    exact hk
  rw [endSlots_eq]
  generalize forEach (List.finRange 4) (endSlot z) c = d at hlink hout
  show { d.link with outOrder := [] } = _
  rw [hlink, hout]

/-! ## LINK_READY moves the link (R142, R159) -/

/-- LINK_READY has fallen, from c to d; e is the chip once the peers have been removed (R159). -/
structure Fallen (c e d : Chip) : Prop where
  pins : d.pins = { c.pins with linkReady := false }
  link : d.link = { c.link with
    peer := Vector.replicate 8 none
    sub := d.link.sub
    receiver := .hunt
    finishing := none
    buf := d.link.buf
    free := c.link.free ++ blocksOf c.link.finishing ++ blocksOf c.link.receiver.frame
    poolLow := d.link.poolLow
    poolFrame := .none
    replies := []
    alarms := []
    outOrder := []
    tx := none
    out := c.link.out.map (endedOut .linkDown c.control.ms) }
  sub : d.link.sub = e.link.sub
  buf : ∀ b : Fin 2, d.link.buf[b] = if (if c.link.buf[b].store = some .finishing then c.link.finishing.isSome
    else c.link.receiver.frame.isSome) then ⟨[], none⟩ else c.link.buf[b]
  requests : Withdraws (fun q => (c.link.finishing.isSome = true ∧ ∃ b, StoreOf .finishing c.link b q)
    ∨ (c.link.receiver.frame.isSome = true ∧ ∃ b, StoreOf .receiving c.link b q) ∨ q.isBody = true) c.path d.path
  ring : d.ring = e.ring
  motor : d.motor = e.motor
  raises : ∀ k : Fin 10, e.attention.pending[k] = true → d.attention.pending[k] = true
  slots : ∀ k : Fin 4, SlotBusy k c → d.attention.pending[Cause.send.idx] = true
  status : .linkStatus ∈ d.path.pubs
  kept : KeptBut [.pins, .motor, .ring, .attention, .path, .link] c d

/-- The line and the link state of a fall (R159 step 1). -/
structure LineFell (c d : Chip) : Prop where
  pins : d.pins = { c.pins with linkReady := false }
  link : d.link = c.link
  parts : PartsKept c.path d.path
  status : .linkStatus ∈ d.path.pubs
  kept : KeptBut [.pins, .path] c d

theorem lineFell (c : Chip) : LineFell c (fellLine c) where
  pins := by
    unfold fellLine
    rw [keptBut_publish .linkStatus (c.withReady false) .pins (by simp)]
    rfl
  link := ((Relinked.refl (c.withReady false)).publish .linkStatus).link
  parts := PartsKept.publish (d := c.withReady false) _ (.refl c.path)
  status := (mem_pubs_publish _ _ _).mpr (.inl rfl)
  kept := ((keptBut_withReady false c).mono (by simp)).trans ((keptBut_publish .linkStatus _).mono (by simp))

/-- The frames of a fall: those under reception and the one being sent (R159 steps 3 and 4). -/
structure FramesFell (c d : Chip) : Prop where
  link : d.link = { c.link with
    finishing := none, receiver := .hunt, buf := d.link.buf, tx := none
    free := c.link.free ++ blocksOf c.link.finishing ++ blocksOf c.link.receiver.frame
    poolLow := d.link.poolLow, poolFrame := d.link.poolFrame }
  buf : ∀ b : Fin 2, d.link.buf[b] = if (if c.link.buf[b].store = some .finishing then c.link.finishing.isSome
    else c.link.receiver.frame.isSome) then ⟨[], none⟩ else c.link.buf[b]
  requests : Withdraws (fun q => ((c.link.finishing.isSome = true ∧ ∃ b, StoreOf .finishing c.link b q)
    ∨ (c.link.receiver.frame.isSome = true ∧ ∃ b, StoreOf .receiving c.link b q)) ∨ q.isBody = true) c.path d.path
  unseen : Unseen [.link, .path] c d

theorem framesFell (hu : c.unwatched = true) : FramesFell c (abandonFrame (giveUpFrames c)) := by
  have hdropped := framesDropped c
  have hunseen := (Unseen.refl hu : Unseen [.link, .path] c c).giveUpFrames.abandonFrame
  generalize giveUpFrames c = e at hdropped hunseen
  have hwithdraws := hdropped.withdraws.trans (withdraws_withdraw PartReq.isBody e)
  have hlink : (abandonFrame e).link = { e.link with tx := none } := by simp [abandonFrame]
  refine ⟨?_, fun b => ?_, hwithdraws, hunseen⟩
  · rw [hlink, hdropped.link]
  · rw [hlink]
    exact hdropped.buf b

theorem fallen_linkFall (hu : c.unwatched = true) (hon : c.on .link = true) (hr : c.pins.linkReady = true) :
    Fallen c (fellPeers c) c.linkFall := by
  have hline := lineFell c
  have hpeers := peersRemoved (c := fellLine c) .linkDown (unwatched_of_kept hu hline.kept (by simp) (by simp))
  have hnone := removeAllPeers_none .linkDown (fellLine c)
  have hframes := framesFell hpeers.unseen.watch
  rw [linkFall_eq hu hon hr, fellSlots, fellFrames, fellPeers]
  generalize fellLine c = a at hline hpeers hnone hframes
  generalize removeAllPeers .linkDown a = e at hpeers hnone hframes
  generalize abandonFrame (giveUpFrames e) = b at hframes
  have hslots := (Unseen.refl hframes.unseen.watch : Unseen [.link, .attention, .path] b b).endSlots .linkDown
  have hparts := (PartsKept.refl b.path).endSlots .linkDown
  have hlink := endSlots_link .linkDown b
  have hsend {k : Fin 4} := endSlots_raises (k := k) (e := b) .linkDown
  generalize endSlots .linkDown b = d at hslots hparts hlink hsend
  have hpeer : e.link.peer = Vector.replicate 8 none := Vector.ext fun i hi => by
    rw [Vector.getElem_replicate]
    exact hnone ⟨i, hi⟩
  have hcontrol : b.control = c.control :=
    (hframes.unseen.kept .control (by simp)).trans ((hpeers.unseen.kept .control (by simp)).trans (hline.kept .control (by simp)))
  have hfinal : (d.modLink fun l => { l with replies := [], alarms := [], poolFrame := .none }).link = { c.link with
      peer := Vector.replicate 8 none, sub := e.link.sub, receiver := .hunt, finishing := none, buf := b.link.buf
      free := c.link.free ++ blocksOf c.link.finishing ++ blocksOf c.link.receiver.frame
      poolLow := b.link.poolLow, poolFrame := .none, replies := [], alarms := [], outOrder := [], tx := none
      out := c.link.out.map (endedOut .linkDown c.control.ms) } := by
    show { d.link with replies := [], alarms := [], poolFrame := .none } = _
    rw [hlink, hframes.link, hpeers.link, hline.link, hpeer, hcontrol]
  have hout : b.link.out = c.link.out := by
    rw [hframes.link, hpeers.link, hline.link]
  have hbuf := hframes.buf
  have hrequests := hframes.requests
  rw [hpeers.link, hline.link] at hbuf hrequests
  have hfell := (hpeers.unseen.kept .pins (by simp)).trans hline.pins
  refine ⟨?_, ?_, ?_, fun k => ?_, ?_, ?_, ?_, fun k hk => ?_, fun k hk => ?_, ?_, ?_⟩
  · exact (hslots.kept .pins (by simp)).trans ((hframes.unseen.kept .pins (by simp)).trans hfell)
  · rw [hfinal]
  · rw [hfinal]
  · rw [hfinal]
    exact hbuf k
  · refine ((hline.parts.trans hpeers.parts).trans (hrequests.trans hparts)).congr fun q => ?_
    simp only [false_or, or_false, or_assoc]
    rfl
  · exact (hslots.kept .ring (by simp)).trans (hframes.unseen.kept .ring (by simp))
  · exact (hslots.kept .motor (by simp)).trans (hframes.unseen.kept .motor (by simp))
  · refine hslots.raises.kept k ?_
    rw [hframes.unseen.kept .attention (by simp)]
    exact hk
  · refine hsend (k := k) ?_
    unfold SlotBusy
    rw [hout]
    exact hk
  · exact hslots.pubs _ (hframes.unseen.pubs _ (hpeers.unseen.pubs _ hline.status))
  · exact ((hline.kept.mono (by simp)).trans (hpeers.unseen.kept.mono (by simp))).trans
      ((hframes.unseen.kept.mono (by simp)).trans ((hslots.kept.mono (by simp)).trans ((keptBut_link _ d).mono (by simp))))

/-- A fall gives up the content of a chunk buffer: one of the finishing frame where there is one, any other while a frame
is being received. -/
def GivesUp (c : Chip) (b : Fin 2) : Prop :=
  if c.link.buf[b].store = some .finishing then c.link.finishing ≠ none
  else c.link.receiver ≠ .hunt ∧ ∀ n, c.link.receiver ≠ .skip n

theorem givesUp_iff (c : Chip) (b : Fin 2) : (if c.link.buf[b].store = some .finishing then c.link.finishing.isSome
    else c.link.receiver.frame.isSome) = true ↔ GivesUp c b := by
  unfold GivesUp
  split_ifs
  · exact Option.isSome_iff_ne_none
  · exact Receiver.frame_isSome _

/-- The requests that a fall withdraws: the chunk stores of buffers given up. -/
theorem givenUp_stores (c : Chip) (q : PartReq) : (c.link.finishing.isSome = true ∧ ∃ b, StoreOf .finishing c.link b q)
    ∨ (c.link.receiver.frame.isSome = true ∧ ∃ b, StoreOf .receiving c.link b q)
    ↔ ∃ b : Fin 2, q.isChunk b = true ∧ GivesUp c b ∧ c.link.buf[b].store ≠ none := by
  constructor
  · rintro (⟨hsome, b, hchunk, hstore⟩ | ⟨hsome, b, hchunk, hstore⟩)
    · refine ⟨b, hchunk, (givesUp_iff c b).mp ?_, by rw [hstore]; exact nofun⟩
      rw [if_pos hstore]
      exact hsome
    · refine ⟨b, hchunk, (givesUp_iff c b).mp ?_, by rw [hstore]; exact nofun⟩
      rw [if_neg (by rw [hstore]; exact nofun)]
      exact hsome
  · rintro ⟨b, hchunk, hgiven, hstore⟩
    have hsome := (givesUp_iff c b).mpr hgiven
    by_cases hfinishing : c.link.buf[b].store = some .finishing
    · rw [if_pos hfinishing] at hsome
      exact .inl ⟨hsome, b, hchunk, hfinishing⟩
    · rw [if_neg hfinishing] at hsome
      refine .inr ⟨hsome, b, hchunk, ?_⟩
      rcases hs : c.link.buf[b].store with _ | _ | _
      · exact absurd hs hstore
      · rfl
      · exact absurd hs hfinishing

/-- A motor once the peers have been removed: free where a joined peer had it. -/
theorem fellPeers_channel (hu : c.unwatched = true) (m : Fin 4) : (fellPeers c).motor.ch[m]
    = if c.on .motor = true ∧ ∃ p, c.link.peer[p] ≠ none ∧ c.motor.ch[m].owner = .link p
      then freed c.control.ms c.motor.ch[m] else c.motor.ch[m] := by
  have hline := lineFell c
  have hcontrol : (fellLine c).control = c.control := hline.kept .control (by simp)
  have hmotor : (fellLine c).motor = c.motor := hline.kept .motor (by simp)
  have hon : (fellLine c).on .motor = c.on .motor := on_eq (by rw [hcontrol]) .motor
  unfold fellPeers removeAllPeers
  rw [forEach_removePeer_channel m _ .linkDown (unwatched_of_kept hu hline.kept (by simp) (by simp)), hon, hcontrol, hmotor,
    hline.link]
  simp

theorem unwatched_fellLine (hu : c.unwatched = true) : (fellLine c).unwatched = true :=
  unwatched_of_kept hu (lineFell c).kept (by simp) (by simp)

/-- With one subscription for each slot, those of joined peers end. -/
theorem fellPeers_sub (hu : c.unwatched = true)
    (hone : ∀ (k j : Fin 4) (x y : Subscription), c.link.sub[k] = some x → c.link.sub[j] = some y → x.slot = y.slot → k = j)
    {k : Fin 4} {x : Subscription} (hk : c.link.sub[k] = some x) (hx : c.link.peer[x.slot] ≠ none) :
    (fellPeers c).link.sub[k] = none := by
  rw [← (lineFell c).link] at hone hk hx
  unfold fellPeers
  exact removeAllPeers_sub .linkDown (unwatched_fellLine hu) hone hk hx

theorem fellPeers_noSub (hu : c.unwatched = true) {k : Fin 4} (hk : c.link.sub[k] = none) :
    (fellPeers c).link.sub[k] = none := by
  unfold fellPeers
  refine Option.eq_none_iff_forall_ne_some.mpr fun z hz => ?_
  have hsome := (peersRemoved .linkDown (unwatched_fellLine hu)).sub k z hz
  rw [(lineFell c).link, hk] at hsome
  cases hsome

theorem fellPeers_raises (hu : c.unwatched = true) {p : Fin 8} (hp : c.link.peer[p] ≠ none) :
    (fellPeers c).attention.pending[Cause.peer.idx] = true := by
  rw [← (lineFell c).link] at hp
  unfold fellPeers
  exact removeAllPeers_raises .linkDown (unwatched_fellLine hu) hp

theorem fellPeers_ring (hu : c.unwatched = true) (hm : PeersIdle c) : (fellPeers c).ring
    = (((List.finRange 8).filter (fun p => c.link.peer[p].isSome)).foldl (fun x p =>
      x.append .peerLeave (BitVec.ofNat 8 p.val) Code.linkDown.byte) c).ring := by
  have hline := lineFell c
  have hmotor : (fellLine c).motor = c.motor := hline.kept .motor (by simp)
  have halike : RingAlike c (fellLine c) := RingAlike.of_kept ⟨rfl, rfl⟩ hline.kept (by simp) (by simp)
  have hring := (halike.removeAllPeers_idle .linkDown (unwatched_fellLine hu) fun m p => by rw [hmotor]; exact hm m p).ring
  rw [hline.link] at hring
  unfold fellPeers
  exact hring.symm

/-- Settles O49: the rise by `linkRise_up`, the fall by `fallen_linkFall` and what the removal of its peers leaves. -/
theorem linkReadyMovesTheLink : Obligations.LinkReadyMovesTheLink := by
  unfold Obligations.LinkReadyMovesTheLink
  intro s _ hu
  refine ⟨fun h => act_answers rfl ?_, fun hon hlow => act_answers rfl ?_, fun h => act_answers rfl ?_, ?_⟩
  · rw [linkRise_still h]
    exact ⟨rfl, keptBut_withReady true s.hw⟩
  · rw [linkRise_up hu hon hlow]
    have hlinked := (((Relinked.refl (s.hw.withReady true)).setReceiver .hunt).publish .linkStatus).modLink
      fun l => { l with poolFrame := if l.poolLow then .hold else l.poolFrame }
    refine ⟨hlinked.kept .pins (by simp), hlinked.link, publish_path _ _,
      ((keptBut_withReady true s.hw).mono (by simp)).trans (hlinked.kept.mono (by simp))⟩
  · rw [linkFall_still h]
    exact ⟨rfl, keptBut_withReady false s.hw⟩
  · intro hon hhigh blocks receiving given gone
    have hfall := fallen_linkFall hu hon hhigh
    have hblocks : blocksOf s.hw.link.receiver.frame = blocks s.hw.link.receiver := by
      cases s.hw.link.receiver <;> rfl
    have hgone (q : PartReq) : _ ↔ gone q := (or_assoc.symm.trans (or_congr_left (givenUp_stores s.hw q))).trans or_comm
    have hrequests := hfall.requests.congr hgone
    refine act_answers rfl ?_
    generalize s.hw.linkFall = d at hfall hrequests
    refine ⟨hfall.pins, ?_, fun b => ⟨fun hb => ?_, fun hb => ?_⟩, hrequests.parts,
      fun q w hq => ⟨hrequests.marked q w hq, hrequests.flies q w hq⟩, fun hone k x hk hx => ?_, fun k hk => ?_,
      fun hm m p ho hp => ?_, fun m ho => ?_, fun ⟨p, hp⟩ => ?_, fun hm => ?_, fun ⟨k, hk⟩ => hfall.slots k hk,
      hfall.status, hfall.kept⟩
    · rw [← hblocks]
      exact hfall.link
    · rw [hfall.buf, if_pos ((givesUp_iff s.hw b).mpr hb)]
    · rw [hfall.buf, if_neg fun hg => hb ((givesUp_iff s.hw b).mp hg)]
    · rw [hfall.sub]
      exact fellPeers_sub hu hone hk hx
    · rw [hfall.sub]
      exact fellPeers_noSub hu hk
    · obtain ⟨howner, hdeadline, hmode, -⟩ := freed_spec s.hw.control.ms s.hw.motor.ch[m]
      rw [hfall.motor, fellPeers_channel hu, if_pos ⟨hm, p, hp, ho⟩]
      exact ⟨howner, hdeadline, hmode⟩
    · rw [hfall.motor, fellPeers_channel hu, if_neg fun hh => hh.2.elim fun p hp => ho p hp.2]
    · exact hfall.raises _ (fellPeers_raises hu hp)
    · rw [hfall.ring]
      exact fellPeers_ring hu hm

end Sys2Proof.Machine.Chip
end
